-- ==== Sys2Proof/Word.lean ====
section
/-! DEFINITION. The word types of CCORE (00_scope.md R8, R9; 10_state.md R22).

Every quantity of the spec is an unsigned number (R8). A byte of a space and a 32-bit host register are bit vectors,
because software sees them as words; cursors, lengths and counts are natural numbers (92_eei_decisions.md D2 allows it:
no rule relies on a register's width for truncation). -/

namespace Sys2Proof

/-- A byte, 8 bits (R8). -/
abbrev Byte := BitVec 8

/-- A 32-bit value: a host register (R22), a container header (R92), a code word (R100). -/
abbrev Word := BitVec 32

/-- A member of an archive or of a file list: its name and its data (30_encoding.md R111, 46_xpck.md R246). -/
abbrev Member := List Byte × List Byte

end Sys2Proof
end

