-- ==== Sys2Proof/Config.lean ====
section
/-! DEFINITION. The parameters of CCORE (00_scope.md R6, R7) and the values the spec leaves open.

The parameters are plain data, one record that State carries and no step writes (log 5), so that a statement about
every state is a statement about every setting of them. What cannot be plain data, or must stay unknown, is an opaque
constant without a body: the engine `Config.inflate` (41_dispatcher.md R158) and the free values (logs 2, 7, 8, 27,
35). -/

namespace Sys2Proof

/-- `HUF_WORD_ORDER` (R7, R100). -/
inductive WordOrder where
  | big
  | little
deriving DecidableEq, Repr

/-- `STORE_SIZE_CHECK` (R7, R151, R156): `unchecked` is the spec's setting `none`. -/
inductive SizeCheck where
  | strict
  | unchecked
deriving DecidableEq, Repr

/-- `OVERRUN_POLICY` (R7, R173, R222, R223): `raises` is the spec's setting `fault`. -/
inductive OverrunPolicy where
  | raises
  | clip
deriving DecidableEq, Repr

/-- `XPCK_COUNT_DECODE` (R7, R249). -/
inductive CountMode where
  | branchAware
  | mask12
deriving DecidableEq, Repr

/-- The parameters of R7. The three capacities are "any natural number not above 2^32 - 1", so 32 bits hold them and
nothing else. The field defaults are R7's; the capacities have none (log 4). -/
structure Config where
  inCap : Word
  outCap : Word
  scrCap : Word
  rptCap : Nat := 4095
  hufWordOrder : WordOrder := .big
  storeSizeCheck : SizeCheck := .strict
  overrunPolicy : OverrunPolicy := .raises
  countDecode : CountMode := .branchAware
  crcPoly : Word := 0xEDB88320#32
  crcInit : Word := 0xFFFFFFFF#32
  crcXorOut : Word := 0xFFFFFFFF#32
  /-- `XPCK_HDR_LEN`, in bytes (30_encoding.md R105, 90_conflicts.md C6; log 27 for values other than 20). -/
  xpckHdrLen : Nat := 20
deriving DecidableEq, Repr

/-- The external engine behind the `Inflate` port (41_dispatcher.md R158): a total function from a byte sequence to a
byte sequence or `fail` (`none`). Nothing else is known of it. -/
opaque Config.inflate : List Byte → Option (List Byte)

/-- What a host read returns while `BUSY = 1` (70_reset_and_hazards.md R333), drawn with the model's counter `freeCtr`
(log 7). -/
opaque Config.freeWord : Nat → Word

/-- The `ERRINFO` no rule gives (logs 8 and 9): a function of the parameters, of `IN[0:IN_LEN]` and of the value that does
not fit. These are all that the result of `DECOMPRESS`, `XPCK_OPEN` and `XPCK_PACK` may depend on, the commands that can
raise it (10_state.md R21): they read neither `ARG0` nor `ARG1` (40_commands_header.md R135). -/
opaque Config.freeInfo : Config → List Byte → Nat → Word

/-- The byte the core reads at an address of a space where nothing has been written since reset (10_state.md R46;
log 2). -/
opaque Config.freeByte : Nat → Byte

/-- `REC` while the name of this index is processed, where 12 bits cannot hold the index (10_state.md R34; log 35). -/
opaque Config.freeRec : Nat → BitVec 12

/-- The byte at an address of an archive header that R105 does not lay out, at and above 20 (90_conflicts.md C6;
log 27). -/
opaque Config.headerFiller : Nat → Byte

/-- `SIZE_MAX = 2^29 - 1` (R6). -/
def Config.sizeMax : Nat := 536870911

/-- `WINDOW = 4096` (R6). -/
def Config.window : Nat := 4096

/-- `MIN_MATCH = 3` and `MAX_MATCH = 18` (R6). -/
def Config.minMatch : Nat := 3
/-- See `Config.minMatch`. -/
def Config.maxMatch : Nat := 18

/-- `COUNT_MAX = 4095` (R6). -/
def Config.countMax : Nat := 4095

end Sys2Proof
end

