-- ==== Sys2Proof/Syntax.lean ====
section
/-! DEFINITION. The instructions of CCORE: one constructor per row of spec/opcode_table.json.

CCORE is not a processor (00_scope.md R2). What plays the part of an instruction is a host command (the `CMD` word,
30_encoding.md R91) or a symbol of the stream or archive that a unit interprets in one step (R92 to R111). The operands
are the fields of the encoding, at the widths of the encoding. -/

namespace Sys2Proof

inductive Instr where
  -- host commands, `CMD` words (R91, R134)
  | nop
  | decHdr
  | encHdr
  | decompress
  | lzDec
  | hufDec
  | rleDec
  | lzEnc
  | crc32
  | xpckOpen
  | xpckPack
  | cmdReserved11
  | cmdReserved12
  | cmdReserved13
  | cmdReserved14
  | cmdReserved15
  -- container headers by method, with their 29-bit SIZE (R92, R93)
  | store (size : BitVec 29)
  | lz (size : BitVec 29)
  | huf4 (size : BitVec 29)
  | huf8 (size : BitVec 29)
  | rle (size : BitVec 29)
  | zlib (size : BitVec 29)
  | method6 (size : BitVec 29)
  | method7 (size : BitVec 29)
  -- LZ symbols (R95, R96): `len3` is length - 3, `disp` is the displacement D
  | lit (byte : Byte)
  | ref (len3 : BitVec 4) (disp : BitVec 12)
  -- RLE chunks (R103, R104): `n3` is N - 3, `n1` is N - 1
  | run (n3 : BitVec 7) (value : Byte)
  | copy (n1 : BitVec 7)
  -- Huffman (R98 to R101)
  | hufTable (tsize : Byte) (root : Byte)
  | hufNode (leaf0 : Bool) (leaf1 : Bool) (offset : BitVec 6)
  | hufStep0
  | hufStep1
  | hufLeaf8 (symbol : Byte)
  | hufLeaf4 (symbol : BitVec 4)
  | hufWord (code : Word)
  -- magic values (R116, R105)
  | zlibMagic
  | xpckMagic
  -- archive (R105 to R108): `xph` is the header after its magic, `xpr` a file-info record
  | xph (count infoOff4 nameOff4 dataOff4 f4 nameLen4 : BitVec 16) (dataLen4 : Word)
  | xpr (crc : Word) (nameOff offLo sizeLo : BitVec 16) (offHi sizeHi : Byte)
  | countField (f1 : Byte) (f2 : Byte)
  -- the file list (R111) and a report entry (R117; its first word, the code, is always 5)
  | fls (members : List Member)
  | rptEntry (crc off len : Word)
deriving DecidableEq, Repr

end Sys2Proof
end

