-- ==== Sys2Proof/WellFormed.lean ====
section
/-! DEFINITION. Which instructions have an encoding.

Every operand but the members of a file list is a bit vector of its field's width, so only the file list (30_encoding.md
R111) can hold a value its length fields cannot: `le32(n)`, `le16(name_len)`, `le32(data_len)`. -/

namespace Sys2Proof

/-- One entry fits its length fields (R111). -/
def memberFits (m : Member) : Bool :=
  decide (m.1.length < 65536) && decide (m.2.length < 4294967296)

/-- An instruction that some word of the spec encodes. -/
def Instr.wellFormed : Instr → Bool
  | .fls ms => decide (ms.length < 4294967296) && ms.all memberFits
  | _ => true

end Sys2Proof
end

