-- ==== Sys2Proof/Decode.lean ====
section
/-! DEFINITION. Decoding and encoding (30_encoding.md), and the byte-order helpers both use (00_scope.md R9).

CCORE decodes several formats and the unit that is active says which (R90), so the decoder takes the format beside the
bytes. It is total on any bytes and rejects by name. The encoder stands after it. -/

namespace Sys2Proof

/-! ## Byte order (R9, R60) -/

/-- `u16le` of R9: the first byte is the low one. -/
def u16le (b0 b1 : Byte) : BitVec 16 := b1 ++ b0

/-- `u16be` of R9. -/
def u16be (b0 b1 : Byte) : BitVec 16 := b0 ++ b1

/-- `u32le` of R9. -/
def u32le (b0 b1 b2 b3 : Byte) : Word := b3 ++ b2 ++ b1 ++ b0

/-- `u32be` of R9. -/
def u32be (b0 b1 b2 b3 : Byte) : Word := b0 ++ b1 ++ b2 ++ b3

/-- `le16` of R9. -/
def le16 (v : BitVec 16) : List Byte := [v.extractLsb' 0 8, v.extractLsb' 8 8]

/-- The two bytes of a 16-bit value, high byte first (R60: the LZ token). -/
def be16 (v : BitVec 16) : List Byte := [v.extractLsb' 8 8, v.extractLsb' 0 8]

/-- `le32` of R9. -/
def le32 (v : Word) : List Byte :=
  [v.extractLsb' 0 8, v.extractLsb' 8 8, v.extractLsb' 16 8, v.extractLsb' 24 8]

/-- The four bytes of a 32-bit value, high byte first (R60: the Huffman code word). -/
def be32 (v : Word) : List Byte :=
  [v.extractLsb' 24 8, v.extractLsb' 16 8, v.extractLsb' 8 8, v.extractLsb' 0 8]

/-- A Huffman code word from its four bytes, by `HUF_WORD_ORDER` (R100). -/
def codeWordOf (o : WordOrder) (b0 b1 b2 b3 : Byte) : Word :=
  match o with
  | .big => u32be b0 b1 b2 b3
  | .little => u32le b0 b1 b2 b3

/-- The four bytes of a Huffman code word, by `HUF_WORD_ORDER` (R100). -/
def codeWordBytes (o : WordOrder) (c : Word) : List Byte :=
  match o with
  | .big => be32 c
  | .little => le32 c

/-! ## Formats and rejections -/

/-- The formats of R90, as the unit that is active selects them. `lzg` and `hufBit` stand for the formats whose leading
bit is not adjacent to its bytes in the stream: the flag bit, or the code bit, is written as a byte 0 or 1 before them,
as the opcode table writes the 9-bit and 17-bit patterns (log 22). `xphOpen` is the archive header as `XPCK_OPEN` reads
it: its first 14 bytes and no more (46_xpck.md R248). -/
inductive Fmt where
  | cmd
  | hdr
  | lzg
  | rlc
  | hufTable
  | hufNode
  | hufBit
  | hufLeaf8
  | hufLeaf4
  | hufWord (order : WordOrder)
  | zlibMagic
  | xpckMagic
  | xph
  | xphOpen
  | xpr
  | countField
  | fls
  | rpt
deriving DecidableEq, Repr

/-- Why bytes are not an instruction of a format. -/
inductive DecodeErr where
  /-- too few bytes for the format -/
  | truncated
  /-- a `CMD` value with a bit above 3 set (R91, R112) -/
  | reservedCommand (v : Word)
  /-- the byte that stands for a flag or code bit is neither 0 nor 1 -/
  | notABit (b : Byte)
  /-- a 4-bit-mode leaf above 15 (R112) -/
  | notANibble (b : Byte)
  /-- a method-5 payload that does not begin with 0x78 (R116) -/
  | notZlibMagic (b : Byte)
  /-- an archive that does not begin with `58 50 43 4B` (R105) -/
  | notXpckMagic
  /-- a report entry whose code is not 5 (R117) -/
  | notAReport (code : Word)
  /-- a file list with a field that is not wholly there, at this address of the list (46_xpck.md R260) -/
  | malformedList (addr : Nat)
deriving DecidableEq, Repr

/-! ## Fields -/

/-- The command of a `CMD` value (R91); `none` where a bit above bit 3 is set. -/
def commandOf (v : Word) : Option Instr :=
  match v.toNat with
  | 0 => some .nop
  | 1 => some .decHdr
  | 2 => some .encHdr
  | 3 => some .decompress
  | 4 => some .lzDec
  | 5 => some .hufDec
  | 6 => some .rleDec
  | 7 => some .lzEnc
  | 8 => some .crc32
  | 9 => some .xpckOpen
  | 10 => some .xpckPack
  | 11 => some .cmdReserved11
  | 12 => some .cmdReserved12
  | 13 => some .cmdReserved13
  | 14 => some .cmdReserved14
  | 15 => some .cmdReserved15
  | _ => none

/-- `METHOD = bits[2:0]` of `H` (R92). -/
def headerMethod (h : Word) : BitVec 3 := h.extractLsb' 0 3

/-- `SIZE = bits[31:3]` of `H` (R92). -/
def headerSize (h : Word) : BitVec 29 := h.extractLsb' 3 29

/-- `H = (SIZE << 3) | METHOD` (R92). -/
def headerWord (method : BitVec 3) (size : BitVec 29) : Word := size ++ method

/-- The header's instruction, selected by its method (R93). -/
def headerInstr (method : BitVec 3) (size : BitVec 29) : Instr :=
  match method.toNat with
  | 0 => .store size
  | 1 => .lz size
  | 2 => .huf4 size
  | 3 => .huf8 size
  | 4 => .rle size
  | 5 => .zlib size
  | 6 => .method6 size
  | _ => .method7 size

/-- The LZ token `T` (R96): length - 3 in `bits[15:12]`, `D` in `bits[11:0]`. -/
def lzToken (len3 : BitVec 4) (disp : BitVec 12) : BitVec 16 := len3 ++ disp

/-- The back-reference a token stands for (R96, R97). -/
def refOfToken (t : BitVec 16) : Instr := .ref (t.extractLsb' 12 4) (t.extractLsb' 0 12)

/-- A Huffman node byte (R99): `LEAF0` bit 7, `LEAF1` bit 6, `OFFSET` bits 5..0. -/
def nodeByte (leaf0 leaf1 : Bool) (offset : BitVec 6) : Byte :=
  BitVec.ofBool leaf0 ++ BitVec.ofBool leaf1 ++ offset

/-- `LEAF0` of a node byte (R99). -/
def nodeLeaf0 (b : Byte) : Bool := b.getLsbD 7

/-- `LEAF1` of a node byte (R99). -/
def nodeLeaf1 (b : Byte) : Bool := b.getLsbD 6

/-- `OFFSET` of a node byte (R99). -/
def nodeOffset (b : Byte) : BitVec 6 := b.extractLsb' 0 6

/-- The archive's magic, the bytes "XPCK" (R105). -/
def xpckMagicBytes : List Byte := [0x58#8, 0x50#8, 0x43#8, 0x4B#8]

/-- The zlib magic (R116). -/
def zlibMagicByte : Byte := 0x78#8

/-! ## The file list (R111) -/

/-- The first `n` bytes and the rest, where there are `n`. -/
def takeBytes (n : Nat) (bs : List Byte) : Option (List Byte × List Byte) :=
  if n ≤ bs.length then some (bs.take n, bs.drop n) else none

/-- `n` entries of a file list, the first at address `addr` of the list (R111). A field that is not wholly there is
rejected with its address; the 6 length bytes are one field (46_xpck.md R260). -/
def parseEntries : Nat → Nat → List Byte → Except DecodeErr (List Member × List Byte)
  | 0, _, bs => .ok ([], bs)
  | n + 1, addr, b0 :: b1 :: b2 :: b3 :: b4 :: b5 :: bs =>
    match takeBytes (u16le b0 b1).toNat bs with
    | none => .error (.malformedList (addr + 6))
    | some (name, bs') =>
      match takeBytes (u32le b2 b3 b4 b5).toNat bs' with
      | none => .error (.malformedList (addr + 6 + name.length))
      | some (data, bs'') =>
        match parseEntries n (addr + 6 + name.length + data.length) bs'' with
        | .ok (ms, rest) => .ok ((name, data) :: ms, rest)
        | .error e => .error e
  | _ + 1, addr, _ => .error (.malformedList addr)

/-- A file list: `le32(n)` and `n` entries (R111). -/
def parseFileList (bs : List Byte) : Except DecodeErr (List Member × List Byte) :=
  match bs with
  | b0 :: b1 :: b2 :: b3 :: rest => parseEntries (u32le b0 b1 b2 b3).toNat 4 rest
  | _ => .error (.malformedList 0)

/-- One entry of a file list (R111). -/
def memberBytes (m : Member) : List Byte :=
  le16 (BitVec.ofNat 16 m.1.length) ++ le32 (BitVec.ofNat 32 m.2.length) ++ m.1 ++ m.2

/-- The bytes of a file list (R111). -/
def fileListBytes (ms : List Member) : List Byte :=
  le32 (BitVec.ofNat 32 ms.length) ++ ms.flatMap memberBytes

/-! ## The decoder -/

/-- One instruction of format `f` from the front of `bs`, and the bytes after it. -/
def decode (f : Fmt) (bs : List Byte) : Except DecodeErr (Instr × List Byte) :=
  match f with
  | .cmd =>
    match bs with
    | b0 :: b1 :: b2 :: b3 :: rest =>
      match commandOf (u32le b0 b1 b2 b3) with
      | some i => .ok (i, rest)
      | none => .error (.reservedCommand (u32le b0 b1 b2 b3))
    | _ => .error .truncated
  | .hdr =>
    match bs with
    | b0 :: b1 :: b2 :: b3 :: rest =>
      .ok (headerInstr (headerMethod (u32le b0 b1 b2 b3)) (headerSize (u32le b0 b1 b2 b3)), rest)
    | _ => .error .truncated
  | .lzg =>
    match bs with
    | flag :: rest =>
      if flag = 0#8 then
        match rest with
        | b :: rest' => .ok (.lit b, rest')
        | _ => .error .truncated
      else if flag = 1#8 then
        match rest with
        | hi :: lo :: rest' => .ok (refOfToken (u16be hi lo), rest')
        | _ => .error .truncated
      else .error (.notABit flag)
    | _ => .error .truncated
  | .rlc =>
    match bs with
    | c :: rest =>
      if c.getLsbD 7 then
        match rest with
        | v :: rest' => .ok (.run (c.extractLsb' 0 7) v, rest')
        | _ => .error .truncated
      else .ok (.copy (c.extractLsb' 0 7), rest)
    | _ => .error .truncated
  | .hufTable =>
    match bs with
    | t :: r :: rest => .ok (.hufTable t r, rest)
    | _ => .error .truncated
  | .hufNode =>
    match bs with
    | b :: rest => .ok (.hufNode (nodeLeaf0 b) (nodeLeaf1 b) (nodeOffset b), rest)
    | _ => .error .truncated
  | .hufBit =>
    match bs with
    | b :: rest =>
      if b = 0#8 then .ok (.hufStep0, rest)
      else if b = 1#8 then .ok (.hufStep1, rest)
      else .error (.notABit b)
    | _ => .error .truncated
  | .hufLeaf8 =>
    match bs with
    | b :: rest => .ok (.hufLeaf8 b, rest)
    | _ => .error .truncated
  | .hufLeaf4 =>
    match bs with
    | b :: rest =>
      if b.extractLsb' 4 4 = 0#4 then .ok (.hufLeaf4 (b.extractLsb' 0 4), rest)
      else .error (.notANibble b)
    | _ => .error .truncated
  | .hufWord o =>
    match bs with
    | b0 :: b1 :: b2 :: b3 :: rest => .ok (.hufWord (codeWordOf o b0 b1 b2 b3), rest)
    | _ => .error .truncated
  | .zlibMagic =>
    match bs with
    | b :: rest => if b = zlibMagicByte then .ok (.zlibMagic, rest) else .error (.notZlibMagic b)
    | _ => .error .truncated
  | .xpckMagic =>
    match bs with
    | b0 :: b1 :: b2 :: b3 :: rest =>
      if [b0, b1, b2, b3] = xpckMagicBytes then .ok (.xpckMagic, rest) else .error .notXpckMagic
    | _ => .error .truncated
  | .xph =>
    match bs with
    | m0 :: m1 :: m2 :: m3 :: c0 :: c1 :: i0 :: i1 :: n0 :: n1 :: d0 :: d1 :: f0 :: f1 ::
        l0 :: l1 :: k0 :: k1 :: k2 :: k3 :: rest =>
      if [m0, m1, m2, m3] = xpckMagicBytes then
        .ok (.xph (u16le c0 c1) (u16le i0 i1) (u16le n0 n1) (u16le d0 d1) (u16le f0 f1) (u16le l0 l1)
          (u32le k0 k1 k2 k3), rest)
      else .error .notXpckMagic
    | _ => .error .truncated
  | .xphOpen =>
    match bs with
    | m0 :: m1 :: m2 :: m3 :: c0 :: c1 :: i0 :: i1 :: n0 :: n1 :: d0 :: d1 :: f0 :: f1 :: rest =>
      if [m0, m1, m2, m3] = xpckMagicBytes then
        .ok (.xph (u16le c0 c1) (u16le i0 i1) (u16le n0 n1) (u16le d0 d1) (u16le f0 f1) 0#16 0#32, rest)
      else .error .notXpckMagic
    | _ => .error .truncated
  | .xpr =>
    match bs with
    | c0 :: c1 :: c2 :: c3 :: n0 :: n1 :: o0 :: o1 :: s0 :: s1 :: oh :: sh :: rest =>
      .ok (.xpr (u32le c0 c1 c2 c3) (u16le n0 n1) (u16le o0 o1) (u16le s0 s1) oh sh, rest)
    | _ => .error .truncated
  | .countField =>
    match bs with
    | f1 :: f2 :: rest => .ok (.countField f1 f2, rest)
    | _ => .error .truncated
  | .fls =>
    match parseFileList bs with
    | .ok (ms, rest) => .ok (.fls ms, rest)
    | .error e => .error e
  | .rpt =>
    match bs with
    | w0 :: w1 :: w2 :: w3 :: c0 :: c1 :: c2 :: c3 :: o0 :: o1 :: o2 :: o3 :: l0 :: l1 :: l2 :: l3 :: rest =>
      if u32le w0 w1 w2 w3 = 5#32 then
        .ok (.rptEntry (u32le c0 c1 c2 c3) (u32le o0 o1 o2 o3) (u32le l0 l1 l2 l3), rest)
      else .error (.notAReport (u32le w0 w1 w2 w3))
    | _ => .error .truncated

/-! ## The encoder -/

/-- The words of an instruction, with Huffman code words in order `o`. A flag bit or code bit is the leading byte 0 or
1 (log 22). -/
def encodeIn (o : WordOrder) (i : Instr) : List Byte :=
  match i with
  | .nop => le32 0#32
  | .decHdr => le32 1#32
  | .encHdr => le32 2#32
  | .decompress => le32 3#32
  | .lzDec => le32 4#32
  | .hufDec => le32 5#32
  | .rleDec => le32 6#32
  | .lzEnc => le32 7#32
  | .crc32 => le32 8#32
  | .xpckOpen => le32 9#32
  | .xpckPack => le32 10#32
  | .cmdReserved11 => le32 11#32
  | .cmdReserved12 => le32 12#32
  | .cmdReserved13 => le32 13#32
  | .cmdReserved14 => le32 14#32
  | .cmdReserved15 => le32 15#32
  | .store size => le32 (headerWord 0#3 size)
  | .lz size => le32 (headerWord 1#3 size)
  | .huf4 size => le32 (headerWord 2#3 size)
  | .huf8 size => le32 (headerWord 3#3 size)
  | .rle size => le32 (headerWord 4#3 size)
  | .zlib size => le32 (headerWord 5#3 size)
  | .method6 size => le32 (headerWord 6#3 size)
  | .method7 size => le32 (headerWord 7#3 size)
  | .lit b => [0#8, b]
  | .ref len3 disp => 1#8 :: be16 (lzToken len3 disp)
  | .run n3 v => [1#1 ++ n3, v]
  | .copy n1 => [0#1 ++ n1]
  | .hufTable t r => [t, r]
  | .hufNode l0 l1 off => [nodeByte l0 l1 off]
  | .hufStep0 => [0#8]
  | .hufStep1 => [1#8]
  | .hufLeaf8 s => [s]
  | .hufLeaf4 s => [0#4 ++ s]
  | .hufWord c => codeWordBytes o c
  | .zlibMagic => [zlibMagicByte]
  | .xpckMagic => xpckMagicBytes
  | .xph c i n d f l k => xpckMagicBytes ++ le16 c ++ le16 i ++ le16 n ++ le16 d ++ le16 f ++ le16 l ++ le32 k
  | .xpr c n ol sl oh sh => le32 c ++ le16 n ++ le16 ol ++ le16 sl ++ [oh, sh]
  | .countField f1 f2 => [f1, f2]
  | .fls ms => fileListBytes ms
  | .rptEntry c o l => le32 5#32 ++ le32 c ++ le32 o ++ le32 l

/-- The words of an instruction under the default `HUF_WORD_ORDER = big`. -/
def encode (i : Instr) : List Byte := encodeIn .big i

/-- The format an instruction belongs to (the opcode table's "format"). -/
def fmtOf (o : WordOrder) (i : Instr) : Fmt :=
  match i with
  | .nop | .decHdr | .encHdr | .decompress | .lzDec | .hufDec | .rleDec | .lzEnc | .crc32 | .xpckOpen | .xpckPack
  | .cmdReserved11 | .cmdReserved12 | .cmdReserved13 | .cmdReserved14 | .cmdReserved15 => .cmd
  | .store _ | .lz _ | .huf4 _ | .huf8 _ | .rle _ | .zlib _ | .method6 _ | .method7 _ => .hdr
  | .lit _ | .ref _ _ => .lzg
  | .run _ _ | .copy _ => .rlc
  | .hufTable _ _ => .hufTable
  | .hufNode _ _ _ => .hufNode
  | .hufStep0 | .hufStep1 => .hufBit
  | .hufLeaf8 _ => .hufLeaf8
  | .hufLeaf4 _ => .hufLeaf4
  | .hufWord _ => .hufWord o
  | .zlibMagic => .zlibMagic
  | .xpckMagic => .xpckMagic
  | .xph _ _ _ _ _ _ _ => .xph
  | .xpr _ _ _ _ _ _ => .xpr
  | .countField _ _ => .countField
  | .fls _ => .fls
  | .rptEntry _ _ _ => .rpt

/-! ## One word of the opcode table -/

/-- `n` bytes of `w`, the least significant first. -/
def leBytesOf : Nat → Nat → List Byte
  | 0, _ => []
  | n + 1, w => BitVec.ofNat 8 w :: leBytesOf n (w / 256)

/-- `n` bytes of `w`, the most significant first. -/
def beBytesOf (n w : Nat) : List Byte := (leBytesOf n w).reverse

/-- The format that a word of the table is read in, from its length and its value alone. The table's formats share
words, because the active unit tells them apart (R90): where several rows match, the one with the most fixed bits is
taken, and among equals the first of the table (log 21). -/
def tableFmt (nbits w : Nat) : Option Fmt :=
  match nbits with
  | 0 => some .fls
  | 8 =>
    if w < 2 then some .hufBit
    else if w = 0x78 then some .zlibMagic
    else if w < 16 then some .hufLeaf4
    else if w < 128 then some .rlc
    else some .hufNode
  | 16 =>
    if w < 256 then some .lzg
    else if 0x8000 ≤ w then some .rlc
    else some .hufTable
  | 24 => some .lzg
  | 32 =>
    if w < 16 then some .cmd
    else if w = 0x4B435058 then some .xpckMagic
    else some .hdr
  | 96 => some .xpr
  | 128 => some .rpt
  | 160 => some .xph
  | _ => none

/-- The bytes of a table word in stream order: little-endian for the formats whose pattern the table gives over
little-endian fields, otherwise most significant byte first. A file list has no bits in the table: its bytes are an
operand of zeros. -/
def tableBytes (f : Fmt) (nbits w : Nat) : List Byte :=
  match f with
  | .fls => [0#8, 0#8, 0#8, 0#8]
  | .cmd | .hdr | .xpckMagic | .xph | .xphOpen | .xpr | .countField | .rpt => leBytesOf (nbits / 8) w
  | _ => beBytesOf (nbits / 8) w

/-- The instruction the decoder reads from a word of spec/opcode_table.json, with the table's bit numbering. -/
def decodeTableWord (nbits w : Nat) : Option Instr :=
  match tableFmt nbits w with
  | none => none
  | some f =>
    match decode f (tableBytes f nbits w) with
    | .ok (i, _) => some i
    | .error _ => none

end Sys2Proof
end

