-- ==== Sys2Proof/Machine/State.lean ====
section
/-! DEFINITION. The state of CCORE as plain data (10_state.md), what a step can stop with, and the state after reset
(10_state.md R46).

Registers are grouped by the unit the spec gives them to. The fields `phase`, `found`, `bus`, `rdata` and `freeCtr` are
the model's own (logs 1, 7, 15, 29). -/

namespace Sys2Proof.Machine

/-- A space of bytes: the addresses written since reset and their bytes, addresses strictly rising. An unlisted address
has no value (log 2). -/
abbrev Memory := List Host.Cell

/-- The typed failures (60_exceptions.md R290); `hashNotFound` is the one that is only reported. -/
inductive Failure where
  | unknownMethod
  | malformedHeader
  | truncatedStream
  | badMagic
  | hashNotFound
  | badArgument
  | invalidStream
deriving DecidableEq, Repr

/-- The host registers (R22, R27 to R29). `STATUS` is its four bits; `CMD` holds no value. -/
structure HostRegs where
  busy : Bool
  done : Bool
  err : Bool
  rptFlag : Bool
  errCode : BitVec 3
  errInfo : Word
  inLen : Word
  outLen : Word
  arg0 : Word
  arg1 : Word
  res0 : Word
  res1 : Word
  rptCnt : Word
deriving DecidableEq, Repr

/-- The stream registers (R24 to R26): `IP`, `OP`, `BASE`, `LIMIT`, `METHOD`, `SIZE`, `DST`. -/
structure StreamRegs where
  ip : Nat
  op : Nat
  base : Nat
  limit : Nat
  method : BitVec 3
  size : Nat
  dst : Bool
deriving DecidableEq, Repr

/-- The LZ decoder's registers (R30): `FLAGS`, `FCNT`, `L`, `D`. -/
structure LzRegs where
  flags : Byte
  fcnt : Nat
  len : Nat
  disp : Nat
deriving DecidableEq, Repr

/-- The Huffman decoder's registers (R31). -/
structure HufRegs where
  tsize : Byte
  root : Byte
  depth : Nat
  code : Word
  bitCnt : Nat
  cur : Byte
  next : Nat
  need : Nat
  nib : BitVec 4
  nibv : Bool
deriving DecidableEq, Repr

/-- The RLE expander's registers (R32): `CTL`, `N`. -/
structure RleRegs where
  ctl : Byte
  count : Nat
deriving DecidableEq, Repr

/-- The archive unit's registers (R34): `CNT`, `INFO_OFF`, `NAME_OFF`, `DATA_OFF`, `F4`, `REC`, `NT_LEN`. `XPCK_OPEN`
writes them; `XPCK_PACK` leaves them (log 34). -/
structure XpckRegs where
  cnt : Nat
  infoOff : Nat
  nameOff : Nat
  dataOff : Nat
  f4 : Nat
  recIdx : Nat
  ntLen : Nat
deriving DecidableEq, Repr

/-- An entry of `LUT` (R42): a name's CRC32, the member's address in `IN` and its size. -/
structure LutEntry where
  key : Word
  addr : Nat
  size : Nat
deriving DecidableEq, Repr

/-- An entry of `RPT` (R43, 30_encoding.md R117): four 32-bit words. -/
structure RptEntry where
  code : Word
  crc : Word
  off : Word
  len : Word
deriving DecidableEq, Repr

/-- An entry of the list `result` of 46_xpck.md R252: the name as a range of `SCR`, the data as a range of `IN`. -/
structure Found where
  off : Nat
  len : Nat
  addr : Nat
  size : Nat
deriving DecidableEq, Repr

/-- Where in the pseudocode the active unit stands (log 1): what the next step fetches. -/
inductive Phase where
  /-- no command runs (`BUSY = 0`) -/
  | idle
  /-- `Dispatch` is about to fetch the container header (41_dispatcher.md R150) -/
  | header
  /-- `Zlib` is about to check the first payload byte (R156) -/
  | zlibMagic
  /-- the head of the LZ symbol loop (42_lz.md R171) -/
  | lz
  /-- the head of the RLE chunk loop (44_rle.md R220) -/
  | rle
  /-- `HufDecode` is about to fetch `TSIZE` and `ROOT` (43_huffman.md R200) -/
  | hufTable
  /-- the head of the Huffman step loop (R200, R202) -/
  | hufBit
  /-- a step has computed the child's index and whether it is a leaf; the table byte is read next (R202) -/
  | hufChild (idx : Nat) (leaf : Bool)
  /-- a unit has ended and returns to its caller (R151, R156, 46_xpck.md R267) -/
  | finish
  /-- `XPCK_OPEN` is about to check the magic (46_xpck.md R247) -/
  | xpckMagic
  /-- `ReadHeader` (R248) -/
  | xph
  /-- the count field of the header is decoded next (R249) -/
  | countField
  /-- the head of the record loop (R250) -/
  | records
  /-- the head of the name loop at name-table offset `p` (R252) -/
  | lookup (p : Nat)
  /-- a report is about to be made (R253) -/
  | report (entry : RptEntry)
  /-- `XPCK_PACK` is about to read the file list (R260) -/
  | fls
deriving DecidableEq, Repr

/-- One access of the host, or what the host does between accesses (log 15). Register offsets are R22's byte offsets. -/
inductive HostReq where
  | writeReg (off : Nat) (value : Word)
  | readReg (off : Nat)
  | writeIn (addr : Nat) (value : Byte)
  | readIn (addr : Nat)
  | readOut (addr : Nat)
  | readRpt (entry : Nat) (word : Nat)
  /-- the host reads `STATUS` until `BUSY = 0` (70_reset_and_hazards.md R332) -/
  | poll
  /-- the host stays off the bus for one step of the core -/
  | pass
  /-- the platform applies reset (R330) -/
  | reset
deriving DecidableEq, Repr

structure State where
  /-- the parameters (00_scope.md R7); no step writes them -/
  cfg : Config
  host : HostRegs
  str : StreamRegs
  lz : LzRegs
  huf : HufRegs
  rle : RleRegs
  /-- `CRCACC` (R33) -/
  crcAcc : Word
  xp : XpckRegs
  /-- the spaces `IN`, `OUT`, `TBL`, `SCR` (R40) -/
  inp : Memory
  out : Memory
  tbl : Memory
  scr : Memory
  /-- `LUT` (R42), the latest insertion first, no two entries with one key -/
  lut : List LutEntry
  /-- `RPT` (R43), the first report first -/
  rpt : List RptEntry
  phase : Phase
  found : List Found
  bus : List HostReq
  rdata : Word
  freeCtr : Nat
deriving DecidableEq, Repr

/-- Why the machine stops with a fault. No rule of the spec stops it: every failure of CCORE is a next state (R300). -/
inductive Fault where
  /-- Raised by a host access to a byte offset that is no register's (R22; log 16). Safe: the model stops where the spec
  says nothing. -/
  | noSuchRegister (off : Nat)
  /-- Raised by a host access to an address outside `IN`, `OUT` or a report entry (R40). Safe: the address does not
  exist. -/
  | noSuchAddress (addr : Nat)
  /-- Raised by a read of the core at or above `IN_CAP` (R40, R61; log 20). Safe: no run from reset reaches it, since
  `LIMIT <= IN_LEN <= IN_CAP`. -/
  | readBeyondSpace
  /-- Raised by `Emit` at or above the capacity of its space (R63, R75; log 20). Safe: no run from reset reaches it. -/
  | writeBeyondSpace
  /-- Raised when bytes that decode in every run do not decode (log 20). Safe: no run from reset reaches it. -/
  | undecodable
deriving DecidableEq, Repr

/-- Why the model gives no transition. -/
inductive Refusal where
  /-- Raised by an arm of `exec` whose instruction has no meaning yet. Safe. No arm uses it. -/
  | notModelled (mnemonic : String)
  /-- Raised by a host write to `IN` while `BUSY = 1`: "a write to `IN` is refused by the model" (R333). Safe. -/
  | inWriteWhileBusy
  /-- Raised by a host read of a byte of `IN` that nothing has written since reset: a read of an unspecified value "by the
  host is refused" (R331). Safe. -/
  | inUnspecified
  /-- Raised by a host read of a byte of `OUT` that is not valid output (R46, R61, R300: "host read `refuse`", 93 U20).
  Safe. -/
  | outUnspecified
  /-- Raised by a host read of a report entry that is not stored (R43, R46; log 18). Safe. -/
  | rptUnspecified
deriving DecidableEq, Repr

/-- The outcome of a step or of a meaning. -/
abbrev Outcome := Host.Outcome State Fault Refusal

/-- The parameters of the machine that `State.reset` describes: R7's defaults; the capacities, which have none, are
the largest R7 admits (DESIGN CHOICE, log 4). -/
def State.resetConfig : Config :=
  { inCap := 0xFFFFFFFF#32, outCap := 0xFFFFFFFF#32, scrCap := 0xFFFFFFFF#32 }

/-- The machine right after reset (10_state.md R46, 70_reset_and_hazards.md R330, R331): host registers 0, `LUT` and
`RPT` empty. The engine registers and the contents of the spaces are unspecified there: here the registers are 0
(DESIGN CHOICE, log 3), and the spaces list nothing (log 2). -/
def State.reset : State :=
  { cfg := State.resetConfig
    host :=
      { busy := false, done := false, err := false, rptFlag := false, errCode := 0#3, errInfo := 0#32
        inLen := 0#32, outLen := 0#32, arg0 := 0#32, arg1 := 0#32, res0 := 0#32, res1 := 0#32, rptCnt := 0#32 }
    str := { ip := 0, op := 0, base := 0, limit := 0, method := 0#3, size := 0, dst := false }
    lz := { flags := 0#8, fcnt := 0, len := 0, disp := 0 }
    huf :=
      { tsize := 0#8, root := 0#8, depth := 0, code := 0#32, bitCnt := 0, cur := 0#8, next := 0, need := 0
        nib := 0#4, nibv := false }
    rle := { ctl := 0#8, count := 0 }
    crcAcc := 0#32
    xp := { cnt := 0, infoOff := 0, nameOff := 0, dataOff := 0, f4 := 0, recIdx := 0, ntLen := 0 }
    inp := []
    out := []
    tbl := []
    scr := []
    lut := []
    rpt := []
    phase := .idle
    found := []
    bus := []
    rdata := 0#32
    freeCtr := 0 }

end Sys2Proof.Machine
end

