-- ==== Sys2Proof/Machine/Memory.lean ====
section
/-! DEFINITION. The byte-addressed spaces (10_state.md R40): reading and writing, one byte at a time in increasing
address order (00_scope.md R10, 20_memory.md R66), in one canonical form. -/

namespace Sys2Proof.Machine

/-- What is written at address `a`. An unlisted address has no value (log 2): nothing has been written there since
reset, and R46 leaves the contents after reset unspecified. -/
def Memory.written : Memory → Nat → Option Byte
  | [], _ => none
  | (k, v) :: rest, a => if k = a then some v else Memory.written rest a

/-- The byte the core reads at address `a`: a free value where nothing is written (R46; log 2). -/
def Memory.read (m : Memory) (a : Nat) : Byte := (m.written a).getD (Config.freeByte a)

/-- Write `v` at `a`, keeping addresses rising. -/
def Memory.write : Memory → Nat → Byte → Memory
  | [], a, v => [(a, v)]
  | (k, w) :: rest, a, v =>
    if a < k then (a, v) :: (k, w) :: rest
    else if a = k then (a, v) :: rest
    else (k, w) :: Memory.write rest a v

/-- `MemRead(S:a, n)` (R10). -/
def Memory.readN (m : Memory) (a : Nat) : Nat → List Byte
  | 0 => []
  | n + 1 => m.read a :: Memory.readN m (a + 1) n

/-- `MemWrite(S:a, n, bs)` (R10), `n` the length of `bs`. -/
def Memory.writeN (m : Memory) (a : Nat) : List Byte → Memory
  | [] => m
  | b :: bs => Memory.writeN (m.write a b) (a + 1) bs

/-- All listed addresses of `m` are at least `lo` and rise strictly. A listed byte never equals what an unlisted address
has, which is no value. -/
def Memory.wfFrom : Nat → Memory → Bool
  | _, [] => true
  | lo, (k, _) :: rest => decide (lo ≤ k) && Memory.wfFrom (k + 1) rest

/-- The canonical form. -/
def Memory.wf (m : Memory) : Bool := Memory.wfFrom 0 m

end Sys2Proof.Machine
end

