-- ==== Sys2Proof/Machine/Flags.lean ====
section
/-! DEFINITION. The flags of CCORE: the four bits of `STATUS` (10_state.md R27), which are the whole of the hardware's
flags, and the codes of `ERRCODE` (60_exceptions.md R290). -/

namespace Sys2Proof.Machine

/-- `STATUS` as the host reads it (R22): `BUSY` bit 0, `DONE` bit 1, `ERR` bit 2, `RPT` bit 3, the others 0. -/
def statusWord (h : HostRegs) : Word :=
  0#28 ++ BitVec.ofBool h.rptFlag ++ BitVec.ofBool h.err ++ BitVec.ofBool h.done ++ BitVec.ofBool h.busy

/-- The numeric code of a failure (R290). -/
def Failure.code : Failure → BitVec 3
  | .unknownMethod => 1#3
  | .malformedHeader => 2#3
  | .truncatedStream => 3#3
  | .badMagic => 4#3
  | .hashNotFound => 5#3
  | .badArgument => 6#3
  | .invalidStream => 7#3

/-- The flags at the start of a command (R27, R47): `BUSY <- 1, DONE <- 0, ERR <- 0, RPT <- 0`. -/
def flagsAtStart (h : HostRegs) : HostRegs :=
  { h with busy := true, done := false, err := false, rptFlag := false }

/-- The flags at the end of a command (R27, R130): `BUSY <- 0, DONE <- 1`. -/
def flagsAtEnd (h : HostRegs) : HostRegs :=
  { h with busy := false, done := true }

/-- The flags after a fatal failure (R300): `ERR <- 1, BUSY <- 0, DONE <- 1`. -/
def flagsAtRaise (h : HostRegs) : HostRegs :=
  { h with err := true, busy := false, done := true }

/-- The flags after a report (R305): `RPT <- 1`. -/
def flagsAtReport (h : HostRegs) : HostRegs :=
  { h with rptFlag := true }

end Sys2Proof.Machine
end

