-- ==== Sys2Proof/Machine/Operands.lean ====
section
/-! DEFINITION. The operand forms of CCORE: what the fields of an encoding stand for (30_encoding.md), the file-count
field (46_xpck.md R249, R266), the CRC32 (45_crc32.md R236), padding and ordering of byte sequences (00_scope.md R9). -/

namespace Sys2Proof.Machine

/-! ## LZ and RLE (R97, R103, R104, R173, R222, R223) -/

/-- `L = (hi >> 4) + 3` (R97). -/
def refLength (len3 : BitVec 4) : Nat := len3.toNat + 3

/-- `D` (R97). -/
def refDisp (disp : BitVec 12) : Nat := disp.toNat

/-- `N = (c & 0x7F) + 3` (R103). -/
def runCount (n3 : BitVec 7) : Nat := n3.toNat + 3

/-- `N = c + 1` (R104). -/
def copyCount (n1 : BitVec 7) : Nat := n1.toNat + 1

/-- The control byte of a run (R103). -/
def runControl (n3 : BitVec 7) : Byte := 1#1 ++ n3

/-- The control byte of a literal run (R104). -/
def copyControl (n1 : BitVec 7) : Byte := 0#1 ++ n1

/-- How many bytes a symbol that stands for `n` may emit at output position `op` (R173, R222, R223): all of them when
they fit the declared size; otherwise none, a failure, under `OVERRUN_POLICY = fault`, and as many as fit under
`clip`. -/
def acceptedCount (policy : OverrunPolicy) (op n size : Nat) : Option Nat :=
  if size < op + n then
    match policy with
    | .raises => none
    | .clip => some (size - op)
  else some n

/-! ## The Huffman walk (R99, R202) -/

/-- `NEXT + 2 * (CUR & 0x3F) + 2` (R202): the index one past the child pair. -/
def childNext (next : Nat) (cur : Byte) : Nat := next + 2 * (nodeOffset cur).toNat + 2

/-- `idx = NEXT - 2 + b` (R202), `next` the new value of `NEXT`. -/
def childIndex (next : Nat) (bit : Bool) : Nat := next - 2 + bit.toNat

/-- Whether the child taken on `bit` is a leaf (R99, R202). -/
def childLeaf (cur : Byte) (bit : Bool) : Bool := if bit then nodeLeaf1 cur else nodeLeaf0 cur

/-- `SIZE * (8 / DEPTH)`, the symbols a stream holds (R101, R200). -/
def symbolCount (depth size : Nat) : Nat := size * (8 / depth)

/-! ## The archive record (R107, R108) -/

/-- `off4 = off_lo | (off_hi << 16)` (R108). -/
def recordOff4 (offLo : BitVec 16) (offHi : Byte) : Nat := (offHi ++ offLo).toNat

/-- `size = size_lo | (size_hi << 16)` (R108), in bytes. -/
def recordSize (sizeLo : BitVec 16) (sizeHi : Byte) : Nat := (sizeHi ++ sizeLo).toNat

/-- The member's address `off4 * 4 + DATA_OFF` (R108, R250). -/
def recordAddr (dataOff : Nat) (offLo : BitVec 16) (offHi : Byte) : Nat := recordOff4 offLo offHi * 4 + dataOff

/-! ## The file-count field (R106, R249, R266) -/

/-- `CountDecode` (R249). -/
def countDecode (mode : CountMode) (cf : BitVec 16) : Nat :=
  let f1 := (cf.extractLsb' 0 8).toNat
  let f2 := (cf.extractLsb' 8 8).toNat
  if mode = .branchAware ∧ 1 ≤ f1 ∧ f1 ≤ 15 ∧ f2 = 2 ^ Nat.log2 f1 then f1 else cf.toNat % 4096

/-- `CountField` (R266). -/
def countFieldOf (c : Nat) : BitVec 16 :=
  if c < 256 then BitVec.ofNat 8 (2 ^ Nat.log2 c) ++ BitVec.ofNat 8 c
  else BitVec.ofNat 8 (c / 256) ++ BitVec.ofNat 8 c

/-- The counts that share their field value with a count below 16 (R249, R260). -/
def ambiguousCounts : List Nat :=
  [257, 514, 515, 1028, 1029, 1030, 1031, 2056, 2057, 2058, 2059, 2060, 2061, 2062, 2063]

/-! ## Byte sequences (R9) -/

/-- `pad16` (R9). -/
def pad16 (s : List Byte) : List Byte := s ++ List.replicate ((16 - s.length % 16) % 16) 0#8

/-- The unsigned lexicographic order of R9: byte by byte, a proper beginning of a sequence sorts before it. -/
def bytesLe : List Byte → List Byte → Bool
  | [], _ => true
  | _ :: _, [] => false
  | a :: as, b :: bs => if a = b then bytesLe as bs else decide (a.toNat < b.toNat)

/-! ## CRC32 (R236) -/

/-- `n` shift steps of the recurrence (R236). -/
def crcShift (poly : Word) : Nat → Word → Word
  | 0, acc => acc
  | n + 1, acc => crcShift poly n (if acc.getLsbD 0 then (acc >>> 1) ^^^ poly else acc >>> 1)

/-- One byte of the CRC (R236): exclusive or into the low 8 bits, then 8 shift steps. -/
def crcByte (poly : Word) (acc : Word) (x : Byte) : Word := crcShift poly 8 (acc ^^^ x.setWidth 32)

/-- The running remainder `CRCACC` after `s` (R236). -/
def crcRun (cfg : Config) (s : List Byte) : Word := s.foldl (crcByte cfg.crcPoly) cfg.crcInit

/-- `Crc32(s)` (R236). -/
def crc32 (cfg : Config) (s : List Byte) : Word := crcRun cfg s ^^^ cfg.crcXorOut

end Sys2Proof.Machine
end

