-- ==== Sys2Proof/Machine/Ops.lean ====
section
/-! DEFINITION. The shared operations of CCORE: the failure entry and the report (60_exceptions.md R300, R305), the
command prologue and the end of a command (10_state.md R47, 40_commands_header.md R130), the input fetch and the output
append (20_memory.md R62 to R64). -/

namespace Sys2Proof.Machine

/-! ## Failures (R300), the end of a command (R130, R344) and reports (R305) -/

/-- `raise E(info)` (R300): what CCORE has instead of taking an exception. Nothing is saved, because nothing needs
restoring; the command ends. -/
def raise (f : Failure) (info : Nat) (s : State) : State :=
  { s with
    host :=
      { flagsAtRaise s.host with
        errCode := f.code, errInfo := BitVec.ofNat 32 info, outLen := 0#32, res0 := 0#32, res1 := 0#32 }
    phase := .idle }

/-- A failure for the offending value `n` whose recorded value no rule gives: `ERRINFO` is a free value, a function of
what the commands that can raise it read (R21, 40_commands_header.md R135; logs 8 and 9). -/
def raiseFree (f : Failure) (n : Nat) (s : State) : State :=
  raise f (Config.freeInfo s.cfg (s.inp.readN 0 s.host.inLen.toNat) n).toNat s

/-- A failure that records the offending value `n`: `n` itself where the 32 bits of `ERRINFO` hold it, else a free value
(log 8). -/
def raiseLength (f : Failure) (n : Nat) (s : State) : State :=
  if n < 4294967296 then raise f n s else raiseFree f n s

/-- The successful end of a command (R130, R344): `OUT_LEN <- OP`, `BUSY <- 0`, `DONE <- 1`. There is no return from a
failure but the next command's prologue (R303). -/
def endCommand (s : State) : State :=
  { s with
    host := { flagsAtEnd s.host with outLen := BitVec.ofNat 32 s.str.op }
    phase := .idle }

/-- `report HashNotFound(h, p, n)` (R305), given the entry it stores. -/
def report (e : RptEntry) (s : State) : State :=
  { s with
    host := { flagsAtReport s.host with rptCnt := s.host.rptCnt + 1#32 }
    rpt := if s.host.rptCnt.toNat < s.cfg.rptCap then s.rpt ++ [e] else s.rpt }

/-! ## The start of a command (R47, R130) -/

/-- The command prologue (R47). The list `found` of the archive unit's pseudocode starts empty (R252). `SCR` and `TBL`,
unspecified between commands (R44, 93 U21), keep the bytes last written, and so does `OUT` (DESIGN CHOICE, log 36). -/
def prologue (s : State) : State :=
  { s with
    host :=
      { flagsAtStart s.host with
        errCode := 0#3, errInfo := 0#32, outLen := 0#32, res0 := 0#32, res1 := 0#32, rptCnt := 0#32 }
    str := { s.str with ip := 0, op := 0, base := 0, limit := s.host.inLen.toNat, dst := false }
    lz := { s.lz with fcnt := 0 }
    huf := { s.huf with bitCnt := 0, nibv := false }
    lut := []
    rpt := []
    found := [] }

/-- Running a command (R130): ignored while `BUSY = 1` (R23); otherwise the prologue, the check of `IN_LEN`, and the
command's rule `body`. -/
def startCommand (body : State → Outcome) (s : State) : Outcome :=
  if s.host.busy then .next s
  else if s.cfg.inCap.toNat < s.host.inLen.toNat then
    .next (raise .badArgument s.host.inLen.toNat (prologue s))
  else body (prologue s)

/-- A reserved `CMD` value (R130, R134): ignored while `BUSY = 1` (R23); otherwise `BadArgument(v)` after the prologue. -/
def reservedCommand (v : Word) (s : State) : State :=
  if s.host.busy then s else raise .badArgument v.toNat (prologue s)

/-! ## The input (R61, R62) -/

/-- The outcome that keeps `n` bytes at `IP` from being fetched, if any: `TruncatedStream(IP)` when they are not all
below `LIMIT` (R62); a fault when they are not all inside `IN` (log 20). -/
def fetchStop (n : Nat) (s : State) : Option Outcome :=
  if s.str.limit < s.str.ip + n then some (.next (raise .truncatedStream s.str.ip s))
  else if s.cfg.inCap.toNat < s.str.ip + n then some (.fault .readBeyondSpace)
  else none

/-- The `n` bytes of `IN` at `IP`. -/
def bytesAtIp (n : Nat) (s : State) : List Byte := s.inp.readN s.str.ip n

/-- `IP <- IP + n`. -/
def advanceIp (n : Nat) (s : State) : State := { s with str := { s.str with ip := s.str.ip + n } }

/-- `Fetch(n)` (R62), then `k` with the bytes and the state after. -/
def fetch (n : Nat) (s : State) (k : List Byte → State → Outcome) : Outcome :=
  match fetchStop n s with
  | some o => o
  | none => k (bytesAtIp n s) (advanceIp n s)

/-! ## The output (R61, R63, R64, R75) -/

/-- The capacity of the space `Emit` writes (R26, R75). -/
def capacity (s : State) : Nat := if s.str.dst then s.cfg.scrCap.toNat else s.cfg.outCap.toNat

/-- The space `Emit` writes (R26). -/
def dstSpace (s : State) : Memory := if s.str.dst then s.scr else s.out

/-- `Emit(b)` (R63): write at `OP` of the destination, `OP <- OP + 1`. -/
def emit (b : Byte) (s : State) : State :=
  if s.str.dst then
    { s with scr := s.scr.write s.str.op b, str := { s.str with op := s.str.op + 1 } }
  else
    { s with out := s.out.write s.str.op b, str := { s.str with op := s.str.op + 1 } }

/-- `Emit` of each byte in order. -/
def emitAll : List Byte → State → State
  | [], s => s
  | b :: bs, s => emitAll bs (emit b s)

/-- `Back(d)` (R64): the byte at `OP - d - 1` of the destination, `OP` as it is now. -/
def back (d : Nat) (s : State) : Byte := (dstSpace s).read (s.str.op - d - 1)

/-- `repeat n times: Emit(Back(d))` (42_lz.md R173, 70_reset_and_hazards.md R335): one byte at a time, each read after
the write before it. -/
def copyBack (d : Nat) : Nat → State → State
  | 0, s => s
  | n + 1, s => copyBack d n (emit (back d s) s)

/-- `k`, if the destination has room for `n` more bytes; a fault of the model otherwise (log 20). -/
def withRoom (n : Nat) (s : State) (k : State) : Outcome :=
  if s.str.op + n ≤ capacity s then .next k else .fault .writeBeyondSpace

/-- The payload of `STORE` and `ZLIB` (41_dispatcher.md R151, R156): written from address 0 of the destination, where
`OP` stands when a method begins (R152; log 19), and the stream is used up. -/
def payloadOut (bs : List Byte) (s : State) : State :=
  let t := emitAll bs { s with str := { s.str with op := 0 } }
  { t with str := { t.str with ip := s.str.limit }, phase := .finish }

/-- The output of an encoder, whose length is known only as it goes (R75): append only from address 0;
`BadArgument(OP)` at the first byte that does not fit `OUT_CAP`, otherwise `k`. -/
def encoderOut (bs : List Byte) (s : State) (k : State → State) : State :=
  let fits := bs.take s.cfg.outCap.toNat
  let t := { s with out := s.out.writeN 0 fits, str := { s.str with op := fits.length } }
  if bs.length ≤ s.cfg.outCap.toNat then k t else raise .badArgument t.str.op t

/-- A unit returns to its caller (R150, 46_xpck.md R251): the command ends, or, when the stream was the name table of
`XPCK_OPEN` (`DST = 1`), `NT_LEN <- OP`, the bounds are put back and the names are looked up. -/
def unitDone (s : State) : State :=
  if s.str.dst then
    { s with
      xp := { s.xp with ntLen := s.str.op }
      str := { s.str with base := 0, limit := s.host.inLen.toNat, dst := false }
      phase := .lookup 0 }
  else endCommand s

end Sys2Proof.Machine
end

