-- ==== Sys2Proof/Machine/Commands.lean ====
section
/-! DEFINITION. The commands with no unit of their own: `NOP`, the reserved codes, the header codec and `CRC32`
(40_commands_header.md R131 to R134, 45_crc32.md R235). -/

namespace Sys2Proof.Machine

/-- `NOP` (R131): nothing after the prologue. -/
def execNop (s : State) : Outcome := startCommand (fun p => .next (endCommand p)) s

/-- The body of `DEC_HDR` (R132). -/
def decHdrBody (p : State) : Outcome :=
  if p.host.inLen.toNat < 4 then .next (raise .malformedHeader p.host.inLen.toNat p)
  else
    let h := u32le (p.inp.read 0) (p.inp.read 1) (p.inp.read 2) (p.inp.read 3)
    .next (endCommand { p with
      host := { p.host with res0 := (headerMethod h).setWidth 32, res1 := (headerSize h).setWidth 32 } })

/-- `DEC_HDR` (R132). -/
def execDecHdr (s : State) : Outcome := startCommand decHdrBody s

/-- The body of `ENC_HDR` (R133); the room for its 4 bytes is checked as R75 asks of every command (log 10). -/
def encHdrBody (p : State) : Outcome :=
  if 5 < p.host.arg0.toNat then .next (raise .badArgument p.host.arg0.toNat p)
  else if Config.sizeMax < p.host.arg1.toNat then .next (raise .badArgument p.host.arg1.toNat p)
  else if p.cfg.outCap.toNat < 4 then .next (raise .badArgument 4 p)
  else
    .next (endCommand { p with
      out := p.out.writeN 0 (le32 ((p.host.arg1 <<< 3) ||| p.host.arg0))
      str := { p.str with op := 4 } })

/-- `ENC_HDR` (R133). -/
def execEncHdr (s : State) : Outcome := startCommand encHdrBody s

/-- The body of `CRC32` (R235): `RES0 <- Crc32(IN[0:IN_LEN])`. -/
def crc32Body (p : State) : Outcome :=
  let data := p.inp.readN 0 p.host.inLen.toNat
  .next (endCommand { p with
    crcAcc := crcRun p.cfg data
    host := { p.host with res0 := crc32 p.cfg data } })

/-- `CRC32` (R235). -/
def execCrc32 (s : State) : Outcome := startCommand crc32Body s

/-- `CMD` code 11, reserved (R134). -/
def execCmdReserved11 (s : State) : Outcome := .next (reservedCommand 11#32 s)

/-- `CMD` code 12, reserved (R134). -/
def execCmdReserved12 (s : State) : Outcome := .next (reservedCommand 12#32 s)

/-- `CMD` code 13, reserved (R134). -/
def execCmdReserved13 (s : State) : Outcome := .next (reservedCommand 13#32 s)

/-- `CMD` code 14, reserved (R134). -/
def execCmdReserved14 (s : State) : Outcome := .next (reservedCommand 14#32 s)

/-- `CMD` code 15, reserved (R134). -/
def execCmdReserved15 (s : State) : Outcome := .next (reservedCommand 15#32 s)

end Sys2Proof.Machine
end

