-- ==== Sys2Proof/Machine/Huffman.lean ====
section
/-! DEFINITION. The Huffman decoder (43_huffman.md R200 to R205). One step of the walk (R202) is two steps of the
machine: the code bit computes the child's index and leaf flag, then the table byte at that index is read as a node or
as a leaf (log 25). -/

namespace Sys2Proof.Machine

/-- The entry of `HufDecode` (R200): the capacity check, before the table header is fetched. -/
def hufEnter (s : State) : State :=
  if capacity s < s.str.size then raise .badArgument s.str.size s
  else { s with phase := .hufTable }

/-- The body of `HUF_DEC` (R200). -/
def hufDecBody (p : State) : Outcome :=
  if p.host.arg0.toNat ≠ 4 ∧ p.host.arg0.toNat ≠ 8 then .next (raise .badArgument p.host.arg0.toNat p)
  else if Config.sizeMax < p.host.arg1.toNat then .next (raise .badArgument p.host.arg1.toNat p)
  else
    .next (hufEnter { p with
      huf := { p.huf with depth := p.host.arg0.toNat }
      str := { p.str with size := p.host.arg1.toNat, ip := 0 } })

/-- `HUF_DEC` (R200). -/
def execHufDec (s : State) : Outcome := startCommand hufDecBody s

/-- What `HufDecode` does with the table bytes (R200): the table load, `NEED`, and the registers of the walk. -/
def hufLoad (bytes : List Byte) (s : State) : Outcome :=
  .next { s with
    tbl := s.tbl.writeN 0 bytes
    str := { s.str with op := 0 }
    huf :=
      { s.huf with
        need := symbolCount s.huf.depth s.str.size, bitCnt := 0, nibv := false, cur := s.huf.root, next := 0 }
    phase := .hufBit }

/-- `HUF_TABLE` (R200): `TSIZE` and `ROOT` at `IP`, then the `2 * TSIZE` table bytes. -/
def execHufTable (tsize root : Byte) (s : State) : Outcome :=
  fetch (2 * tsize.toNat) (advanceIp 2 { s with huf := { s.huf with tsize := tsize, root := root } }) hufLoad

/-- `HUF_WORD` (R201): the code word at `IP`; `BITCNT <- 32`. -/
def execHufWord (code : Word) (s : State) : Outcome :=
  .next (advanceIp 4 { s with huf := { s.huf with code := code, bitCnt := 32 } })

/-- The next bit of `CODE`, bit 31 (R201). -/
def nextBit (s : State) : Bool := s.huf.code.getLsbD 31

/-- The rest of `NextBit` (R201) and `Step` up to the bounds check (R202), on input bit `bit`. -/
def hufStep (bit : Bool) (s : State) : State :=
  let next := childNext s.huf.next s.huf.cur
  let idx := childIndex next bit
  let t := { s with huf := { s.huf with code := s.huf.code <<< 1, bitCnt := s.huf.bitCnt - 1, next := next } }
  if 2 * s.huf.tsize.toNat ≤ idx then raise .invalidStream s.str.ip t
  else { t with phase := .hufChild idx (childLeaf s.huf.cur bit) }

/-- `HUF_STEP0` (R202): a step on input bit 0. -/
def execHufStep0 (s : State) : Outcome := .next (hufStep false s)

/-- `HUF_STEP1` (R202): a step on input bit 1. -/
def execHufStep1 (s : State) : Outcome := .next (hufStep true s)

/-- `HUF_NODE` (R202): the child is a node; the walk stands on it. -/
def execHufNode (leaf0 leaf1 : Bool) (offset : BitVec 6) (s : State) : Outcome :=
  .next { s with huf := { s.huf with cur := nodeByte leaf0 leaf1 offset }, phase := .hufBit }

/-- Back to the root after a leaf (R202), one symbol fewer to decode (R203, R204). -/
def hufRestart (s : State) : State :=
  { s with huf := { s.huf with need := s.huf.need - 1, cur := s.huf.root, next := 0 }, phase := .hufBit }

/-- `HUF_LEAF8` (R203): the symbol is one output byte. -/
def execHufLeaf8 (symbol : Byte) (s : State) : Outcome := withRoom 1 s (hufRestart (emit symbol s))

/-- `HUF_LEAF4` (R204): two nibbles make a byte, low nibble first. -/
def execHufLeaf4 (symbol : BitVec 4) (s : State) : Outcome :=
  if s.huf.nibv then
    withRoom 1 s (hufRestart { emit (symbol ++ s.huf.nib) s with huf := { s.huf with nibv := false } })
  else .next (hufRestart { s with huf := { s.huf with nib := symbol, nibv := true } })

end Sys2Proof.Machine
end

