-- ==== Sys2Proof/Machine/Lz.lean ====
section
/-! DEFINITION. The LZ decompressor (42_lz.md R170 to R174) and compressor (R180 to R183). -/

namespace Sys2Proof.Machine

/-! ## Decompressor -/

/-- The entry of `LzDecode` (R171): the capacity check, `OP <- 0`, `FCNT <- 0`, then the loop. -/
def lzEnter (s : State) : State :=
  if capacity s < s.str.size then raise .badArgument s.str.size s
  else { s with str := { s.str with op := 0 }, lz := { s.lz with fcnt := 0 }, phase := .lz }

/-- The body of `LZ_DEC` (R170). -/
def lzDecBody (p : State) : Outcome :=
  if Config.sizeMax < p.host.arg1.toNat then .next (raise .badArgument p.host.arg1.toNat p)
  else .next (lzEnter { p with str := { p.str with size := p.host.arg1.toNat, ip := 0 } })

/-- `LZ_DEC` (R170). -/
def execLzDec (s : State) : Outcome := startCommand lzDecBody s

/-- `LIT` (R172): one literal byte, at `IP`. -/
def execLit (byte : Byte) (s : State) : Outcome := withRoom 1 s (emit byte (advanceIp 1 s))

/-- `REF` (R173): the token at `IP`. -/
def execRef (len3 : BitVec 4) (disp : BitVec 12) (s : State) : Outcome :=
  let a := s.str.ip
  let l := refLength len3
  let d := refDisp disp
  let t := advanceIp 2 { s with lz := { s.lz with len := l, disp := d } }
  if s.str.op ≤ d then .next (raise .invalidStream a t)
  else
    match acceptedCount s.cfg.overrunPolicy s.str.op l s.str.size with
    | none => .next (raise .malformedHeader a t)
    | some n => withRoom n s (copyBack d n { t with lz := { t.lz with len := n } })

/-- The flag byte of a group is fetched when a symbol is needed and no flag is left (R171): `FLAGS <- Fetch(1)[0]`,
`FCNT <- 8`. -/
def loadFlags (s : State) : State :=
  if s.lz.fcnt = 0 then
    advanceIp 1 { s with lz := { s.lz with flags := s.inp.read s.str.ip, fcnt := 8 } }
  else s

/-- The flag of the next symbol, `bits[7:7]` of `FLAGS` (R171). -/
def nextFlag (s : State) : Bool := s.lz.flags.getLsbD 7

/-- The flag is taken: `FLAGS <- (FLAGS << 1) & 0xFF`, `FCNT <- FCNT - 1` (R171). -/
def takeFlag (s : State) : State :=
  { s with lz := { s.lz with flags := s.lz.flags <<< 1, fcnt := s.lz.fcnt - 1 } }

/-! ## Compressor -/

/-- `data[j:j+len] = data[pos:pos+len]` (R181). -/
def occursAt (data : List Byte) (pos len j : Nat) : Bool :=
  (data.drop j).take len == (data.drop pos).take len

/-- The start of the window at `pos`: `max(0, pos - 4096)` (R181). -/
def windowStart (pos : Nat) : Nat := pos - Config.window

/-- The smallest start of an occurrence of `data[pos:pos+len]` lying wholly inside the window (R181). -/
def findStart (data : List Byte) (pos len : Nat) : Option Nat :=
  ((List.range (pos + 1 - len - windowStart pos)).map (fun k => windowStart pos + k)).find? (occursAt data pos len)

/-- The longest match of length 3 to `len`, with its length and its distance (R181). -/
def longestMatch (data : List Byte) (pos : Nat) : Nat → Option (Nat × Nat)
  | 0 => none
  | len + 1 =>
    if len + 1 < Config.minMatch then none
    else
      match findStart data pos (len + 1) with
      | some j => some (len + 1, pos - j)
      | none => longestMatch data pos len

/-- The match at `pos` (R181): lengths up to `min(18, n - pos)`. -/
def findMatch (data : List Byte) (pos : Nat) : Option (Nat × Nat) :=
  longestMatch data pos (min Config.maxMatch (data.length - pos))

/-- The symbol of a match: `REF(L, dist)` with its encoded fields (R96). -/
def refSymbol (len dist : Nat) : Instr := .ref (BitVec.ofNat 4 (len - 3)) (BitVec.ofNat 12 (dist - 1))

/-- `LzParse` from `pos` (R182): greedy, without lookahead. The first argument bounds the number of symbols. -/
def lzParseFrom (data : List Byte) : Nat → Nat → List Instr
  | 0, _ => []
  | fuel + 1, pos =>
    if pos < data.length then
      match findMatch data pos with
      | some (len, dist) => refSymbol len dist :: lzParseFrom data fuel (pos + len)
      | none => .lit (data.getD pos 0#8) :: lzParseFrom data fuel (pos + 1)
    else []

/-- `LzParse(data)` (R182). -/
def lzParse (data : List Byte) : List Instr := lzParseFrom data data.length 0

/-- The flag byte of a group (R183): bit `7 - k` set when symbol `k` is a reference. -/
def groupFlags : Nat → List Instr → Byte
  | _, [] => 0#8
  | k, i :: is =>
    match i with
    | .ref _ _ => (1#8 <<< (7 - k)) ||| groupFlags (k + 1) is
    | _ => groupFlags (k + 1) is

/-- The bytes of a group's symbols, without their flag bits (R183). -/
def groupBytes (grp : List Instr) : List Byte := grp.flatMap (fun i => (encode i).drop 1)

/-- `LzGroups(syms)` (R183). The first argument bounds the number of groups. -/
def lzGroupsFrom : Nat → List Instr → List Byte
  | 0, _ => []
  | fuel + 1, syms =>
    if syms = [] then []
    else groupFlags 0 (syms.take 8) :: (groupBytes (syms.take 8) ++ lzGroupsFrom fuel (syms.drop 8))

/-- `LzGroups(syms)` (R183). -/
def lzGroups (syms : List Instr) : List Byte := lzGroupsFrom syms.length syms

/-- The complete stream of `LZ_ENC` (R180): header, then groups. -/
def lzStream (data : List Byte) : List Byte :=
  le32 (headerWord 1#3 (BitVec.ofNat 29 data.length)) ++ lzGroups (lzParse data)

/-- The body of `LZ_ENC` (R180). -/
def lzEncBody (p : State) : Outcome :=
  if Config.sizeMax < p.host.inLen.toNat then .next (raise .badArgument p.host.inLen.toNat p)
  else .next (encoderOut (lzStream (p.inp.readN 0 p.host.inLen.toNat)) p endCommand)

/-- `LZ_ENC` (R180). -/
def execLzEnc (s : State) : Outcome := startCommand lzEncBody s

end Sys2Proof.Machine
end

