-- ==== Sys2Proof/Machine/Rle.lean ====
section
/-! DEFINITION. The RLE expander (44_rle.md R220 to R224). -/

namespace Sys2Proof.Machine

/-- `RleStream` after its header is fetched (R220): the method, the capacity, `OP <- 0`, then the loop. -/
def rleHeader (h : Word) (s : State) : State :=
  let t := { s with str := { s.str with method := headerMethod h, size := (headerSize h).toNat } }
  if headerMethod h ≠ 4#3 then raise .malformedHeader s.str.base t
  else if capacity t < t.str.size then raise .badArgument t.str.size t
  else { t with str := { t.str with op := 0 }, phase := .rle }

/-- `RleStream` (R220): `IP <- BASE`, and the header is read again from the stream (41_dispatcher.md R155). -/
def rleStream (s : State) : Outcome :=
  let t := { s with str := { s.str with ip := s.str.base } }
  if t.str.limit - t.str.base < 4 then .next (raise .malformedHeader t.str.ip t)
  else
    fetch 4 t fun h u => .next (rleHeader (u32le (h.getD 0 0#8) (h.getD 1 0#8) (h.getD 2 0#8) (h.getD 3 0#8)) u)

/-- `RLE_DEC` (R220). -/
def execRleDec (s : State) : Outcome := startCommand rleStream s

/-- `RUN` (R222): the control byte and the data byte at `IP`. -/
def execRun (n3 : BitVec 7) (value : Byte) (s : State) : Outcome :=
  let a := s.str.ip
  let t := advanceIp 2 { s with rle := { ctl := runControl n3, count := runCount n3 } }
  match acceptedCount s.cfg.overrunPolicy s.str.op (runCount n3) s.str.size with
  | none => .next (raise .malformedHeader a t)
  | some n => withRoom n s (emitAll (List.replicate n value) { t with rle := { t.rle with count := n } })

/-- `COPY` (R223): the control byte at `IP`, then its data bytes. The overrun check comes before the data is fetched. -/
def execCopy (n1 : BitVec 7) (s : State) : Outcome :=
  let a := s.str.ip
  let t := advanceIp 1 { s with rle := { ctl := copyControl n1, count := copyCount n1 } }
  match acceptedCount s.cfg.overrunPolicy s.str.op (copyCount n1) s.str.size with
  | none => .next (raise .malformedHeader a t)
  | some n => fetch n { t with rle := { t.rle with count := n } } fun d u => withRoom n u (emitAll d u)

end Sys2Proof.Machine
end

