-- ==== Sys2Proof/Machine/Dispatcher.lean ====
section
/-! DEFINITION. The compression dispatcher (41_dispatcher.md R150 to R159): `DECOMPRESS`, the method codes, the store
method and the zlib passthrough port. -/

namespace Sys2Proof.Machine

/-- The entry of `Dispatch` (R150): `IP <- BASE`; the header is fetched next. -/
def dispatchEnter (s : State) : State :=
  { s with str := { s.str with ip := s.str.base }, phase := .header }

/-- `DECOMPRESS` (R150). -/
def execDecompress (s : State) : Outcome := startCommand (fun p => .next (dispatchEnter p)) s

/-- The header at `IP` is taken (R150): `METHOD`, `SIZE`, and `IP` past its 4 bytes. `OP` is 0 here, as R152 says; the
prologue made it so (log 19). -/
def beginMethod (method : BitVec 3) (size : BitVec 29) (s : State) : State :=
  { s with str := { s.str with ip := s.str.ip + 4, op := 0, method := method, size := size.toNat } }

/-- A payload whose length `n` must be the size field's under `STORE_SIZE_CHECK = strict` (R151, R156). -/
def sizeMismatch (n : Nat) (s : State) : Bool :=
  decide (s.cfg.storeSizeCheck = .strict) && decide (n ≠ s.str.size)

/-- `Store` (R151). -/
def storePayload (s : State) : Outcome :=
  let n := s.str.limit - s.str.ip
  if sizeMismatch n s then .next (raise .malformedHeader s.str.ip s)
  else if capacity s < n then .next (raise .badArgument n s)
  else if s.cfg.inCap.toNat < s.str.ip + n then .fault .readBeyondSpace
  else .next (payloadOut (bytesAtIp n s) s)

/-- `STORE`, method 0 (R151). -/
def execStore (size : BitVec 29) (s : State) : Outcome := storePayload (beginMethod 0#3 size s)

/-- `LZ`, method 1 (R152): control passes to `LzDecode`. -/
def execLz (size : BitVec 29) (s : State) : Outcome := .next (lzEnter (beginMethod 1#3 size s))

/-- The two Huffman methods set `DEPTH` and pass control to `HufDecode` (R153, R154). -/
def hufMethod (depth : Nat) (s : State) : State := hufEnter { s with huf := { s.huf with depth := depth } }

/-- `HUF4`, method 2 (R153). -/
def execHuf4 (size : BitVec 29) (s : State) : Outcome := .next (hufMethod 4 (beginMethod 2#3 size s))

/-- `HUF8`, method 3 (R154). -/
def execHuf8 (size : BitVec 29) (s : State) : Outcome := .next (hufMethod 8 (beginMethod 3#3 size s))

/-- `RLE`, method 4 (R155): the unit takes the whole stream again. -/
def execRle (size : BitVec 29) (s : State) : Outcome := rleStream (beginMethod 4#3 size s)

/-- `ZLIB`, method 5 (R156): the first payload byte is checked next. -/
def execZlib (size : BitVec 29) (s : State) : Outcome :=
  .next { beginMethod 5#3 size s with phase := .zlibMagic }

/-- What becomes of the engine's answer (R156). -/
def zlibAnswer (r : Option (List Byte)) (s : State) : State :=
  match r with
  | none => raise .invalidStream s.str.ip s
  | some bytes =>
    if sizeMismatch bytes.length s then raise .malformedHeader s.str.ip s
    else if capacity s < bytes.length then raiseLength .badArgument bytes.length s
    else payloadOut bytes s

/-- `ZLIB_MAGIC` (R156): the magic stands at `IP`; the whole payload, that byte included, goes to the engine (R158). -/
def execZlibMagic (s : State) : Outcome :=
  let n := s.str.limit - s.str.ip
  if s.cfg.inCap.toNat < s.str.ip + n then .fault .readBeyondSpace
  else .next (zlibAnswer (Config.inflate (bytesAtIp n s)) s)

/-- Method 6 (R157). -/
def execMethod6 (size : BitVec 29) (s : State) : Outcome :=
  .next (raise .unknownMethod 6 (beginMethod 6#3 size s))

/-- Method 7 (R157). -/
def execMethod7 (size : BitVec 29) (s : State) : Outcome :=
  .next (raise .unknownMethod 7 (beginMethod 7#3 size s))

end Sys2Proof.Machine
end

