-- ==== Sys2Proof/Machine/XpckOpen.lean ====
section
/-! DEFINITION. `XPCK_OPEN` (46_xpck.md R247 to R255): the magic, the header, the count field, the records, the name
table, the lookup of the names, the report and the result. -/

namespace Sys2Proof.Machine

/-- `XPCK_OPEN` (R247). -/
def execXpckOpen (s : State) : Outcome := startCommand (fun p => .next { p with phase := .xpckMagic }) s

/-- `XPCK_MAGIC` (R247): the magic is there; `ReadHeader` begins with `IP <- 4` (R248). -/
def execXpckMagic (s : State) : Outcome :=
  .next { s with str := { s.str with ip := 4 }, phase := .xph }

/-- `XPH` (R248): the ten header bytes at `IP`. The tail fields (bytes 14 to 19) are not read. The count is also an
instruction of its own, executed next (log 24). -/
def execXph (count infoOff4 nameOff4 dataOff4 f4 _nameLen4 : BitVec 16) (_dataLen4 : Word) (s : State) : Outcome :=
  .next (advanceIp 10 { s with
    xp :=
      { s.xp with
        cnt := countDecode s.cfg.countDecode count
        infoOff := 4 * infoOff4.toNat, nameOff := 4 * nameOff4.toNat, dataOff := 4 * dataOff4.toNat
        f4 := 4 * f4.toNat }
    phase := .countField })

/-- `COUNT_FIELD` (R249), and the start of `ReadRecords` (R250): `LUT <- empty`, `REC` at 0. -/
def execCountField (f1 f2 : Byte) (s : State) : Outcome :=
  .next { s with
    xp := { s.xp with cnt := countDecode s.cfg.countDecode (u16le f1 f2), recIdx := 0 }
    lut := []
    phase := .records }

/-- `LUT[crc] <- (addr, size)` (R42, R250): replaces an entry with the same key. -/
def lutInsert (e : LutEntry) (lut : List LutEntry) : List LutEntry :=
  e :: lut.filter (fun x => decide (x.key ≠ e.key))

/-- The entry of `LUT` under a key (R252). -/
def lutFind (key : Word) (lut : List LutEntry) : Option LutEntry := lut.find? (fun x => decide (x.key = key))

/-- `XPR` (R250): the record at `IP`. -/
def execXpr (crc : Word) (_nameOff offLo sizeLo : BitVec 16) (offHi sizeHi : Byte) (s : State) : Outcome :=
  let a := s.str.ip
  let t := advanceIp 12 s
  let addr := recordAddr s.xp.dataOff offLo offHi
  let size := recordSize sizeLo sizeHi
  if s.host.inLen.toNat < addr + size then .next (raise .truncatedStream a t)
  else
    .next { t with
      lut := lutInsert { key := crc, addr := addr, size := size } s.lut
      xp := { s.xp with recIdx := s.xp.recIdx + 1 }
      phase := .records }

/-- `ReadNames` up to the call of `Dispatch` (R251). -/
def readNames (s : State) : State :=
  if s.xp.dataOff < s.xp.nameOff then raise .invalidStream s.xp.nameOff s
  else if s.host.inLen.toNat < s.xp.dataOff then raise .truncatedStream s.xp.dataOff s
  else
    dispatchEnter { s with str := { s.str with base := s.xp.nameOff, limit := s.xp.dataOff, dst := true } }

/-- The length of the name at `p` (R252): up to the first zero byte of `SCR` below `NT_LEN`, here given the bytes from
`p` on. -/
def nameLength : List Byte → Nat
  | [] => 0
  | b :: bs => if b = 0#8 then 0 else nameLength bs + 1

/-- `name <- SCR[p:q]` (R252). -/
def nameAt (p : Nat) (s : State) : List Byte :=
  let rest := s.scr.readN p (s.xp.ntLen - p)
  rest.take (nameLength rest)

/-- The index of the name that is processed next (R34, R252): every name before it is in the result or
reported (log 23). -/
def nameIndex (s : State) : Nat := s.found.length + s.host.rptCnt.toNat

/-- `REC` while the name of index `k` is processed (R34): `k`, or a free value where 12 bits cannot hold it (log 35). -/
def nameRec (k : Nat) : Nat := if k ≤ Config.countMax then k else (Config.freeRec k).toNat

/-- One pass of the loop of `Lookup` (R252) at `p < NT_LEN`, up to the report, which is an instruction of its own. -/
def lookupName (p : Nat) (s : State) : State :=
  let name := nameAt p s
  if name = [] then { s with phase := .lookup (p + 1) }
  else
    let t := { s with crcAcc := crcRun s.cfg name, xp := { s.xp with recIdx := nameRec (nameIndex s) } }
    match lutFind (crc32 s.cfg name) s.lut with
    | some e =>
      { t with
        found := s.found ++ [{ off := p, len := name.length, addr := e.addr, size := e.size }]
        phase := .lookup (p + name.length + 1) }
    | none =>
      { t with
        phase := .report
          { code := 5#32, crc := crc32 s.cfg name, off := BitVec.ofNat 32 p, len := BitVec.ofNat 32 name.length } }

/-- `RPT_ENTRY` (R253, 60_exceptions.md R305): the report, then the loop goes on after the name. -/
def execRptEntry (crc off len : Word) (s : State) : Outcome :=
  .next { report { code := 5#32, crc := crc, off := off, len := len } s with
    phase := .lookup (off.toNat + len.toNat + 1) }

/-- A member of the result: its name from `SCR`, its data from `IN` (R252). -/
def foundMember (s : State) (f : Found) : Member := (s.scr.readN f.off f.len, s.inp.readN f.addr f.size)

/-- The members of the result, in name-table order (R252, R254). -/
def resultMembers (s : State) : List Member := s.found.map (foundMember s)

/-- The first name longer than its 16-bit length field admits (R254). -/
def longName (s : State) : Option Nat := (s.found.map Found.len).find? (fun n => decide (65535 < n))

/-- `WriteResult` (R254). The two failures record the length that does not fit; where both hold the spec does not say
which is recorded, and `ERRINFO` is a free value (logs 9 and 32). -/
def writeResult (s : State) : Outcome :=
  let bytes := fileListBytes (resultMembers s)
  if s.cfg.inCap.toNat < s.host.inLen.toNat then .fault .readBeyondSpace
  else
    match longName s with
    | some n =>
      if s.cfg.outCap.toNat < bytes.length then .next (raiseFree .badArgument n s) else .next (raise .badArgument n s)
    | none =>
      if s.cfg.outCap.toNat < bytes.length then .next (raiseLength .badArgument bytes.length s)
      else
        .next (endCommand { s with
          out := s.out.writeN 0 bytes
          str := { s.str with op := bytes.length }
          host :=
            { s.host with
              res0 := BitVec.ofNat 32 s.found.length, res1 := BitVec.ofNat 32 s.xp.cnt } })

end Sys2Proof.Machine
end

