-- ==== Sys2Proof/Machine/XpckPack.lean ====
section
/-! DEFINITION. `XPCK_PACK` (46_xpck.md R260 to R269): the checks of the file list, the layout, the archive. The file
list itself is the instruction `FLS` (R246), read by the step after the command's start. -/

namespace Sys2Proof.Machine

/-- `XPCK_PACK` (R260): the file list in `IN` is read next. -/
def execXpckPack (s : State) : Outcome := startCommand (fun p => .next { p with phase := .fls }) s

/-! ## The refusals of R260 -/

/-- The index of the first member whose name is empty, contains a byte 0, or equals an earlier member's name (R260;
log 12). `seen` are the earlier names. -/
def badName (seen : List (List Byte)) (idx : Nat) : List Member → Option Nat
  | [] => none
  | m :: ms =>
    if m.1 = [] ∨ 0#8 ∈ m.1 ∨ m.1 ∈ seen then some idx else badName (m.1 :: seen) (idx + 1) ms

/-- The value recorded when R260 refuses a well-formed list: the count, or a member's index. -/
def refusedList (cfg : Config) (ms : List Member) : Option Nat :=
  if ms.length = 0 ∨ Config.countMax < ms.length then some ms.length
  else if cfg.countDecode = .branchAware ∧ ms.length ∈ ambiguousCounts then some ms.length
  else badName [] 0 ms

/-! ## Layout (R261 to R265) -/

/-- `SortByName` (R261). -/
def sortByName (ms : List Member) : List Member :=
  ms.insertionSort (fun x y => bytesLe x.1 y.1 = true)

/-- `doff[0 .. c-1]` (R262), the first at `start`. -/
def dataOffsets (start : Nat) : List Member → List Nat
  | [] => []
  | m :: ms => start :: dataOffsets (start + (pad16 m.2).length) ms

/-- `dsz` (R262). -/
def dataSizes (ms : List Member) : List Nat := ms.map (fun m => (pad16 m.2).length)

/-- The data section (R262). -/
def dataSection (ms : List Member) : List Byte := ms.flatMap (fun m => pad16 m.2)

/-- `noff[0 .. c-1]` (R263), the first at `start`. -/
def nameOffsets (start : Nat) : List Member → List Nat
  | [] => []
  | m :: ms => start :: nameOffsets (start + m.1.length + 1) ms

/-- `NT` (R263). -/
def nameTable (ms : List Member) : List Byte := ms.flatMap (fun m => m.1 ++ [0#8])

/-- `blobp` (R264): the LZ stream of the name table, padded so that the data section starts a multiple of 16 bytes
after the file-info table. -/
def nameBlob (ms : List Member) : List Byte :=
  let blob := lzStream (nameTable ms)
  blob ++ List.replicate ((16 - (12 * ms.length + blob.length) % 16) % 16) 0#8

/-- `INFO_OFF` (R264): the file-info table follows the header, of `XPCK_HDR_LEN` bytes (R7, R105). That this and the two
offsets below are no writes of the registers of R34 is the model's reading (log 34). -/
def packInfoOff (cfg : Config) : Nat := cfg.xpckHdrLen

/-- `NAME_OFF` (R264). -/
def packNameOff (cfg : Config) (ms : List Member) : Nat := packInfoOff cfg + 12 * ms.length

/-- `DATA_OFF` (R264). -/
def packDataOff (cfg : Config) (ms : List Member) : Nat := packNameOff cfg ms + (nameBlob ms).length

/-- The record of a member with name offset `noff` and data offset `doff` (R265). -/
def packRecord (cfg : Config) (m : Member) (noff doff : Nat) : Instr :=
  let o := doff / 4
  let z := (pad16 m.2).length
  .xpr (crc32 cfg m.1) (BitVec.ofNat 16 noff) (BitVec.ofNat 16 o) (BitVec.ofNat 16 z)
    (BitVec.ofNat 8 (o / 65536)) (BitVec.ofNat 8 (z / 65536))

/-- The records with their keys, in name order (R265). -/
def keyedRecords (cfg : Config) : List Member → Nat → Nat → List (Word × Instr)
  | [], _, _ => []
  | m :: ms, noff, doff =>
    (crc32 cfg m.1, packRecord cfg m noff doff) ::
      keyedRecords cfg ms (noff + m.1.length + 1) (doff + (pad16 m.2).length)

/-- The records in ascending order of their keys, equal keys in name order (R265). -/
def sortedRecords (cfg : Config) (ms : List Member) : List Instr :=
  ((keyedRecords cfg ms 0 0).insertionSort (fun x y => x.1.toNat ≤ y.1.toNat)).map Prod.snd

/-- The archive header (R105, R267). -/
def packHeader (cfg : Config) (ms : List Member) : Instr :=
  .xph (countFieldOf ms.length) (BitVec.ofNat 16 (packInfoOff cfg / 4)) (BitVec.ofNat 16 (packNameOff cfg ms / 4))
    (BitVec.ofNat 16 (packDataOff cfg ms / 4)) (BitVec.ofNat 16 (12 * ms.length / 4))
    (BitVec.ofNat 16 ((nameBlob ms).length / 4)) (BitVec.ofNat 32 ((dataSection ms).length / 4))

/-- The `XPCK_HDR_LEN` bytes of the header: R105's 20 bytes where the length is 20; a shorter header ends early, a longer
one goes on with free bytes (90_conflicts.md C6; log 27). -/
def headerBytes (cfg : Config) (ms : List Member) : List Byte :=
  (encode (packHeader cfg ms)).take cfg.xpckHdrLen ++
    (List.range (cfg.xpckHdrLen - 20)).map (fun k => Config.headerFiller (20 + k))

/-- The archive of the sorted members `ms` (R267). -/
def packArchive (cfg : Config) (ms : List Member) : List Byte :=
  headerBytes cfg ms ++ (sortedRecords cfg ms).flatMap encode ++ nameBlob ms ++ dataSection ms

/-! ## Range checks (R269) -/

/-- The first value there is. -/
def firstOf : List (Option Nat) → Option Nat
  | [] => none
  | some v :: _ => some v
  | none :: os => firstOf os

/-- The value, if it is above the bound. -/
def above (bound v : Nat) : Option Nat := if bound < v then some v else none

/-- A header length that cannot carry R105's fields before the file-info table: below 14 bytes, or no multiple of the
4-byte unit of the section offsets (log 27). It never happens with `XPCK_HDR_LEN = 20`. -/
def badHeaderLength (cfg : Config) : Option Nat :=
  if cfg.xpckHdrLen < 14 ∨ cfg.xpckHdrLen % 4 ≠ 0 then some cfg.xpckHdrLen else none

/-- The first range check of R269 that fails, with the offending value, in layout order (60_exceptions.md R301 (8)):
those of R262, then R263, then R264 (log 11). The last one, the archive longer than `OUT_CAP`, is the encoder
output's. -/
def rangeFailure (cfg : Config) (ms : List Member) : Option Nat :=
  firstOf
    [ ((dataOffsets 0 ms).map (fun v => v / 4)).find? (fun v => decide (0xFFFFFF < v))
    , (dataSizes ms).find? (fun v => decide (0xFFFFFF < v))
    , (nameOffsets 0 ms).find? (fun v => decide (0xFFFF < v))
    , above Config.sizeMax (nameTable ms).length
    , above cfg.scrCap.toNat (nameTable ms).length
    , badHeaderLength cfg
    , above 0xFFFF (packDataOff cfg ms / 4) ]

/-! ## The file list -/

/-- The scratch space after the layout (R44): the name table, then the compressed blob over it, as far as it fits
(log 14). -/
def packScratch (s : State) (ms : List Member) : Memory :=
  (s.scr.writeN 0 (nameTable ms)).writeN 0 ((lzStream (nameTable ms)).take s.cfg.scrCap.toNat)

/-- `CRCACC` after the keys of the sorted members have been computed (R265): that of the last one. -/
def packCrcAcc (s : State) (ms : List Member) : Word :=
  match ms.getLast? with
  | some m => crcRun s.cfg m.1
  | none => s.crcAcc

/-- Packing an accepted list of sorted members (R260 to R269). A padded member of exactly 2^32 bytes is an offending value
that `ERRINFO` cannot hold (log 8). The registers of R34 stay as they were (log 34). A list that a range check refuses
leaves `SCR` and `CRCACC` as they were too (logs 14 and 28). -/
def packSorted (ms : List Member) (s : State) : State :=
  match rangeFailure s.cfg ms with
  | some v => raiseLength .badArgument v s
  | none =>
    encoderOut (packArchive s.cfg ms) { s with scr := packScratch s ms, crcAcc := packCrcAcc s ms } fun t =>
      { t with
        host :=
          { t.host with res0 := BitVec.ofNat 32 ms.length, res1 := BitVec.ofNat 32 (packDataOff s.cfg ms) }
        phase := .finish }

/-- `FLS` as `XPCK_PACK` takes it (R246, R260): the whole of `IN[0:IN_LEN]` has been read as this file list. -/
def execFls (members : List Member) (s : State) : Outcome :=
  match refusedList s.cfg members with
  | some v => .next (raise .badArgument v s)
  | none => .next (packSorted (sortByName members) s)

end Sys2Proof.Machine
end

