-- ==== Sys2Proof/Machine/HostPort.lean ====
section
/-! DEFINITION. The host's side (10_state.md R22, R23, R29, R40; 70_reset_and_hazards.md R330 to R333): the register
file at its byte offsets, the windows on `IN`, `OUT` and `RPT`, the hazards while `BUSY = 1`, and reset. -/

namespace Sys2Proof.Machine

/-- The host registers (R22). -/
inductive HostReg where
  | cmd
  | status
  | errCode
  | errInfo
  | inLen
  | outLen
  | arg0
  | arg1
  | res0
  | res1
  | rptCnt
deriving DecidableEq, Repr

/-- The register at a byte offset (R22). -/
def regAt (off : Nat) : Option HostReg :=
  match off with
  | 0x00 => some .cmd
  | 0x04 => some .status
  | 0x08 => some .errCode
  | 0x0C => some .errInfo
  | 0x10 => some .inLen
  | 0x14 => some .outLen
  | 0x18 => some .arg0
  | 0x1C => some .arg1
  | 0x20 => some .res0
  | 0x24 => some .res1
  | 0x28 => some .rptCnt
  | _ => none

/-- A host write to a register other than `CMD`: only `IN_LEN`, `ARG0` and `ARG1` take it, a write to a read-only
register is ignored (R22), and while `BUSY = 1` every write is ignored (R333). -/
def writeReg (r : HostReg) (v : Word) (s : State) : State :=
  if s.host.busy then s
  else
    match r with
    | .inLen => { s with host := { s.host with inLen := v } }
    | .arg0 => { s with host := { s.host with arg0 := v } }
    | .arg1 => { s with host := { s.host with arg1 := v } }
    | .cmd | .status | .errCode | .errInfo | .outLen | .res0 | .res1 | .rptCnt => s

/-- The value of a register as the host reads it with `BUSY = 0` (R22); `CMD` reads as 0. -/
def regValue (h : HostRegs) : HostReg → Word
  | .cmd => 0#32
  | .status => statusWord h
  | .errCode => h.errCode.setWidth 32
  | .errInfo => h.errInfo
  | .inLen => h.inLen
  | .outLen => h.outLen
  | .arg0 => h.arg0
  | .arg1 => h.arg1
  | .res0 => h.res0
  | .res1 => h.res1
  | .rptCnt => h.rptCnt

/-- The host read returns `v`. -/
def returnWord (v : Word) (s : State) : State := { s with rdata := v }

/-- A host read that "returns an unspecified value" (R333): a free value (log 7). -/
def returnFree (s : State) : State :=
  { s with rdata := Config.freeWord s.freeCtr, freeCtr := s.freeCtr + 1 }

/-- A host read of a register: while `BUSY = 1` only `STATUS` can be read (R333; `CMD` reads as 0 always, R22; log
17). -/
def readReg (r : HostReg) (s : State) : State :=
  if s.host.busy ∧ r ≠ .status ∧ r ≠ .cmd then returnFree s else returnWord (regValue s.host r) s

/-- The word `word` of a report entry, 0 to 3 (R117). -/
def rptWord (e : RptEntry) (word : Nat) : Word :=
  match word with
  | 0 => e.code
  | 1 => e.crc
  | 2 => e.off
  | _ => e.len

/-- A host write to `IN` (R40, R333). -/
def hostWriteIn (a : Nat) (v : Byte) (s : State) : Outcome :=
  if s.cfg.inCap.toNat ≤ a then .fault (.noSuchAddress a)
  else if s.host.busy then .refused .inWriteWhileBusy
  else .next { s with inp := s.inp.write a v }

/-- A host read of `IN` (R40; log 17): a byte that nothing has written since reset is unspecified, and reading it is
refused (R331). -/
def hostReadIn (a : Nat) (s : State) : Outcome :=
  if s.cfg.inCap.toNat ≤ a then .fault (.noSuchAddress a)
  else if s.host.busy then .next (returnFree s)
  else
    match s.inp.written a with
    | some v => .next (returnWord (v.setWidth 32) s)
    | none => .refused .inUnspecified

/-- A host read of `OUT`: valid while `DONE = 1` and `ERR = 0`, below `OUT_LEN` (R61); free while `BUSY = 1` (R333);
refused otherwise (R46, R61, 93 U20). -/
def hostReadOut (a : Nat) (s : State) : Outcome :=
  if s.cfg.outCap.toNat ≤ a then .fault (.noSuchAddress a)
  else if s.host.busy then .next (returnFree s)
  else if s.host.done && !s.host.err && decide (a < s.host.outLen.toNat) then
    .next (returnWord ((s.out.read a).setWidth 32) s)
  else .refused .outUnspecified

/-- A host read of a word of a report entry (R43, R117; logs 16 to 18). -/
def hostReadRpt (entry word : Nat) (s : State) : Outcome :=
  if 4 ≤ word then .fault (.noSuchAddress word)
  else if s.host.busy then .next (returnFree s)
  else
    match s.rpt[entry]? with
    | none => .refused .rptUnspecified
    | some e => .next (returnWord (rptWord e word) s)

/-- Reset (R330, R331): the state of R46, whatever was running. The parameters stay, and so does what stands outside
the machine: the host's requests, the last value it read, and the free values' counter (log 26). -/
def applyReset (s : State) : State :=
  { State.reset with cfg := s.cfg, bus := s.bus, rdata := s.rdata, freeCtr := s.freeCtr }

end Sys2Proof.Machine
end

