-- ==== Sys2Proof/Machine/Fetch.lean ====
section
/-! DEFINITION. Fetching: what the machine runs next. Either the host's oldest access, or, while a command runs, the
next symbol of the unit that is active, at the control point `phase` (log 1). Where a loop of the pseudocode ends, or
bytes are missing, there is no instruction and the outcome is given at once. -/

namespace Sys2Proof.Machine

/-- What a step does: run an instruction in a state, or stop at an outcome. -/
inductive Fetched where
  | run (i : Instr) (s : State)
  | stop (o : Outcome)

/-- Run the instruction of format `f` that `bs` decode to in `s`; `onErr` where they do not. -/
def runDecoded (f : Fmt) (bs : List Byte) (s : State) (onErr : Outcome) : Fetched :=
  match decode f bs with
  | .ok (i, _) => .run i s
  | .error _ => .stop onErr

/-- `k` with the `n` bytes at `IP`, if `Fetch(n)` has them (20_memory.md R62). The cursor is left where it is: the
instruction moves it. -/
def peek (n : Nat) (s : State) (k : List Byte → Fetched) : Fetched :=
  match fetchStop n s with
  | some o => .stop o
  | none => k (bytesAtIp n s)

/-- The container header (41_dispatcher.md R150). -/
def fetchHeader (s : State) : Fetched :=
  if s.str.limit - s.str.base < 4 then .stop (.next (raise .malformedHeader s.str.base s))
  else peek 4 s fun h => runDecoded .hdr h s (.fault .undecodable)

/-- The first payload byte of a method-5 stream (R156). -/
def fetchZlibMagic (s : State) : Fetched :=
  if s.str.limit ≤ s.str.ip then .stop (.next (raise .badMagic s.str.ip s))
  else peek 1 s fun b => runDecoded .zlibMagic b s (.next (raise .badMagic s.str.ip s))

/-- The symbol after an LZ flag (42_lz.md R171): 2 bytes after a set flag, 1 after a clear one. `s` is the state with
the flag taken. -/
def fetchSymbol (flag : Bool) (s : State) : Fetched :=
  if flag then peek 2 s fun t => runDecoded .lzg (1#8 :: t) s (.fault .undecodable)
  else peek 1 s fun b => runDecoded .lzg (0#8 :: b) s (.fault .undecodable)

/-- One pass of the LZ symbol loop (R171). -/
def fetchLz (s : State) : Fetched :=
  if s.str.op < s.str.size then
    match (if s.lz.fcnt = 0 then fetchStop 1 s else none) with
    | some o => .stop o
    | none => fetchSymbol (nextFlag (loadFlags s)) (takeFlag (loadFlags s))
  else .stop (.next (unitDone s))

/-- One pass of the RLE chunk loop (44_rle.md R220, R221): the control byte, and for a run its data byte (R222). -/
def fetchRle (s : State) : Fetched :=
  if s.str.op < s.str.size then
    peek 1 s fun c =>
      if (c.headD 0#8).getLsbD 7 then
        let n3 := (c.headD 0#8).extractLsb' 0 7
        peek 1 (advanceIp 1 { s with rle := { ctl := c.headD 0#8, count := runCount n3 } }) fun v =>
          runDecoded .rlc (c ++ v) s (.fault .undecodable)
      else runDecoded .rlc c s (.fault .undecodable)
  else .stop (.next (unitDone s))

/-- `TSIZE` and `ROOT` (43_huffman.md R200). -/
def fetchHufTable (s : State) : Fetched :=
  peek 2 s fun t => runDecoded .hufTable t s (.fault .undecodable)

/-- One pass of the Huffman loop (R200): a code word when a bit is needed and none is left (R201), else the next bit
(R202). -/
def fetchHufBit (s : State) : Fetched :=
  if s.huf.need = 0 then .stop (.next (unitDone s))
  else if s.huf.bitCnt = 0 then
    peek 4 s fun w => runDecoded (.hufWord s.cfg.hufWordOrder) w s (.fault .undecodable)
  else runDecoded .hufBit [if nextBit s then 1#8 else 0#8] s (.fault .undecodable)

/-- The table byte of the child (R202): a leaf by `DEPTH` (R203, R204), or a node. A 4-bit-mode leaf above 15 is
`InvalidStream(IP)` (R204). -/
def fetchHufChild (idx : Nat) (leaf : Bool) (s : State) : Fetched :=
  let b := s.tbl.read idx
  if leaf then
    if s.huf.depth = 4 then
      runDecoded .hufLeaf4 [b] s (.next (raise .invalidStream s.str.ip { s with huf := { s.huf with cur := b } }))
    else runDecoded .hufLeaf8 [b] s (.fault .undecodable)
  else runDecoded .hufNode [b] s (.fault .undecodable)

/-- The archive's magic (46_xpck.md R247). -/
def fetchXpckMagic (s : State) : Fetched :=
  if s.host.inLen.toNat < 4 then .stop (.next (raise .badMagic 0 s))
  else if s.cfg.inCap.toNat < 4 then .stop (.fault .readBeyondSpace)
  else runDecoded .xpckMagic (s.inp.readN 0 4) s (.next (raise .badMagic 0 s))

/-- The archive header (R248): its 14 bytes, the ten at `IP` fetched now and the magic before them. -/
def fetchXph (s : State) : Fetched :=
  peek 10 s fun h => runDecoded .xphOpen (s.inp.readN 0 4 ++ h) s (.next (raise .badMagic 0 s))

/-- The count field of the header just fetched, its first two bytes after the magic (R248, R249). -/
def fetchCountField (s : State) : Fetched :=
  runDecoded .countField (s.inp.readN 4 2) s (.fault .undecodable)

/-- One pass of the record loop (R250); after the last record, `ReadNames` begins (R251). -/
def fetchRecord (s : State) : Fetched :=
  if s.xp.recIdx < s.xp.cnt then
    let t := { s with str := { s.str with ip := s.xp.infoOff + 12 * s.xp.recIdx } }
    peek 12 t fun r => runDecoded .xpr r t (.fault .undecodable)
  else .stop (.next (readNames s))

/-- One pass of the name loop (R252); after the last name, `WriteResult` (R254). -/
def fetchName (p : Nat) (s : State) : Fetched :=
  if p < s.xp.ntLen then .stop (.next (lookupName p s)) else .stop (writeResult s)

/-- The report that is about to be made (R253). -/
def fetchReport (e : RptEntry) (s : State) : Fetched :=
  runDecoded .rpt (le32 e.code ++ le32 e.crc ++ le32 e.off ++ le32 e.len) s (.fault .undecodable)

/-- The file list of `XPCK_PACK` (R260): the whole of `IN[0:IN_LEN]`, or `BadArgument` at the first field that is not
wholly there, or at the first byte left over. -/
def fetchFls (s : State) : Fetched :=
  if s.cfg.inCap.toNat < s.host.inLen.toNat then .stop (.fault .readBeyondSpace)
  else
    match decode .fls (s.inp.readN 0 s.host.inLen.toNat) with
    | .ok (i, rest) =>
      let t := { s with str := { s.str with ip := s.host.inLen.toNat - rest.length } }
      if rest = [] then .run i t else .stop (.next (raise .badArgument t.str.ip t))
    | .error (.malformedList addr) =>
      .stop (.next (raise .badArgument addr { s with str := { s.str with ip := addr } }))
    | .error _ => .stop (.fault .undecodable)

/-- The core's next step. While `BUSY = 0` the core is idle (60_exceptions.md R311). -/
def fetchCore (s : State) : Fetched :=
  if s.host.busy then
    match s.phase with
    | .idle => .stop (.next s)
    | .header => fetchHeader s
    | .zlibMagic => fetchZlibMagic s
    | .lz => fetchLz s
    | .rle => fetchRle s
    | .hufTable => fetchHufTable s
    | .hufBit => fetchHufBit s
    | .hufChild idx leaf => fetchHufChild idx leaf s
    | .finish => .stop (.next (unitDone s))
    | .xpckMagic => fetchXpckMagic s
    | .xph => fetchXph s
    | .countField => fetchCountField s
    | .records => fetchRecord s
    | .lookup p => fetchName p s
    | .report e => fetchReport e s
    | .fls => fetchFls s
  else .stop (.next s)

/-- A host write to a register (R22, R23): a write to `CMD` runs the command of the value; a value that is no command
raises `BadArgument` (40_commands_header.md R134; log 33). -/
def hostWriteReg (off : Nat) (v : Word) (s : State) : Fetched :=
  match regAt off with
  | none => .stop (.fault (.noSuchRegister off))
  | some .cmd =>
    match decode .cmd (le32 v) with
    | .ok (i, _) => .run i s
    | .error _ => .stop (.next (reservedCommand v s))
  | some r => .stop (.next (writeReg r v s))

/-- A host read of a register (R22). -/
def hostReadReg (off : Nat) (s : State) : Outcome :=
  match regAt off with
  | none => .fault (.noSuchRegister off)
  | some r => .next (readReg r s)

/-- What a step does: the host's oldest request if it has one (log 15), else the core's next step. A host that polls
leaves the steps to the core until `BUSY = 0`; a `pass` leaves it one. -/
def fetchNext (s : State) : Fetched :=
  match s.bus with
  | [] => fetchCore s
  | .poll :: rest =>
    if s.host.busy then fetchCore s
    else .stop (.next (returnWord (statusWord s.host) { s with bus := rest }))
  | .pass :: rest => fetchCore { s with bus := rest }
  | .writeReg off v :: rest => hostWriteReg off v { s with bus := rest }
  | .readReg off :: rest => .stop (hostReadReg off { s with bus := rest })
  | .writeIn a v :: rest => .stop (hostWriteIn a v { s with bus := rest })
  | .readIn a :: rest => .stop (hostReadIn a { s with bus := rest })
  | .readOut a :: rest => .stop (hostReadOut a { s with bus := rest })
  | .readRpt e w :: rest => .stop (hostReadRpt e w { s with bus := rest })
  | .reset :: rest => .stop (.next (applyReset { s with bus := rest }))

/-! ## Placing one word of the opcode table where the next fetch takes it -/

/-- `n` bytes 0 written at `a` on, the last one first. -/
def zerosAt (a : Nat) : Nat → Memory → Memory
  | 0, m => m
  | n + 1, m => zerosAt a n (m.write (a + n) 0#8)

/-- A machine in the middle of a command, with `bs` at address `at'` of `IN`, `zeros` bytes 0 after them (the operand
bytes the opcode table gives no bits), the cursor at `ip`, and room for any symbol. -/
def placed (ph : Phase) (at' ip : Nat) (bs : List Byte) (s : State) (zeros : Nat := 0) : State :=
  { s with
    host := { s.host with busy := true, done := false, inLen := BitVec.ofNat 32 (at' + bs.length + 512) }
    str := { s.str with ip := ip, base := 0, limit := at' + bs.length + 512, size := Config.sizeMax, dst := false }
    inp := (zerosAt (at' + bs.length) zeros s.inp).writeN at' bs
    phase := ph
    bus := [] }

/-- The bytes of a table word placed for format `f`. -/
def placeWord (f : Fmt) (bs : List Byte) (s : State) : State :=
  match f with
  | .cmd =>
    { s with
      bus := [.writeReg 0 (u32le (bs.getD 0 0#8) (bs.getD 1 0#8) (bs.getD 2 0#8) (bs.getD 3 0#8))] }
  | .hdr => placed .header 0 0 bs s
  | .lzg =>
    let t := placed .lz 0 0 (bs.drop 1) s
    { t with lz := { t.lz with flags := bs.headD 0#8 <<< 7, fcnt := 1 } }
  | .rlc => placed .rle 0 0 bs s (if (bs.headD 0#8).toNat < 128 then (bs.headD 0#8).toNat + 1 else 0)
  | .hufTable =>
    let t := placed .hufTable 0 0 bs s (2 * (bs.headD 0#8).toNat)
    { t with huf := { t.huf with depth := 8 } }
  | .hufNode =>
    let t := placed (.hufChild 0 false) 0 0 [] s
    { t with huf := { t.huf with need := 1, depth := 8, tsize := 1#8 }, tbl := t.tbl.writeN 0 bs }
  | .hufLeaf8 =>
    let t := placed (.hufChild 0 true) 0 0 [] s
    { t with huf := { t.huf with need := 1, depth := 8, tsize := 1#8 }, tbl := t.tbl.writeN 0 bs }
  | .hufLeaf4 =>
    let t := placed (.hufChild 0 true) 0 0 [] s
    { t with huf := { t.huf with need := 2, depth := 4, tsize := 1#8 }, tbl := t.tbl.writeN 0 bs }
  | .hufBit =>
    let t := placed .hufBit 0 0 [] s
    { t with
      huf :=
        { t.huf with
          need := 1, depth := 8, tsize := 1#8, bitCnt := 32, code := (bs.headD 0#8).setWidth 32 <<< 31 } }
  | .hufWord _ =>
    let t := placed .hufBit 0 0 bs s
    { t with huf := { t.huf with need := 1, depth := 8, bitCnt := 0 } }
  | .zlibMagic => placed .zlibMagic 0 0 bs s
  | .xpckMagic => placed .xpckMagic 0 0 bs s
  | .xph | .xphOpen => placed .xph 0 4 bs s
  | .countField => placed .countField 4 14 bs s
  | .xpr =>
    let t := placed .records 0 0 bs s
    { t with xp := { t.xp with cnt := 1, infoOff := 0, recIdx := 0 } }
  | .fls =>
    let t := placed .fls 0 0 bs s
    { t with host := { t.host with inLen := BitVec.ofNat 32 bs.length } }
  | .rpt =>
    placed
      (.report
        { code := u32le (bs.getD 0 0#8) (bs.getD 1 0#8) (bs.getD 2 0#8) (bs.getD 3 0#8)
          crc := u32le (bs.getD 4 0#8) (bs.getD 5 0#8) (bs.getD 6 0#8) (bs.getD 7 0#8)
          off := u32le (bs.getD 8 0#8) (bs.getD 9 0#8) (bs.getD 10 0#8) (bs.getD 11 0#8)
          len := u32le (bs.getD 12 0#8) (bs.getD 13 0#8) (bs.getD 14 0#8) (bs.getD 15 0#8) })
      0 0 [] s

end Sys2Proof.Machine
end

