-- ==== Sys2Proof/Machine/Dispatch.lean ====
section
/-! DEFINITION. The meaning of every instruction: one arm per constructor of Instr, one direct call each. -/

namespace Sys2Proof.Machine

def exec (i : Instr) (s : State) : Host.Outcome State Fault Refusal :=
  match i with
  | .nop => Sys2Proof.Machine.execNop s
  | .decHdr => Sys2Proof.Machine.execDecHdr s
  | .encHdr => Sys2Proof.Machine.execEncHdr s
  | .decompress => Sys2Proof.Machine.execDecompress s
  | .lzDec => Sys2Proof.Machine.execLzDec s
  | .hufDec => Sys2Proof.Machine.execHufDec s
  | .rleDec => Sys2Proof.Machine.execRleDec s
  | .lzEnc => Sys2Proof.Machine.execLzEnc s
  | .crc32 => Sys2Proof.Machine.execCrc32 s
  | .xpckOpen => Sys2Proof.Machine.execXpckOpen s
  | .xpckPack => Sys2Proof.Machine.execXpckPack s
  | .cmdReserved11 => Sys2Proof.Machine.execCmdReserved11 s
  | .cmdReserved12 => Sys2Proof.Machine.execCmdReserved12 s
  | .cmdReserved13 => Sys2Proof.Machine.execCmdReserved13 s
  | .cmdReserved14 => Sys2Proof.Machine.execCmdReserved14 s
  | .cmdReserved15 => Sys2Proof.Machine.execCmdReserved15 s
  | .store size => Sys2Proof.Machine.execStore size s
  | .lz size => Sys2Proof.Machine.execLz size s
  | .huf4 size => Sys2Proof.Machine.execHuf4 size s
  | .huf8 size => Sys2Proof.Machine.execHuf8 size s
  | .rle size => Sys2Proof.Machine.execRle size s
  | .zlib size => Sys2Proof.Machine.execZlib size s
  | .method6 size => Sys2Proof.Machine.execMethod6 size s
  | .method7 size => Sys2Proof.Machine.execMethod7 size s
  | .lit byte => Sys2Proof.Machine.execLit byte s
  | .ref len3 disp => Sys2Proof.Machine.execRef len3 disp s
  | .run n3 value => Sys2Proof.Machine.execRun n3 value s
  | .copy n1 => Sys2Proof.Machine.execCopy n1 s
  | .hufTable tsize root => Sys2Proof.Machine.execHufTable tsize root s
  | .hufNode leaf0 leaf1 offset => Sys2Proof.Machine.execHufNode leaf0 leaf1 offset s
  | .hufStep0 => Sys2Proof.Machine.execHufStep0 s
  | .hufStep1 => Sys2Proof.Machine.execHufStep1 s
  | .hufLeaf8 symbol => Sys2Proof.Machine.execHufLeaf8 symbol s
  | .hufLeaf4 symbol => Sys2Proof.Machine.execHufLeaf4 symbol s
  | .hufWord code => Sys2Proof.Machine.execHufWord code s
  | .zlibMagic => Sys2Proof.Machine.execZlibMagic s
  | .xpckMagic => Sys2Proof.Machine.execXpckMagic s
  | .xph count infoOff4 nameOff4 dataOff4 f4 nameLen4 dataLen4 => Sys2Proof.Machine.execXph count infoOff4 nameOff4 dataOff4 f4 nameLen4 dataLen4 s
  | .xpr crc nameOff offLo sizeLo offHi sizeHi => Sys2Proof.Machine.execXpr crc nameOff offLo sizeLo offHi sizeHi s
  | .countField f1 f2 => Sys2Proof.Machine.execCountField f1 f2 s
  | .fls members => Sys2Proof.Machine.execFls members s
  | .rptEntry crc off len => Sys2Proof.Machine.execRptEntry crc off len s

end Sys2Proof.Machine
end

