-- ==== Sys2Proof/Machine/Step.lean ====
section
/-! DEFINITION. One step of CCORE: what `fetchNext` says, run by `exec`. -/

namespace Sys2Proof.Machine

/-- One step: the host's oldest access, or the next symbol of the command that runs (40_commands_header.md R130). -/
def step (s : State) : Host.Outcome State Fault Refusal :=
  match fetchNext s with
  | .run i t => exec i t
  | .stop o => o

/-- `s` with an instruction of spec/opcode_table.json placed where the next step fetches it (log 15, log 21): a `CMD`
word as the host's pending write of `CMD`; a stream symbol or archive structure in `IN` (a table byte in `TBL`, a report
in the pending report), with the unit that decodes it active. -/
def State.withFetchWord (s : State) (nbits w : Nat) : State :=
  match tableFmt nbits w with
  | none => s
  | some f => placeWord f (tableBytes f nbits w) s

end Sys2Proof.Machine
end

