-- ==== Sys2Proof/Safety.lean ====
section
/-! DEFINITION. What a safe run is, in the terms the statements use: the invariant that every step keeps
(10_state.md R20 to R36, 42_lz.md R175, 43_huffman.md R206, 44_rle.md R224), the frames of output and table writes, runs
of the core, and what the host can observe after a command (70_reset_and_hazards.md R344). -/

namespace Sys2Proof.Machine

/-! ## Runs -/

/-- `n` steps, stopping at the first fault or refusal. -/
def runSteps : Nat → State → Outcome
  | 0, s => .next s
  | n + 1, s =>
    match step s with
    | .next t => runSteps n t
    | .fault f => .fault f
    | .refused r => .refused r

/-- Some number of steps leads from `s` to `t`. -/
def Reaches (s t : State) : Prop := ∃ n, runSteps n s = .next t

/-- `s` with a host write of `v` to `CMD` as the one request pending (10_state.md R23). -/
def withCommand (v : Word) (s : State) : State := { s with bus := [.writeReg 0 v] }

/-- A command written now runs its rule: no command runs, and the input fits `IN` (40_commands_header.md R130). -/
def Ready (s : State) : Prop := s.host.busy = false ∧ s.host.inLen.toNat ≤ s.cfg.inCap.toNat

/-- The next `n` bytes at `IP` can be fetched (20_memory.md R62). -/
def CanFetch (n : Nat) (s : State) : Prop := s.str.ip + n ≤ s.str.limit ∧ s.str.limit ≤ s.cfg.inCap.toNat

/-! ## Frames -/

/-- From `s` to `t`, exactly the bytes `bs` were written at address `a` on, in the space `Emit` writes in `s`
(20_memory.md R63): every other byte of the four spaces reads as before. -/
def Emitted (s t : State) (a : Nat) (bs : List Byte) : Prop :=
  (if s.str.dst then t.scr else t.out).readN a bs.length = bs ∧
  (∀ x, x < a ∨ a + bs.length ≤ x → (if s.str.dst then t.scr else t.out).read x = (dstSpace s).read x) ∧
  (if s.str.dst then t.out = s.out else t.scr = s.scr) ∧
  t.inp = s.inp ∧ t.tbl = s.tbl

/-- From `s` to `t`, exactly the bytes `bs` were written to `OUT` from address 0 on; every other byte of the four spaces
reads as before. -/
def WroteOut (s t : State) (bs : List Byte) : Prop :=
  t.out.readN 0 bs.length = bs ∧ (∀ x, bs.length ≤ x → t.out.read x = s.out.read x) ∧
  t.inp = s.inp ∧ t.tbl = s.tbl ∧ t.scr = s.scr

/-- Every byte of the four spaces is as before. -/
def SpacesKept (s t : State) : Prop := t.inp = s.inp ∧ t.out = s.out ∧ t.tbl = s.tbl ∧ t.scr = s.scr

/-- What no instruction writes: the parameters, `IN` (20_memory.md R61, R74), the registers only the host writes
(10_state.md R29), and the host's side of the model. -/
def HostSideKept (s t : State) : Prop :=
  t.cfg = s.cfg ∧ t.inp = s.inp ∧ t.host.inLen = s.host.inLen ∧ t.host.arg0 = s.host.arg0 ∧
  t.host.arg1 = s.host.arg1 ∧ t.bus = s.bus ∧ t.rdata = s.rdata

/-! ## The invariant -/

/-- The host registers agree with each other (10_state.md R27 to R29, R43; 60_exceptions.md R290, R295, R300, R305). -/
def HostOk (s : State) : Prop :=
  ¬(s.host.busy = true ∧ s.host.done = true) ∧
  (s.host.err = true → s.host.done = true) ∧
  (s.host.err = false ↔ s.host.errCode = 0#3) ∧
  s.host.errCode ≠ 5#3 ∧
  (s.host.err = false → s.host.errInfo = 0#32) ∧
  (s.host.err = true → s.host.outLen = 0#32 ∧ s.host.res0 = 0#32 ∧ s.host.res1 = 0#32) ∧
  (s.host.rptFlag = true ↔ s.host.rptCnt ≠ 0#32) ∧
  s.rpt.length = min s.host.rptCnt.toNat s.cfg.rptCap ∧
  (∀ e ∈ s.rpt, e.code = 5#32) ∧
  (s.host.busy = false ↔ s.phase = .idle) ∧
  (s.host.busy = true → s.host.outLen = 0#32)

/-- The four spaces have their canonical form. -/
def SpacesOk (s : State) : Prop :=
  s.inp.wf = true ∧ s.out.wf = true ∧ s.tbl.wf = true ∧ s.scr.wf = true

/-- Every engine register but `NT_LEN` is inside the width its rule gives it (10_state.md R24 to R26, R30 to R34).
`NT_LEN` is inside 32 bits, and by `NamesOk` inside `SCR_CAP` where it is used, not inside the 29 bits of R34 (log 31). -/
def WidthOk (s : State) : Prop :=
  s.str.ip < 2 ^ 32 ∧ s.str.op < 2 ^ 32 ∧ s.str.base < 2 ^ 32 ∧ s.str.limit < 2 ^ 32 ∧
  s.str.size ≤ Config.sizeMax ∧
  s.lz.fcnt ≤ 8 ∧ s.lz.len ≤ 18 ∧ s.lz.disp < 4096 ∧
  s.huf.depth ≤ 8 ∧ s.huf.bitCnt ≤ 32 ∧ s.huf.next ≤ 639 ∧ s.huf.need < 2 ^ 30 ∧
  s.rle.count ≤ 130 ∧
  s.xp.cnt ≤ Config.countMax ∧ s.xp.infoOff < 2 ^ 18 ∧ s.xp.nameOff < 2 ^ 18 ∧ s.xp.dataOff < 2 ^ 18 ∧
  s.xp.f4 < 2 ^ 18 ∧ s.xp.recIdx ≤ Config.countMax ∧ s.xp.ntLen < 2 ^ 32

/-- `BASE <= IP <= LIMIT <= IN_LEN <= IN_CAP` (10_state.md R24, R26). -/
def StreamOk (s : State) : Prop :=
  s.str.base ≤ s.str.ip ∧ s.str.ip ≤ s.str.limit ∧ s.str.limit ≤ s.host.inLen.toNat ∧
  s.host.inLen.toNat ≤ s.cfg.inCap.toNat

/-- Every entry of `LUT` lies inside the input, keys are distinct, and there are at most 4095 entries (10_state.md R42,
46_xpck.md R250). -/
def LutOk (s : State) : Prop :=
  (∀ e ∈ s.lut, e.addr + e.size ≤ s.host.inLen.toNat) ∧ (s.lut.map LutEntry.key).Nodup ∧
  s.lut.length ≤ Config.countMax

/-- The bounds of a stream that is the whole input (10_state.md R26). -/
def WholeInput (s : State) : Prop := s.str.base = 0 ∧ s.str.limit = s.host.inLen.toNat ∧ s.str.dst = false

/-- No name has been looked up yet. -/
def NoNamesYet (s : State) : Prop := s.found = [] ∧ s.host.rptCnt = 0#32

/-- A decoder runs on the whole input, or on the name table of `XPCK_OPEN` (10_state.md R26, 46_xpck.md R251). -/
def DecoderOk (s : State) : Prop :=
  (WholeInput s ∨ (s.str.dst = true ∧ s.str.base = s.xp.nameOff ∧ s.str.limit = s.xp.dataOff)) ∧ NoNamesYet s

/-- Names looked up so far lie below name-table offset `p`, their data inside the input, and each of them and each report
took at least one byte (46_xpck.md R252). -/
def NamesOk (p : Nat) (s : State) : Prop :=
  (∀ f ∈ s.found, f.off + f.len ≤ s.xp.ntLen ∧ 1 ≤ f.len ∧ f.addr + f.size ≤ s.host.inLen.toNat) ∧
  s.found.length + s.host.rptCnt.toNat ≤ p ∧ s.xp.ntLen ≤ s.cfg.scrCap.toNat

/-- The Huffman decoder's registers inside its loop (43_huffman.md R206). -/
def HufOk (s : State) : Prop :=
  s.str.size ≤ capacity s ∧
  ((s.huf.depth = 8 ∧ s.str.op + s.huf.need = s.str.size) ∨
    (s.huf.depth = 4 ∧ 2 * s.str.op + s.huf.nibv.toNat + s.huf.need = 2 * s.str.size)) ∧
  s.huf.next % 2 = 0 ∧ s.huf.next ≤ 2 * s.huf.tsize.toNat

/-- What holds at each control point while a command runs. -/
def PhaseOk (s : State) : Prop :=
  match s.phase with
  | .idle => True
  | .header => DecoderOk s ∧ s.str.ip = s.str.base ∧ s.str.op = 0
  | .zlibMagic => DecoderOk s
  | .lz => DecoderOk s ∧ s.str.op ≤ s.str.size ∧ s.str.size ≤ capacity s
  | .rle => DecoderOk s ∧ s.str.op ≤ s.str.size ∧ s.str.size ≤ capacity s ∧ s.str.base + 4 ≤ s.str.ip
  | .hufTable => DecoderOk s ∧ (s.huf.depth = 4 ∨ s.huf.depth = 8) ∧ s.str.size ≤ capacity s
  | .hufBit => DecoderOk s ∧ HufOk s
  | .hufChild idx _ => DecoderOk s ∧ HufOk s ∧ 0 < s.huf.need ∧ idx < 2 * s.huf.tsize.toNat
  | .finish => DecoderOk s ∧ s.str.op ≤ capacity s
  | .xpckMagic => WholeInput s ∧ NoNamesYet s ∧ s.str.op = 0
  | .xph => WholeInput s ∧ NoNamesYet s ∧ s.str.op = 0
  | .countField => WholeInput s ∧ NoNamesYet s ∧ s.str.op = 0
  | .records => WholeInput s ∧ NoNamesYet s ∧ s.str.op = 0 ∧ s.xp.recIdx ≤ s.xp.cnt ∧ s.lut.length ≤ s.xp.recIdx
  | .lookup p => WholeInput s ∧ NamesOk p s ∧ p ≤ s.xp.ntLen + 1
  | .report e =>
    WholeInput s ∧ NamesOk e.off.toNat s ∧ e.code = 5#32 ∧ e.off.toNat + e.len.toNat ≤ s.xp.ntLen ∧ 1 ≤ e.len.toNat
  | .fls => WholeInput s ∧ NoNamesYet s

/-- The invariant of CCORE. -/
def StateOk (s : State) : Prop :=
  HostOk s ∧ SpacesOk s ∧ WidthOk s ∧ (s.host.busy = true → StreamOk s ∧ LutOk s ∧ PhaseOk s)

/-- The byte offsets of the host registers (10_state.md R22). -/
def regOffsets : List Nat := [0x00, 0x04, 0x08, 0x0C, 0x10, 0x14, 0x18, 0x1C, 0x20, 0x24, 0x28]

/-- The oldest request of the host in `s` is an access that names a register or an address that does not exist, and `f`
is the fault that says so (log 16). -/
def HostFault (s : State) (f : Fault) : Prop :=
  (∃ off rest, off ∉ regOffsets ∧ f = .noSuchRegister off ∧
    (s.bus = .readReg off :: rest ∨ ∃ v, s.bus = .writeReg off v :: rest)) ∨
  ∃ a rest, f = .noSuchAddress a ∧
    ((s.cfg.inCap.toNat ≤ a ∧ (s.bus = .readIn a :: rest ∨ ∃ v, s.bus = .writeIn a v :: rest)) ∨
      (s.cfg.outCap.toNat ≤ a ∧ s.bus = .readOut a :: rest) ∨ (4 ≤ a ∧ ∃ e, s.bus = .readRpt e a :: rest))

/-- The oldest request of the host in `s` is an access that is refused, and `r` is its refusal: a write of `IN` while
`BUSY = 1` (70_reset_and_hazards.md R333), a read of a byte of `IN` that nothing has written (R331), of a byte of `OUT`
that is no valid output (10_state.md R46, 20_memory.md R61), of a report entry that is not stored (log 18). -/
def HostRefusal (s : State) (r : Refusal) : Prop :=
  (r = .inWriteWhileBusy ∧ s.host.busy = true ∧ ∃ a v rest, s.bus = .writeIn a v :: rest) ∨
  (r = .inUnspecified ∧ s.host.busy = false ∧ ∃ a rest, s.bus = .readIn a :: rest ∧ s.inp.written a = none) ∨
  (r = .outUnspecified ∧ s.host.busy = false ∧ ∃ a rest, s.bus = .readOut a :: rest ∧
    (s.host.done = false ∨ s.host.err = true ∨ s.host.outLen.toNat ≤ a)) ∨
  (r = .rptUnspecified ∧ s.host.busy = false ∧ ∃ e w rest, s.bus = .readRpt e w :: rest ∧ s.rpt.length ≤ e)

/-! ## What the host observes -/

/-- The two states agree on everything the host may observe after a command (70_reset_and_hazards.md R344). -/
def SameResult (s t : State) : Prop :=
  s.host = t.host ∧ s.rpt = t.rpt ∧
  (s.host.done = true → s.host.err = false → ∀ a, a < s.host.outLen.toNat → s.out.read a = t.out.read a)

/-- The two states agree on what the result of a command may depend on: the parameters, `ARG0`, `ARG1`, `IN_LEN` and the
first `IN_LEN` bytes of `IN` (10_state.md R21). -/
def SameInputs (s t : State) : Prop :=
  s.cfg = t.cfg ∧ s.host.arg0 = t.host.arg0 ∧ s.host.arg1 = t.host.arg1 ∧ s.host.inLen = t.host.inLen ∧
  ∀ a, a < s.host.inLen.toNat → s.inp.read a = t.inp.read a

end Sys2Proof.Machine
end

