-- ==== Sys2Proof/Certificates/Slice0/Obligations.lean ====
section
/-! DEFINITION. The statements for the provers, in the order of OBLIGATIONS.json. Each docstring says what is stated and
names the rules of spec/ it rests on; "the model's choice" names a log entry of notes/assumptions. -/

open Sys2Proof Sys2Proof.Machine

/-- Every well-formed instruction decodes from its own encoding, in both code-word orders. For every instruction and
every setting of HUF_WORD_ORDER, decoding its words in its own format gives the instruction back and leaves the bytes
that follow. No operand bit is dropped. (R90, R91, R92, R95, R96, R99, R100, R103, R104, R105, R107, R111.) -/
def Obligations.DecodeOfEncodeIsTheInstruction : Prop :=
  ∀ (o : WordOrder) (i : Instr) (rest : List Byte),
    i.wellFormed = true → decode (fmtOf o i) (encodeIn o i ++ rest) = .ok (i, rest)

/-- What decodes is well-formed and encodes to the bytes that were read; XPCK_OPEN needs 14 header bytes only. In
every format but the 14-byte view of the archive header, the bytes read are exactly the encoding of the instruction
that was decoded, so no two words share an instruction and no bit is ignored. The 14-byte view gives the first five
fields of the header and 0 for its tail. (R90, R91, R92, R105, R107, R111, R112, R248.) -/
def Obligations.EncodeOfDecodeIsTheBytes : Prop :=
  (∀ (f : Fmt) (bs : List Byte) (i : Instr) (rest : List Byte),
    f ≠ .xphOpen → decode f bs = .ok (i, rest) →
      i.wellFormed = true ∧ ∃ o, fmtOf o i = f ∧ encodeIn o i ++ rest = bs) ∧
  ∀ (c i n d f l : BitVec 16) (k : Word) (rest : List Byte),
    decode .xphOpen ((encode (.xph c i n d f l k)).take 14 ++ rest) = .ok (.xph c i n d f 0#16 0#32, rest)

/-- Words written out from the spec's encodings decode to the instructions they stand for. One or more words of each
family, byte by byte from the encoding tables and the worked examples of spec/. The leading byte 1 or 0 of an LZ
symbol and of a code bit stands for the flag or code bit before it: that notation is the model's choice (log 22).
(R91, R92, R96, R98, R100, R103, R104, R105, R107, R111, R116, R117.) -/
def Obligations.WordsOfTheSpecDecode : Prop :=
  decode .cmd [0x09#8, 0x00#8, 0x00#8, 0x00#8] = .ok (.xpckOpen, []) ∧
  decode .hdr [0x34#8, 0x00#8, 0x00#8, 0x00#8] = .ok (.rle 6#29, []) ∧
  decode .hdr [0x61#8, 0x00#8, 0x00#8, 0x00#8] = .ok (.lz 12#29, []) ∧
  decode .lzg [0x01#8, 0x30#8, 0x05#8] = .ok (.ref 3#4 5#12, []) ∧
  decode .lzg [0x00#8, 0x41#8] = .ok (.lit 0x41#8, []) ∧
  decode .rlc [0x83#8, 0x41#8] = .ok (.run 3#7 0x41#8, []) ∧
  decode .rlc [0x02#8, 0x10#8] = .ok (.copy 2#7, [0x10#8]) ∧
  decode .hufTable [0x02#8, 0x80#8] = .ok (.hufTable 2#8 0x80#8, []) ∧
  decode .hufBit [0x01#8] = .ok (.hufStep1, []) ∧
  decode .hufNode [0x80#8] = .ok (.hufNode true false 0#6, []) ∧
  decode .hufLeaf8 [0xC0#8] = .ok (.hufLeaf8 0xC0#8, []) ∧
  decode .hufLeaf4 [0x0F#8] = .ok (.hufLeaf4 15#4, []) ∧
  decode (.hufWord .big) [0x58#8, 0x00#8, 0x00#8, 0x00#8] = .ok (.hufWord 0x58000000#32, []) ∧
  decode (.hufWord .little) [0x58#8, 0x00#8, 0x00#8, 0x00#8] = .ok (.hufWord 0x58#32, []) ∧
  decode .xpckMagic [0x58#8, 0x50#8, 0x43#8, 0x4B#8] = .ok (.xpckMagic, []) ∧
  decode .zlibMagic [0x78#8] = .ok (.zlibMagic, []) ∧
  decode .xph [0x58#8, 0x50#8, 0x43#8, 0x4B#8, 0x02#8, 0x02#8, 0x05#8, 0x00#8, 0x0B#8, 0x00#8, 0x11#8, 0x00#8,
    0x06#8, 0x00#8, 0x06#8, 0x00#8, 0x08#8, 0x00#8, 0x00#8, 0x00#8] =
    .ok (.xph 0x0202#16 5#16 11#16 17#16 6#16 6#16 8#32, []) ∧
  decode .countField [0xFF#8, 0x80#8] = .ok (.countField 0xFF#8 0x80#8, []) ∧
  decode .xpr [0xC2#8, 0x88#8, 0x5B#8, 0x30#8, 0x06#8, 0x00#8, 0x04#8, 0x00#8, 0x10#8, 0x00#8, 0x01#8, 0x02#8] =
    .ok (.xpr 0x305B88C2#32 6#16 4#16 16#16 1#8 2#8, []) ∧
  decode .fls [0x01#8, 0x00#8, 0x00#8, 0x00#8, 0x01#8, 0x00#8, 0x02#8, 0x00#8, 0x00#8, 0x00#8, 0x61#8, 0x78#8,
    0x79#8] = .ok (.fls [([0x61#8], [0x78#8, 0x79#8])], []) ∧
  decode .rpt [0x05#8, 0x00#8, 0x00#8, 0x00#8, 0xC2#8, 0x88#8, 0x5B#8, 0x30#8, 0x06#8, 0x00#8, 0x00#8, 0x00#8,
    0x05#8, 0x00#8, 0x00#8, 0x00#8] = .ok (.rptEntry 0x305B88C2#32 6#32 5#32, [])

/-- The header fields by bytes, and decode_header(encode_header(m, n)) = (m, n). METHOD and SIZE of four header bytes
are h0 & 7 and (h0 >> 3) | (h1 << 5) | (h2 << 13) | (h3 << 21); for a method up to 5 and a size below 2^29 the header
(n << 3) | m has exactly these fields. le16 and le32 give the bytes of a number, the least significant first, and
u32le reads four of them back. (R92, R132, R133, R9.) -/
def Obligations.HeaderFieldsAreExact : Prop :=
  (∀ h0 h1 h2 h3 : Byte,
    (headerMethod (u32le h0 h1 h2 h3)).toNat = h0.toNat &&& 7 ∧
    (headerSize (u32le h0 h1 h2 h3)).toNat =
      (h0.toNat >>> 3) ||| (h1.toNat <<< 5) ||| (h2.toNat <<< 13) ||| (h3.toNat <<< 21)) ∧
  (∀ v : BitVec 16, le16 v = [BitVec.ofNat 8 v.toNat, BitVec.ofNat 8 (v.toNat >>> 8)]) ∧
  (∀ w : Word, le32 w = [BitVec.ofNat 8 w.toNat, BitVec.ofNat 8 (w.toNat >>> 8), BitVec.ofNat 8 (w.toNat >>> 16),
      BitVec.ofNat 8 (w.toNat >>> 24)] ∧
    u32le (BitVec.ofNat 8 w.toNat) (BitVec.ofNat 8 (w.toNat >>> 8)) (BitVec.ofNat 8 (w.toNat >>> 16))
      (BitVec.ofNat 8 (w.toNat >>> 24)) = w) ∧
  ∀ m n : Word, m.toNat ≤ 5 → n.toNat ≤ 0x1FFFFFFF →
    (headerMethod ((n <<< 3) ||| m)).toNat = m.toNat ∧ (headerSize ((n <<< 3) ||| m)).toNat = n.toNat

/-- The operands of an LZ token and of an RLE control byte. Every 16-bit token is a back-reference with L = (hi >> 4)
+ 3 in 3..18 and D = ((hi & 0xF) << 8) | lo in 0..4095; a control byte with bit 7 set is a run of (c & 0x7F) + 3 in
3..130 bytes, one with bit 7 clear a literal run of c + 1 in 1..128 bytes. (R96, R97, R102, R103, R104.) -/
def Obligations.SymbolFieldsAreExact : Prop :=
  (∀ (hi lo : Byte) (rest : List Byte), ∃ l d,
    decode .lzg (1#8 :: hi :: lo :: rest) = .ok (.ref l d, rest) ∧
    refLength l = (hi.toNat >>> 4) + 3 ∧ 3 ≤ refLength l ∧ refLength l ≤ 18 ∧
    refDisp d = ((hi.toNat &&& 0xF) <<< 8) ||| lo.toNat ∧ refDisp d ≤ 4095) ∧
  ∀ (c v : Byte) (rest : List Byte),
    if c.toNat < 128 then
      ∃ n, decode .rlc (c :: rest) = .ok (.copy n, rest) ∧ copyCount n = c.toNat + 1 ∧ copyCount n ≤ 128
    else
      ∃ n, decode .rlc (c :: v :: rest) = .ok (.run n v, rest) ∧ runCount n = (c.toNat &&& 0x7F) + 3 ∧
        3 ≤ runCount n ∧ runCount n ≤ 130

/-- The command prologue. The prologue sets BUSY, clears DONE, ERR, RPT, ERRCODE, ERRINFO, OUT_LEN, RES0, RES1,
RPT_CNT, IP, OP, BASE, DST, FCNT, BITCNT, NIBV, empties LUT and RPT, sets LIMIT to IN_LEN, and leaves everything else
as it is. That the model's own list of found names is emptied here too is the model's choice (log 29; R252 empties the
list where the lookup begins). So is that SCR and TBL, unspecified between commands (R44), and OUT keep their bytes
(log 36). (R47, R252.) -/
def Obligations.PrologueInitialises : Prop :=
  ∀ s : State, prologue s =
    { s with
      host :=
        { s.host with
          busy := true, done := false, err := false, rptFlag := false, errCode := 0#3, errInfo := 0#32
          outLen := 0#32, res0 := 0#32, res1 := 0#32, rptCnt := 0#32 }
      rpt := [], lut := [], found := []
      str := { s.str with ip := 0, op := 0, base := 0, limit := s.host.inLen.toNat, dst := false }
      lz := { s.lz with fcnt := 0 }
      huf := { s.huf with bitCnt := 0, nibv := false } }

/-- NOP does the prologue, sets DONE, and nothing else. With no command running and the input inside IN, NOP ends with
STATUS = 0b0010 and ERRCODE, ERRINFO, OUT_LEN, RES0, RES1, RPT_CNT zero; the rest of the state is what the prologue
leaves, and no byte of any space changes. (R131.) -/
def Obligations.NopClearsTheFailure : Prop :=
  ∀ s : State, Ready s → ∃ t, exec .nop s = .next t ∧
    statusWord t.host = 0b0010#32 ∧ t.host.errCode = 0#3 ∧ t.host.errInfo = 0#32 ∧ t.host.outLen = 0#32 ∧
    t.host.res0 = 0#32 ∧ t.host.res1 = 0#32 ∧ t.host.rptCnt = 0#32 ∧
    t = { prologue s with host := t.host, phase := .idle } ∧ HostSideKept s t ∧ SpacesKept s t

/-- A reserved CMD value raises BadArgument with the value. With no command running, a host write to CMD of any value
from 11 up (codes 11 to 15, or any bit above bit 3) gives the state after the prologue and BadArgument(v): STATUS =
0b0110, ERRCODE = 6, ERRINFO = v. The five reserved codes that have a row of their own do the same as instructions.
(R134.) -/
def Obligations.ReservedCommandsRaise : Prop :=
  (∀ (s : State) (v : Word), s.host.busy = false → 11 ≤ v.toNat → ∃ t, step (withCommand v s) = .next t ∧
    t = raise .badArgument v.toNat (prologue { s with bus := [] }) ∧
    statusWord t.host = 0b0110#32 ∧ t.host.errCode = 6#3 ∧ t.host.errInfo = v ∧ SpacesKept s t) ∧
  ∀ s : State, s.host.busy = false →
    exec .cmdReserved11 s = .next (raise .badArgument 11 (prologue s)) ∧
    exec .cmdReserved12 s = .next (raise .badArgument 12 (prologue s)) ∧
    exec .cmdReserved13 s = .next (raise .badArgument 13 (prologue s)) ∧
    exec .cmdReserved14 s = .next (raise .badArgument 14 (prologue s)) ∧
    exec .cmdReserved15 s = .next (raise .badArgument 15 (prologue s))

/-- A command is ignored while BUSY = 1, and refused when IN_LEN is above IN_CAP. Every command word: while a command
runs it changes nothing; otherwise, except for the reserved codes (refused for their code first), IN_LEN above IN_CAP
raises BadArgument(IN_LEN) after the prologue. (R23, R130, R297, R301.) -/
def Obligations.CommandGuards : Prop :=
  (∀ (i : Instr) (s : State), fmtOf .big i = .cmd → s.host.busy = true → exec i s = .next s) ∧
  ∀ (i : Instr) (s : State), fmtOf .big i = .cmd →
    i ∉ [Instr.cmdReserved11, .cmdReserved12, .cmdReserved13, .cmdReserved14, .cmdReserved15] →
    s.host.busy = false → s.cfg.inCap.toNat < s.host.inLen.toNat →
    exec i s = .next (raise .badArgument s.host.inLen.toNat (prologue s))

/-- DEC_HDR. With fewer than 4 input bytes: MalformedHeader(IN_LEN). Otherwise RES0 = h0 & 7 and RES1 = (h0 >> 3) |
(h1 << 5) | (h2 << 13) | (h3 << 21), whatever the method; no other register but those of the prologue and the flags
changes, and no byte of memory. (R132.) -/
def Obligations.DecHdrReturnsTheFields : Prop :=
  ∀ s : State, Ready s →
    (s.host.inLen.toNat < 4 → exec .decHdr s = .next (raise .malformedHeader s.host.inLen.toNat (prologue s))) ∧
    (4 ≤ s.host.inLen.toNat → ∃ t, exec .decHdr s = .next t ∧
      t.host.res0.toNat = (s.inp.read 0).toNat &&& 7 ∧
      t.host.res1.toNat =
        ((s.inp.read 0).toNat >>> 3) ||| ((s.inp.read 1).toNat <<< 5) ||| ((s.inp.read 2).toNat <<< 13) |||
          ((s.inp.read 3).toNat <<< 21) ∧
      statusWord t.host = 0b0010#32 ∧ t.host.outLen = 0#32 ∧
      t = endCommand { prologue s with
        host := { (prologue s).host with res0 := t.host.res0, res1 := t.host.res1 } } ∧
      HostSideKept s t ∧ SpacesKept s t)

/-- ENC_HDR. A method above 5 raises BadArgument(ARG0), then a size above 2^29 - 1 raises BadArgument(ARG1); otherwise
OUT[0:4] = le32(8 * ARG1 + ARG0), OUT_LEN = 4, and no other byte changes. That OUT_CAP below 4 raises BadArgument(4)
is the model's reading of R75 (log 10). (R133, R75.) -/
def Obligations.EncHdrWritesTheHeader : Prop :=
  ∀ s : State, Ready s → SpacesOk s →
    (5 < s.host.arg0.toNat → exec .encHdr s = .next (raise .badArgument s.host.arg0.toNat (prologue s))) ∧
    (s.host.arg0.toNat ≤ 5 → 0x1FFFFFFF < s.host.arg1.toNat →
      exec .encHdr s = .next (raise .badArgument s.host.arg1.toNat (prologue s))) ∧
    (s.host.arg0.toNat ≤ 5 → s.host.arg1.toNat ≤ 0x1FFFFFFF → s.cfg.outCap.toNat < 4 →
      exec .encHdr s = .next (raise .badArgument 4 (prologue s))) ∧
    (s.host.arg0.toNat ≤ 5 → s.host.arg1.toNat ≤ 0x1FFFFFFF → 4 ≤ s.cfg.outCap.toNat →
      ∃ t, exec .encHdr s = .next t ∧
        WroteOut s t (le32 (BitVec.ofNat 32 (8 * s.host.arg1.toNat + s.host.arg0.toNat))) ∧
        t.host.outLen = 4#32 ∧
        t = endCommand { prologue s with out := t.out, str := { (prologue s).str with op := 4 } })

/-- CRC32, and the recurrence of Crc32(s). RES0 is Crc32 of the IN_LEN input bytes and CRCACC its running remainder;
nothing else but the prologue and the flags changes. The remainder starts at CRC_INIT, each byte is exclusive-ored
into the low 8 bits and followed by 8 shift steps, and the result is exclusive-ored with CRC_XOROUT. (R235, R236.) -/
def Obligations.Crc32ReturnsTheChecksum : Prop :=
  (∀ s : State, Ready s → ∃ t, exec .crc32 s = .next t ∧
    t = endCommand { prologue s with
      crcAcc := crcRun s.cfg (s.inp.readN 0 s.host.inLen.toNat)
      host := { (prologue s).host with res0 := crc32 s.cfg (s.inp.readN 0 s.host.inLen.toNat) } } ∧
    t.host.outLen = 0#32 ∧ t.host.res1 = 0#32 ∧ HostSideKept s t ∧ SpacesKept s t) ∧
  ∀ (c : Config) (bs : List Byte) (x : Byte),
    crcRun c [] = c.crcInit ∧
    crcRun c (bs ++ [x]) =
      (fun a : Word => if a.getLsbD 0 then (a >>> 1) ^^^ c.crcPoly else a >>> 1)^[8]
        (crcRun c bs ^^^ x.setWidth 32) ∧
    crc32 c bs = crcRun c bs ^^^ c.crcXorOut

/-- DECOMPRESS, XPCK_OPEN and XPCK_PACK start their units. After the prologue the unit stands at its first action
(container header, archive magic, file list); nothing else changes. (R130, R150, R247, R260.) -/
def Obligations.ArchiveAndDispatchCommandsEnter : Prop :=
  ∀ s : State, Ready s →
    exec .decompress s = .next { prologue s with phase := .header } ∧
    exec .xpckOpen s = .next { prologue s with phase := .xpckMagic } ∧
    exec .xpckPack s = .next { prologue s with phase := .fls }

/-- LZ_DEC: the size check, the capacity check, the start of the symbol loop. ARG1 above 2^29 - 1 raises
BadArgument(ARG1); a size above OUT_CAP raises BadArgument(SIZE); otherwise SIZE = ARG1, IP = OP = FCNT = 0 and the
loop begins, with nothing else changed. (R170, R171, R75.) -/
def Obligations.LzDecStarts : Prop :=
  ∀ s : State, Ready s →
    (0x1FFFFFFF < s.host.arg1.toNat →
      exec .lzDec s = .next (raise .badArgument s.host.arg1.toNat (prologue s))) ∧
    (s.host.arg1.toNat ≤ 0x1FFFFFFF → s.cfg.outCap.toNat < s.host.arg1.toNat →
      exec .lzDec s = .next (raise .badArgument s.host.arg1.toNat
        { prologue s with str := { (prologue s).str with size := s.host.arg1.toNat } })) ∧
    (s.host.arg1.toNat ≤ 0x1FFFFFFF → s.host.arg1.toNat ≤ s.cfg.outCap.toNat →
      exec .lzDec s = .next { prologue s with
        str := { (prologue s).str with size := s.host.arg1.toNat }, phase := .lz })

/-- HUF_DEC: the argument checks in order, the capacity check, the start of the unit. A depth other than 4 or 8 raises
BadArgument(ARG0), then a size above 2^29 - 1 raises BadArgument(ARG1), then a size above OUT_CAP raises
BadArgument(SIZE); otherwise DEPTH and SIZE are set and the table header is read next. (R200, R301, R75.) -/
def Obligations.HufDecStarts : Prop :=
  ∀ s : State, Ready s →
    let u := { prologue s with
      huf := { (prologue s).huf with depth := s.host.arg0.toNat }
      str := { (prologue s).str with size := s.host.arg1.toNat } }
    (s.host.arg0.toNat ≠ 4 ∧ s.host.arg0.toNat ≠ 8 →
      exec .hufDec s = .next (raise .badArgument s.host.arg0.toNat (prologue s))) ∧
    (s.host.arg0.toNat = 4 ∨ s.host.arg0.toNat = 8 → 0x1FFFFFFF < s.host.arg1.toNat →
      exec .hufDec s = .next (raise .badArgument s.host.arg1.toNat (prologue s))) ∧
    (s.host.arg0.toNat = 4 ∨ s.host.arg0.toNat = 8 → s.host.arg1.toNat ≤ 0x1FFFFFFF →
      s.cfg.outCap.toNat < s.host.arg1.toNat →
      exec .hufDec s = .next (raise .badArgument s.host.arg1.toNat u)) ∧
    (s.host.arg0.toNat = 4 ∨ s.host.arg0.toNat = 8 → s.host.arg1.toNat ≤ 0x1FFFFFFF →
      s.host.arg1.toNat ≤ s.cfg.outCap.toNat → exec .hufDec s = .next { u with phase := .hufTable })

/-- RLE_DEC: the header, its method and the capacity. Fewer than 4 bytes: MalformedHeader(0). A method other than 4:
MalformedHeader(0). A size above OUT_CAP: BadArgument(SIZE). Otherwise METHOD and SIZE are set from the four bytes, IP
= 4, OP = 0, and the chunk loop begins. (R220, R75, R301.) -/
def Obligations.RleDecStarts : Prop :=
  ∀ s : State, Ready s →
    let h := u32le (s.inp.read 0) (s.inp.read 1) (s.inp.read 2) (s.inp.read 3)
    let u := { prologue s with
      str := { (prologue s).str with ip := 4, method := headerMethod h, size := (headerSize h).toNat } }
    (s.host.inLen.toNat < 4 → exec .rleDec s = .next (raise .malformedHeader 0 (prologue s))) ∧
    (4 ≤ s.host.inLen.toNat → headerMethod h ≠ 4#3 →
      exec .rleDec s = .next (raise .malformedHeader 0 u)) ∧
    (4 ≤ s.host.inLen.toNat → headerMethod h = 4#3 → s.cfg.outCap.toNat < (headerSize h).toNat →
      exec .rleDec s = .next (raise .badArgument (headerSize h).toNat u)) ∧
    (4 ≤ s.host.inLen.toNat → headerMethod h = 4#3 → (headerSize h).toNat ≤ s.cfg.outCap.toNat →
      exec .rleDec s = .next { u with phase := .rle })

/-- LZ_ENC: the stream of the input, its header, its parse and its groups. An input longer than 2^29 - 1 raises
BadArgument(n). Otherwise OUT holds the LZ stream of the input, OUT_LEN its length, and no other byte changes, when it
fits OUT_CAP. When it does not, BadArgument: that ERRINFO is then OUT_CAP, where the first byte does not fit, is the
model's reading of R75 (log 13). The stream is the header of method 1 and size n, then the groups of the parse, and
never longer than 4 + n + ceil(n / 8). The parse is greedy: from position 0 on, a reference with the length and the
distance of the match found at the position (LzMatchIsLongestThenFirst) wherever one is found, else the literal of the
byte there; the next position is as many bytes further as the symbol stands for, and the last symbol ends at n. No
group is emitted for no symbols; otherwise a group of up to 8 symbols is a flag byte whose bit 7 - k is set exactly
when symbol k is a reference, and 0 past the last symbol, then a literal's byte or a reference's two token bytes, then
the groups of the other symbols. (R180, R182, R183, R96, R75.) -/
def Obligations.LzEncWritesTheStream : Prop :=
  (∀ s : State, Ready s → SpacesOk s →
    let data := s.inp.readN 0 s.host.inLen.toNat
    (0x1FFFFFFF < s.host.inLen.toNat →
      exec .lzEnc s = .next (raise .badArgument s.host.inLen.toNat (prologue s))) ∧
    (s.host.inLen.toNat ≤ 0x1FFFFFFF → (lzStream data).length ≤ s.cfg.outCap.toNat →
      ∃ t, exec .lzEnc s = .next t ∧ WroteOut s t (lzStream data) ∧
        t.host.outLen.toNat = (lzStream data).length ∧
        t = endCommand { prologue s with
          out := t.out, str := { (prologue s).str with op := (lzStream data).length } }) ∧
    (s.host.inLen.toNat ≤ 0x1FFFFFFF → s.cfg.outCap.toNat < (lzStream data).length →
      ∃ t, exec .lzEnc s = .next t ∧ t.host.err = true ∧ t.host.errCode = 6#3 ∧
        t.host.errInfo = s.cfg.outCap ∧ HostSideKept s t)) ∧
  (∀ data : List Byte,
    lzStream data = le32 (BitVec.ofNat 32 ((data.length <<< 3) ||| 1)) ++ lzGroups (lzParse data) ∧
    (lzStream data).length ≤ 4 + data.length + (data.length + 7) / 8 ∧
    let syms := lzParse data
    let width := fun i : Instr => match i with
      | .ref l _ => l.toNat + 3
      | _ => 1
    let start := fun k : Nat => ((syms.take k).map width).sum
    start syms.length = data.length ∧
    ∀ k i, syms[k]? = some i →
      (∀ len dist, findMatch data (start k) = some (len, dist) →
        i = .ref (BitVec.ofNat 4 (len - 3)) (BitVec.ofNat 12 (dist - 1))) ∧
      (findMatch data (start k) = none → ∃ b, data[start k]? = some b ∧ i = .lit b)) ∧
  lzGroups [] = [] ∧
  ∀ syms : List Instr, syms ≠ [] → (∀ i ∈ syms, (∃ b, i = .lit b) ∨ ∃ l d, i = .ref l d) →
    let payload := fun i : Instr => match i with
      | .lit b => [b]
      | .ref l d => [BitVec.ofNat 8 ((l.toNat <<< 4) ||| (d.toNat >>> 8)), BitVec.ofNat 8 (d.toNat &&& 0xFF)]
      | _ => []
    ∃ flags : Byte,
      lzGroups syms = flags :: ((syms.take 8).flatMap payload ++ lzGroups (syms.drop 8)) ∧
      ∀ k, k < 8 → (flags.getLsbD (7 - k) = true ↔ ∃ l d, syms[k]? = some (.ref l d))

/-- The match search of the LZ compressor. At a position inside the data: a match that is found has length 3 to
min(18, n - pos), its occurrence lies wholly inside the window of the preceding 4096 bytes, no longer length occurs
there, no occurrence of that length starts earlier, and the length is at most the distance, the distance at most 4096;
when none is found no length from 3 up occurs. (R181.) -/
def Obligations.LzMatchIsLongestThenFirst : Prop :=
  ∀ (data : List Byte) (pos : Nat), pos < data.length →
    let occurs := fun (len j : Nat) =>
      pos - 4096 ≤ j ∧ j + len ≤ pos ∧ (data.drop j).take len = (data.drop pos).take len
    let allowed := fun len : Nat => 3 ≤ len ∧ len ≤ min 18 (data.length - pos)
    (∀ len dist, findMatch data pos = some (len, dist) →
      allowed len ∧ len ≤ dist ∧ dist ≤ 4096 ∧ dist ≤ pos ∧ occurs len (pos - dist) ∧
      (∀ j, occurs len j → pos - dist ≤ j) ∧ ∀ len' j, allowed len' → len < len' → ¬occurs len' j) ∧
    (findMatch data pos = none → ∀ len j, allowed len → ¬occurs len j)

/-- DECOMPRESS of the output of LZ_ENC gives the data back. For every data of at most 2^29 - 1 bytes that fits
OUT_CAP: with no command running and IN holding the stream LZ_ENC writes for it, the machine started with DECOMPRESS
reaches a state with DONE, no failure, OUT_LEN the length of the data and OUT the data. Every setting of the
parameters is covered; the only premises beyond R184 are that stream and data fit IN and OUT. (R184, R180, R150, R171,
R172, R173, R75.) -/
def Obligations.LzRoundTrip : Prop :=
  ∀ (s : State) (data : List Byte), Ready s → SpacesOk s → data.length ≤ 0x1FFFFFFF →
    data.length ≤ s.cfg.outCap.toNat → s.host.inLen.toNat = (lzStream data).length →
    s.inp.readN 0 s.host.inLen.toNat = lzStream data →
    ∃ t, Reaches (withCommand 3#32 s) t ∧ t.host.busy = false ∧ t.host.done = true ∧ t.host.err = false ∧
      t.host.outLen.toNat = data.length ∧ t.out.readN 0 data.length = data

/-- STORE. With the header at IP and n bytes after it up to LIMIT: a size field other than n raises
MalformedHeader(IP) under STORE_SIZE_CHECK = strict, then n above the capacity raises BadArgument(n); otherwise the n
bytes are written from address 0 of the destination, OP = n, IP = LIMIT, and no other byte changes. That the bytes go
to address 0, with OP set to 0 whatever it was, is the model's reading (log 19); on a run OP is 0 there (R47, R61).
(R151, R61, R47, R75.) -/
def Obligations.StoreCopiesThePayload : Prop :=
  ∀ (size : BitVec 29) (s : State), CanFetch 4 s → SpacesOk s →
    let n := s.str.limit - (s.str.ip + 4)
    let u := { s with
      str := { s.str with ip := s.str.ip + 4, op := 0, method := 0#3, size := size.toNat } }
    (s.cfg.storeSizeCheck = .strict → n ≠ size.toNat →
      exec (.store size) s = .next (raise .malformedHeader (s.str.ip + 4) u)) ∧
    (s.cfg.storeSizeCheck = .unchecked ∨ n = size.toNat → capacity s < n →
      exec (.store size) s = .next (raise .badArgument n u)) ∧
    (s.cfg.storeSizeCheck = .unchecked ∨ n = size.toNat → n ≤ capacity s →
      ∃ t, exec (.store size) s = .next t ∧ Emitted s t 0 (s.inp.readN (s.str.ip + 4) n) ∧
        t = { u with
          str := { u.str with ip := s.str.limit, op := n }, out := t.out, scr := t.scr, phase := .finish })

/-- LZ, HUF4 and HUF8 pass control to their decoders. METHOD and SIZE are set, IP moves past the header, OP = 0; the
Huffman methods set DEPTH to 4 or 8, LZ clears FCNT. A size above the capacity of the destination raises
BadArgument(SIZE) instead. Nothing else changes. That OP is set to 0 with the header, before the size is checked, is
the model's reading (log 19). (R152, R153, R154, R171, R200, R75.) -/
def Obligations.CodecMethodsEnter : Prop :=
  ∀ (size : BitVec 29) (s : State),
    let u := fun m : BitVec 3 =>
      { s with str := { s.str with ip := s.str.ip + 4, op := 0, method := m, size := size.toNat } }
    (size.toNat ≤ capacity s →
      exec (.lz size) s = .next { u 1#3 with lz := { s.lz with fcnt := 0 }, phase := .lz } ∧
      exec (.huf4 size) s = .next { u 2#3 with huf := { s.huf with depth := 4 }, phase := .hufTable } ∧
      exec (.huf8 size) s = .next { u 3#3 with huf := { s.huf with depth := 8 }, phase := .hufTable }) ∧
    (capacity s < size.toNat →
      exec (.lz size) s = .next (raise .badArgument size.toNat (u 1#3)) ∧
      exec (.huf4 size) s =
        .next (raise .badArgument size.toNat { u 2#3 with huf := { s.huf with depth := 4 } }) ∧
      exec (.huf8 size) s =
        .next (raise .badArgument size.toNat { u 3#3 with huf := { s.huf with depth := 8 } }))

/-- RLE from the dispatcher. With the header of method 4 at BASE the RLE unit reads it again: its method check cannot
fail; the size is checked against the capacity, and the chunk loop begins after the header. That OP is set to 0 with
the header is the model's reading (log 19). (R155, R220, R75.) -/
def Obligations.RleMethodReadsTheHeaderAgain : Prop :=
  ∀ (size : BitVec 29) (s : State), s.str.base + 4 ≤ s.str.limit → s.str.limit ≤ s.cfg.inCap.toNat →
    decode .hdr (s.inp.readN s.str.base 4) = .ok (.rle size, []) →
    let u := { s with
      str := { s.str with ip := s.str.base + 4, op := 0, method := 4#3, size := size.toNat } }
    (size.toNat ≤ capacity s → exec (.rle size) s = .next { u with phase := .rle }) ∧
    (capacity s < size.toNat → exec (.rle size) s = .next (raise .badArgument size.toNat u))

/-- Methods 6 and 7 raise UnknownMethod. Whatever the size field: ERRCODE = 1, ERRINFO = the method code; the header
has been taken and no payload byte is read or written. That OP is set to 0 whatever it was is the model's reading (log
19). (R157, R150.) -/
def Obligations.UnknownMethodsRaise : Prop :=
  ∀ (size : BitVec 29) (s : State), ∃ t6 t7, exec (.method6 size) s = .next t6 ∧
    exec (.method7 size) s = .next t7 ∧
    t6 = raise .unknownMethod 6 { s with
      str := { s.str with ip := s.str.ip + 4, op := 0, method := 6#3, size := size.toNat } } ∧
    t7 = raise .unknownMethod 7 { s with
      str := { s.str with ip := s.str.ip + 4, op := 0, method := 7#3, size := size.toNat } } ∧
    t6.host.errCode = 1#3 ∧ t6.host.errInfo = 6#32 ∧ t7.host.errCode = 1#3 ∧ t7.host.errInfo = 7#32 ∧
    SpacesKept s t6 ∧ SpacesKept s t7

/-- ZLIB and ZLIB_MAGIC. ZLIB takes the header and goes to the magic check. At the magic the whole payload, that byte
included, goes to the engine: fail raises InvalidStream(IP); under strict a length other than SIZE raises
MalformedHeader(IP); a length above the capacity raises BadArgument(length), with the length in ERRINFO where 32 bits
hold it (log 8 says what is open beyond); otherwise the engine's bytes are written from address 0 of the destination,
IP = LIMIT, and no other byte changes. That the bytes go to address 0, with OP set to 0 whatever it was, is the
model's reading (log 19). Nothing is assumed of Inflate. (R156, R158, R298, R301.) -/
def Obligations.ZlibHandsThePayloadOver : Prop :=
  (∀ (size : BitVec 29) (s : State), exec (.zlib size) s = .next { s with
    str := { s.str with ip := s.str.ip + 4, op := 0, method := 5#3, size := size.toNat }
    phase := .zlibMagic }) ∧
  ∀ s : State, CanFetch 1 s → SpacesOk s → ∃ t, exec .zlibMagic s = .next t ∧
    (Config.inflate (s.inp.readN s.str.ip (s.str.limit - s.str.ip)) = none →
      t = raise .invalidStream s.str.ip s) ∧
    ∀ r, Config.inflate (s.inp.readN s.str.ip (s.str.limit - s.str.ip)) = some r →
      (s.cfg.storeSizeCheck = .strict → r.length ≠ s.str.size → t = raise .malformedHeader s.str.ip s) ∧
      (s.cfg.storeSizeCheck = .unchecked ∨ r.length = s.str.size → capacity s < r.length →
        t.host.err = true ∧ t.host.errCode = 6#3 ∧ SpacesKept s t ∧
        (r.length < 2 ^ 32 → t = raise .badArgument r.length s)) ∧
      (s.cfg.storeSizeCheck = .unchecked ∨ r.length = s.str.size → r.length ≤ capacity s →
        Emitted s t 0 r ∧
        t = { s with
          str := { s.str with ip := s.str.limit, op := r.length }, out := t.out, scr := t.scr, phase := .finish })

/-- BadMagic, and a stream without a header. A method-5 payload that is empty or does not begin with 0x78 raises
BadMagic at its address; an archive of fewer than 4 bytes, or whose first bytes are not 58 50 43 4B, raises
BadMagic(0). A dispatched stream of fewer than 4 bytes raises MalformedHeader(BASE). (R150, R292, R156, R247, R294,
R298.) -/
def Obligations.MissingMagicRaises : Prop :=
  ∀ s : State, s.bus = [] → s.host.busy = true → s.str.limit ≤ s.cfg.inCap.toNat →
    s.host.inLen.toNat ≤ s.cfg.inCap.toNat →
    (s.phase = .header → s.str.limit - s.str.base < 4 →
      step s = .next (raise .malformedHeader s.str.base s)) ∧
    (s.phase = .zlibMagic → s.str.limit ≤ s.str.ip ∨ s.inp.read s.str.ip ≠ 0x78#8 →
      step s = .next (raise .badMagic s.str.ip s)) ∧
    (s.phase = .xpckMagic → s.host.inLen.toNat < 4 ∨ s.inp.readN 0 4 ≠ [0x58#8, 0x50#8, 0x43#8, 0x4B#8] →
      step s = .next (raise .badMagic 0 s))

/-- LIT. With room for a byte, the literal is written at OP of the destination, IP and OP advance by one, and nothing
else changes: no other byte of any space, no flag, no other register. (R172, R63.) -/
def Obligations.LitEmitsItsByte : Prop :=
  ∀ (b : Byte) (s : State), SpacesOk s → s.str.op < capacity s → ∃ t, exec (.lit b) s = .next t ∧
    Emitted s t s.str.op [b] ∧
    t = { s with
      str := { s.str with ip := s.str.ip + 1, op := s.str.op + 1 }, out := t.out, scr := t.scr }

/-- REF: the copied bytes. When D < OP and the copy fits the declared size: byte k of the copy is the byte k mod (D +
1) of the D + 1 bytes before OP, so an overlapping copy repeats them; exactly L bytes are written at OP, IP advances
by 2, OP by L, and nothing else but L and D changes. (R173, R64, R335.) -/
def Obligations.RefCopiesPeriodically : Prop :=
  ∀ (len3 : BitVec 4) (disp : BitVec 12) (s : State), SpacesOk s → refDisp disp < s.str.op →
    s.str.op + refLength len3 ≤ s.str.size → s.str.size ≤ capacity s →
    ∃ t, exec (.ref len3 disp) s = .next t ∧
      Emitted s t s.str.op ((List.range (refLength len3)).map fun k =>
        (dstSpace s).read (s.str.op - refDisp disp - 1 + k % (refDisp disp + 1))) ∧
      t = { s with
        str := { s.str with ip := s.str.ip + 2, op := s.str.op + refLength len3 }
        lz := { s.lz with len := refLength len3, disp := refDisp disp }, out := t.out, scr := t.scr }

/-- REF: the failures and the clipped copy. D not below OP raises InvalidStream at the token, whatever the size;
otherwise a copy past SIZE raises MalformedHeader at the token under OVERRUN_POLICY = fault, with no byte written, and
stops at SIZE under clip. (R173, R112, R301, R302.) -/
def Obligations.RefFailsInOrder : Prop :=
  ∀ (len3 : BitVec 4) (disp : BitVec 12) (s : State), SpacesOk s →
    let u := { s with
      str := { s.str with ip := s.str.ip + 2 }
      lz := { s.lz with len := refLength len3, disp := refDisp disp } }
    (s.str.op ≤ refDisp disp → exec (.ref len3 disp) s = .next (raise .invalidStream s.str.ip u)) ∧
    (refDisp disp < s.str.op → s.str.size < s.str.op + refLength len3 → s.cfg.overrunPolicy = .raises →
      exec (.ref len3 disp) s = .next (raise .malformedHeader s.str.ip u)) ∧
    (refDisp disp < s.str.op → s.str.size < s.str.op + refLength len3 → s.cfg.overrunPolicy = .clip →
      s.str.op ≤ s.str.size → s.str.size ≤ capacity s →
      ∃ t, exec (.ref len3 disp) s = .next t ∧
        Emitted s t s.str.op ((List.range (s.str.size - s.str.op)).map fun k =>
          (dstSpace s).read (s.str.op - refDisp disp - 1 + k % (refDisp disp + 1))) ∧
        t = { u with
          str := { u.str with op := s.str.size }, lz := { u.lz with len := s.str.size - s.str.op }
          out := t.out, scr := t.scr })

/-- RUN. A run that fits the declared size writes its byte N times at OP, IP advances by 2, OP by N; CTL and N hold
the control byte and the count; nothing else changes. A run past SIZE raises MalformedHeader at the control byte under
fault, and stops at SIZE under clip. (R222, R103, R63.) -/
def Obligations.RunRepeatsItsByte : Prop :=
  ∀ (n3 : BitVec 7) (v : Byte) (s : State), SpacesOk s → s.str.op ≤ s.str.size → s.str.size ≤ capacity s →
    let u := { s with
      str := { s.str with ip := s.str.ip + 2 }, rle := { ctl := 1#1 ++ n3, count := runCount n3 } }
    (s.str.op + runCount n3 ≤ s.str.size → ∃ t, exec (.run n3 v) s = .next t ∧
      Emitted s t s.str.op (List.replicate (runCount n3) v) ∧
      t = { u with str := { u.str with op := s.str.op + runCount n3 }, out := t.out, scr := t.scr }) ∧
    (s.str.size < s.str.op + runCount n3 → s.cfg.overrunPolicy = .raises →
      exec (.run n3 v) s = .next (raise .malformedHeader s.str.ip u)) ∧
    (s.str.size < s.str.op + runCount n3 → s.cfg.overrunPolicy = .clip → ∃ t, exec (.run n3 v) s = .next t ∧
      Emitted s t s.str.op (List.replicate (s.str.size - s.str.op) v) ∧
      t = { u with
        str := { u.str with op := s.str.size }, rle := { u.rle with count := s.str.size - s.str.op }
        out := t.out, scr := t.scr })

/-- COPY. A literal run past SIZE raises MalformedHeader at the control byte under fault, before its data is looked
at; one whose data is not all there raises TruncatedStream at the first data byte and consumes none; otherwise its N
data bytes (under clip, as many as fit SIZE) are written at OP, IP advances past them, and nothing else but CTL and N
changes. (R223, R104, R62, R301.) -/
def Obligations.CopyCopiesItsBytes : Prop :=
  ∀ (n1 : BitVec 7) (s : State), SpacesOk s → s.str.op ≤ s.str.size → s.str.size ≤ capacity s →
    s.str.limit ≤ s.cfg.inCap.toNat →
    let n := min (copyCount n1) (s.str.size - s.str.op)
    let u := { s with
      str := { s.str with ip := s.str.ip + 1 }, rle := { ctl := 0#1 ++ n1, count := n } }
    (s.str.size < s.str.op + copyCount n1 → s.cfg.overrunPolicy = .raises →
      exec (.copy n1) s =
        .next (raise .malformedHeader s.str.ip { u with rle := { u.rle with count := copyCount n1 } })) ∧
    (s.str.op + copyCount n1 ≤ s.str.size ∨ s.cfg.overrunPolicy = .clip → s.str.limit < s.str.ip + 1 + n →
      exec (.copy n1) s = .next (raise .truncatedStream (s.str.ip + 1) u)) ∧
    (s.str.op + copyCount n1 ≤ s.str.size ∨ s.cfg.overrunPolicy = .clip → s.str.ip + 1 + n ≤ s.str.limit →
      ∃ t, exec (.copy n1) s = .next t ∧ Emitted s t s.str.op (s.inp.readN (s.str.ip + 1) n) ∧
        t = { u with
          str := { u.str with ip := s.str.ip + 1 + n, op := s.str.op + n }, out := t.out, scr := t.scr })

/-- HUF_TABLE. With the 2 header bytes and the 2 * TSIZE table bytes there: the table bytes are in TBL from address 0,
every other byte of TBL is as before; NEED = SIZE * (8 / DEPTH), OP, BITCNT, NIBV, NEXT are 0, CUR = ROOT, and the
walk begins. With a table byte missing: TruncatedStream at the table, nothing of it consumed. (R200, R41, R62, R101.)
-/
def Obligations.HufTableLoads : Prop :=
  ∀ (tsize root : Byte) (s : State), SpacesOk s → CanFetch 2 s →
    (s.str.ip + 2 + 2 * tsize.toNat ≤ s.str.limit → ∃ t, exec (.hufTable tsize root) s = .next t ∧
      t.tbl.readN 0 (2 * tsize.toNat) = s.inp.readN (s.str.ip + 2) (2 * tsize.toNat) ∧
      (∀ x, 2 * tsize.toNat ≤ x → t.tbl.read x = s.tbl.read x) ∧
      t = { s with
        tbl := t.tbl
        str := { s.str with ip := s.str.ip + 2 + 2 * tsize.toNat, op := 0 }
        huf :=
          { s.huf with
            tsize := tsize, root := root, need := s.str.size * (8 / s.huf.depth), bitCnt := 0, nibv := false
            cur := root, next := 0 }
        phase := .hufBit }) ∧
    (s.str.limit < s.str.ip + 2 + 2 * tsize.toNat →
      exec (.hufTable tsize root) s = .next (raise .truncatedStream (s.str.ip + 2) { s with
        str := { s.str with ip := s.str.ip + 2 }, huf := { s.huf with tsize := tsize, root := root } }))

/-- XPCK_OPEN of what XPCK_PACK writes gives the members back, padded, in name order. For every file list that
XPCK_PACK accepts and whose archive fits OUT_CAP: with the list in IN, XPCK_PACK ends without a failure and OUT holds
the archive. With that archive in IN, XPCK_OPEN ends without a failure and without a report, RES0 is the number of
members, and OUT holds the file list of the members in name order, each with pad16 of its data, where the names have
pairwise distinct keys; a name that shares its key has the data of the last one by name. The original data is the
prefix of its length of the returned data, which is followed by zero bytes up to a multiple of 16. With XPCK_HDR_LEN
other than 20 what the header of the archive holds is a choice of the model (log 27). The premises beyond R270 are
that archive and list fit IN and OUT, and under mask12 at least 16 members, since R249 reads smaller counts back only
under branch_aware. (R270, R184, R247, R248, R249, R250, R251, R252, R254, R260, R264, R267.) -/
def Obligations.PackedArchiveOpens : Prop :=
  ∀ (s : State) (ms : List Member), Ready s → SpacesOk s → (Instr.fls ms).wellFormed = true →
    refusedList s.cfg ms = none → rangeFailure s.cfg (sortByName ms) = none →
    let sorted := sortByName ms
    let archive := packArchive s.cfg sorted
    let opened := fun m : Member =>
      (m.1, ((sorted.filter fun x => decide (crc32 s.cfg x.1 = crc32 s.cfg m.1)).map fun x => pad16 x.2).getLastD [])
    (s.host.inLen.toNat = (fileListBytes ms).length → s.inp.readN 0 s.host.inLen.toNat = fileListBytes ms →
      archive.length ≤ s.cfg.outCap.toNat →
      ∃ t, Reaches (withCommand 10#32 s) t ∧ statusWord t.host = 0b0010#32 ∧
        t.host.outLen.toNat = archive.length ∧ t.out.readN 0 archive.length = archive) ∧
    (s.host.inLen.toNat = archive.length → s.inp.readN 0 s.host.inLen.toNat = archive →
      (s.cfg.countDecode = .mask12 → 16 ≤ ms.length) →
      (fileListBytes (sorted.map opened)).length ≤ s.cfg.outCap.toNat →
      ∃ t, Reaches (withCommand 9#32 s) t ∧ statusWord t.host = 0b0010#32 ∧ t.host.rptCnt = 0#32 ∧
        t.host.res0.toNat = ms.length ∧ t.host.outLen.toNat = (fileListBytes (sorted.map opened)).length ∧
        t.out.readN 0 t.host.outLen.toNat = fileListBytes (sorted.map opened)) ∧
    ((ms.map fun m => crc32 s.cfg m.1).Nodup → sorted.map opened = sorted.map fun m => (m.1, pad16 m.2)) ∧
    ∀ m ∈ ms, (pad16 m.2).take m.2.length = m.2 ∧ (pad16 m.2).length % 16 = 0 ∧
      (pad16 m.2).length < m.2.length + 16 ∧ ∀ b ∈ (pad16 m.2).drop m.2.length, b = 0#8

/-- HUF_WORD, HUF_STEP0, HUF_STEP1 and HUF_NODE: the walk. A code word fills CODE and sets BITCNT to 32, IP advances
by 4. On input bit b: CODE shifts left by one, BITCNT drops by one, NEXT grows by 2 * (CUR & 0x3F) + 2, the child
index is NEXT - 2 + b and its leaf flag bit 7 of CUR for b = 0, bit 6 for b = 1. An index not below 2 * TSIZE raises
InvalidStream(IP). A node byte becomes CUR with its two flags in bits 7 and 6 and its offset in bits 5..0. Nothing
else changes. That the code bit and the table byte are two steps is the model's stepping (log 25). (R201, R202, R99,
R41, R296.) -/
def Obligations.HufStepTakesTheChild : Prop :=
  (∀ (b : Bool) (s : State),
    let next := s.huf.next + 2 * (s.huf.cur.toNat &&& 0x3F) + 2
    let idx := next - 2 + b.toNat
    let u := { s with
      huf := { s.huf with code := s.huf.code <<< 1, bitCnt := s.huf.bitCnt - 1, next := next } }
    (2 * s.huf.tsize.toNat ≤ idx →
      exec (if b then .hufStep1 else .hufStep0) s = .next (raise .invalidStream s.str.ip u)) ∧
    (idx < 2 * s.huf.tsize.toNat →
      exec (if b then .hufStep1 else .hufStep0) s =
        .next { u with phase := .hufChild idx (s.huf.cur.getLsbD (if b then 6 else 7)) })) ∧
  ∀ s : State,
    (∀ code : Word, exec (.hufWord code) s = .next { s with
      str := { s.str with ip := s.str.ip + 4 }, huf := { s.huf with code := code, bitCnt := 32 } }) ∧
    ∀ (leaf0 leaf1 : Bool) (offset : BitVec 6), ∃ t, exec (.hufNode leaf0 leaf1 offset) s = .next t ∧
      t.huf.cur.toNat = 128 * leaf0.toNat + 64 * leaf1.toNat + offset.toNat ∧
      t = { s with huf := { s.huf with cur := t.huf.cur }, phase := .hufBit }

/-- HUF_LEAF8. With room for a byte, the symbol is written at OP, NEED drops by one, and the walk is back at the root
(CUR = ROOT, NEXT = 0); nothing else changes. (R203, R202, R63.) -/
def Obligations.HufLeaf8EmitsItsSymbol : Prop :=
  ∀ (x : Byte) (s : State), SpacesOk s → s.str.op < capacity s → ∃ t, exec (.hufLeaf8 x) s = .next t ∧
    Emitted s t s.str.op [x] ∧
    t = { s with
      str := { s.str with op := s.str.op + 1 }
      huf := { s.huf with need := s.huf.need - 1, cur := s.huf.root, next := 0 }
      out := t.out, scr := t.scr, phase := .hufBit }

/-- HUF_LEAF4, low nibble first. With no nibble pending the symbol is kept in NIB and no byte of any space changes;
with one pending and room for a byte, NIB + 16 * symbol is written at OP and none is pending. NEED drops by one and
the walk is back at the root; nothing else changes. A 4-bit-mode leaf above 15 raises InvalidStream(IP) before
anything is packed. (R204, R101, R112, R63.) -/
def Obligations.HufLeaf4PacksNibbles : Prop :=
  (∀ (x : BitVec 4) (s : State),
    (s.huf.nibv = false → exec (.hufLeaf4 x) s = .next { s with
      huf := { s.huf with nib := x, nibv := true, need := s.huf.need - 1, cur := s.huf.root, next := 0 }
      phase := .hufBit }) ∧
    (s.huf.nibv = true → SpacesOk s → s.str.op < capacity s → ∃ t, exec (.hufLeaf4 x) s = .next t ∧
      Emitted s t s.str.op [BitVec.ofNat 8 (s.huf.nib.toNat + 16 * x.toNat)] ∧
      t = { s with
        str := { s.str with op := s.str.op + 1 }
        huf := { s.huf with nibv := false, need := s.huf.need - 1, cur := s.huf.root, next := 0 }
        out := t.out, scr := t.scr, phase := .hufBit })) ∧
  ∀ (s : State) (idx : Nat), s.bus = [] → s.host.busy = true → s.phase = .hufChild idx true →
    s.huf.depth = 4 → 15 < (s.tbl.read idx).toNat →
    step s = .next (raise .invalidStream s.str.ip { s with huf := { s.huf with cur := s.tbl.read idx } })

/-- XPCK_MAGIC, XPH and COUNT_FIELD. After the magic IP = 4. XPH sets CNT, the three offsets and F4 (4 times their
fields) and advances IP by 10; its tail fields have no effect. COUNT_FIELD sets CNT to f1 where XPCK_COUNT_DECODE is
branch_aware, f1 is 1..15 and f2 = 2^floor_log2(f1), else to the low 12 bits of f1 + 256 * f2, and the record loop
begins with an empty LUT and REC = 0. Nothing else changes. That the count is decoded in a step of its own is the
model's stepping (log 24). (R247, R248, R249, R250.) -/
def Obligations.ArchiveHeaderIsRead : Prop :=
  ∀ s : State,
    exec .xpckMagic s = .next { s with str := { s.str with ip := 4 }, phase := .xph } ∧
    (∀ (c i n d f l : BitVec 16) (k : Word), exec (.xph c i n d f l k) s = .next { s with
      str := { s.str with ip := s.str.ip + 10 }
      xp :=
        { s.xp with
          cnt := countDecode s.cfg.countDecode c, infoOff := 4 * i.toNat, nameOff := 4 * n.toNat
          dataOff := 4 * d.toNat, f4 := 4 * f.toNat }
      phase := .countField }) ∧
    ∀ f1 f2 : Byte, exec (.countField f1 f2) s = .next { s with
      xp :=
        { s.xp with
          cnt :=
            if s.cfg.countDecode = .branchAware ∧ 1 ≤ f1.toNat ∧ f1.toNat ≤ 15 ∧ f2.toNat = 2 ^ Nat.log2 f1.toNat
            then f1.toNat
            else (f1.toNat + 256 * f2.toNat) % 4096
          recIdx := 0 }
      lut := [], phase := .records }

/-- The count field of a file count, and the count read back from it. CountField(c) of a count from 1 to 4095 is f1 |
f2 << 8, with f1 = c and f2 = 2^floor_log2(c) below 256, else f1 = c & 0xFF and f2 = c >> 8. CountDecode(cf) is f1 =
cf & 0xFF where XPCK_COUNT_DECODE is branch_aware, f1 is 1..15 and f2 = cf >> 8 is 2^floor_log2(f1), else cf & 0xFFF.
Every count from 1 to 4095 but the fifteen ambiguous ones under branch_aware, and every count from 16 to 4095 under
mask12, is decoded from the field CountField gives it. (R266, R249, R260.) -/
def Obligations.CountFieldRoundTrip : Prop :=
  (∀ (mode : CountMode) (cf : BitVec 16),
    let f1 := cf.toNat &&& 0xFF
    let f2 := cf.toNat >>> 8
    countDecode mode cf =
      if mode = .branchAware ∧ 1 ≤ f1 ∧ f1 ≤ 15 ∧ f2 = 2 ^ Nat.log2 f1 then f1 else cf.toNat &&& 0xFFF) ∧
  ∀ c, c ≤ 4095 →
    (1 ≤ c → c < 256 → (countFieldOf c).toNat = ((2 ^ Nat.log2 c) <<< 8) ||| c) ∧
    (256 ≤ c → (countFieldOf c).toNat = ((c >>> 8) <<< 8) ||| (c &&& 0xFF)) ∧
    (1 ≤ c → c ∉ [257, 514, 515, 1028, 1029, 1030, 1031, 2056, 2057, 2058, 2059, 2060, 2061, 2062, 2063] →
      countDecode .branchAware (countFieldOf c) = c) ∧
    (16 ≤ c → countDecode .mask12 (countFieldOf c) = c)

/-- XPR. A record whose member data does not lie inside the input raises TruncatedStream at the record. Otherwise its
key maps to the address (off_lo | off_hi << 16) * 4 + DATA_OFF and the size size_lo | size_hi << 16, replacing an
older entry; every other key maps as before, where the entry a key maps to is the one of LUT that has this key; REC
and IP advance, and nothing else changes. (R250, R108, R42, R293.) -/
def Obligations.RecordIsInserted : Prop :=
  (∀ (key : Word) (lut : List LutEntry),
    (∀ e, lutFind key lut = some e → e ∈ lut ∧ e.key = key) ∧
    (lutFind key lut = none → ∀ e ∈ lut, e.key ≠ key)) ∧
  ∀ (crc : Word) (nameOff offLo sizeLo : BitVec 16) (offHi sizeHi : Byte) (s : State),
    let addr := (offLo.toNat ||| (offHi.toNat <<< 16)) * 4 + s.xp.dataOff
    let size := sizeLo.toNat ||| (sizeHi.toNat <<< 16)
    let u := { s with str := { s.str with ip := s.str.ip + 12 } }
    (s.host.inLen.toNat < addr + size →
      exec (.xpr crc nameOff offLo sizeLo offHi sizeHi) s = .next (raise .truncatedStream s.str.ip u)) ∧
    (addr + size ≤ s.host.inLen.toNat →
      ∃ t, exec (.xpr crc nameOff offLo sizeLo offHi sizeHi) s = .next t ∧
        lutFind crc t.lut = some { key := crc, addr := addr, size := size } ∧
        (∀ k, k ≠ crc → lutFind k t.lut = lutFind k s.lut) ∧
        t = { u with
          lut := t.lut, xp := { s.xp with recIdx := s.xp.recIdx + 1 }, phase := .records })

/-- The lookup of one name. At name-table offset p below NT_LEN the name runs up to the first zero byte of SCR or
NT_LEN. An empty name is skipped; a name whose CRC32 is a key of LUT is appended to the result with that entry; any
other is reported next. The loop goes on one byte after the name; nothing else but CRCACC and REC changes. REC becomes
the index of the name, counted from 0; that empty pieces are not counted (log 23), and that REC is a free value where
12 bits cannot hold the index (log 35), are the model's choices. (R252, R253, R34.) -/
def Obligations.NamesAreLookedUp : Prop :=
  ∀ (s : State) (p : Nat), s.bus = [] → s.host.busy = true → s.phase = .lookup p → p < s.xp.ntLen →
    let rec' := if s.found.length + s.host.rptCnt.toNat ≤ 4095 then s.found.length + s.host.rptCnt.toNat
      else (Config.freeRec (s.found.length + s.host.rptCnt.toNat)).toNat
    ∃ n, p + n ≤ s.xp.ntLen ∧ (∀ x, x < n → s.scr.read (p + x) ≠ 0#8) ∧
      (p + n = s.xp.ntLen ∨ s.scr.read (p + n) = 0#8) ∧
      (n = 0 → step s = .next { s with phase := .lookup (p + 1) }) ∧
      (∀ e, 0 < n → lutFind (crc32 s.cfg (s.scr.readN p n)) s.lut = some e →
        step s = .next { s with
          crcAcc := crcRun s.cfg (s.scr.readN p n), xp := { s.xp with recIdx := rec' }
          found := s.found ++ [{ off := p, len := n, addr := e.addr, size := e.size }]
          phase := .lookup (p + n + 1) }) ∧
      (0 < n → lutFind (crc32 s.cfg (s.scr.readN p n)) s.lut = none →
        step s = .next { s with
          crcAcc := crcRun s.cfg (s.scr.readN p n), xp := { s.xp with recIdx := rec' }
          phase := .report
            { code := 5#32, crc := crc32 s.cfg (s.scr.readN p n), off := BitVec.ofNat 32 p
              len := BitVec.ofNat 32 n } })

/-- RPT_ENTRY: the non-fatal report. The entry (5, h, p, n) is appended to RPT when RPT_CNT is below RPT_CAP, RPT_CNT
grows by one either way, STATUS.RPT is set, and the command goes on with the byte after the name. ERR, ERRCODE,
ERRINFO and everything else stay. (R305.) -/
def Obligations.ReportIsRecorded : Prop :=
  ∀ (crc off len : Word) (s : State), ∃ t, exec (.rptEntry crc off len) s = .next t ∧
    t = { s with
      host := { s.host with rptFlag := true, rptCnt := s.host.rptCnt + 1#32 }
      rpt :=
        if s.host.rptCnt.toNat < s.cfg.rptCap then
          s.rpt ++ [{ code := 5#32, crc := crc, off := off, len := len }]
        else s.rpt
      phase := .lookup (off.toNat + len.toNat + 1) } ∧
    t.host.err = s.host.err ∧ t.host.errCode = s.host.errCode ∧ t.host.errInfo = s.host.errInfo

/-- The result of XPCK_OPEN. After the last name: when every name fits its 16-bit length and the file list fits
OUT_CAP, the list is in OUT, RES0 is the number of members, RES1 = CNT, OUT_LEN the length of the list, and the
command ends with no other byte changed. A name above 65535 bytes, or a list above OUT_CAP, raises BadArgument and
writes nothing; ERRINFO is the length of the list, as far as 32 bits hold it (log 8), where only the list does not
fit, and the length of the first name above 65535 bytes where only names do not fit (log 32); where both hold it is
open (log 9). A file list is the little-endian count, then for each member the lengths of its name (2 bytes) and its
data (4 bytes), the name and the data; it is the encoding of FLS. (R254, R111, R75.) -/
def Obligations.ResultIsWritten : Prop :=
  (∀ ms : List Member,
    fileListBytes ms = le32 (BitVec.ofNat 32 ms.length) ++ ms.flatMap memberBytes ∧
    (∀ m : Member, memberBytes m =
      le16 (BitVec.ofNat 16 m.1.length) ++ le32 (BitVec.ofNat 32 m.2.length) ++ m.1 ++ m.2) ∧
    encode (.fls ms) = fileListBytes ms) ∧
  ∀ (s : State) (p : Nat), s.bus = [] → s.host.busy = true → s.phase = .lookup p → s.xp.ntLen ≤ p → SpacesOk s →
    s.host.inLen.toNat ≤ s.cfg.inCap.toNat →
    let bytes := fileListBytes (s.found.map fun f => (s.scr.readN f.off f.len, s.inp.readN f.addr f.size))
    ((∀ f ∈ s.found, f.len ≤ 65535) → bytes.length ≤ s.cfg.outCap.toNat →
      ∃ t, step s = .next t ∧ WroteOut s t bytes ∧ t.host.outLen.toNat = bytes.length ∧
        t = endCommand { s with
          out := t.out, str := { s.str with op := bytes.length }
          host :=
            { s.host with res0 := BitVec.ofNat 32 s.found.length, res1 := BitVec.ofNat 32 s.xp.cnt } }) ∧
    ((∀ f ∈ s.found, f.len ≤ 65535) → s.cfg.outCap.toNat < bytes.length →
      ∃ t, step s = .next t ∧ t.host.err = true ∧ t.host.errCode = 6#3 ∧ SpacesKept s t ∧
        (bytes.length < 2 ^ 32 → t = raise .badArgument bytes.length s)) ∧
    ∀ pre f post, s.found = pre ++ f :: post → (∀ g ∈ pre, g.len ≤ 65535) → 65535 < f.len →
      (bytes.length ≤ s.cfg.outCap.toNat → step s = .next (raise .badArgument f.len s)) ∧
      ∃ t, step s = .next t ∧ t.host.err = true ∧ t.host.errCode = 6#3 ∧ SpacesKept s t

/-- FLS: the archive of a file list that passes the checks, the failure of one that does not, and bytes that are no
file list. A list that refusedList refuses raises BadArgument with the value it gives, a list that rangeFailure
refuses raises BadArgument with the value it gives where 32 bits hold it (log 8), and no byte is written, not even to
SCR (log 14); which lists the two refuse, and with which value, is PackAcceptsExactlyMappings (logs 11, 12, 27). When
the archive of the sorted members fits OUT_CAP, it is in OUT (its fields are in PackLayoutIsAligned; a header length
other than 20 is log 27), RES0 is the count, RES1 = DATA_OFF, and no other byte of OUT, IN or TBL changes; that the
archive registers stay is the model's reading (log 34), and so is what the private scratch holds (log 14). An archive
longer than OUT_CAP raises BadArgument: that ERRINFO is then OUT_CAP, where the first byte does not fit, is the
model's reading of R75 (log 13). Bytes that are no file list raise BadArgument with the address of the first field
that is not wholly in IN[0:IN_LEN], or of the first byte left over (the 6 length bytes of an entry are one field, as
vector X28 has it). (R260, R267, R269, R297, R111, R75.) -/
def Obligations.FlsPacksAcceptedLists : Prop :=
  (∀ (ms : List Member) (s : State), SpacesOk s →
    let sorted := sortByName ms
    let archive := packArchive s.cfg sorted
    (∀ v, refusedList s.cfg ms = some v → exec (.fls ms) s = .next (raise .badArgument v s)) ∧
    (∀ v, refusedList s.cfg ms = none → rangeFailure s.cfg sorted = some v →
      ∃ t, exec (.fls ms) s = .next t ∧ t.host.err = true ∧ t.host.errCode = 6#3 ∧ SpacesKept s t ∧
        (v < 2 ^ 32 → t = raise .badArgument v s)) ∧
    (refusedList s.cfg ms = none → rangeFailure s.cfg sorted = none → archive.length ≤ s.cfg.outCap.toNat →
      ∃ t, exec (.fls ms) s = .next t ∧
        t.out.readN 0 archive.length = archive ∧ (∀ x, archive.length ≤ x → t.out.read x = s.out.read x) ∧
        t = { s with
          out := t.out, scr := t.scr, crcAcc := t.crcAcc
          str := { s.str with op := archive.length }
          host :=
            { s.host with
              res0 := BitVec.ofNat 32 ms.length, res1 := BitVec.ofNat 32 (packDataOff s.cfg sorted) }
          phase := .finish }) ∧
    (refusedList s.cfg ms = none → rangeFailure s.cfg sorted = none → s.cfg.outCap.toNat < archive.length →
      ∃ t, exec (.fls ms) s = .next t ∧ t.host.err = true ∧ t.host.done = true ∧ t.host.busy = false ∧
        t.host.errCode = 6#3 ∧ t.host.errInfo = s.cfg.outCap ∧ t.host.outLen = 0#32 ∧ t.tbl = s.tbl ∧
        HostSideKept s t)) ∧
  ∀ s : State, s.bus = [] → s.host.busy = true → s.phase = .fls → s.host.inLen.toNat ≤ s.cfg.inCap.toNat →
    let bytes := s.inp.readN 0 s.host.inLen.toNat
    let refusedAt := fun a : Nat => raise .badArgument a { s with str := { s.str with ip := a } }
    (bytes.length < 4 → step s = .next (refusedAt 0)) ∧
    ∀ (n : Word) (ms : List Member) (tail : List Byte), (Instr.fls ms).wellFormed = true →
      bytes = le32 n ++ ms.flatMap memberBytes ++ tail →
      let a := bytes.length - tail.length
      (ms.length = n.toNat → tail ≠ [] → step s = .next (refusedAt a)) ∧
      (ms.length < n.toNat → tail.length < 6 → step s = .next (refusedAt a)) ∧
      ∀ (nameLen : BitVec 16) (dataLen : Word) (rest : List Byte), ms.length < n.toNat →
        tail = le16 nameLen ++ le32 dataLen ++ rest →
        (rest.length < nameLen.toNat → step s = .next (refusedAt (a + 6))) ∧
        (nameLen.toNat ≤ rest.length → rest.length < nameLen.toNat + dataLen.toNat →
          step s = .next (refusedAt (a + 6 + nameLen.toNat)))

/-- Which file lists pass the checks of R260 and the range checks of R269, and the value recorded for one that does
not. A list passes the checks of R260 exactly when it has 1 to 4095 members, its count is not one of the fifteen
ambiguous ones under branch_aware, and its names are non-empty, free of zero bytes and pairwise distinct. A refusal
for the count records the count; one for a name records the index of the first member whose name is empty, holds a
zero byte or equals an earlier one (that the first in the order of the list is meant is log 12). The members in name
order pass the range checks exactly when every data offset divided by 4 and every padded length is at most 0xFFFFFF,
every name offset at most 0xFFFF, the name table at most 2^29 - 1 and at most SCR_CAP bytes, and DATA_OFF / 4 at most
0xFFFF; the value of the first check that fails is recorded, in the order given, which is the layout order, and within
a check that of the first member (log 11). With XPCK_HDR_LEN other than 20 a header length below 14 or no multiple of
4 is refused too, which is the model's choice (log 27). The archive longer than OUT_CAP, the last check of R269, is in
FlsPacksAcceptedLists. (R260, R246, R269, R298, R301, R262, R263, R264, R11, R6.) -/
def Obligations.PackAcceptsExactlyMappings : Prop :=
  (∀ (c : Config) (ms : List Member),
    let ambiguous := c.countDecode = .branchAware ∧
      ms.length ∈ [257, 514, 515, 1028, 1029, 1030, 1031, 2056, 2057, 2058, 2059, 2060, 2061, 2062, 2063]
    (refusedList c ms = none ↔
      1 ≤ ms.length ∧ ms.length ≤ 4095 ∧ ¬ambiguous ∧
      (∀ m ∈ ms, m.1 ≠ [] ∧ 0#8 ∉ m.1) ∧ (ms.map Prod.fst).Nodup) ∧
    (ms.length = 0 ∨ 4095 < ms.length → refusedList c ms = some ms.length) ∧
    (ambiguous → refusedList c ms = some ms.length) ∧
    (∀ pre m post, ms = pre ++ m :: post → ms.length ≤ 4095 →
      ¬ambiguous →
      (∀ x ∈ pre, x.1 ≠ [] ∧ 0#8 ∉ x.1) → (pre.map Prod.fst).Nodup →
      m.1 = [] ∨ 0#8 ∈ m.1 ∨ m.1 ∈ pre.map Prod.fst → refusedList c ms = some pre.length)) ∧
  ∀ (c : Config) (ms : List Member),
    let doff4 := (dataOffsets 0 ms).map fun v => v / 4
    let dsz := ms.map fun m => (pad16 m.2).length
    let noff := nameOffsets 0 ms
    let ntLen := (ms.flatMap fun m => m.1 ++ [0#8]).length
    let doffOk := ∀ v ∈ doff4, v ≤ 0xFFFFFF
    let dszOk := ∀ v ∈ dsz, v ≤ 0xFFFFFF
    let noffOk := ∀ v ∈ noff, v ≤ 0xFFFF
    let ntOk := ntLen ≤ 0x1FFFFFFF ∧ ntLen ≤ c.scrCap.toNat
    let hdrOk := 14 ≤ c.xpckHdrLen ∧ c.xpckHdrLen % 4 = 0
    (rangeFailure c ms = none ↔
      doffOk ∧ dszOk ∧ noffOk ∧ ntOk ∧ hdrOk ∧ packDataOff c ms / 4 ≤ 0xFFFF) ∧
    (c.xpckHdrLen = 20 → hdrOk) ∧
    (∀ pre v post, doff4 = pre ++ v :: post → (∀ x ∈ pre, x ≤ 0xFFFFFF) → 0xFFFFFF < v →
      rangeFailure c ms = some v) ∧
    (∀ pre v post, doffOk → dsz = pre ++ v :: post → (∀ x ∈ pre, x ≤ 0xFFFFFF) → 0xFFFFFF < v →
      rangeFailure c ms = some v) ∧
    (∀ pre v post, doffOk → dszOk → noff = pre ++ v :: post → (∀ x ∈ pre, x ≤ 0xFFFF) → 0xFFFF < v →
      rangeFailure c ms = some v) ∧
    (doffOk → dszOk → noffOk → ¬ntOk → rangeFailure c ms = some ntLen) ∧
    (doffOk → dszOk → noffOk → ntOk → ¬hdrOk → rangeFailure c ms = some c.xpckHdrLen) ∧
    (doffOk → dszOk → noffOk → ntOk → hdrOk → 0xFFFF < packDataOff c ms / 4 →
      rangeFailure c ms = some (packDataOff c ms / 4))

/-- The layout and the fields of a packed archive. For every list of members: name offset i is the length of the names
before it with their terminators, data offset i the padded length of the data before it; a record holds,
little-endian, the name's CRC32, its name offset, its data offset divided by 4 and its padded length, the last two
split into their low 16 bits and their bits 23..16. The name section is the LZ stream of the names with a zero byte
after each, followed by fewer than 16 zero bytes; the data section starts a multiple of 16 after the file-info table,
every member starts at a multiple of 16 inside it, and with a header length that is a multiple of 4 the section
offsets are multiples of 4. Padded data is the data and fewer than 16 zero bytes, up to a multiple of 16. With
XPCK_HDR_LEN = 20 the archive is the 20 header bytes of R267, the count field among them as R266 gives it, the
records, the name section and the padded data. What a header of another length holds is the model's choice (log 27).
(R262, R263, R264, R265, R266, R267, R67, R105, R107, R108, R7, R9.) -/
def Obligations.PackLayoutIsAligned : Prop :=
  (∀ (c : Config) (m : Member) (noff doff : Nat),
    encode (packRecord c m noff doff) =
      le32 (crc32 c m.1) ++ le16 (BitVec.ofNat 16 noff) ++ le16 (BitVec.ofNat 16 (doff >>> 2)) ++
        le16 (BitVec.ofNat 16 (pad16 m.2).length) ++
        [BitVec.ofNat 8 (doff >>> 2 >>> 16), BitVec.ofNat 8 ((pad16 m.2).length >>> 16)]) ∧
  (∀ d : List Byte, (pad16 d).length % 16 = 0 ∧ ∃ k, k < 16 ∧ pad16 d = d ++ List.replicate k 0#8) ∧
  ∀ (c : Config) (ms : List Member),
    nameOffsets 0 ms = (List.range ms.length).map (fun i => ((ms.take i).map fun m => m.1.length + 1).sum) ∧
    dataOffsets 0 ms = (List.range ms.length).map (fun i => ((ms.take i).map fun m => (pad16 m.2).length).sum) ∧
    keyedRecords c ms 0 0 =
      (ms.zip ((nameOffsets 0 ms).zip (dataOffsets 0 ms))).map
        (fun x => (crc32 c x.1.1, packRecord c x.1 x.2.1 x.2.2)) ∧
    packInfoOff c = c.xpckHdrLen ∧ packNameOff c ms = packInfoOff c + 12 * ms.length ∧
    packDataOff c ms = packNameOff c ms + (nameBlob ms).length ∧
    (∃ k, k < 16 ∧ nameBlob ms = lzStream (ms.flatMap fun m => m.1 ++ [0#8]) ++ List.replicate k 0#8) ∧
    (packDataOff c ms - packInfoOff c) % 16 = 0 ∧
    (c.xpckHdrLen % 4 = 0 → packNameOff c ms % 4 = 0 ∧ packDataOff c ms % 4 = 0) ∧
    (∀ o ∈ dataOffsets 0 ms, o % 16 = 0) ∧ (dataSection ms).length % 16 = 0 ∧
    (packArchive c ms).length =
      c.xpckHdrLen + 12 * ms.length + (nameBlob ms).length + (dataSection ms).length ∧
    (c.xpckHdrLen = 20 →
      packArchive c ms =
        [0x58#8, 0x50#8, 0x43#8, 0x4B#8] ++
          [BitVec.ofNat 8 (ms.length &&& 0xFF),
            BitVec.ofNat 8 (if ms.length < 256 then 2 ^ Nat.log2 ms.length else ms.length >>> 8)] ++ le16 5#16 ++
          le16 (BitVec.ofNat 16 (packNameOff c ms / 4)) ++ le16 (BitVec.ofNat 16 (packDataOff c ms / 4)) ++
          le16 (BitVec.ofNat 16 (12 * ms.length / 4)) ++ le16 (BitVec.ofNat 16 ((nameBlob ms).length / 4)) ++
          le32 (BitVec.ofNat 32 ((ms.flatMap fun m => pad16 m.2).length / 4)) ++
          (sortedRecords c ms).flatMap encode ++ nameBlob ms ++ ms.flatMap fun m => pad16 m.2)

/-- Members in name order, records in key order, equal keys in name order. Sorting by name permutes the members into
unsigned lexicographic order (a name comes before another when the two are equal, when it is a beginning of the other,
or when its first byte that differs is the smaller one); the records are a permutation of the members' records in
ascending key order in which records with one key keep the order of the names. (R261, R265, R9.) -/
def Obligations.PackOrdersNamesAndKeys : Prop :=
  (∀ ms : List Member, (sortByName ms).Perm ms ∧
    (sortByName ms).Pairwise fun x y => ∃ p xs ys, x.1 = p ++ xs ∧ y.1 = p ++ ys ∧
      (xs = [] ∨ ∃ a b as bs, xs = a :: as ∧ ys = b :: bs ∧ a.toNat < b.toNat)) ∧
  ∀ (c : Config) (ms : List Member), ∃ rs : List (Word × Instr),
    sortedRecords c ms = rs.map Prod.snd ∧ rs.Perm (keyedRecords c ms 0 0) ∧
    (rs.Pairwise fun x y => x.1.toNat ≤ y.1.toNat) ∧
    ∀ k, rs.filter (fun x => decide (x.1 = k)) = (keyedRecords c ms 0 0).filter fun x => decide (x.1 = k)

/-- Fatal failure entry. raise E(info) sets ERRCODE to the code of E and ERRINFO to info, clears OUT_LEN, RES0 and
RES1, sets ERR and DONE, clears BUSY and ends the command; RPT, RPT_CNT and all other state stay, nothing is saved.
(R300.) -/
def Obligations.RaiseEntersTheFailure : Prop :=
  ∀ (f : Failure) (info : Nat) (s : State), raise f info s =
    { s with
      host :=
        { s.host with
          errCode :=
            (match f with
              | .unknownMethod => 1#3 | .malformedHeader => 2#3 | .truncatedStream => 3#3 | .badMagic => 4#3
              | .hashNotFound => 5#3 | .badArgument => 6#3 | .invalidStream => 7#3)
          errInfo := BitVec.ofNat 32 info, outLen := 0#32, res0 := 0#32, res1 := 0#32
          err := true, busy := false, done := true }
      phase := .idle }

/-- Fetch(n), and every step whose bytes are missing. With fewer than n bytes between IP and LIMIT:
TruncatedStream(IP), nothing consumed. Otherwise the n bytes of IN at IP, and IP advances by n. (The n bytes at an
address are the bytes of that address and the n - 1 next ones, in that order.) A step that fetches does the same:
where the LZ flag byte, the LZ literal or token, the RLE control byte or the data byte of a run, the Huffman table
header or code word, the archive header, or the record is not wholly below LIMIT, it raises TruncatedStream at that
item and consumes none of it; what was fetched before it (the flag byte, with FLAGS and FCNT as after the flag is
taken, and the control byte) stays consumed. How a command is cut into these steps is the model's (logs 1 and 22).
(R62, R293, R302, R171, R173, R201, R221, R222, R248, R250, R30, R10.) -/
def Obligations.FetchIsAllOrNothing : Prop :=
  (∀ (m : Memory) (a n : Nat), m.readN a n = (List.range n).map fun k => m.read (a + k)) ∧
  (∀ (n : Nat) (s : State) (k : List Byte → State → Outcome), s.str.limit ≤ s.cfg.inCap.toNat →
    (s.str.limit < s.str.ip + n → fetch n s k = .next (raise .truncatedStream s.str.ip s)) ∧
    (s.str.ip + n ≤ s.str.limit →
      fetch n s k = k (s.inp.readN s.str.ip n) { s with str := { s.str with ip := s.str.ip + n } })) ∧
  ∀ s : State, s.bus = [] → s.host.busy = true → s.str.limit ≤ s.cfg.inCap.toNat →
    (s.phase = .lz → s.str.op < s.str.size →
      (s.lz.fcnt = 0 → s.str.limit < s.str.ip + 1 → step s = .next (raise .truncatedStream s.str.ip s)) ∧
      ((s.lz.fcnt = 0 → s.str.ip + 1 ≤ s.str.limit) →
        let flags := if s.lz.fcnt = 0 then s.inp.read s.str.ip else s.lz.flags
        let u := { s with
          str := { s.str with ip := if s.lz.fcnt = 0 then s.str.ip + 1 else s.str.ip }
          lz := { s.lz with flags := flags <<< 1, fcnt := if s.lz.fcnt = 0 then 7 else s.lz.fcnt - 1 } }
        s.str.limit < u.str.ip + (if flags.getLsbD 7 then 2 else 1) →
          step s = .next (raise .truncatedStream u.str.ip u))) ∧
    (s.phase = .rle → s.str.op < s.str.size →
      (s.str.limit < s.str.ip + 1 → step s = .next (raise .truncatedStream s.str.ip s)) ∧
      (s.str.ip + 1 = s.str.limit → 128 ≤ (s.inp.read s.str.ip).toNat →
        step s = .next (raise .truncatedStream (s.str.ip + 1) { s with
          str := { s.str with ip := s.str.ip + 1 }
          rle := { ctl := s.inp.read s.str.ip, count := ((s.inp.read s.str.ip).toNat &&& 0x7F) + 3 } }))) ∧
    (s.phase = .hufTable → s.str.limit < s.str.ip + 2 → step s = .next (raise .truncatedStream s.str.ip s)) ∧
    (s.phase = .hufBit → 0 < s.huf.need → s.huf.bitCnt = 0 → s.str.limit < s.str.ip + 4 →
      step s = .next (raise .truncatedStream s.str.ip s)) ∧
    (s.phase = .xph → s.str.limit < s.str.ip + 10 → step s = .next (raise .truncatedStream s.str.ip s)) ∧
    (s.phase = .records → s.xp.recIdx < s.xp.cnt →
      let a := s.xp.infoOff + 12 * s.xp.recIdx
      s.str.limit < a + 12 → step s = .next (raise .truncatedStream a { s with str := { s.str with ip := a } }))

/-- Emit and Back. Emit writes its byte at OP of the destination and nothing else, and moves OP by one; the byte just
emitted is Back(0), and Back(d) before is Back(d + 1) after. A write needs no capacity check of its own here: the
statement holds at every OP. The destination is OUT, of OUT_CAP bytes, with DST = 0, and SCR, of SCR_CAP bytes, with
DST = 1; Back(d) is its byte at OP - d - 1. (R63, R64, R45, R26, R75.) -/
def Obligations.EmitAndBackAgree : Prop :=
  (∀ (s : State) (d : Nat),
    dstSpace s = (if s.str.dst then s.scr else s.out) ∧
    capacity s = (if s.str.dst then s.cfg.scrCap.toNat else s.cfg.outCap.toNat) ∧
    back d s = (dstSpace s).read (s.str.op - d - 1)) ∧
  ∀ (b : Byte) (s : State), SpacesOk s → Emitted s (emit b s) s.str.op [b] ∧
    emit b s = { s with
      str := { s.str with op := s.str.op + 1 }, out := (emit b s).out, scr := (emit b s).scr } ∧
    back 0 (emit b s) = b ∧ ∀ d, d < s.str.op → back (d + 1) (emit b s) = back d s

/-- A step runs the instruction that decodes at the active unit. A host write of CMD runs the decoded command. With no
host request pending, a step is exec of the instruction decoded from the container header, the payload magic, the LZ
symbol (with FCNT = 0 the byte at IP becomes FLAGS first and FCNT 8; bit 7 of FLAGS says whether the symbol is a token
of two bytes or a literal of one; FLAGS shifts left by one and FCNT drops by one), the RLE chunk, the table header,
the code word, the code bit, the table byte, the archive magic, header, count field and record (at INFO_OFF + 12 *
REC), the pending report, and the file list (with IP past it). How a command is cut into steps is the model's: the
host's accesses as a list (log 15), symbol steps (log 1), the flag or code bit as a leading byte (log 22), the count
field as a step of its own (log 24), the code bit and the table byte as two (log 25). A step whose bytes are missing
is in FetchIsAllOrNothing. (R130, R150, R171, R30, R201, R202, R220, R247, R250, R253, R260.) -/
def Obligations.StepRunsTheDecodedInstruction : Prop :=
  (∀ (s : State) (v : Word) (rest : List HostReq) (i : Instr), s.bus = .writeReg 0 v :: rest →
    decode .cmd (le32 v) = .ok (i, []) → step s = exec i { s with bus := rest }) ∧
  ∀ (s : State) (i : Instr), s.bus = [] → s.host.busy = true →
    (s.phase = .header → s.str.base + 4 ≤ s.str.limit → CanFetch 4 s →
      decode .hdr (s.inp.readN s.str.ip 4) = .ok (i, []) → step s = exec i s) ∧
    (s.phase = .zlibMagic → CanFetch 1 s →
      decode .zlibMagic (s.inp.readN s.str.ip 1) = .ok (i, []) → step s = exec i s) ∧
    (s.phase = .lz → s.str.op < s.str.size → (s.lz.fcnt = 0 → CanFetch 1 s) →
      let flags := if s.lz.fcnt = 0 then s.inp.read s.str.ip else s.lz.flags
      let u := { s with
        str := { s.str with ip := if s.lz.fcnt = 0 then s.str.ip + 1 else s.str.ip }
        lz := { s.lz with flags := flags <<< 1, fcnt := if s.lz.fcnt = 0 then 7 else s.lz.fcnt - 1 } }
      if flags.getLsbD 7 then
        CanFetch 2 u → decode .lzg (1#8 :: s.inp.readN u.str.ip 2) = .ok (i, []) → step s = exec i u
      else CanFetch 1 u → decode .lzg (0#8 :: s.inp.readN u.str.ip 1) = .ok (i, []) → step s = exec i u) ∧
    (s.phase = .rle → s.str.op < s.str.size →
      if (s.inp.read s.str.ip).toNat < 128 then
        CanFetch 1 s → decode .rlc (s.inp.readN s.str.ip 1) = .ok (i, []) → step s = exec i s
      else CanFetch 2 s → decode .rlc (s.inp.readN s.str.ip 2) = .ok (i, []) → step s = exec i s) ∧
    (s.phase = .hufTable → CanFetch 2 s →
      decode .hufTable (s.inp.readN s.str.ip 2) = .ok (i, []) → step s = exec i s) ∧
    (s.phase = .hufBit → 0 < s.huf.need → s.huf.bitCnt = 0 → CanFetch 4 s →
      decode (.hufWord s.cfg.hufWordOrder) (s.inp.readN s.str.ip 4) = .ok (i, []) → step s = exec i s) ∧
    (s.phase = .hufBit → 0 < s.huf.need → 0 < s.huf.bitCnt →
      decode .hufBit [if s.huf.code.getLsbD 31 then 1#8 else 0#8] = .ok (i, []) → step s = exec i s) ∧
    (∀ idx leaf, s.phase = .hufChild idx leaf →
      decode (if leaf then (if s.huf.depth = 4 then .hufLeaf4 else .hufLeaf8) else .hufNode)
        (s.tbl.readN idx 1) = .ok (i, []) → step s = exec i s) ∧
    (s.phase = .xpckMagic → 4 ≤ s.host.inLen.toNat → s.host.inLen.toNat ≤ s.cfg.inCap.toNat →
      decode .xpckMagic (s.inp.readN 0 4) = .ok (i, []) → step s = exec i s) ∧
    (s.phase = .xph → CanFetch 10 s →
      decode .xphOpen (s.inp.readN 0 4 ++ s.inp.readN s.str.ip 10) = .ok (i, []) → step s = exec i s) ∧
    (s.phase = .countField → decode .countField (s.inp.readN 4 2) = .ok (i, []) → step s = exec i s) ∧
    (s.phase = .records → s.xp.recIdx < s.xp.cnt →
      let u := { s with str := { s.str with ip := s.xp.infoOff + 12 * s.xp.recIdx } }
      CanFetch 12 u → decode .xpr (s.inp.readN u.str.ip 12) = .ok (i, []) → step s = exec i u) ∧
    (∀ e, s.phase = .report e → decode .rpt (le32 e.code ++ le32 e.crc ++ le32 e.off ++ le32 e.len) = .ok (i, []) →
      step s = exec i s) ∧
    (s.phase = .fls → s.host.inLen.toNat ≤ s.cfg.inCap.toNat →
      decode .fls (s.inp.readN 0 s.host.inLen.toNat) = .ok (i, []) →
      step s = exec i { s with str := { s.str with ip := s.host.inLen.toNat } })

/-- The end of a unit, of the record loop and of a command, and the idle core. When the declared size is reached (LZ,
RLE), no symbol is needed (Huffman), or the payload or archive is written, nothing more is fetched. On the whole input
the command ends: OUT_LEN = OP, BUSY = 0, DONE = 1. On the name table, NT_LEN = OP, the bounds and DST are put back,
and the names are looked up. After the last record, NAME_OFF above DATA_OFF raises InvalidStream(NAME_OFF), then
DATA_OFF above IN_LEN raises TruncatedStream(DATA_OFF); otherwise BASE = IP = NAME_OFF, LIMIT = DATA_OFF, DST = 1, and
the container header is read next. With no command running and no request pending, a step leaves the whole state as it
is. The end of a command, endCommand, writes OUT_LEN, BUSY and DONE and nothing else. (R174, R205, R224, R250, R251,
R296, R293, R344, R311.) -/
def Obligations.UnitsEndWhereTheirRulesSay : Prop :=
  (∀ s : State, endCommand s = { s with
    host := { s.host with outLen := BitVec.ofNat 32 s.str.op, busy := false, done := true }
    phase := .idle }) ∧
  (∀ s : State, s.bus = [] → s.host.busy = false → step s = .next s) ∧
  (∀ s : State, s.bus = [] → s.host.busy = true →
    (s.phase = .lz ∧ s.str.size ≤ s.str.op) ∨ (s.phase = .rle ∧ s.str.size ≤ s.str.op) ∨
      (s.phase = .hufBit ∧ s.huf.need = 0) ∨ s.phase = .finish →
    (s.str.dst = false → step s = .next { s with
      host := { s.host with outLen := BitVec.ofNat 32 s.str.op, busy := false, done := true }
      phase := .idle }) ∧
    (s.str.dst = true → step s = .next { s with
      xp := { s.xp with ntLen := s.str.op }
      str := { s.str with base := 0, limit := s.host.inLen.toNat, dst := false }
      phase := .lookup 0 })) ∧
  ∀ s : State, s.bus = [] → s.host.busy = true → s.phase = .records → s.xp.cnt ≤ s.xp.recIdx →
    (s.xp.dataOff < s.xp.nameOff → step s = .next (raise .invalidStream s.xp.nameOff s)) ∧
    (s.xp.nameOff ≤ s.xp.dataOff → s.host.inLen.toNat < s.xp.dataOff →
      step s = .next (raise .truncatedStream s.xp.dataOff s)) ∧
    (s.xp.nameOff ≤ s.xp.dataOff → s.xp.dataOff ≤ s.host.inLen.toNat → step s = .next { s with
      str := { s.str with ip := s.xp.nameOff, base := s.xp.nameOff, limit := s.xp.dataOff, dst := true }
      phase := .header })

/-- Host reads and writes of registers, and the wait for BUSY = 0. A write to IN_LEN, ARG0 or ARG1 takes effect while
BUSY = 0; a write to any other register but CMD, and every write while BUSY = 1, changes nothing. STATUS can always be
read, as BUSY + 2 * DONE + 4 * ERR + 8 * RPT, and CMD reads as 0; while BUSY = 1 any other register reads as a free
value, the model's form of 'unspecified' (logs 7 and 17), otherwise as its value. Every access is at a listed offset;
at any other the model stops (log 16). A host that polls STATUS reads that word once BUSY = 0; while BUSY = 1 the core
takes the step it would take without the poll, which stays pending, and a pass gives the core one such step: that both
are requests of the model is its choice (log 15). (R22, R23, R27, R332, R333.) -/
def Obligations.HostRegisterAccess : Prop :=
  (∀ (s : State) (rest : List HostReq) (v : Word),
    let u := { s with bus := rest }
    (s.host.busy = false →
      (s.bus = .writeReg 0x10 v :: rest → step s = .next { u with host := { u.host with inLen := v } }) ∧
      (s.bus = .writeReg 0x18 v :: rest → step s = .next { u with host := { u.host with arg0 := v } }) ∧
      (s.bus = .writeReg 0x1C v :: rest → step s = .next { u with host := { u.host with arg1 := v } })) ∧
    (∀ off ∈ [0x04, 0x08, 0x0C, 0x14, 0x20, 0x24, 0x28], s.bus = .writeReg off v :: rest → step s = .next u) ∧
    (s.host.busy = true → ∀ off ∈ [0x00, 0x04, 0x08, 0x0C, 0x10, 0x14, 0x18, 0x1C, 0x20, 0x24, 0x28],
      s.bus = .writeReg off v :: rest → step s = .next u)) ∧
  ∀ (s : State) (rest : List HostReq),
    let u := { s with bus := rest }
    let status := BitVec.ofNat 32
      (s.host.busy.toNat + 2 * s.host.done.toNat + 4 * s.host.err.toNat + 8 * s.host.rptFlag.toNat)
    (s.bus = .readReg 0x00 :: rest → step s = .next { u with rdata := 0#32 }) ∧
    (s.bus = .readReg 0x04 :: rest → step s = .next { u with rdata := status }) ∧
    (s.bus = .poll :: rest → s.host.busy = false → step s = .next { u with rdata := status }) ∧
    (s.bus = .poll :: rest → s.host.busy = true →
      ∀ t, step { s with bus := [] } = .next t → step s = .next { t with bus := .poll :: rest }) ∧
    (s.bus = .pass :: rest → ∀ t, step { s with bus := [] } = .next t → step s = .next { t with bus := rest }) ∧
    statusWord s.host = status ∧
    (∀ off val, (off, val) ∈ [(0x08, s.host.errCode.setWidth 32), (0x0C, s.host.errInfo), (0x10, s.host.inLen),
        (0x14, s.host.outLen), (0x18, s.host.arg0), (0x1C, s.host.arg1), (0x20, s.host.res0),
        (0x24, s.host.res1), (0x28, s.host.rptCnt)] → s.bus = .readReg off :: rest →
      (s.host.busy = false → step s = .next { u with rdata := val }) ∧
      (s.host.busy = true →
        step s = .next { u with rdata := Config.freeWord s.freeCtr, freeCtr := s.freeCtr + 1 })) ∧
    ∀ off v, off ∉ [0x00, 0x04, 0x08, 0x0C, 0x10, 0x14, 0x18, 0x1C, 0x20, 0x24, 0x28] →
      (s.bus = .readReg off :: rest → step s = .fault (.noSuchRegister off)) ∧
      (s.bus = .writeReg off v :: rest → step s = .fault (.noSuchRegister off))

/-- Host access to IN, OUT and RPT. Inside IN a byte can be written while BUSY = 0 and a write changes that byte
alone; while BUSY = 1 the write is refused. With BUSY = 0 a byte of IN that was written reads as written and one that
was not is refused; a byte of OUT below OUT_LEN reads as written while DONE = 1 and ERR = 0, and is refused otherwise;
a stored report entry reads as its four words, and an entry that is not stored is refused (log 18). While BUSY = 1
every such read gives a free value (log 7; for IN, log 17). An address outside IN or OUT, or a word of a report entry
above 3, stops the machine (log 16). (R40, R61, R333, R43, R117, R46, R331.) -/
def Obligations.HostBufferAccess : Prop :=
  ∀ (s : State) (rest : List HostReq) (a : Nat), SpacesOk s →
    let u := { s with bus := rest }
    let free := { u with rdata := Config.freeWord s.freeCtr, freeCtr := s.freeCtr + 1 }
    (∀ v, s.bus = .writeIn a v :: rest →
      (s.cfg.inCap.toNat ≤ a → step s = .fault (.noSuchAddress a)) ∧
      (a < s.cfg.inCap.toNat → s.host.busy = true → step s = .refused .inWriteWhileBusy) ∧
      (a < s.cfg.inCap.toNat → s.host.busy = false → ∃ t, step s = .next t ∧ t.inp.written a = some v ∧
        t.inp.read a = v ∧ (∀ x, x ≠ a → t.inp.written x = s.inp.written x ∧ t.inp.read x = s.inp.read x) ∧
        t = { u with inp := t.inp })) ∧
    (s.bus = .readIn a :: rest →
      (s.cfg.inCap.toNat ≤ a → step s = .fault (.noSuchAddress a)) ∧
      (a < s.cfg.inCap.toNat → s.host.busy = true → step s = .next free) ∧
      (a < s.cfg.inCap.toNat → s.host.busy = false →
        (∀ v, s.inp.written a = some v → step s = .next { u with rdata := v.setWidth 32 }) ∧
        (s.inp.written a = none → step s = .refused .inUnspecified))) ∧
    (s.bus = .readOut a :: rest →
      (s.cfg.outCap.toNat ≤ a → step s = .fault (.noSuchAddress a)) ∧
      (a < s.cfg.outCap.toNat → s.host.busy = true → step s = .next free) ∧
      (a < s.cfg.outCap.toNat → s.host.busy = false → s.host.done = true → s.host.err = false →
        a < s.host.outLen.toNat → step s = .next { u with rdata := (s.out.read a).setWidth 32 }) ∧
      (a < s.cfg.outCap.toNat → s.host.busy = false →
        s.host.done = false ∨ s.host.err = true ∨ s.host.outLen.toNat ≤ a →
        step s = .refused .outUnspecified)) ∧
    ∀ w, s.bus = .readRpt a w :: rest →
      (4 ≤ w → step s = .fault (.noSuchAddress w)) ∧
      (w < 4 → s.host.busy = true → step s = .next free) ∧
      (w < 4 → s.host.busy = false → s.rpt.length ≤ a → step s = .refused .rptUnspecified) ∧
      ∀ e, s.rpt[a]? = some e → s.host.busy = false →
        (w = 0 → step s = .next { u with rdata := e.code }) ∧ (w = 1 → step s = .next { u with rdata := e.crc }) ∧
        (w = 2 → step s = .next { u with rdata := e.off }) ∧ (w = 3 → step s = .next { u with rdata := e.len })

/-- What reset leaves. After reset every host register is 0, LUT and RPT are empty, and a read of any byte of OUT is
refused. (The values of the engine registers and of memory are unspecified: nothing is stated of them.) (R46.) -/
def Obligations.ResetValues : Prop :=
  statusWord State.reset.host = 0#32 ∧ State.reset.host.errCode = 0#3 ∧ State.reset.host.errInfo = 0#32 ∧
  State.reset.host.inLen = 0#32 ∧ State.reset.host.arg0 = 0#32 ∧ State.reset.host.arg1 = 0#32 ∧
  State.reset.host.outLen = 0#32 ∧ State.reset.host.res0 = 0#32 ∧ State.reset.host.res1 = 0#32 ∧
  State.reset.host.rptCnt = 0#32 ∧ State.reset.lut = [] ∧ State.reset.rpt = [] ∧
  ∀ a, a < State.reset.cfg.outCap.toNat →
    step { State.reset with bus := [.readOut a] } = .refused .outUnspecified

/-- Reset at any time. Whatever runs, a reset puts the host registers at 0, LUT and RPT at empty and the core at rest,
with none of the effects of a failure. That the engine registers and memory take the values of State.reset, and that
the parameters, the pending requests, the last read word and the free-value counter stay, is the model's choice (logs
2, 3, 26). (R330, R331, R46.) -/
def Obligations.ResetAbandonsTheCommand : Prop :=
  ∀ (s : State) (rest : List HostReq), s.bus = .reset :: rest →
    step s = .next { State.reset with
      cfg := s.cfg, bus := rest, rdata := s.rdata, freeCtr := s.freeCtr }

/-- The invariant holds after reset. State.reset satisfies StateOk: the host registers agree with each other, the
spaces are canonical, the engine registers are inside their widths, and no command runs. That the engine registers are
inside their widths rests on the zeros State.reset gives them, which are the model's choice (log 3): R46 leaves them
unspecified. (R46, R331.) -/
def Obligations.ResetStateIsOk : Prop :=
  StateOk State.reset

/-- Every step keeps the invariant. From every state that satisfies StateOk, reachable or not, a step to a next state
keeps it: BUSY and DONE never both 1, ERRCODE 0 exactly when ERR = 0 and never 5, RPT exactly when RPT_CNT > 0, BASE
<= IP <= LIMIT <= IN_LEN <= IN_CAP and OP inside SIZE and the capacity while a command runs, the decoders' own
invariants (in 8-bit mode OP + NEED = SIZE, in 4-bit mode 2 * OP + NIBV + NEED = 2 * SIZE, NEXT even), every register
inside its width but NT_LEN, which is inside 32 bits and not the 29 of R34 (the model's choice, log 31), LUT entries
inside the input, and the four spaces in canonical form. (R24, R25, R26, R27, R28, R30, R31, R32, R175, R206, R224.)
-/
def Obligations.StepKeepsStateOk : Prop :=
  ∀ s t : State, StateOk s → step s = .next t → StateOk t

/-- No step of the core ends in a fault or a refusal. From every state that satisfies StateOk: a fault is that of the
host's oldest pending access, which names a register offset that is none of the eleven, or an address outside IN,
outside OUT or above word 3 of a report entry (that such an access stops the machine is log 16, UNVERIFIED); a refusal
is that of the host's oldest pending access, which writes IN while BUSY = 1, or with BUSY = 0 reads a byte of IN that
nothing has written, a byte of OUT that is no valid output, or a report entry that is not stored (the last is the
model's choice, log 18). In every other state, and so whenever the core takes the step, with no request pending or
under a poll or a pass, there is a next state: no data, stream or archive stops the machine, and no access of the core
leaves its space. (R300, R301, R22, R40, R46, R61, R331, R333.) -/
def Obligations.OnlyHostAccessesStop : Prop :=
  ∀ s : State, StateOk s →
    (∀ f, step s = .fault f → HostFault s f) ∧ (∀ r, step s = .refused r → HostRefusal s r) ∧
    (s.bus = [] ∨ (∃ rest, s.bus = .poll :: rest ∨ s.bus = .pass :: rest ∨ s.bus = .reset :: rest) →
      ∃ t, step s = .next t)

/-- Every command ends. From every state that satisfies StateOk with a command running and no host request pending,
some number of steps reaches a state with BUSY = 0 and DONE = 1, whatever the input. (R343, R344, R171, R202, R221.)
-/
def Obligations.EveryCommandEnds : Prop :=
  ∀ s : State, StateOk s → s.bus = [] → s.host.busy = true →
    ∃ t, Reaches s t ∧ t.host.busy = false ∧ t.host.done = true

/-- No instruction writes IN, IN_LEN, ARG0, ARG1 or a parameter. For every instruction and every state, when exec
answers a next state the parameters, every byte of IN, IN_LEN, ARG0, ARG1 and the host's side of the model are as
before. (R29, R61, R74.) -/
def Obligations.NoInstructionWritesTheHostSide : Prop :=
  ∀ (i : Instr) (s t : State), exec i s = .next t → HostSideKept s t

/-- The result of a command depends on its declared inputs only. Two states with no command running that agree on the
parameters, ARG0, ARG1, IN_LEN and the first IN_LEN bytes of IN, whatever else they hold: started with the same CMD
value, after every number of steps (at least one) the second has a next state if the first has one, and the two agree
on every host register, on RPT and, after a successful end, on OUT[0:OUT_LEN]. Nothing else need agree, not even the
counter of the host's free reads. (R21, R36, R47, R344.) -/
def Obligations.SameInputsSameResult : Prop :=
  ∀ (s t : State) (v : Word) (n : Nat), StateOk s → StateOk t → s.host.busy = false → t.host.busy = false →
    SameInputs s t →
    ∀ s', runSteps (n + 1) (withCommand v s) = .next s' →
      ∃ t', runSteps (n + 1) (withCommand v t) = .next t' ∧ SameResult s' t'
end

