-- ==== Sys2Proof/Laws/Memory.lean ====
section
/-! SUPPORT. Memory: a read after a write, and the canonical form. -/

namespace Sys2Proof.Machine

theorem Memory.wfFrom_mono {lo lo' : Nat} {m : Memory} (h : lo' ≤ lo) (hm : Memory.wfFrom lo m = true) :
    Memory.wfFrom lo' m = true := by
  cases m with
  | nil => rfl
  | cons c rest =>
    obtain ⟨k, v⟩ := c
    simp only [Memory.wfFrom, Bool.and_eq_true, decide_eq_true_eq] at hm ⊢
    exact ⟨le_trans h hm.1, hm.2⟩

/-- Below the lowest listed address nothing is written. -/
theorem Memory.written_of_wfFrom {lo a : Nat} {m : Memory} (hm : Memory.wfFrom lo m = true) (ha : a < lo) :
    m.written a = none := by
  induction m generalizing lo with
  | nil => rfl
  | cons c rest ih =>
    obtain ⟨k, v⟩ := c
    simp only [Memory.wfFrom, Bool.and_eq_true, decide_eq_true_eq] at hm
    rw [Memory.written, if_neg (show k ≠ a by omega)]
    exact ih hm.2 (by omega)

theorem Memory.write_wfFrom {lo a : Nat} {v : Byte} {m : Memory} (hm : Memory.wfFrom lo m = true) (ha : lo ≤ a) :
    Memory.wfFrom lo (m.write a v) = true := by
  induction m generalizing lo with
  | nil => simp [Memory.write, Memory.wfFrom, ha]
  | cons c rest ih =>
    obtain ⟨k, w⟩ := c
    simp only [Memory.wfFrom, Bool.and_eq_true, decide_eq_true_eq] at hm
    rw [Memory.write]
    split
    · simp only [Memory.wfFrom, Bool.and_eq_true, decide_eq_true_eq]
      exact ⟨ha, by omega, hm.2⟩
    · split
      · rename_i h
        subst h
        simp only [Memory.wfFrom, Bool.and_eq_true, decide_eq_true_eq]
        exact hm
      · simp only [Memory.wfFrom, Bool.and_eq_true, decide_eq_true_eq]
        exact ⟨hm.1, ih hm.2 (by omega)⟩

/-- A write keeps the canonical form. -/
theorem Memory.write_wf {m : Memory} (a : Nat) (v : Byte) (hm : m.wf = true) : (m.write a v).wf = true :=
  Memory.write_wfFrom hm (Nat.zero_le a)

/-- A write of several bytes keeps the canonical form. -/
theorem Memory.writeN_wf {m : Memory} (a : Nat) (bs : List Byte) (hm : m.wf = true) : (m.writeN a bs).wf = true := by
  induction bs generalizing m a with
  | nil => exact hm
  | cons b bs ih => exact ih (a + 1) (Memory.write_wf a b hm)

/-- What is written after a write: the value at its address, and at every other address what was written before. It holds
of every list, canonical or not. -/
theorem Memory.written_write (m : Memory) (a x : Nat) (v : Byte) :
    (m.write a v).written x = if x = a then some v else m.written x := by
  induction m with
  | nil => simp only [Memory.write, Memory.written, eq_comm]
  | cons c rest ih =>
    obtain ⟨k, w⟩ := c
    rw [Memory.write]
    split
    · simp only [Memory.written, eq_comm]
    · split
      · rename_i h
        subst h
        by_cases hx : x = a
        · simp [Memory.written, hx]
        · simp [Memory.written, hx, Ne.symm hx]
      · simp only [Memory.written]
        by_cases hx : k = x
        · rw [if_pos hx, if_neg (by omega), if_pos hx]
        · rw [if_neg hx, if_neg hx]
          exact ih

theorem Memory.read_of_written {m : Memory} {a : Nat} {v : Byte} (h : m.written a = some v) : m.read a = v := by
  rw [Memory.read, h]; rfl

/-- A read after a write gives the value written, and a write leaves every other byte alone. -/
theorem Memory.read_write (m : Memory) (a x : Nat) (v : Byte) :
    (m.write a v).read x = if x = a then v else m.read x := by
  rw [Memory.read, Memory.written_write]
  split <;> rfl

/-- A read after a write of several bytes. -/
theorem Memory.read_writeN (m : Memory) (a x : Nat) (bs : List Byte) :
    (m.writeN a bs).read x = if a ≤ x ∧ x < a + bs.length then bs.getD (x - a) 0#8 else m.read x := by
  induction bs generalizing m a with
  | nil => simp [Memory.writeN]
  | cons b bs ih =>
    rw [Memory.writeN, ih, Memory.read_write]
    simp only [List.length_cons]
    by_cases h1 : x = a
    · subst h1
      rw [if_neg (by omega), if_pos rfl, if_pos ⟨le_refl x, by omega⟩]
      simp
    · by_cases h2 : a ≤ x ∧ x < a + (bs.length + 1)
      · rw [if_pos (by omega), if_pos h2]
        have h3 : x - a = (x - (a + 1)) + 1 := by omega
        rw [h3, List.getD_cons_succ]
      · rw [if_neg (by omega), if_neg h1, if_neg h2]

@[simp] theorem Memory.readN_length (m : Memory) (a n : Nat) : (m.readN a n).length = n := by
  induction n generalizing a with
  | zero => rfl
  | succ n ih => simp [Memory.readN, ih]

/-- The bytes of `MemRead` are the bytes at its addresses. -/
theorem Memory.getElem?_readN (m : Memory) (a n k : Nat) :
    (m.readN a n)[k]? = if k < n then some (m.read (a + k)) else none := by
  induction n generalizing a k with
  | zero => simp [Memory.readN]
  | succ n ih =>
    cases k with
    | zero => simp [Memory.readN]
    | succ k =>
      rw [Memory.readN, List.getElem?_cons_succ, ih]
      have : a + 1 + k = a + (k + 1) := by omega
      simp [this]

/-- Two spaces that agree on a range give the same bytes. -/
theorem Memory.readN_congr {m m' : Memory} {a n : Nat} (h : ∀ x, a ≤ x → x < a + n → m.read x = m'.read x) :
    m.readN a n = m'.readN a n := by
  induction n generalizing a with
  | zero => rfl
  | succ n ih =>
    rw [Memory.readN, Memory.readN, h a (le_refl a) (by omega), ih (fun x h1 h2 => h x (by omega) (by omega))]

theorem Memory.eq_of_wfFrom {lo : Nat} {m m' : Memory} (hm : Memory.wfFrom lo m = true)
    (hm' : Memory.wfFrom lo m' = true) (h : ∀ x, m.written x = m'.written x) : m = m' := by
  induction m generalizing lo m' with
  | nil =>
    cases m' with
    | nil => rfl
    | cons c rest => simpa [Memory.written] using h c.1
  | cons c rest ih =>
    obtain ⟨k, v⟩ := c
    simp only [Memory.wfFrom, Bool.and_eq_true, decide_eq_true_eq] at hm
    cases m' with
    | nil => simpa [Memory.written] using h k
    | cons c' rest' =>
      obtain ⟨k', v'⟩ := c'
      simp only [Memory.wfFrom, Bool.and_eq_true, decide_eq_true_eq] at hm'
      have hk : k = k' := by
        rcases Nat.lt_trichotomy k k' with hlt | heq | hgt
        · have := h k
          rw [Memory.written, if_pos rfl, Memory.written, if_neg (by omega),
            Memory.written_of_wfFrom hm'.2 (by omega)] at this
          cases this
        · exact heq
        · have := h k'
          rw [Memory.written, if_neg (by omega), Memory.written_of_wfFrom hm.2 (by omega), Memory.written,
            if_pos rfl] at this
          cases this
      subst hk
      have hv : v = v' := by simpa [Memory.written] using h k
      subst hv
      rw [ih hm.2 hm'.2 fun x => ?_]
      by_cases hx : x ≤ k
      · rw [Memory.written_of_wfFrom hm.2 (by omega), Memory.written_of_wfFrom hm'.2 (by omega)]
      · have := h x
        rwa [Memory.written, if_neg (by omega), Memory.written, if_neg (by omega)] at this

/-- Equal spaces are equal data: two canonical spaces in which the same bytes are written are the same list. -/
theorem Memory.eq_of_written_eq {m m' : Memory} (hm : m.wf = true) (hm' : m'.wf = true)
    (h : ∀ x, m.written x = m'.written x) : m = m' :=
  Memory.eq_of_wfFrom hm hm' h

/-- The spaces at reset have the canonical form. -/
theorem reset_spaces_wf :
    State.reset.inp.wf = true ∧ State.reset.out.wf = true ∧ State.reset.tbl.wf = true ∧ State.reset.scr.wf = true :=
  ⟨rfl, rfl, rfl, rfl⟩

end Sys2Proof.Machine
end

