-- ==== Sys2Proof/Laws/State.lean ====
section
/-! SUPPORT. One lemma per field per update: what each shared operation leaves and what it sets, so that no later proof
unfolds a record update. -/

namespace Sys2Proof.Machine

/-! ## raise (R300) -/

@[simp] theorem raise_cfg (f : Failure) (v : Nat) (s : State) : (raise f v s).cfg = s.cfg := rfl
@[simp] theorem raise_str (f : Failure) (v : Nat) (s : State) : (raise f v s).str = s.str := rfl
@[simp] theorem raise_lz (f : Failure) (v : Nat) (s : State) : (raise f v s).lz = s.lz := rfl
@[simp] theorem raise_huf (f : Failure) (v : Nat) (s : State) : (raise f v s).huf = s.huf := rfl
@[simp] theorem raise_rle (f : Failure) (v : Nat) (s : State) : (raise f v s).rle = s.rle := rfl
@[simp] theorem raise_crcAcc (f : Failure) (v : Nat) (s : State) : (raise f v s).crcAcc = s.crcAcc := rfl
@[simp] theorem raise_xp (f : Failure) (v : Nat) (s : State) : (raise f v s).xp = s.xp := rfl
@[simp] theorem raise_inp (f : Failure) (v : Nat) (s : State) : (raise f v s).inp = s.inp := rfl
@[simp] theorem raise_out (f : Failure) (v : Nat) (s : State) : (raise f v s).out = s.out := rfl
@[simp] theorem raise_tbl (f : Failure) (v : Nat) (s : State) : (raise f v s).tbl = s.tbl := rfl
@[simp] theorem raise_scr (f : Failure) (v : Nat) (s : State) : (raise f v s).scr = s.scr := rfl
@[simp] theorem raise_lut (f : Failure) (v : Nat) (s : State) : (raise f v s).lut = s.lut := rfl
@[simp] theorem raise_rpt (f : Failure) (v : Nat) (s : State) : (raise f v s).rpt = s.rpt := rfl
@[simp] theorem raise_phase (f : Failure) (v : Nat) (s : State) : (raise f v s).phase = .idle := rfl
@[simp] theorem raise_found (f : Failure) (v : Nat) (s : State) : (raise f v s).found = s.found := rfl
@[simp] theorem raise_bus (f : Failure) (v : Nat) (s : State) : (raise f v s).bus = s.bus := rfl
@[simp] theorem raise_rdata (f : Failure) (v : Nat) (s : State) : (raise f v s).rdata = s.rdata := rfl
@[simp] theorem raise_freeCtr (f : Failure) (v : Nat) (s : State) : (raise f v s).freeCtr = s.freeCtr := rfl
@[simp] theorem raise_host_busy (f : Failure) (v : Nat) (s : State) : (raise f v s).host.busy = false := rfl
@[simp] theorem raise_host_done (f : Failure) (v : Nat) (s : State) : (raise f v s).host.done = true := rfl
@[simp] theorem raise_host_err (f : Failure) (v : Nat) (s : State) : (raise f v s).host.err = true := rfl
@[simp] theorem raise_host_rptFlag (f : Failure) (v : Nat) (s : State) : (raise f v s).host.rptFlag = s.host.rptFlag := rfl
@[simp] theorem raise_host_errCode (f : Failure) (v : Nat) (s : State) : (raise f v s).host.errCode = f.code := rfl
@[simp] theorem raise_host_errInfo (f : Failure) (v : Nat) (s : State) : (raise f v s).host.errInfo = BitVec.ofNat 32 v := rfl
@[simp] theorem raise_host_inLen (f : Failure) (v : Nat) (s : State) : (raise f v s).host.inLen = s.host.inLen := rfl
@[simp] theorem raise_host_outLen (f : Failure) (v : Nat) (s : State) : (raise f v s).host.outLen = 0#32 := rfl
@[simp] theorem raise_host_arg0 (f : Failure) (v : Nat) (s : State) : (raise f v s).host.arg0 = s.host.arg0 := rfl
@[simp] theorem raise_host_arg1 (f : Failure) (v : Nat) (s : State) : (raise f v s).host.arg1 = s.host.arg1 := rfl
@[simp] theorem raise_host_res0 (f : Failure) (v : Nat) (s : State) : (raise f v s).host.res0 = 0#32 := rfl
@[simp] theorem raise_host_res1 (f : Failure) (v : Nat) (s : State) : (raise f v s).host.res1 = 0#32 := rfl
@[simp] theorem raise_host_rptCnt (f : Failure) (v : Nat) (s : State) : (raise f v s).host.rptCnt = s.host.rptCnt := rfl

/-! ## endCommand (R130) -/

@[simp] theorem endCommand_cfg (s : State) : (endCommand s).cfg = s.cfg := rfl
@[simp] theorem endCommand_str (s : State) : (endCommand s).str = s.str := rfl
@[simp] theorem endCommand_lz (s : State) : (endCommand s).lz = s.lz := rfl
@[simp] theorem endCommand_huf (s : State) : (endCommand s).huf = s.huf := rfl
@[simp] theorem endCommand_rle (s : State) : (endCommand s).rle = s.rle := rfl
@[simp] theorem endCommand_crcAcc (s : State) : (endCommand s).crcAcc = s.crcAcc := rfl
@[simp] theorem endCommand_xp (s : State) : (endCommand s).xp = s.xp := rfl
@[simp] theorem endCommand_inp (s : State) : (endCommand s).inp = s.inp := rfl
@[simp] theorem endCommand_out (s : State) : (endCommand s).out = s.out := rfl
@[simp] theorem endCommand_tbl (s : State) : (endCommand s).tbl = s.tbl := rfl
@[simp] theorem endCommand_scr (s : State) : (endCommand s).scr = s.scr := rfl
@[simp] theorem endCommand_lut (s : State) : (endCommand s).lut = s.lut := rfl
@[simp] theorem endCommand_rpt (s : State) : (endCommand s).rpt = s.rpt := rfl
@[simp] theorem endCommand_phase (s : State) : (endCommand s).phase = .idle := rfl
@[simp] theorem endCommand_found (s : State) : (endCommand s).found = s.found := rfl
@[simp] theorem endCommand_bus (s : State) : (endCommand s).bus = s.bus := rfl
@[simp] theorem endCommand_rdata (s : State) : (endCommand s).rdata = s.rdata := rfl
@[simp] theorem endCommand_freeCtr (s : State) : (endCommand s).freeCtr = s.freeCtr := rfl
@[simp] theorem endCommand_host_busy (s : State) : (endCommand s).host.busy = false := rfl
@[simp] theorem endCommand_host_done (s : State) : (endCommand s).host.done = true := rfl
@[simp] theorem endCommand_host_err (s : State) : (endCommand s).host.err = s.host.err := rfl
@[simp] theorem endCommand_host_rptFlag (s : State) : (endCommand s).host.rptFlag = s.host.rptFlag := rfl
@[simp] theorem endCommand_host_errCode (s : State) : (endCommand s).host.errCode = s.host.errCode := rfl
@[simp] theorem endCommand_host_errInfo (s : State) : (endCommand s).host.errInfo = s.host.errInfo := rfl
@[simp] theorem endCommand_host_inLen (s : State) : (endCommand s).host.inLen = s.host.inLen := rfl
@[simp] theorem endCommand_host_outLen (s : State) : (endCommand s).host.outLen = BitVec.ofNat 32 s.str.op := rfl
@[simp] theorem endCommand_host_arg0 (s : State) : (endCommand s).host.arg0 = s.host.arg0 := rfl
@[simp] theorem endCommand_host_arg1 (s : State) : (endCommand s).host.arg1 = s.host.arg1 := rfl
@[simp] theorem endCommand_host_res0 (s : State) : (endCommand s).host.res0 = s.host.res0 := rfl
@[simp] theorem endCommand_host_res1 (s : State) : (endCommand s).host.res1 = s.host.res1 := rfl
@[simp] theorem endCommand_host_rptCnt (s : State) : (endCommand s).host.rptCnt = s.host.rptCnt := rfl

/-! ## prologue (R47) -/

@[simp] theorem prologue_cfg (s : State) : (prologue s).cfg = s.cfg := rfl
@[simp] theorem prologue_lz (s : State) : (prologue s).lz = { s.lz with fcnt := 0 } := rfl
@[simp] theorem prologue_huf (s : State) : (prologue s).huf = { s.huf with bitCnt := 0, nibv := false } := rfl
@[simp] theorem prologue_rle (s : State) : (prologue s).rle = s.rle := rfl
@[simp] theorem prologue_crcAcc (s : State) : (prologue s).crcAcc = s.crcAcc := rfl
@[simp] theorem prologue_xp (s : State) : (prologue s).xp = s.xp := rfl
@[simp] theorem prologue_inp (s : State) : (prologue s).inp = s.inp := rfl
@[simp] theorem prologue_out (s : State) : (prologue s).out = s.out := rfl
@[simp] theorem prologue_tbl (s : State) : (prologue s).tbl = s.tbl := rfl
@[simp] theorem prologue_scr (s : State) : (prologue s).scr = s.scr := rfl
@[simp] theorem prologue_lut (s : State) : (prologue s).lut = [] := rfl
@[simp] theorem prologue_rpt (s : State) : (prologue s).rpt = [] := rfl
@[simp] theorem prologue_phase (s : State) : (prologue s).phase = s.phase := rfl
@[simp] theorem prologue_found (s : State) : (prologue s).found = [] := rfl
@[simp] theorem prologue_bus (s : State) : (prologue s).bus = s.bus := rfl
@[simp] theorem prologue_rdata (s : State) : (prologue s).rdata = s.rdata := rfl
@[simp] theorem prologue_freeCtr (s : State) : (prologue s).freeCtr = s.freeCtr := rfl
@[simp] theorem prologue_host_busy (s : State) : (prologue s).host.busy = true := rfl
@[simp] theorem prologue_host_done (s : State) : (prologue s).host.done = false := rfl
@[simp] theorem prologue_host_err (s : State) : (prologue s).host.err = false := rfl
@[simp] theorem prologue_host_rptFlag (s : State) : (prologue s).host.rptFlag = false := rfl
@[simp] theorem prologue_host_errCode (s : State) : (prologue s).host.errCode = 0#3 := rfl
@[simp] theorem prologue_host_errInfo (s : State) : (prologue s).host.errInfo = 0#32 := rfl
@[simp] theorem prologue_host_inLen (s : State) : (prologue s).host.inLen = s.host.inLen := rfl
@[simp] theorem prologue_host_outLen (s : State) : (prologue s).host.outLen = 0#32 := rfl
@[simp] theorem prologue_host_arg0 (s : State) : (prologue s).host.arg0 = s.host.arg0 := rfl
@[simp] theorem prologue_host_arg1 (s : State) : (prologue s).host.arg1 = s.host.arg1 := rfl
@[simp] theorem prologue_host_res0 (s : State) : (prologue s).host.res0 = 0#32 := rfl
@[simp] theorem prologue_host_res1 (s : State) : (prologue s).host.res1 = 0#32 := rfl
@[simp] theorem prologue_host_rptCnt (s : State) : (prologue s).host.rptCnt = 0#32 := rfl
@[simp] theorem prologue_str_ip (s : State) : (prologue s).str.ip = 0 := rfl
@[simp] theorem prologue_str_op (s : State) : (prologue s).str.op = 0 := rfl
@[simp] theorem prologue_str_base (s : State) : (prologue s).str.base = 0 := rfl
@[simp] theorem prologue_str_limit (s : State) : (prologue s).str.limit = s.host.inLen.toNat := rfl
@[simp] theorem prologue_str_method (s : State) : (prologue s).str.method = s.str.method := rfl
@[simp] theorem prologue_str_size (s : State) : (prologue s).str.size = s.str.size := rfl
@[simp] theorem prologue_str_dst (s : State) : (prologue s).str.dst = false := rfl

/-! ## report (R305) -/

@[simp] theorem report_cfg (e : RptEntry) (s : State) : (report e s).cfg = s.cfg := rfl
@[simp] theorem report_str (e : RptEntry) (s : State) : (report e s).str = s.str := rfl
@[simp] theorem report_lz (e : RptEntry) (s : State) : (report e s).lz = s.lz := rfl
@[simp] theorem report_huf (e : RptEntry) (s : State) : (report e s).huf = s.huf := rfl
@[simp] theorem report_rle (e : RptEntry) (s : State) : (report e s).rle = s.rle := rfl
@[simp] theorem report_crcAcc (e : RptEntry) (s : State) : (report e s).crcAcc = s.crcAcc := rfl
@[simp] theorem report_xp (e : RptEntry) (s : State) : (report e s).xp = s.xp := rfl
@[simp] theorem report_inp (e : RptEntry) (s : State) : (report e s).inp = s.inp := rfl
@[simp] theorem report_out (e : RptEntry) (s : State) : (report e s).out = s.out := rfl
@[simp] theorem report_tbl (e : RptEntry) (s : State) : (report e s).tbl = s.tbl := rfl
@[simp] theorem report_scr (e : RptEntry) (s : State) : (report e s).scr = s.scr := rfl
@[simp] theorem report_lut (e : RptEntry) (s : State) : (report e s).lut = s.lut := rfl
@[simp] theorem report_rpt (e : RptEntry) (s : State) : (report e s).rpt = if s.host.rptCnt.toNat < s.cfg.rptCap then s.rpt ++ [e] else s.rpt := rfl
@[simp] theorem report_phase (e : RptEntry) (s : State) : (report e s).phase = s.phase := rfl
@[simp] theorem report_found (e : RptEntry) (s : State) : (report e s).found = s.found := rfl
@[simp] theorem report_bus (e : RptEntry) (s : State) : (report e s).bus = s.bus := rfl
@[simp] theorem report_rdata (e : RptEntry) (s : State) : (report e s).rdata = s.rdata := rfl
@[simp] theorem report_freeCtr (e : RptEntry) (s : State) : (report e s).freeCtr = s.freeCtr := rfl
@[simp] theorem report_host_busy (e : RptEntry) (s : State) : (report e s).host.busy = s.host.busy := rfl
@[simp] theorem report_host_done (e : RptEntry) (s : State) : (report e s).host.done = s.host.done := rfl
@[simp] theorem report_host_err (e : RptEntry) (s : State) : (report e s).host.err = s.host.err := rfl
@[simp] theorem report_host_rptFlag (e : RptEntry) (s : State) : (report e s).host.rptFlag = true := rfl
@[simp] theorem report_host_errCode (e : RptEntry) (s : State) : (report e s).host.errCode = s.host.errCode := rfl
@[simp] theorem report_host_errInfo (e : RptEntry) (s : State) : (report e s).host.errInfo = s.host.errInfo := rfl
@[simp] theorem report_host_inLen (e : RptEntry) (s : State) : (report e s).host.inLen = s.host.inLen := rfl
@[simp] theorem report_host_outLen (e : RptEntry) (s : State) : (report e s).host.outLen = s.host.outLen := rfl
@[simp] theorem report_host_arg0 (e : RptEntry) (s : State) : (report e s).host.arg0 = s.host.arg0 := rfl
@[simp] theorem report_host_arg1 (e : RptEntry) (s : State) : (report e s).host.arg1 = s.host.arg1 := rfl
@[simp] theorem report_host_res0 (e : RptEntry) (s : State) : (report e s).host.res0 = s.host.res0 := rfl
@[simp] theorem report_host_res1 (e : RptEntry) (s : State) : (report e s).host.res1 = s.host.res1 := rfl
@[simp] theorem report_host_rptCnt (e : RptEntry) (s : State) : (report e s).host.rptCnt = s.host.rptCnt + 1#32 := rfl

/-! ## advanceIp (R62) -/

@[simp] theorem advanceIp_cfg (n : Nat) (s : State) : (advanceIp n s).cfg = s.cfg := rfl
@[simp] theorem advanceIp_host (n : Nat) (s : State) : (advanceIp n s).host = s.host := rfl
@[simp] theorem advanceIp_lz (n : Nat) (s : State) : (advanceIp n s).lz = s.lz := rfl
@[simp] theorem advanceIp_huf (n : Nat) (s : State) : (advanceIp n s).huf = s.huf := rfl
@[simp] theorem advanceIp_rle (n : Nat) (s : State) : (advanceIp n s).rle = s.rle := rfl
@[simp] theorem advanceIp_crcAcc (n : Nat) (s : State) : (advanceIp n s).crcAcc = s.crcAcc := rfl
@[simp] theorem advanceIp_xp (n : Nat) (s : State) : (advanceIp n s).xp = s.xp := rfl
@[simp] theorem advanceIp_inp (n : Nat) (s : State) : (advanceIp n s).inp = s.inp := rfl
@[simp] theorem advanceIp_out (n : Nat) (s : State) : (advanceIp n s).out = s.out := rfl
@[simp] theorem advanceIp_tbl (n : Nat) (s : State) : (advanceIp n s).tbl = s.tbl := rfl
@[simp] theorem advanceIp_scr (n : Nat) (s : State) : (advanceIp n s).scr = s.scr := rfl
@[simp] theorem advanceIp_lut (n : Nat) (s : State) : (advanceIp n s).lut = s.lut := rfl
@[simp] theorem advanceIp_rpt (n : Nat) (s : State) : (advanceIp n s).rpt = s.rpt := rfl
@[simp] theorem advanceIp_phase (n : Nat) (s : State) : (advanceIp n s).phase = s.phase := rfl
@[simp] theorem advanceIp_found (n : Nat) (s : State) : (advanceIp n s).found = s.found := rfl
@[simp] theorem advanceIp_bus (n : Nat) (s : State) : (advanceIp n s).bus = s.bus := rfl
@[simp] theorem advanceIp_rdata (n : Nat) (s : State) : (advanceIp n s).rdata = s.rdata := rfl
@[simp] theorem advanceIp_freeCtr (n : Nat) (s : State) : (advanceIp n s).freeCtr = s.freeCtr := rfl
@[simp] theorem advanceIp_str_ip (n : Nat) (s : State) : (advanceIp n s).str.ip = s.str.ip + n := rfl
@[simp] theorem advanceIp_str_op (n : Nat) (s : State) : (advanceIp n s).str.op = s.str.op := rfl
@[simp] theorem advanceIp_str_base (n : Nat) (s : State) : (advanceIp n s).str.base = s.str.base := rfl
@[simp] theorem advanceIp_str_limit (n : Nat) (s : State) : (advanceIp n s).str.limit = s.str.limit := rfl
@[simp] theorem advanceIp_str_method (n : Nat) (s : State) : (advanceIp n s).str.method = s.str.method := rfl
@[simp] theorem advanceIp_str_size (n : Nat) (s : State) : (advanceIp n s).str.size = s.str.size := rfl
@[simp] theorem advanceIp_str_dst (n : Nat) (s : State) : (advanceIp n s).str.dst = s.str.dst := rfl

/-! ## takeFlag (R171) -/

@[simp] theorem takeFlag_cfg (s : State) : (takeFlag s).cfg = s.cfg := rfl
@[simp] theorem takeFlag_host (s : State) : (takeFlag s).host = s.host := rfl
@[simp] theorem takeFlag_str (s : State) : (takeFlag s).str = s.str := rfl
@[simp] theorem takeFlag_lz (s : State) : (takeFlag s).lz = { s.lz with flags := s.lz.flags <<< 1, fcnt := s.lz.fcnt - 1 } := rfl
@[simp] theorem takeFlag_huf (s : State) : (takeFlag s).huf = s.huf := rfl
@[simp] theorem takeFlag_rle (s : State) : (takeFlag s).rle = s.rle := rfl
@[simp] theorem takeFlag_crcAcc (s : State) : (takeFlag s).crcAcc = s.crcAcc := rfl
@[simp] theorem takeFlag_xp (s : State) : (takeFlag s).xp = s.xp := rfl
@[simp] theorem takeFlag_inp (s : State) : (takeFlag s).inp = s.inp := rfl
@[simp] theorem takeFlag_out (s : State) : (takeFlag s).out = s.out := rfl
@[simp] theorem takeFlag_tbl (s : State) : (takeFlag s).tbl = s.tbl := rfl
@[simp] theorem takeFlag_scr (s : State) : (takeFlag s).scr = s.scr := rfl
@[simp] theorem takeFlag_lut (s : State) : (takeFlag s).lut = s.lut := rfl
@[simp] theorem takeFlag_rpt (s : State) : (takeFlag s).rpt = s.rpt := rfl
@[simp] theorem takeFlag_phase (s : State) : (takeFlag s).phase = s.phase := rfl
@[simp] theorem takeFlag_found (s : State) : (takeFlag s).found = s.found := rfl
@[simp] theorem takeFlag_bus (s : State) : (takeFlag s).bus = s.bus := rfl
@[simp] theorem takeFlag_rdata (s : State) : (takeFlag s).rdata = s.rdata := rfl
@[simp] theorem takeFlag_freeCtr (s : State) : (takeFlag s).freeCtr = s.freeCtr := rfl

/-! ## dispatchEnter (R150) -/

@[simp] theorem dispatchEnter_cfg (s : State) : (dispatchEnter s).cfg = s.cfg := rfl
@[simp] theorem dispatchEnter_host (s : State) : (dispatchEnter s).host = s.host := rfl
@[simp] theorem dispatchEnter_str (s : State) : (dispatchEnter s).str = { s.str with ip := s.str.base } := rfl
@[simp] theorem dispatchEnter_lz (s : State) : (dispatchEnter s).lz = s.lz := rfl
@[simp] theorem dispatchEnter_huf (s : State) : (dispatchEnter s).huf = s.huf := rfl
@[simp] theorem dispatchEnter_rle (s : State) : (dispatchEnter s).rle = s.rle := rfl
@[simp] theorem dispatchEnter_crcAcc (s : State) : (dispatchEnter s).crcAcc = s.crcAcc := rfl
@[simp] theorem dispatchEnter_xp (s : State) : (dispatchEnter s).xp = s.xp := rfl
@[simp] theorem dispatchEnter_inp (s : State) : (dispatchEnter s).inp = s.inp := rfl
@[simp] theorem dispatchEnter_out (s : State) : (dispatchEnter s).out = s.out := rfl
@[simp] theorem dispatchEnter_tbl (s : State) : (dispatchEnter s).tbl = s.tbl := rfl
@[simp] theorem dispatchEnter_scr (s : State) : (dispatchEnter s).scr = s.scr := rfl
@[simp] theorem dispatchEnter_lut (s : State) : (dispatchEnter s).lut = s.lut := rfl
@[simp] theorem dispatchEnter_rpt (s : State) : (dispatchEnter s).rpt = s.rpt := rfl
@[simp] theorem dispatchEnter_phase (s : State) : (dispatchEnter s).phase = .header := rfl
@[simp] theorem dispatchEnter_found (s : State) : (dispatchEnter s).found = s.found := rfl
@[simp] theorem dispatchEnter_bus (s : State) : (dispatchEnter s).bus = s.bus := rfl
@[simp] theorem dispatchEnter_rdata (s : State) : (dispatchEnter s).rdata = s.rdata := rfl
@[simp] theorem dispatchEnter_freeCtr (s : State) : (dispatchEnter s).freeCtr = s.freeCtr := rfl

/-! ## beginMethod (R150) -/

@[simp] theorem beginMethod_cfg (m : BitVec 3) (z : BitVec 29) (s : State) : (beginMethod m z s).cfg = s.cfg := rfl
@[simp] theorem beginMethod_host (m : BitVec 3) (z : BitVec 29) (s : State) : (beginMethod m z s).host = s.host := rfl
@[simp] theorem beginMethod_lz (m : BitVec 3) (z : BitVec 29) (s : State) : (beginMethod m z s).lz = s.lz := rfl
@[simp] theorem beginMethod_huf (m : BitVec 3) (z : BitVec 29) (s : State) : (beginMethod m z s).huf = s.huf := rfl
@[simp] theorem beginMethod_rle (m : BitVec 3) (z : BitVec 29) (s : State) : (beginMethod m z s).rle = s.rle := rfl
@[simp] theorem beginMethod_crcAcc (m : BitVec 3) (z : BitVec 29) (s : State) : (beginMethod m z s).crcAcc = s.crcAcc := rfl
@[simp] theorem beginMethod_xp (m : BitVec 3) (z : BitVec 29) (s : State) : (beginMethod m z s).xp = s.xp := rfl
@[simp] theorem beginMethod_inp (m : BitVec 3) (z : BitVec 29) (s : State) : (beginMethod m z s).inp = s.inp := rfl
@[simp] theorem beginMethod_out (m : BitVec 3) (z : BitVec 29) (s : State) : (beginMethod m z s).out = s.out := rfl
@[simp] theorem beginMethod_tbl (m : BitVec 3) (z : BitVec 29) (s : State) : (beginMethod m z s).tbl = s.tbl := rfl
@[simp] theorem beginMethod_scr (m : BitVec 3) (z : BitVec 29) (s : State) : (beginMethod m z s).scr = s.scr := rfl
@[simp] theorem beginMethod_lut (m : BitVec 3) (z : BitVec 29) (s : State) : (beginMethod m z s).lut = s.lut := rfl
@[simp] theorem beginMethod_rpt (m : BitVec 3) (z : BitVec 29) (s : State) : (beginMethod m z s).rpt = s.rpt := rfl
@[simp] theorem beginMethod_phase (m : BitVec 3) (z : BitVec 29) (s : State) : (beginMethod m z s).phase = s.phase := rfl
@[simp] theorem beginMethod_found (m : BitVec 3) (z : BitVec 29) (s : State) : (beginMethod m z s).found = s.found := rfl
@[simp] theorem beginMethod_bus (m : BitVec 3) (z : BitVec 29) (s : State) : (beginMethod m z s).bus = s.bus := rfl
@[simp] theorem beginMethod_rdata (m : BitVec 3) (z : BitVec 29) (s : State) : (beginMethod m z s).rdata = s.rdata := rfl
@[simp] theorem beginMethod_freeCtr (m : BitVec 3) (z : BitVec 29) (s : State) : (beginMethod m z s).freeCtr = s.freeCtr := rfl
@[simp] theorem beginMethod_str_ip (m : BitVec 3) (z : BitVec 29) (s : State) : (beginMethod m z s).str.ip = s.str.ip + 4 := rfl
@[simp] theorem beginMethod_str_op (m : BitVec 3) (z : BitVec 29) (s : State) : (beginMethod m z s).str.op = 0 := rfl
@[simp] theorem beginMethod_str_base (m : BitVec 3) (z : BitVec 29) (s : State) : (beginMethod m z s).str.base = s.str.base := rfl
@[simp] theorem beginMethod_str_limit (m : BitVec 3) (z : BitVec 29) (s : State) : (beginMethod m z s).str.limit = s.str.limit := rfl
@[simp] theorem beginMethod_str_method (m : BitVec 3) (z : BitVec 29) (s : State) : (beginMethod m z s).str.method = m := rfl
@[simp] theorem beginMethod_str_size (m : BitVec 3) (z : BitVec 29) (s : State) : (beginMethod m z s).str.size = z.toNat := rfl
@[simp] theorem beginMethod_str_dst (m : BitVec 3) (z : BitVec 29) (s : State) : (beginMethod m z s).str.dst = s.str.dst := rfl

/-! ## hufRestart (R202) -/

@[simp] theorem hufRestart_cfg (s : State) : (hufRestart s).cfg = s.cfg := rfl
@[simp] theorem hufRestart_host (s : State) : (hufRestart s).host = s.host := rfl
@[simp] theorem hufRestart_str (s : State) : (hufRestart s).str = s.str := rfl
@[simp] theorem hufRestart_lz (s : State) : (hufRestart s).lz = s.lz := rfl
@[simp] theorem hufRestart_huf (s : State) : (hufRestart s).huf = { s.huf with need := s.huf.need - 1, cur := s.huf.root, next := 0 } := rfl
@[simp] theorem hufRestart_rle (s : State) : (hufRestart s).rle = s.rle := rfl
@[simp] theorem hufRestart_crcAcc (s : State) : (hufRestart s).crcAcc = s.crcAcc := rfl
@[simp] theorem hufRestart_xp (s : State) : (hufRestart s).xp = s.xp := rfl
@[simp] theorem hufRestart_inp (s : State) : (hufRestart s).inp = s.inp := rfl
@[simp] theorem hufRestart_out (s : State) : (hufRestart s).out = s.out := rfl
@[simp] theorem hufRestart_tbl (s : State) : (hufRestart s).tbl = s.tbl := rfl
@[simp] theorem hufRestart_scr (s : State) : (hufRestart s).scr = s.scr := rfl
@[simp] theorem hufRestart_lut (s : State) : (hufRestart s).lut = s.lut := rfl
@[simp] theorem hufRestart_rpt (s : State) : (hufRestart s).rpt = s.rpt := rfl
@[simp] theorem hufRestart_phase (s : State) : (hufRestart s).phase = .hufBit := rfl
@[simp] theorem hufRestart_found (s : State) : (hufRestart s).found = s.found := rfl
@[simp] theorem hufRestart_bus (s : State) : (hufRestart s).bus = s.bus := rfl
@[simp] theorem hufRestart_rdata (s : State) : (hufRestart s).rdata = s.rdata := rfl
@[simp] theorem hufRestart_freeCtr (s : State) : (hufRestart s).freeCtr = s.freeCtr := rfl

/-! ## returnWord (R22) -/

@[simp] theorem returnWord_cfg (v : Word) (s : State) : (returnWord v s).cfg = s.cfg := rfl
@[simp] theorem returnWord_host (v : Word) (s : State) : (returnWord v s).host = s.host := rfl
@[simp] theorem returnWord_str (v : Word) (s : State) : (returnWord v s).str = s.str := rfl
@[simp] theorem returnWord_lz (v : Word) (s : State) : (returnWord v s).lz = s.lz := rfl
@[simp] theorem returnWord_huf (v : Word) (s : State) : (returnWord v s).huf = s.huf := rfl
@[simp] theorem returnWord_rle (v : Word) (s : State) : (returnWord v s).rle = s.rle := rfl
@[simp] theorem returnWord_crcAcc (v : Word) (s : State) : (returnWord v s).crcAcc = s.crcAcc := rfl
@[simp] theorem returnWord_xp (v : Word) (s : State) : (returnWord v s).xp = s.xp := rfl
@[simp] theorem returnWord_inp (v : Word) (s : State) : (returnWord v s).inp = s.inp := rfl
@[simp] theorem returnWord_out (v : Word) (s : State) : (returnWord v s).out = s.out := rfl
@[simp] theorem returnWord_tbl (v : Word) (s : State) : (returnWord v s).tbl = s.tbl := rfl
@[simp] theorem returnWord_scr (v : Word) (s : State) : (returnWord v s).scr = s.scr := rfl
@[simp] theorem returnWord_lut (v : Word) (s : State) : (returnWord v s).lut = s.lut := rfl
@[simp] theorem returnWord_rpt (v : Word) (s : State) : (returnWord v s).rpt = s.rpt := rfl
@[simp] theorem returnWord_phase (v : Word) (s : State) : (returnWord v s).phase = s.phase := rfl
@[simp] theorem returnWord_found (v : Word) (s : State) : (returnWord v s).found = s.found := rfl
@[simp] theorem returnWord_bus (v : Word) (s : State) : (returnWord v s).bus = s.bus := rfl
@[simp] theorem returnWord_rdata (v : Word) (s : State) : (returnWord v s).rdata = v := rfl
@[simp] theorem returnWord_freeCtr (v : Word) (s : State) : (returnWord v s).freeCtr = s.freeCtr := rfl

/-! ## returnFree (R333) -/

@[simp] theorem returnFree_cfg (s : State) : (returnFree s).cfg = s.cfg := rfl
@[simp] theorem returnFree_host (s : State) : (returnFree s).host = s.host := rfl
@[simp] theorem returnFree_str (s : State) : (returnFree s).str = s.str := rfl
@[simp] theorem returnFree_lz (s : State) : (returnFree s).lz = s.lz := rfl
@[simp] theorem returnFree_huf (s : State) : (returnFree s).huf = s.huf := rfl
@[simp] theorem returnFree_rle (s : State) : (returnFree s).rle = s.rle := rfl
@[simp] theorem returnFree_crcAcc (s : State) : (returnFree s).crcAcc = s.crcAcc := rfl
@[simp] theorem returnFree_xp (s : State) : (returnFree s).xp = s.xp := rfl
@[simp] theorem returnFree_inp (s : State) : (returnFree s).inp = s.inp := rfl
@[simp] theorem returnFree_out (s : State) : (returnFree s).out = s.out := rfl
@[simp] theorem returnFree_tbl (s : State) : (returnFree s).tbl = s.tbl := rfl
@[simp] theorem returnFree_scr (s : State) : (returnFree s).scr = s.scr := rfl
@[simp] theorem returnFree_lut (s : State) : (returnFree s).lut = s.lut := rfl
@[simp] theorem returnFree_rpt (s : State) : (returnFree s).rpt = s.rpt := rfl
@[simp] theorem returnFree_phase (s : State) : (returnFree s).phase = s.phase := rfl
@[simp] theorem returnFree_found (s : State) : (returnFree s).found = s.found := rfl
@[simp] theorem returnFree_bus (s : State) : (returnFree s).bus = s.bus := rfl
@[simp] theorem returnFree_rdata (s : State) : (returnFree s).rdata = Config.freeWord s.freeCtr := rfl
@[simp] theorem returnFree_freeCtr (s : State) : (returnFree s).freeCtr = s.freeCtr + 1 := rfl

/-! ## emit (R63), emitAll, copyBack (R173): what they leave -/

theorem emit_str (b : Byte) (s : State) : (emit b s).str = { s.str with op := s.str.op + 1 } := by
  unfold emit; split <;> rfl
@[simp] theorem emit_str_ip (b : Byte) (s : State) : (emit b s).str.ip = s.str.ip := by rw [emit_str]
@[simp] theorem emit_str_op (b : Byte) (s : State) : (emit b s).str.op = s.str.op + 1 := by rw [emit_str]
@[simp] theorem emit_str_base (b : Byte) (s : State) : (emit b s).str.base = s.str.base := by rw [emit_str]
@[simp] theorem emit_str_limit (b : Byte) (s : State) : (emit b s).str.limit = s.str.limit := by rw [emit_str]
@[simp] theorem emit_str_method (b : Byte) (s : State) : (emit b s).str.method = s.str.method := by rw [emit_str]
@[simp] theorem emit_str_size (b : Byte) (s : State) : (emit b s).str.size = s.str.size := by rw [emit_str]
@[simp] theorem emit_str_dst (b : Byte) (s : State) : (emit b s).str.dst = s.str.dst := by rw [emit_str]
@[simp] theorem emit_cfg (b : Byte) (s : State) : (emit b s).cfg = s.cfg := by unfold emit; split <;> rfl
@[simp] theorem emit_host (b : Byte) (s : State) : (emit b s).host = s.host := by unfold emit; split <;> rfl
@[simp] theorem emit_lz (b : Byte) (s : State) : (emit b s).lz = s.lz := by unfold emit; split <;> rfl
@[simp] theorem emit_huf (b : Byte) (s : State) : (emit b s).huf = s.huf := by unfold emit; split <;> rfl
@[simp] theorem emit_rle (b : Byte) (s : State) : (emit b s).rle = s.rle := by unfold emit; split <;> rfl
@[simp] theorem emit_crcAcc (b : Byte) (s : State) : (emit b s).crcAcc = s.crcAcc := by unfold emit; split <;> rfl
@[simp] theorem emit_xp (b : Byte) (s : State) : (emit b s).xp = s.xp := by unfold emit; split <;> rfl
@[simp] theorem emit_inp (b : Byte) (s : State) : (emit b s).inp = s.inp := by unfold emit; split <;> rfl
@[simp] theorem emit_tbl (b : Byte) (s : State) : (emit b s).tbl = s.tbl := by unfold emit; split <;> rfl
@[simp] theorem emit_lut (b : Byte) (s : State) : (emit b s).lut = s.lut := by unfold emit; split <;> rfl
@[simp] theorem emit_rpt (b : Byte) (s : State) : (emit b s).rpt = s.rpt := by unfold emit; split <;> rfl
@[simp] theorem emit_phase (b : Byte) (s : State) : (emit b s).phase = s.phase := by unfold emit; split <;> rfl
@[simp] theorem emit_found (b : Byte) (s : State) : (emit b s).found = s.found := by unfold emit; split <;> rfl
@[simp] theorem emit_bus (b : Byte) (s : State) : (emit b s).bus = s.bus := by unfold emit; split <;> rfl
@[simp] theorem emit_rdata (b : Byte) (s : State) : (emit b s).rdata = s.rdata := by unfold emit; split <;> rfl
@[simp] theorem emit_freeCtr (b : Byte) (s : State) : (emit b s).freeCtr = s.freeCtr := by unfold emit; split <;> rfl
@[simp] theorem emitAll_str_ip (bs : List Byte) (s : State) : (emitAll bs s).str.ip = s.str.ip := by
  induction bs generalizing s with
  | nil => rfl
  | cons b bs ih => simp [emitAll, ih]
@[simp] theorem emitAll_str_op (bs : List Byte) (s : State) : (emitAll bs s).str.op = s.str.op + bs.length := by
  induction bs generalizing s with
  | nil => rfl
  | cons b bs ih => simp [emitAll, ih]; omega
@[simp] theorem emitAll_str_base (bs : List Byte) (s : State) : (emitAll bs s).str.base = s.str.base := by
  induction bs generalizing s with
  | nil => rfl
  | cons b bs ih => simp [emitAll, ih]
@[simp] theorem emitAll_str_limit (bs : List Byte) (s : State) : (emitAll bs s).str.limit = s.str.limit := by
  induction bs generalizing s with
  | nil => rfl
  | cons b bs ih => simp [emitAll, ih]
@[simp] theorem emitAll_str_method (bs : List Byte) (s : State) : (emitAll bs s).str.method = s.str.method := by
  induction bs generalizing s with
  | nil => rfl
  | cons b bs ih => simp [emitAll, ih]
@[simp] theorem emitAll_str_size (bs : List Byte) (s : State) : (emitAll bs s).str.size = s.str.size := by
  induction bs generalizing s with
  | nil => rfl
  | cons b bs ih => simp [emitAll, ih]
@[simp] theorem emitAll_str_dst (bs : List Byte) (s : State) : (emitAll bs s).str.dst = s.str.dst := by
  induction bs generalizing s with
  | nil => rfl
  | cons b bs ih => simp [emitAll, ih]
@[simp] theorem emitAll_cfg (bs : List Byte) (s : State) : (emitAll bs s).cfg = s.cfg := by
  induction bs generalizing s with
  | nil => rfl
  | cons b bs ih => simp [emitAll, ih]
@[simp] theorem emitAll_host (bs : List Byte) (s : State) : (emitAll bs s).host = s.host := by
  induction bs generalizing s with
  | nil => rfl
  | cons b bs ih => simp [emitAll, ih]
@[simp] theorem emitAll_lz (bs : List Byte) (s : State) : (emitAll bs s).lz = s.lz := by
  induction bs generalizing s with
  | nil => rfl
  | cons b bs ih => simp [emitAll, ih]
@[simp] theorem emitAll_huf (bs : List Byte) (s : State) : (emitAll bs s).huf = s.huf := by
  induction bs generalizing s with
  | nil => rfl
  | cons b bs ih => simp [emitAll, ih]
@[simp] theorem emitAll_rle (bs : List Byte) (s : State) : (emitAll bs s).rle = s.rle := by
  induction bs generalizing s with
  | nil => rfl
  | cons b bs ih => simp [emitAll, ih]
@[simp] theorem emitAll_crcAcc (bs : List Byte) (s : State) : (emitAll bs s).crcAcc = s.crcAcc := by
  induction bs generalizing s with
  | nil => rfl
  | cons b bs ih => simp [emitAll, ih]
@[simp] theorem emitAll_xp (bs : List Byte) (s : State) : (emitAll bs s).xp = s.xp := by
  induction bs generalizing s with
  | nil => rfl
  | cons b bs ih => simp [emitAll, ih]
@[simp] theorem emitAll_inp (bs : List Byte) (s : State) : (emitAll bs s).inp = s.inp := by
  induction bs generalizing s with
  | nil => rfl
  | cons b bs ih => simp [emitAll, ih]
@[simp] theorem emitAll_tbl (bs : List Byte) (s : State) : (emitAll bs s).tbl = s.tbl := by
  induction bs generalizing s with
  | nil => rfl
  | cons b bs ih => simp [emitAll, ih]
@[simp] theorem emitAll_lut (bs : List Byte) (s : State) : (emitAll bs s).lut = s.lut := by
  induction bs generalizing s with
  | nil => rfl
  | cons b bs ih => simp [emitAll, ih]
@[simp] theorem emitAll_rpt (bs : List Byte) (s : State) : (emitAll bs s).rpt = s.rpt := by
  induction bs generalizing s with
  | nil => rfl
  | cons b bs ih => simp [emitAll, ih]
@[simp] theorem emitAll_phase (bs : List Byte) (s : State) : (emitAll bs s).phase = s.phase := by
  induction bs generalizing s with
  | nil => rfl
  | cons b bs ih => simp [emitAll, ih]
@[simp] theorem emitAll_found (bs : List Byte) (s : State) : (emitAll bs s).found = s.found := by
  induction bs generalizing s with
  | nil => rfl
  | cons b bs ih => simp [emitAll, ih]
@[simp] theorem emitAll_bus (bs : List Byte) (s : State) : (emitAll bs s).bus = s.bus := by
  induction bs generalizing s with
  | nil => rfl
  | cons b bs ih => simp [emitAll, ih]
@[simp] theorem emitAll_rdata (bs : List Byte) (s : State) : (emitAll bs s).rdata = s.rdata := by
  induction bs generalizing s with
  | nil => rfl
  | cons b bs ih => simp [emitAll, ih]
@[simp] theorem emitAll_freeCtr (bs : List Byte) (s : State) : (emitAll bs s).freeCtr = s.freeCtr := by
  induction bs generalizing s with
  | nil => rfl
  | cons b bs ih => simp [emitAll, ih]
@[simp] theorem copyBack_str_ip (d n : Nat) (s : State) : (copyBack d n s).str.ip = s.str.ip := by
  induction n generalizing s with
  | zero => rfl
  | succ n ih => simp [copyBack, ih]
@[simp] theorem copyBack_str_op (d n : Nat) (s : State) : (copyBack d n s).str.op = s.str.op + n := by
  induction n generalizing s with
  | zero => rfl
  | succ n ih => simp [copyBack, ih]; omega
@[simp] theorem copyBack_str_base (d n : Nat) (s : State) : (copyBack d n s).str.base = s.str.base := by
  induction n generalizing s with
  | zero => rfl
  | succ n ih => simp [copyBack, ih]
@[simp] theorem copyBack_str_limit (d n : Nat) (s : State) : (copyBack d n s).str.limit = s.str.limit := by
  induction n generalizing s with
  | zero => rfl
  | succ n ih => simp [copyBack, ih]
@[simp] theorem copyBack_str_method (d n : Nat) (s : State) : (copyBack d n s).str.method = s.str.method := by
  induction n generalizing s with
  | zero => rfl
  | succ n ih => simp [copyBack, ih]
@[simp] theorem copyBack_str_size (d n : Nat) (s : State) : (copyBack d n s).str.size = s.str.size := by
  induction n generalizing s with
  | zero => rfl
  | succ n ih => simp [copyBack, ih]
@[simp] theorem copyBack_str_dst (d n : Nat) (s : State) : (copyBack d n s).str.dst = s.str.dst := by
  induction n generalizing s with
  | zero => rfl
  | succ n ih => simp [copyBack, ih]
@[simp] theorem copyBack_cfg (d n : Nat) (s : State) : (copyBack d n s).cfg = s.cfg := by
  induction n generalizing s with
  | zero => rfl
  | succ n ih => simp [copyBack, ih]
@[simp] theorem copyBack_host (d n : Nat) (s : State) : (copyBack d n s).host = s.host := by
  induction n generalizing s with
  | zero => rfl
  | succ n ih => simp [copyBack, ih]
@[simp] theorem copyBack_lz (d n : Nat) (s : State) : (copyBack d n s).lz = s.lz := by
  induction n generalizing s with
  | zero => rfl
  | succ n ih => simp [copyBack, ih]
@[simp] theorem copyBack_huf (d n : Nat) (s : State) : (copyBack d n s).huf = s.huf := by
  induction n generalizing s with
  | zero => rfl
  | succ n ih => simp [copyBack, ih]
@[simp] theorem copyBack_rle (d n : Nat) (s : State) : (copyBack d n s).rle = s.rle := by
  induction n generalizing s with
  | zero => rfl
  | succ n ih => simp [copyBack, ih]
@[simp] theorem copyBack_crcAcc (d n : Nat) (s : State) : (copyBack d n s).crcAcc = s.crcAcc := by
  induction n generalizing s with
  | zero => rfl
  | succ n ih => simp [copyBack, ih]
@[simp] theorem copyBack_xp (d n : Nat) (s : State) : (copyBack d n s).xp = s.xp := by
  induction n generalizing s with
  | zero => rfl
  | succ n ih => simp [copyBack, ih]
@[simp] theorem copyBack_inp (d n : Nat) (s : State) : (copyBack d n s).inp = s.inp := by
  induction n generalizing s with
  | zero => rfl
  | succ n ih => simp [copyBack, ih]
@[simp] theorem copyBack_tbl (d n : Nat) (s : State) : (copyBack d n s).tbl = s.tbl := by
  induction n generalizing s with
  | zero => rfl
  | succ n ih => simp [copyBack, ih]
@[simp] theorem copyBack_lut (d n : Nat) (s : State) : (copyBack d n s).lut = s.lut := by
  induction n generalizing s with
  | zero => rfl
  | succ n ih => simp [copyBack, ih]
@[simp] theorem copyBack_rpt (d n : Nat) (s : State) : (copyBack d n s).rpt = s.rpt := by
  induction n generalizing s with
  | zero => rfl
  | succ n ih => simp [copyBack, ih]
@[simp] theorem copyBack_phase (d n : Nat) (s : State) : (copyBack d n s).phase = s.phase := by
  induction n generalizing s with
  | zero => rfl
  | succ n ih => simp [copyBack, ih]
@[simp] theorem copyBack_found (d n : Nat) (s : State) : (copyBack d n s).found = s.found := by
  induction n generalizing s with
  | zero => rfl
  | succ n ih => simp [copyBack, ih]
@[simp] theorem copyBack_bus (d n : Nat) (s : State) : (copyBack d n s).bus = s.bus := by
  induction n generalizing s with
  | zero => rfl
  | succ n ih => simp [copyBack, ih]
@[simp] theorem copyBack_rdata (d n : Nat) (s : State) : (copyBack d n s).rdata = s.rdata := by
  induction n generalizing s with
  | zero => rfl
  | succ n ih => simp [copyBack, ih]
@[simp] theorem copyBack_freeCtr (d n : Nat) (s : State) : (copyBack d n s).freeCtr = s.freeCtr := by
  induction n generalizing s with
  | zero => rfl
  | succ n ih => simp [copyBack, ih]

end Sys2Proof.Machine
end

