-- ==== Sys2Proof/Laws/Ops.lean ====
section
/-! SUPPORT. For each shared operation, one lemma that says what it can do. -/

namespace Sys2Proof.Machine

/-! ## startCommand (R130) -/

/-- Everything the start of a command can do. -/
theorem startCommand_cases (body : State → Outcome) (s : State) :
    (s.host.busy = true ∧ startCommand body s = .next s) ∨
    (s.host.busy = false ∧ s.cfg.inCap.toNat < s.host.inLen.toNat ∧
      startCommand body s = .next (raise .badArgument s.host.inLen.toNat (prologue s))) ∨
    (s.host.busy = false ∧ s.host.inLen.toNat ≤ s.cfg.inCap.toNat ∧
      startCommand body s = body (prologue s)) := by
  unfold startCommand
  by_cases hb : s.host.busy = true
  · exact .inl ⟨hb, if_pos hb⟩
  · rw [Bool.not_eq_true] at hb
    by_cases hc : s.cfg.inCap.toNat < s.host.inLen.toNat
    · exact .inr (.inl ⟨hb, hc, by rw [hb, if_neg Bool.false_ne_true, if_pos hc]⟩)
    · exact .inr (.inr ⟨hb, by omega, by rw [hb, if_neg Bool.false_ne_true, if_neg hc]⟩)

/-- A command with `BUSY = 0` and `IN_LEN` in range runs its rule after the prologue. -/
theorem startCommand_idle {body : State → Outcome} {s : State} (hb : s.host.busy = false)
    (hc : s.host.inLen.toNat ≤ s.cfg.inCap.toNat) : startCommand body s = body (prologue s) := by
  unfold startCommand
  rw [hb, if_neg Bool.false_ne_true, if_neg (by omega)]

/-- A command started while `BUSY = 1` is ignored (R23). -/
theorem startCommand_busy {body : State → Outcome} {s : State} (hb : s.host.busy = true) :
    startCommand body s = .next s := if_pos hb

/-- A reserved `CMD` value with `BUSY = 0` (R134). -/
theorem reservedCommand_idle {v : Word} {s : State} (hb : s.host.busy = false) :
    reservedCommand v s = raise .badArgument v.toNat (prologue s) := by
  unfold reservedCommand
  rw [hb, if_neg Bool.false_ne_true]

/-! ## Failures that record a value ERRINFO may not hold (R298; logs 8 and 9) -/

/-- A failure with a free value is a failure. -/
theorem raiseFree_eq (f : Failure) (n : Nat) (s : State) : ∃ v, raiseFree f n s = raise f v s := ⟨_, rfl⟩

/-- Everything a failure that records the value `n` can do. -/
theorem raiseLength_cases (f : Failure) (n : Nat) (s : State) :
    (n < 2 ^ 32 ∧ raiseLength f n s = raise f n s) ∨ (2 ^ 32 ≤ n ∧ ∃ v, raiseLength f n s = raise f v s) := by
  unfold raiseLength
  by_cases h : n < 4294967296
  · exact .inl ⟨h, if_pos h⟩
  · exact .inr ⟨Nat.not_lt.1 h, _, if_neg h⟩

/-- `REC` stays within its 12 bits while names are processed (R34). -/
theorem nameRec_le (k : Nat) : nameRec k ≤ Config.countMax := by
  unfold nameRec
  split
  · assumption
  · exact Nat.le_of_lt_succ (Config.freeRec k).isLt

/-! ## Fetch (R62) -/

/-- What keeps a fetch from its bytes. -/
theorem fetchStop_cases (n : Nat) (s : State) :
    (s.str.limit < s.str.ip + n ∧ fetchStop n s = some (.next (raise .truncatedStream s.str.ip s))) ∨
    (s.str.ip + n ≤ s.str.limit ∧ s.cfg.inCap.toNat < s.str.ip + n ∧ fetchStop n s = some (.fault .readBeyondSpace)) ∨
    (s.str.ip + n ≤ s.str.limit ∧ s.str.ip + n ≤ s.cfg.inCap.toNat ∧ fetchStop n s = none) := by
  unfold fetchStop
  by_cases h1 : s.str.limit < s.str.ip + n
  · exact .inl ⟨h1, if_pos h1⟩
  · by_cases h2 : s.cfg.inCap.toNat < s.str.ip + n
    · exact .inr (.inl ⟨by omega, h2, by rw [if_neg h1, if_pos h2]⟩)
    · exact .inr (.inr ⟨by omega, by omega, by rw [if_neg h1, if_neg h2]⟩)

theorem fetchStop_truncated {n : Nat} {s : State} (h : s.str.limit < s.str.ip + n) :
    fetchStop n s = some (.next (raise .truncatedStream s.str.ip s)) := if_pos h

theorem fetchStop_none {n : Nat} {s : State} (h1 : s.str.ip + n ≤ s.str.limit)
    (h2 : s.str.ip + n ≤ s.cfg.inCap.toNat) : fetchStop n s = none := by
  unfold fetchStop
  rw [if_neg (by omega), if_neg (by omega)]

/-- A fetch that has its bytes. -/
theorem fetch_eq {n : Nat} {s : State} {k : List Byte → State → Outcome} (h1 : s.str.ip + n ≤ s.str.limit)
    (h2 : s.str.ip + n ≤ s.cfg.inCap.toNat) : fetch n s k = k (bytesAtIp n s) (advanceIp n s) := by
  unfold fetch
  rw [fetchStop_none h1 h2]

/-- A fetch that does not: nothing is consumed (R62, R302). -/
theorem fetch_truncated {n : Nat} {s : State} {k : List Byte → State → Outcome} (h : s.str.limit < s.str.ip + n) :
    fetch n s k = .next (raise .truncatedStream s.str.ip s) := by
  unfold fetch
  rw [fetchStop_truncated h]

theorem peek_eq {n : Nat} {s : State} {k : List Byte → Fetched} (h1 : s.str.ip + n ≤ s.str.limit)
    (h2 : s.str.ip + n ≤ s.cfg.inCap.toNat) : peek n s k = k (bytesAtIp n s) := by
  unfold peek
  rw [fetchStop_none h1 h2]

theorem peek_truncated {n : Nat} {s : State} {k : List Byte → Fetched} (h : s.str.limit < s.str.ip + n) :
    peek n s k = .stop (.next (raise .truncatedStream s.str.ip s)) := by
  unfold peek
  rw [fetchStop_truncated h]

@[simp] theorem bytesAtIp_length (n : Nat) (s : State) : (bytesAtIp n s).length = n := Memory.readN_length _ _ _

/-! ## Emit (R63) -/

theorem withRoom_eq {n : Nat} {s k : State} (h : s.str.op + n ≤ capacity s) : withRoom n s k = .next k := if_pos h

/-- Everything a guarded write can do. -/
theorem withRoom_cases (n : Nat) (s k : State) :
    (s.str.op + n ≤ capacity s ∧ withRoom n s k = .next k) ∨
    (capacity s < s.str.op + n ∧ withRoom n s k = .fault .writeBeyondSpace) := by
  unfold withRoom
  by_cases h : s.str.op + n ≤ capacity s
  · exact .inl ⟨h, if_pos h⟩
  · exact .inr ⟨by omega, if_neg h⟩

theorem emit_dst (b : Byte) (s : State) :
    dstSpace (emit b s) = (dstSpace s).write s.str.op b := by
  unfold emit dstSpace
  split <;> simp_all

theorem emit_out (b : Byte) (s : State) : (emit b s).out = if s.str.dst then s.out else s.out.write s.str.op b := by
  unfold emit; split <;> rfl

theorem emit_scr (b : Byte) (s : State) : (emit b s).scr = if s.str.dst then s.scr.write s.str.op b else s.scr := by
  unfold emit; split <;> rfl

/-- `Emit` of several bytes writes them at `OP` on, in order. -/
theorem emitAll_dst (bs : List Byte) (s : State) :
    dstSpace (emitAll bs s) = (dstSpace s).writeN s.str.op bs := by
  induction bs generalizing s with
  | nil => rfl
  | cons b bs ih => rw [emitAll, ih, emit_dst, emit_str_op, Memory.writeN]

theorem emitAll_out (bs : List Byte) (s : State) :
    (emitAll bs s).out = if s.str.dst then s.out else s.out.writeN s.str.op bs := by
  induction bs generalizing s with
  | nil => simp [emitAll, Memory.writeN]
  | cons b bs ih =>
    rw [emitAll, ih, emit_str_dst, emit_str_op, emit_out]
    by_cases h : s.str.dst = true <;> simp [h, Memory.writeN]

theorem emitAll_scr (bs : List Byte) (s : State) :
    (emitAll bs s).scr = if s.str.dst then s.scr.writeN s.str.op bs else s.scr := by
  induction bs generalizing s with
  | nil => simp [emitAll, Memory.writeN]
  | cons b bs ih =>
    rw [emitAll, ih, emit_str_dst, emit_str_op, emit_scr]
    by_cases h : s.str.dst = true <;> simp [h, Memory.writeN]

/-- The space a unit does not write is left alone by a copy. -/
theorem copyBack_out_of_dst (d n : Nat) {s : State} (h : s.str.dst = true) : (copyBack d n s).out = s.out := by
  induction n generalizing s with
  | zero => rfl
  | succ n ih => rw [copyBack, ih (by simpa using h), emit_out, if_pos h]

theorem copyBack_scr_of_not_dst (d n : Nat) {s : State} (h : s.str.dst = false) : (copyBack d n s).scr = s.scr := by
  induction n generalizing s with
  | zero => rfl
  | succ n ih => rw [copyBack, ih (by simpa using h), emit_scr, if_neg (by simp [h])]

@[simp] theorem capacity_emit (b : Byte) (s : State) : capacity (emit b s) = capacity s := by simp [capacity]
@[simp] theorem capacity_advanceIp (n : Nat) (s : State) : capacity (advanceIp n s) = capacity s := rfl

theorem emit_wf (b : Byte) {s : State} (ho : s.out.wf = true) (hs : s.scr.wf = true) :
    (emit b s).out.wf = true ∧ (emit b s).scr.wf = true := by
  rw [emit_out, emit_scr]
  constructor <;> split <;> first | assumption | exact Memory.write_wf _ _ (by assumption)

theorem emitAll_wf (bs : List Byte) {s : State} (ho : s.out.wf = true) (hs : s.scr.wf = true) :
    (emitAll bs s).out.wf = true ∧ (emitAll bs s).scr.wf = true := by
  induction bs generalizing s with
  | nil => exact ⟨ho, hs⟩
  | cons b bs ih => exact ih (emit_wf b ho hs).1 (emit_wf b ho hs).2

theorem copyBack_wf (d n : Nat) {s : State} (ho : s.out.wf = true) (hs : s.scr.wf = true) :
    (copyBack d n s).out.wf = true ∧ (copyBack d n s).scr.wf = true := by
  induction n generalizing s with
  | zero => exact ⟨ho, hs⟩
  | succ n ih => exact ih (emit_wf _ ho hs).1 (emit_wf _ ho hs).2

/-! ## Overrun (R173, R222, R223) -/

/-- Everything the overrun check can do. -/
theorem acceptedCount_cases (p : OverrunPolicy) (op n size : Nat) :
    (op + n ≤ size ∧ acceptedCount p op n size = some n) ∨
    (size < op + n ∧ p = .raises ∧ acceptedCount p op n size = none) ∨
    (size < op + n ∧ p = .clip ∧ acceptedCount p op n size = some (size - op)) := by
  unfold acceptedCount
  by_cases h : size < op + n
  · cases p
    · exact .inr (.inl ⟨h, rfl, if_pos h⟩)
    · exact .inr (.inr ⟨h, rfl, if_pos h⟩)
  · exact .inl ⟨by omega, if_neg h⟩

/-- What an accepted symbol emits stays within the declared size. -/
theorem acceptedCount_le {p : OverrunPolicy} {op n size k : Nat} (h : acceptedCount p op n size = some k)
    (hop : op ≤ size) : op + k ≤ size ∧ k ≤ n := by
  rcases acceptedCount_cases p op n size with ⟨h1, h2⟩ | ⟨_, _, h2⟩ | ⟨h1, _, h2⟩ <;> rw [h2] at h
  · cases h; exact ⟨h1, le_refl _⟩
  · cases h
  · cases h; omega

/-! ## Encoders (R75) and the end of a unit -/

/-- Everything an encoder's output can do. -/
theorem encoderOut_cases (bs : List Byte) (s : State) (k : State → State) :
    (bs.length ≤ s.cfg.outCap.toNat ∧
      encoderOut bs s k = k { s with out := s.out.writeN 0 bs, str := { s.str with op := bs.length } }) ∨
    (s.cfg.outCap.toNat < bs.length ∧
      encoderOut bs s k =
        raise .badArgument s.cfg.outCap.toNat
          { s with
            out := s.out.writeN 0 (bs.take s.cfg.outCap.toNat), str := { s.str with op := s.cfg.outCap.toNat } }) := by
  unfold encoderOut
  by_cases h : bs.length ≤ s.cfg.outCap.toNat
  · exact .inl ⟨h, by simp [h, List.take_of_length_le h]⟩
  · refine .inr ⟨by omega, ?_⟩
    have h' : (bs.take s.cfg.outCap.toNat).length = s.cfg.outCap.toNat := by
      rw [List.length_take]; omega
    simp only [if_neg h, h']

theorem unitDone_of_not_dst {s : State} (h : s.str.dst = false) : unitDone s = endCommand s := by
  unfold unitDone; rw [h, if_neg Bool.false_ne_true]

/-! ## LUT (R42) -/

/-- The lookup table holds the latest entry under its key, and the others as before. -/
theorem lutFind_lutInsert (e : LutEntry) (k : Word) (lut : List LutEntry) :
    lutFind k (lutInsert e lut) = if k = e.key then some e else lutFind k lut := by
  unfold lutFind lutInsert
  by_cases hk : k = e.key
  · simp [hk]
  · rw [List.find?_cons_of_neg (by simpa using Ne.symm hk), if_neg hk, List.find?_filter]
    congr 1
    funext x
    by_cases hx : x.key = k
    · simp [hx, hk]
    · simp [hx]

/-! ## Steps -/

/-- A step is the run of an instruction, or an outcome given at once. -/
theorem step_cases (s : State) :
    (∃ i t, fetchNext s = .run i t ∧ step s = exec i t) ∨ (∃ o, fetchNext s = .stop o ∧ step s = o) := by
  unfold step
  cases h : fetchNext s with
  | run i t => exact .inl ⟨i, t, rfl, rfl⟩
  | stop o => exact .inr ⟨o, rfl, rfl⟩

theorem step_run {s t : State} {i : Instr} (h : fetchNext s = .run i t) : step s = exec i t := by
  unfold step; rw [h]

theorem step_stop {s : State} {o : Outcome} (h : fetchNext s = .stop o) : step s = o := by
  unfold step; rw [h]

/-- With no host request pending the core takes the step. -/
theorem fetchNext_core {s : State} (h : s.bus = []) : fetchNext s = fetchCore s := by
  unfold fetchNext; rw [h]

theorem runDecoded_ok {f : Fmt} {bs rest : List Byte} {i : Instr} {s : State} {o : Outcome}
    (h : decode f bs = .ok (i, rest)) : runDecoded f bs s o = .run i s := by
  unfold runDecoded; rw [h]

theorem runDecoded_error {f : Fmt} {bs : List Byte} {e : DecodeErr} {s : State} {o : Outcome}
    (h : decode f bs = .error e) : runDecoded f bs s o = .stop o := by
  unfold runDecoded; rw [h]

end Sys2Proof.Machine
end

