-- ==== Sys2Proof/Laws/PerInstr.lean ====
section
/-! SUPPORT. One lemma per instruction: the length of its encoding is the length of its row of spec/opcode_table.json in
whole bytes (a flag bit or code bit is a byte of its own, log 22); a file list is as long as its fields say
(30_encoding.md R111). -/

namespace Sys2Proof.Laws

/-- The bytes of an instruction's encoding (30_encoding.md R90, R113). -/
def wordBytes (i : Instr) : Nat :=
  match i with
  | .nop | .decHdr | .encHdr | .decompress | .lzDec | .hufDec | .rleDec | .lzEnc | .crc32 | .xpckOpen | .xpckPack
  | .cmdReserved11 | .cmdReserved12 | .cmdReserved13 | .cmdReserved14 | .cmdReserved15 => 4
  | .store _ | .lz _ | .huf4 _ | .huf8 _ | .rle _ | .zlib _ | .method6 _ | .method7 _ => 4
  | .lit _ => 2
  | .ref _ _ => 3
  | .run _ _ => 2
  | .copy _ => 1
  | .hufTable _ _ => 2
  | .hufNode _ _ _ => 1
  | .hufStep0 => 1
  | .hufStep1 => 1
  | .hufLeaf8 _ => 1
  | .hufLeaf4 _ => 1
  | .hufWord _ => 4
  | .zlibMagic => 1
  | .xpckMagic => 4
  | .xph _ _ _ _ _ _ _ => 20
  | .xpr _ _ _ _ _ _ => 12
  | .countField _ _ => 2
  | .fls ms => 4 + (ms.map (fun m => 6 + m.1.length + m.2.length)).sum
  | .rptEntry _ _ _ => 16

end Sys2Proof.Laws

namespace Sys2Proof.Laws.WordLength

/-- The encoding of `i` has the length of its row. -/
def Statement (i : Instr) : Prop := (encode i).length = wordBytes i

theorem nop : Statement (.nop) := rfl
theorem decHdr : Statement (.decHdr) := rfl
theorem encHdr : Statement (.encHdr) := rfl
theorem decompress : Statement (.decompress) := rfl
theorem lzDec : Statement (.lzDec) := rfl
theorem hufDec : Statement (.hufDec) := rfl
theorem rleDec : Statement (.rleDec) := rfl
theorem lzEnc : Statement (.lzEnc) := rfl
theorem crc32 : Statement (.crc32) := rfl
theorem xpckOpen : Statement (.xpckOpen) := rfl
theorem xpckPack : Statement (.xpckPack) := rfl
theorem cmdReserved11 : Statement (.cmdReserved11) := rfl
theorem cmdReserved12 : Statement (.cmdReserved12) := rfl
theorem cmdReserved13 : Statement (.cmdReserved13) := rfl
theorem cmdReserved14 : Statement (.cmdReserved14) := rfl
theorem cmdReserved15 : Statement (.cmdReserved15) := rfl
theorem store : ∀ size, Statement (.store size) := by intros; rfl
theorem lz : ∀ size, Statement (.lz size) := by intros; rfl
theorem huf4 : ∀ size, Statement (.huf4 size) := by intros; rfl
theorem huf8 : ∀ size, Statement (.huf8 size) := by intros; rfl
theorem rle : ∀ size, Statement (.rle size) := by intros; rfl
theorem zlib : ∀ size, Statement (.zlib size) := by intros; rfl
theorem method6 : ∀ size, Statement (.method6 size) := by intros; rfl
theorem method7 : ∀ size, Statement (.method7 size) := by intros; rfl
theorem lit : ∀ byte, Statement (.lit byte) := by intros; rfl
theorem ref : ∀ len3 disp, Statement (.ref len3 disp) := by intros; rfl
theorem run : ∀ n3 value, Statement (.run n3 value) := by intros; rfl
theorem copy : ∀ n1, Statement (.copy n1) := by intros; rfl
theorem hufTable : ∀ tsize root, Statement (.hufTable tsize root) := by intros; rfl
theorem hufNode : ∀ leaf0 leaf1 offset, Statement (.hufNode leaf0 leaf1 offset) := by intros; rfl
theorem hufStep0 : Statement (.hufStep0) := rfl
theorem hufStep1 : Statement (.hufStep1) := rfl
theorem hufLeaf8 : ∀ symbol, Statement (.hufLeaf8 symbol) := by intros; rfl
theorem hufLeaf4 : ∀ symbol, Statement (.hufLeaf4 symbol) := by intros; rfl
theorem hufWord : ∀ code, Statement (.hufWord code) := by intros; rfl
theorem zlibMagic : Statement (.zlibMagic) := rfl
theorem xpckMagic : Statement (.xpckMagic) := rfl
theorem xph : ∀ count infoOff4 nameOff4 dataOff4 f4 nameLen4 dataLen4, Statement (.xph count infoOff4 nameOff4 dataOff4 f4 nameLen4 dataLen4) := by intros; rfl
theorem xpr : ∀ crc nameOff offLo sizeLo offHi sizeHi, Statement (.xpr crc nameOff offLo sizeLo offHi sizeHi) := by intros; rfl
theorem countField : ∀ f1 f2, Statement (.countField f1 f2) := by intros; rfl
theorem fls (members : List Member) : Statement (.fls members) := by
  have h : ∀ ms : List Member,
      (ms.flatMap memberBytes).length = (ms.map (fun m => 6 + m.1.length + m.2.length)).sum := by
    intro ms
    induction ms with
    | nil => rfl
    | cons m ms ih => simp [List.flatMap_cons, memberBytes, le16, le32, ih]; omega
  simp [Statement, encode, encodeIn, fileListBytes, wordBytes, le32, h]; omega
theorem rptEntry : ∀ crc off len, Statement (.rptEntry crc off len) := by intros; rfl

end Sys2Proof.Laws.WordLength
end

