-- ==== Sys2Proof/Tests/Slice0.lean ====
section
/-! SUPPORT. Tests: ill-formed terms, words written out from 30_encoding.md, single steps on the examples and vectors of
spec/ (95_test_vectors.md), and for each statement with hypotheses a state that meets them. Expected values are the
spec's. -/

namespace Sys2Proof.Tests

open Sys2Proof Sys2Proof.Machine

/-! ## Helpers -/

/-- The next state, if there is one. -/
def nextOf : Outcome → Option State
  | .next t => some t
  | _ => none

/-- One look at the next state of an instruction. -/
def after {α : Type} (look : State → α) (i : Instr) (s : State) : Option α := (nextOf (exec i s)).map look

/-- What a format's decoder answers on bytes. -/
def reads (f : Fmt) (bs : List Byte) : Option (Instr × List Byte) := (decode f bs).toOption

/-- No command runs; `IN`, `IN_LEN`, `ARG0`, `ARG1` are set. -/
def idle (input : List Byte) (arg0 arg1 : Word) : State :=
  { State.reset with
    host := { State.reset.host with inLen := BitVec.ofNat 32 input.length, arg0 := arg0, arg1 := arg1 }
    inp := Memory.writeN [] 0 input }

/-- A unit stands at `ph` with the whole input before it and `size` bytes declared. -/
def running (ph : Phase) (input : List Byte) (size : Nat) : State :=
  { State.reset with
    host := { State.reset.host with busy := true, inLen := BitVec.ofNat 32 input.length }
    str := { State.reset.str with limit := input.length, size := size }
    inp := Memory.writeN [] 0 input
    phase := ph }

/-- `STATUS`, `ERRCODE` and `ERRINFO`. -/
def failure (s : State) : Word × BitVec 3 × Word := (statusWord s.host, s.host.errCode, s.host.errInfo)

/-- The output bytes of a decoder so far. -/
def output (s : State) : List Byte := s.out.readN 0 s.str.op

/-! ## Well-formedness: an ill-formed term for each check -/

theorem test_count_of_list_refused (ms : List Member) (h : ms.length = 4294967296) :
    (Instr.fls ms).wellFormed = false := by simp [Instr.wellFormed, h]

theorem test_long_name_refused (name : List Byte) (h : name.length = 65536) :
    (Instr.fls [(name, [])]).wellFormed = false := by simp [Instr.wellFormed, memberFits, h]

theorem test_long_data_refused (data : List Byte) (h : data.length = 4294967296) :
    (Instr.fls [([], data)]).wellFormed = false := by simp [Instr.wellFormed, memberFits, h]

theorem test_long_name_exists : (Instr.fls [(List.replicate 65536 0x61#8, [])]).wellFormed = false :=
  test_long_name_refused _ List.length_replicate

theorem test_small_list_accepted : (Instr.fls [([0x61#8], [0x78#8])]).wellFormed = true := by decide

/-! ## Decoding: words written out from the encodings (R91 to R117) -/

theorem test_decode_nop : reads .cmd [0#8, 0#8, 0#8, 0#8] = some (.nop, []) := by decide
theorem test_decode_dec_hdr : reads .cmd [1#8, 0#8, 0#8, 0#8] = some (.decHdr, []) := by decide
theorem test_decode_enc_hdr : reads .cmd [2#8, 0#8, 0#8, 0#8] = some (.encHdr, []) := by decide
theorem test_decode_decompress : reads .cmd [3#8, 0#8, 0#8, 0#8] = some (.decompress, []) := by decide
theorem test_decode_lz_dec : reads .cmd [4#8, 0#8, 0#8, 0#8] = some (.lzDec, []) := by decide
theorem test_decode_huf_dec : reads .cmd [5#8, 0#8, 0#8, 0#8] = some (.hufDec, []) := by decide
theorem test_decode_rle_dec : reads .cmd [6#8, 0#8, 0#8, 0#8] = some (.rleDec, []) := by decide
theorem test_decode_lz_enc : reads .cmd [7#8, 0#8, 0#8, 0#8] = some (.lzEnc, []) := by decide
theorem test_decode_crc32 : reads .cmd [8#8, 0#8, 0#8, 0#8] = some (.crc32, []) := by decide
theorem test_decode_xpck_open : reads .cmd [9#8, 0#8, 0#8, 0#8] = some (.xpckOpen, []) := by decide
theorem test_decode_xpck_pack : reads .cmd [10#8, 0#8, 0#8, 0#8] = some (.xpckPack, []) := by decide
theorem test_decode_reserved_11 : reads .cmd [11#8, 0#8, 0#8, 0#8] = some (.cmdReserved11, []) := by decide
theorem test_decode_reserved_12 : reads .cmd [12#8, 0#8, 0#8, 0#8] = some (.cmdReserved12, []) := by decide
theorem test_decode_reserved_13 : reads .cmd [13#8, 0#8, 0#8, 0#8] = some (.cmdReserved13, []) := by decide
theorem test_decode_reserved_14 : reads .cmd [14#8, 0#8, 0#8, 0#8] = some (.cmdReserved14, []) := by decide
theorem test_decode_reserved_15 : reads .cmd [15#8, 0#8, 0#8, 0#8] = some (.cmdReserved15, []) := by decide
theorem test_decode_rejects_high_bits : reads .cmd [0#8, 1#8, 0#8, 0#8] = none := by decide
/-- The worked headers of 41_dispatcher.md: `18 00 00 00`, `61 00 00 00`, `1A 00 00 00`, `23 00 00 00`, `34 00 00 00`,
`8D 00 00 00`, `06 00 00 00`, `FF FF FF FF`. -/
theorem test_decode_store : reads .hdr [0x18#8, 0#8, 0#8, 0#8] = some (.store 3#29, []) := by decide
theorem test_decode_lz : reads .hdr [0x61#8, 0#8, 0#8, 0#8] = some (.lz 12#29, []) := by decide
theorem test_decode_huf4 : reads .hdr [0x1A#8, 0#8, 0#8, 0#8] = some (.huf4 3#29, []) := by decide
theorem test_decode_huf8 : reads .hdr [0x23#8, 0#8, 0#8, 0#8] = some (.huf8 4#29, []) := by decide
theorem test_decode_rle : reads .hdr [0x34#8, 0#8, 0#8, 0#8] = some (.rle 6#29, []) := by decide
theorem test_decode_zlib : reads .hdr [0x8D#8, 0#8, 0#8, 0#8] = some (.zlib 17#29, []) := by decide
theorem test_decode_method6 : reads .hdr [0x06#8, 0#8, 0#8, 0#8] = some (.method6 0#29, []) := by decide
theorem test_decode_method7 : reads .hdr [0xFF#8, 0xFF#8, 0xFF#8, 0xFF#8] = some (.method7 536870911#29, []) := by
  decide
theorem test_decode_size_bytes : reads .hdr [0x2C#8, 0x1A#8, 0x09#8, 0#8] = some (.rle 74565#29, []) := by decide
theorem test_decode_lit : reads .lzg [0#8, 0x41#8] = some (.lit 0x41#8, []) := by decide
theorem test_decode_ref : reads .lzg [1#8, 0x60#8, 0x02#8] = some (.ref 6#4 2#12, []) := by decide
theorem test_decode_ref_high_displacement : reads .lzg [1#8, 0x0F#8, 0xFF#8] = some (.ref 0#4 4095#12, []) := by decide
theorem test_decode_run : reads .rlc [0x83#8, 0x41#8] = some (.run 3#7 0x41#8, []) := by decide
theorem test_decode_copy : reads .rlc [0x7F#8, 0x10#8] = some (.copy 127#7, [0x10#8]) := by decide
theorem test_decode_huf_table : reads .hufTable [0x02#8, 0x80#8] = some (.hufTable 2#8 0x80#8, []) := by decide
theorem test_decode_huf_node : reads .hufNode [0x41#8] = some (.hufNode false true 1#6, []) := by decide
theorem test_decode_huf_step0 : reads .hufBit [0#8] = some (.hufStep0, []) := by decide
theorem test_decode_huf_step1 : reads .hufBit [1#8] = some (.hufStep1, []) := by decide
theorem test_decode_huf_leaf8 : reads .hufLeaf8 [0xC0#8] = some (.hufLeaf8 0xC0#8, []) := by decide
theorem test_decode_huf_leaf4 : reads .hufLeaf4 [0x0F#8] = some (.hufLeaf4 15#4, []) := by decide
theorem test_decode_huf_leaf4_too_large : reads .hufLeaf4 [0x1F#8] = none := by decide
theorem test_decode_huf_word_big :
    reads (.hufWord .big) [0x58#8, 0x01#8, 0x02#8, 0x03#8] = some (.hufWord 0x58010203#32, []) := by decide
theorem test_decode_huf_word_little :
    reads (.hufWord .little) [0x58#8, 0x01#8, 0x02#8, 0x03#8] = some (.hufWord 0x03020158#32, []) := by decide
theorem test_decode_zlib_magic : reads .zlibMagic [0x78#8] = some (.zlibMagic, []) := by decide
theorem test_decode_xpck_magic : reads .xpckMagic [0x58#8, 0x50#8, 0x43#8, 0x4B#8] = some (.xpckMagic, []) := by decide
theorem test_decode_xpck_magic_lower_case : reads .xpckMagic [0x78#8, 0x70#8, 0x63#8, 0x6B#8] = none := by decide
/-- The header bytes of R248's example, with a tail. -/
theorem test_decode_xph :
    reads .xph [0x58#8, 0x50#8, 0x43#8, 0x4B#8, 2#8, 2#8, 5#8, 0#8, 0x0B#8, 0#8, 0x11#8, 0#8, 6#8, 0#8, 6#8, 0#8,
      8#8, 0#8, 0#8, 0#8] = some (.xph 0x0202#16 5#16 11#16 17#16 6#16 6#16 8#32, []) := by decide
/-- Fields of R107 in their order: crc, name offset, low offset, low size, high offset, high size. -/
theorem test_decode_xpr :
    reads .xpr [0xC2#8, 0x88#8, 0x5B#8, 0x30#8, 6#8, 0#8, 4#8, 0#8, 0x10#8, 0#8, 1#8, 2#8] =
      some (.xpr 0x305B88C2#32 6#16 4#16 16#16 1#8 2#8, []) := by decide
theorem test_decode_count_field : reads .countField [0xFF#8, 0x80#8] = some (.countField 0xFF#8 0x80#8, []) := by decide
theorem test_decode_fls :
    reads .fls [1#8, 0#8, 0#8, 0#8, 1#8, 0#8, 2#8, 0#8, 0#8, 0#8, 0x61#8, 0x78#8, 0x79#8] =
      some (.fls [([0x61#8], [0x78#8, 0x79#8])], []) := by decide
theorem test_decode_rpt_entry :
    reads .rpt [5#8, 0#8, 0#8, 0#8, 0xC2#8, 0x88#8, 0x5B#8, 0x30#8, 6#8, 0#8, 0#8, 0#8, 5#8, 0#8, 0#8, 0#8] =
      some (.rptEntry 0x305B88C2#32 6#32 5#32, []) := by decide
theorem test_decode_rpt_other_code :
    reads .rpt [4#8, 0#8, 0#8, 0#8, 0#8, 0#8, 0#8, 0#8, 0#8, 0#8, 0#8, 0#8, 0#8, 0#8, 0#8, 0#8] = none := by decide
/-- A table word and the step that runs it: `34 00 00 00` has method 4 and size 6; the unit then stands after the header. -/
theorem test_table_word_header : decodeTableWord 32 0x34 = some (.rle 6#29) := by decide
theorem test_placed_header_runs :
    (nextOf (step (State.reset.withFetchWord 32 0x34))).map (fun t => (t.phase, t.str.ip, t.str.size)) =
      some (.rle, 4, 6) := by decide
theorem test_placed_command_runs :
    (nextOf (step (State.reset.withFetchWord 32 3))).map (fun t => (t.phase, t.host.busy)) =
      some (.header, true) := by decide

/-! ## Memory and reset -/

theorem test_write_replaces : Memory.write [(5, 7#8)] 5 0#8 = [(5, 0#8)] := by decide
theorem test_unwritten : Memory.written [(5, 7#8)] 4 = none ∧ Memory.written [(5, 7#8)] 5 = some 7#8 := by decide
theorem test_write_keeps_order : Memory.write [(5, 7#8)] 3 9#8 = [(3, 9#8), (5, 7#8)] := by decide
theorem test_reset_status : statusWord State.reset.host = 0#32 := by decide

/-! ## Commands -/

/-- R131: after a failure, `NOP` leaves `STATUS = 0b0010`. -/
theorem test_nop_clears :
    after failure .nop (raise .unknownMethod 6 State.reset) = some (0b0010#32, 0#3, 0#32) := by decide
/-- R134's example. -/
theorem test_reserved_11 : after failure .cmdReserved11 State.reset = some (0b0110#32, 6#3, 11#32) := by decide
theorem test_reserved_12 : after failure .cmdReserved12 State.reset = some (0b0110#32, 6#3, 12#32) := by decide
theorem test_reserved_13 : after failure .cmdReserved13 State.reset = some (0b0110#32, 6#3, 13#32) := by decide
theorem test_reserved_14 : after failure .cmdReserved14 State.reset = some (0b0110#32, 6#3, 14#32) := by decide
theorem test_reserved_15 : after failure .cmdReserved15 State.reset = some (0b0110#32, 6#3, 15#32) := by decide
/-- H6, H8. -/
theorem test_dec_hdr :
    after (fun t => (t.host.res0, t.host.res1)) .decHdr (idle [0x2C#8, 0x1A#8, 0x09#8, 0#8] 0#32 0#32) =
      some (4#32, 74565#32) := by decide
/-- H10. -/
theorem test_dec_hdr_short :
    after failure .decHdr (idle [0x61#8, 0#8, 0#8] 0#32 0#32) = some (0b0110#32, 2#3, 3#32) := by decide
/-- H3. -/
theorem test_enc_hdr :
    after (fun t => (t.out.readN 0 4, t.host.outLen)) .encHdr (idle [] 5#32 0x1FFFFFFF#32) =
      some ([0xFD#8, 0xFF#8, 0xFF#8, 0xFF#8], 4#32) := by decide
/-- H14: the method is checked first. -/
theorem test_enc_hdr_order :
    after failure .encHdr (idle [] 9#32 0x20000000#32) = some (0b0110#32, 6#3, 9#32) := by decide
/-- Q3: the check value of "123456789". -/
theorem test_crc32 :
    after (fun t => t.host.res0) .crc32
      (idle [0x31#8, 0x32#8, 0x33#8, 0x34#8, 0x35#8, 0x36#8, 0x37#8, 0x38#8, 0x39#8] 0#32 0#32) =
      some 0xCBF43926#32 := by decide +kernel
/-- Q1. -/
theorem test_crc32_empty : after (fun t => t.host.res0) .crc32 (idle [] 0#32 0#32) = some 0#32 := by decide
/-- E9. -/
theorem test_lz_enc :
    after (fun t => t.out.readN 0 t.host.outLen.toNat) .lzEnc
      (idle [0x41#8, 0x42#8, 0x43#8, 0x41#8, 0x42#8, 0x43#8, 0x41#8, 0x42#8, 0x43#8, 0x41#8, 0x42#8, 0x43#8] 0#32 0#32) =
      some [0x61#8, 0#8, 0#8, 0#8, 0x18#8, 0x41#8, 0x42#8, 0x43#8, 0#8, 2#8, 0x30#8, 5#8] := by decide +kernel
/-- E1. -/
theorem test_lz_enc_empty :
    after (fun t => t.out.readN 0 t.host.outLen.toNat) .lzEnc (idle [] 0#32 0#32) =
      some [1#8, 0#8, 0#8, 0#8] := by decide
theorem test_decompress_starts :
    after (fun t => (t.phase, t.str.limit, t.host.busy)) .decompress (idle [0x34#8, 0#8] 0#32 0#32) =
      some (.header, 2, true) := by decide
/-- L23. -/
theorem test_lz_dec_size :
    after failure .lzDec (idle [0x18#8] 0#32 0x20000000#32) = some (0b0110#32, 6#3, 536870912#32) := by decide
theorem test_lz_dec_starts :
    after (fun t => (t.phase, t.str.size, t.lz.fcnt)) .lzDec (idle [0x18#8] 0#32 12#32) = some (.lz, 12, 0) := by decide
/-- HF20: depth before size. -/
theorem test_huf_dec_order :
    after failure .hufDec (idle [] 3#32 0x20000000#32) = some (0b0110#32, 6#3, 3#32) := by decide
theorem test_huf_dec_starts :
    after (fun t => (t.phase, t.huf.depth, t.str.size)) .hufDec (idle [] 4#32 3#32) = some (.hufTable, 4, 3) := by decide
/-- RL11: `MalformedHeader`, not `UnknownMethod`. -/
theorem test_rle_dec_method :
    after failure .rleDec (idle [0x36#8, 0#8, 0#8, 0#8, 0x83#8, 0x41#8] 0#32 0#32) = some (0b0110#32, 2#3, 0#32) := by
  decide
theorem test_rle_dec_starts :
    after (fun t => (t.phase, t.str.ip, t.str.size)) .rleDec (idle [0x34#8, 0#8, 0#8, 0#8] 0#32 0#32) =
      some (.rle, 4, 6) := by decide
theorem test_xpck_open_starts : after (fun t => t.phase) .xpckOpen (idle [] 0#32 0#32) = some .xpckMagic := by decide
theorem test_xpck_pack_starts : after (fun t => t.phase) .xpckPack (idle [] 0#32 0#32) = some .fls := by decide
/-- A write of `CMD` while a command runs is ignored (R23). -/
theorem test_busy_command_ignored :
    after (fun t => t) .lzDec (running .rle [0x83#8] 3) = some (running .rle [0x83#8] 3) := by decide

/-! ## Methods -/

/-- DS1: `18 00 00 00 78 79 7A`. -/
theorem test_store :
    after (fun t => (output t, t.str.ip, t.phase)) (.store 3#29)
      (running .header [0x18#8, 0#8, 0#8, 0#8, 0x78#8, 0x79#8, 0x7A#8] 0) =
      some ([0x78#8, 0x79#8, 0x7A#8], 7, .finish) := by decide
/-- DS3: the size field says 4. -/
theorem test_store_mismatch :
    after failure (.store 4#29) (running .header [0x20#8, 0#8, 0#8, 0#8, 0x78#8, 0x79#8, 0x7A#8] 0) =
      some (0b0110#32, 2#3, 4#32) := by decide
theorem test_lz_method :
    after (fun t => (t.phase, t.str.ip, t.str.size)) (.lz 12#29) (running .header [0x61#8, 0#8, 0#8, 0#8] 0) =
      some (.lz, 4, 12) := by decide
theorem test_huf4_method :
    after (fun t => (t.phase, t.huf.depth)) (.huf4 3#29) (running .header [] 0) = some (.hufTable, 4) := by decide
theorem test_huf8_method :
    after (fun t => (t.phase, t.huf.depth)) (.huf8 4#29) (running .header [] 0) = some (.hufTable, 8) := by decide
theorem test_rle_method :
    after (fun t => (t.phase, t.str.ip, t.str.size)) (.rle 6#29) (running .header [0x34#8, 0#8, 0#8, 0#8] 0) =
      some (.rle, 4, 6) := by decide
theorem test_zlib_method :
    after (fun t => (t.phase, t.str.ip)) (.zlib 17#29) (running .header [0x8D#8, 0#8, 0#8, 0#8] 0) =
      some (.zlibMagic, 4) := by decide
/-- DS6, DS7. -/
theorem test_method6 :
    after failure (.method6 0#29) (running .header [6#8, 0#8, 0#8, 0#8] 0) = some (0b0110#32, 1#3, 6#32) := by decide
theorem test_method7 :
    after failure (.method7 536870911#29) (running .header [7#8, 0#8, 0#8, 0#8] 0) = some (0b0110#32, 1#3, 7#32) := by
  decide
/-- Whatever the engine answers, `ZLIB_MAGIC` has a next state. -/
theorem test_zlib_magic : (nextOf (exec .zlibMagic (running .zlibMagic [0x78#8, 0x9C#8] 2))).isSome = true := by rfl
/-- DS11. -/
theorem test_bad_zlib_magic :
    (nextOf (step (running .zlibMagic [0x79#8, 0x9C#8] 2))).map failure = some (0b0110#32, 4#3, 0#32) := by decide

/-! ## LZ, RLE and Huffman symbols -/

/-- A decoder that has emitted `done` bytes. -/
def emitted (ph : Phase) (input done : List Byte) (size : Nat) : State := emitAll done (running ph input size)

theorem test_lit :
    after (fun t => (output t, t.str.ip)) (.lit 0x42#8) (emitted .lz [0x42#8] [0x41#8] 4) =
      some ([0x41#8, 0x42#8], 1) := by decide
/-- L2: one byte repeated nine times. -/
theorem test_ref_overlap :
    after (fun t => (output t, t.str.ip)) (.ref 6#4 0#12) (emitted .lz [0x60#8, 0#8] [0x41#8] 10) =
      some (List.replicate 10 0x41#8, 2) := by decide
/-- L9: a reference at `OP = 0`. -/
theorem test_ref_before_start :
    after failure (.ref 0#4 0#12) (running .lz [0#8, 0#8] 3) = some (0b0110#32, 7#3, 0#32) := by decide
/-- RL1. -/
theorem test_run :
    after (fun t => (output t, t.str.ip)) (.run 3#7 0x41#8) (running .rle [0x83#8, 0x41#8] 6) =
      some (List.replicate 6 0x41#8, 2) := by decide
/-- RL13: the run passes the size. -/
theorem test_run_overrun :
    after failure (.run 3#7 0x41#8) (running .rle [0x83#8, 0x41#8] 5) = some (0b0110#32, 2#3, 0#32) := by decide
/-- RL2. -/
theorem test_copy :
    after (fun t => (output t, t.str.ip)) (.copy 2#7) (running .rle [2#8, 0x10#8, 0x20#8, 0x30#8] 3) =
      some ([0x10#8, 0x20#8, 0x30#8], 4) := by decide
/-- RL17: data short, none consumed. -/
theorem test_copy_short :
    after (fun t => (failure t, t.str.ip)) (.copy 2#7) (running .rle [2#8, 0x10#8, 0x20#8] 4) =
      some ((0b0110#32, 3#3, 1#32), 1) := by decide

/-- The Huffman decoder of HF1 after its table is loaded: `02 80 41 C0 42 43`. -/
def walk (depth : Nat) (root : Byte) (table : List Byte) (size : Nat) : State :=
  let s := running .hufBit [] size
  { s with
    tbl := Memory.writeN [] 0 table
    huf :=
      { s.huf with
        tsize := BitVec.ofNat 8 (table.length / 2), root := root, depth := depth, cur := root
        need := symbolCount depth size, bitCnt := 32, code := 0x58000000#32 } }

theorem test_huf_table :
    after (fun t => (t.tbl.readN 0 4, t.huf.need, t.huf.cur, t.str.ip)) (.hufTable 2#8 0x80#8)
      (let s := running .hufTable [2#8, 0x80#8, 0x41#8, 0xC0#8, 0x42#8, 0x43#8] 4
       { s with huf := { s.huf with depth := 8 } }) =
      some ([0x41#8, 0xC0#8, 0x42#8, 0x43#8], 4, 0x80#8, 6) := by decide
/-- HF7: the table is missing. -/
theorem test_huf_table_short :
    after failure (.hufTable 2#8 0x80#8) (running .hufTable [2#8, 0x80#8] 0) = some (0b0110#32, 3#3, 2#32) := by decide
theorem test_huf_word :
    after (fun t => (t.huf.code, t.huf.bitCnt, t.str.ip)) (.hufWord 0x58000000#32) (running .hufBit [] 4) =
      some (0x58000000#32, 32, 4) := by decide
/-- R202's example: bit 0 at the root gives `NEXT = 2`, index 0, a leaf. -/
theorem test_huf_step0 :
    after (fun t => (t.phase, t.huf.next)) .hufStep0 (walk 8 0x80#8 [0x41#8, 0xC0#8, 0x42#8, 0x43#8] 4) =
      some (.hufChild 0 true, 2) := by decide
/-- R202's example: bit 1 at the root gives index 1, not a leaf. -/
theorem test_huf_step1 :
    after (fun t => (t.phase, t.huf.bitCnt)) .hufStep1 (walk 8 0x80#8 [0x41#8, 0xC0#8, 0x42#8, 0x43#8] 4) =
      some (.hufChild 1 false, 31) := by decide
/-- HF10: an empty table. -/
theorem test_huf_step_outside : after failure .hufStep0 (walk 8 0x80#8 [] 1) = some (0b0110#32, 7#3, 0#32) := by decide
theorem test_huf_node :
    after (fun t => (t.huf.cur, t.phase)) (.hufNode true true 0#6) (walk 8 0x80#8 [] 1) = some (0xC0#8, .hufBit) := by
  decide
theorem test_huf_leaf8 :
    after (fun t => (output t, t.huf.need, t.huf.cur)) (.hufLeaf8 0x41#8) (walk 8 0x80#8 [] 4) =
      some ([0x41#8], 3, 0x80#8) := by decide
/-- R204: symbols 1 then 2 give the byte `0x21`. -/
theorem test_huf_leaf4 :
    ((nextOf (exec (.hufLeaf4 1#4) (walk 4 0x80#8 [] 1))).bind fun t =>
      after (fun u => (output u, u.huf.need, u.huf.nibv)) (.hufLeaf4 2#4) t) = some ([0x21#8], 0, false) := by decide

/-! ## Archive -/

theorem test_xpck_magic :
    after (fun t => (t.str.ip, t.phase)) .xpckMagic (running .xpckMagic xpckMagicBytes 0) = some (4, .xph) := by decide
/-- R248's example. -/
theorem test_xph :
    after (fun t => (t.xp.cnt, t.xp.infoOff, t.xp.nameOff, t.xp.dataOff, t.xp.f4)) (.xph 0x0202#16 5#16 11#16 17#16 6#16 6#16 8#32)
      (running .xph xpckMagicBytes 0) = some (2, 20, 44, 68, 24) := by decide
/-- R249's corner cases: `0x80FF` is 255. -/
theorem test_count_field :
    after (fun t => (t.xp.cnt, t.lut)) (.countField 0xFF#8 0x80#8) (running .countField [] 0) = some (255, []) := by decide
/-- R249: `0x0202` is 2 with the branch and 514 under `mask12`. -/
theorem test_count_modes :
    (countDecode .branchAware 0x0202#16, countDecode .mask12 0x0202#16) = (2, 514) := by decide
/-- A record whose member lies inside the input, and the same with one byte less. -/
theorem test_xpr :
    after (fun t => (t.lut, t.xp.recIdx, t.str.ip)) (.xpr 7#32 0#16 1#16 4#16 0#8 0#8)
      (running .records (List.replicate 16 1#8) 0) =
      some ([{ key := 7#32, addr := 4, size := 4 }], 1, 12) := by decide
theorem test_xpr_outside :
    after failure (.xpr 7#32 0#16 1#16 4#16 1#8 0#8) (running .records (List.replicate 16 1#8) 0) =
      some (0b0110#32, 3#3, 0#32) := by decide
/-- X17's second report. -/
theorem test_rpt_entry :
    after (fun t => (t.host.rptCnt, t.rpt, statusWord t.host, t.phase)) (.rptEntry 0x305B88C2#32 6#32 5#32)
      (running (.lookup 0) [] 0) =
      some (1#32, [{ code := 5#32, crc := 0x305B88C2#32, off := 6#32, len := 5#32 }], 0b1001#32, .lookup 12) := by decide
/-- X24: two members with one name. -/
theorem test_fls_duplicate :
    after failure (.fls [([0x61#8], []), ([0x61#8], [])]) (running .fls [] 0) = some (0b0110#32, 6#3, 1#32) := by decide
/-- One member "x" with data `31` (R105, R107, R264 by hand): one record, a 16-byte data section. -/
theorem test_fls_packs :
    after (fun t => (t.host.res0, t.host.res1, t.str.op, (t.out.readN 0 14))) (.fls [([0x78#8], [0x31#8])])
      (running .fls [] 0) =
      some (1#32, 52#32, 68, [0x58#8, 0x50#8, 0x43#8, 0x4B#8, 1#8, 1#8, 5#8, 0#8, 8#8, 0#8, 13#8, 0#8, 3#8, 0#8]) := by
  decide +kernel

/-! ## Host accesses -/

theorem test_in_write_refused_while_busy :
    nextOf (step { running .rle [0x83#8] 3 with bus := [.writeIn 0 1#8] }) = none := by decide
theorem test_status_read_while_busy :
    (nextOf (step { running .rle [0x83#8] 3 with bus := [.readReg 4] })).map (fun t => t.rdata) = some 1#32 := by decide
/-- R331: a byte of `IN` that nothing has written is refused, a written one is returned, be it 0. -/
theorem test_unwritten_in_refused :
    (nextOf (step { idle [0#8] 0#32 0#32 with bus := [.readIn 1] })).isNone = true ∧
    (nextOf (step { idle [0#8] 0#32 0#32 with bus := [.readIn 0], rdata := 7#32 })).map (fun t => t.rdata) =
      some 0#32 := by decide
/-- A header of 16 bytes instead of 20 (R7): one record, 16 bytes of name section, 16 of data; and a length that is no
multiple of 4. -/
theorem test_header_length :
    (packArchive { State.resetConfig with xpckHdrLen := 16 } [([0x78#8], [0x31#8])]).length = 64 ∧
    rangeFailure { State.resetConfig with xpckHdrLen := 18 } [([0x78#8], [0x31#8])] = some 18 := by decide +kernel

/-! ## Witnesses: states and operands that meet the hypotheses of the statements, clause by clause -/

/-- `s` with an `OUT` of `n` bytes. -/
def outCapped (n : Word) (s : State) : State := { s with cfg := { s.cfg with outCap := n } }

/-- `s` with the other setting of `OVERRUN_POLICY`. -/
def clipping (s : State) : State := { s with cfg := { s.cfg with overrunPolicy := .clip } }

/-- `s` with the other setting of `STORE_SIZE_CHECK`. -/
def unchecking (s : State) : State := { s with cfg := { s.cfg with storeSizeCheck := .unchecked } }

theorem witness_DecodeOfEncodeIsTheInstruction :
    (Instr.fls [([0x61#8], [0x78#8])]).wellFormed = true ∧ (Instr.ref 15#4 4095#12).wellFormed = true := by decide

theorem witness_EncodeOfDecodeIsTheBytes :
    Fmt.rlc ≠ .xphOpen ∧ decode .rlc [0x83#8, 0x41#8, 0x99#8] = .ok (.run 3#7 0x41#8, [0x99#8]) := ⟨by decide, rfl⟩

theorem witness_HeaderFieldsAreExact : (5#32).toNat ≤ 5 ∧ (0x1FFFFFFF#32).toNat ≤ 0x1FFFFFFF := by decide

theorem witness_NopClearsTheFailure : Ready (idle [] 0#32 0#32) := by unfold Ready; decide

theorem witness_ReservedCommandsRaise :
    (idle [] 0#32 0#32).host.busy = false ∧ 11 ≤ (11#32).toNat ∧ 11 ≤ (0xFFFFFFFF#32).toNat := by decide

theorem witness_CommandGuards :
    (fmtOf .big .nop = .cmd ∧ (running .lz [] 1).host.busy = true) ∧
    (fmtOf .big .xpckPack = .cmd ∧
      Instr.xpckPack ∉ [Instr.cmdReserved11, .cmdReserved12, .cmdReserved13, .cmdReserved14, .cmdReserved15] ∧
      ({ idle [1#8] 0#32 0#32 with cfg := { State.resetConfig with inCap := 0#32 } } : State).host.busy = false ∧
      ({ idle [1#8] 0#32 0#32 with cfg := { State.resetConfig with inCap := 0#32 } } : State).cfg.inCap.toNat <
        (idle [1#8] 0#32 0#32).host.inLen.toNat) := by decide

theorem witness_DecHdrReturnsTheFields :
    (Ready (idle [1#8, 2#8, 3#8] 0#32 0#32) ∧ (idle [1#8, 2#8, 3#8] 0#32 0#32).host.inLen.toNat < 4) ∧
    (Ready (idle [1#8, 2#8, 3#8, 4#8] 0#32 0#32) ∧ 4 ≤ (idle [1#8, 2#8, 3#8, 4#8] 0#32 0#32).host.inLen.toNat) := by
  unfold Ready; decide

theorem witness_EncHdrWritesTheHeader :
    (Ready (idle [] 5#32 0x1FFFFFFF#32) ∧ SpacesOk (idle [] 5#32 0x1FFFFFFF#32)) ∧
    5 < (idle [] 6#32 0#32).host.arg0.toNat ∧ 0x1FFFFFFF < (idle [] 5#32 0x20000000#32).host.arg1.toNat ∧
    (outCapped 3#32 (idle [] 0#32 0#32)).cfg.outCap.toNat < 4 ∧
    4 ≤ (outCapped 4#32 (idle [] 0#32 0#32)).cfg.outCap.toNat := by
  unfold Ready SpacesOk; decide

theorem witness_Crc32ReturnsTheChecksum : Ready (idle [1#8] 0#32 0#32) := by unfold Ready; decide

theorem witness_ArchiveAndDispatchCommandsEnter : Ready (idle [0x58#8] 0#32 0#32) := by unfold Ready; decide

theorem witness_LzDecStarts :
    (Ready (idle [] 0#32 0x20000000#32) ∧ 0x1FFFFFFF < (idle [] 0#32 0x20000000#32).host.arg1.toNat) ∧
    (Ready (outCapped 3#32 (idle [] 0#32 4#32)) ∧
      (outCapped 3#32 (idle [] 0#32 4#32)).cfg.outCap.toNat < (idle [] 0#32 4#32).host.arg1.toNat) ∧
    (Ready (outCapped 3#32 (idle [] 0#32 3#32)) ∧
      (idle [] 0#32 3#32).host.arg1.toNat ≤ (outCapped 3#32 (idle [] 0#32 3#32)).cfg.outCap.toNat) := by
  unfold Ready; decide

theorem witness_HufDecStarts :
    (Ready (idle [] 5#32 0#32) ∧ (idle [] 5#32 0#32).host.arg0.toNat ≠ 4 ∧ (idle [] 5#32 0#32).host.arg0.toNat ≠ 8) ∧
    ((idle [] 4#32 0x20000000#32).host.arg0.toNat = 4 ∧
      0x1FFFFFFF < (idle [] 4#32 0x20000000#32).host.arg1.toNat) ∧
    (Ready (outCapped 3#32 (idle [] 8#32 4#32)) ∧ (idle [] 8#32 4#32).host.arg0.toNat = 8 ∧
      (outCapped 3#32 (idle [] 8#32 4#32)).cfg.outCap.toNat < (idle [] 8#32 4#32).host.arg1.toNat) ∧
    (idle [] 8#32 3#32).host.arg1.toNat ≤ (outCapped 3#32 (idle [] 8#32 3#32)).cfg.outCap.toNat := by
  unfold Ready; decide

theorem witness_RleDecStarts :
    (Ready (idle [0x34#8, 0#8, 0#8] 0#32 0#32) ∧ (idle [0x34#8, 0#8, 0#8] 0#32 0#32).host.inLen.toNat < 4) ∧
    (Ready (idle [0x31#8, 0#8, 0#8, 0#8] 0#32 0#32) ∧ headerMethod (u32le 0x31#8 0#8 0#8 0#8) ≠ 4#3) ∧
    (Ready (outCapped 5#32 (idle [0x34#8, 0#8, 0#8, 0#8] 0#32 0#32)) ∧
      headerMethod (u32le 0x34#8 0#8 0#8 0#8) = 4#3 ∧ 5 < (headerSize (u32le 0x34#8 0#8 0#8 0#8)).toNat) ∧
    (headerSize (u32le 0x34#8 0#8 0#8 0#8)).toNat ≤ (outCapped 6#32 (idle [] 0#32 0#32)).cfg.outCap.toNat := by
  unfold Ready; decide

theorem witness_LzEncWritesTheStream :
    (Ready { idle [] 0#32 0#32 with host := { State.reset.host with inLen := 0x20000000#32 } } ∧
      0x1FFFFFFF < (0x20000000#32).toNat) ∧
    (Ready (outCapped 6#32 (idle [0x41#8] 0#32 0#32)) ∧ SpacesOk (outCapped 6#32 (idle [0x41#8] 0#32 0#32)) ∧
      (lzStream [0x41#8]).length ≤ 6 ∧ (6#32).toNat = 6) ∧
    5 < (lzStream [0x41#8]).length := by
  unfold Ready SpacesOk; decide

/-- The parse and the groups: a reference after three literals, and a ninth symbol in a group of its own. -/
theorem witness_LzEncWritesTheStream_symbols :
    (let data : List Byte := [0x41#8, 0x41#8, 0x41#8, 0x41#8, 0x41#8, 0x41#8]
     lzParse data = [.lit 0x41#8, .lit 0x41#8, .lit 0x41#8, .ref 0#4 2#12] ∧
       findMatch data 2 = none ∧ findMatch data 3 = some (3, 3)) ∧
    (let syms := List.replicate 8 (Instr.lit 1#8) ++ [.ref 15#4 4095#12]
     syms ≠ [] ∧ (∀ i ∈ syms, (∃ b, i = .lit b) ∨ ∃ l d, i = .ref l d) ∧ (syms.drop 8).length = 1) := by
  refine ⟨by decide, by decide, ?_, by decide⟩
  intro i hi
  simp only [List.mem_append, List.mem_replicate, List.mem_singleton] at hi
  rcases hi with ⟨-, rfl⟩ | rfl
  · exact .inl ⟨_, rfl⟩
  · exact .inr ⟨_, _, rfl⟩

theorem witness_LzMatchIsLongestThenFirst :
    3 < [0x41#8, 0x41#8, 0x41#8, 0x41#8, 0x41#8, 0x41#8].length ∧
    findMatch [0x41#8, 0x41#8, 0x41#8, 0x41#8, 0x41#8, 0x41#8] 3 = some (3, 3) ∧
    findMatch [0x41#8, 0x41#8, 0x41#8, 0x41#8, 0x41#8, 0x41#8] 4 = none := by decide

theorem witness_LzRoundTrip :
    Ready (idle (lzStream [0x41#8]) 0#32 0#32) ∧ SpacesOk (idle (lzStream [0x41#8]) 0#32 0#32) ∧
    [0x41#8].length ≤ 0x1FFFFFFF ∧
    [0x41#8].length ≤ (idle (lzStream [0x41#8]) 0#32 0#32).cfg.outCap.toNat ∧
    (idle (lzStream [0x41#8]) 0#32 0#32).host.inLen.toNat = (lzStream [0x41#8]).length ∧
    (idle (lzStream [0x41#8]) 0#32 0#32).inp.readN 0 (lzStream [0x41#8]).length = lzStream [0x41#8] := by
  unfold Ready SpacesOk; decide

theorem witness_StoreCopiesThePayload :
    let s := running .header [0x18#8, 0#8, 0#8, 0#8, 0x78#8, 0x79#8, 0x7A#8] 0
    CanFetch 4 s ∧ SpacesOk s ∧ s.cfg.storeSizeCheck = .strict ∧ s.str.limit - (s.str.ip + 4) ≠ (4#29).toNat ∧
    s.str.limit - (s.str.ip + 4) = (3#29).toNat ∧ (unchecking s).cfg.storeSizeCheck = .unchecked ∧
    CanFetch 4 (unchecking s) ∧ (unchecking s).str.limit - ((unchecking s).str.ip + 4) ≠ (4#29).toNat ∧
    3 ≤ capacity (unchecking s) ∧ capacity (outCapped 2#32 (unchecking s)) < 3 ∧ capacity (outCapped 2#32 s) < 3 ∧ 3 ≤ capacity (outCapped 3#32 s) := by
  unfold CanFetch SpacesOk; decide

theorem witness_CodecMethodsEnter :
    (3#29).toNat ≤ capacity (outCapped 3#32 (running .header [] 0)) ∧
    capacity (outCapped 3#32 (running .header [] 0)) < (4#29).toNat := by decide

theorem witness_RleMethodReadsTheHeaderAgain :
    let s := running .header [0x34#8, 0#8, 0#8, 0#8] 0
    s.str.base + 4 ≤ s.str.limit ∧ s.str.limit ≤ s.cfg.inCap.toNat ∧
    decode .hdr (s.inp.readN s.str.base 4) = .ok (.rle 6#29, []) ∧ (6#29).toNat ≤ capacity (outCapped 6#32 s) ∧
    capacity (outCapped 5#32 s) < (6#29).toNat := ⟨by decide, by decide, rfl, by decide, by decide⟩

theorem witness_ZlibHandsThePayloadOver :
    CanFetch 1 (running .zlibMagic [0x78#8] 2) ∧ SpacesOk (running .zlibMagic [0x78#8] 2) := by
  unfold CanFetch SpacesOk; decide

theorem witness_MissingMagicRaises :
    let s := running .zlibMagic [] 0
    let t := running .xpckMagic [0x58#8, 0x50#8, 0x43#8, 0#8] 0
    let u := running .header [0x18#8, 0#8, 0#8] 0
    (u.bus = [] ∧ u.host.busy = true ∧ u.str.limit ≤ u.cfg.inCap.toNat ∧ u.host.inLen.toNat ≤ u.cfg.inCap.toNat ∧
      u.phase = .header ∧ u.str.limit - u.str.base < 4) ∧
    (s.bus = [] ∧ s.host.busy = true ∧ s.str.limit ≤ s.cfg.inCap.toNat ∧ s.host.inLen.toNat ≤ s.cfg.inCap.toNat ∧
      s.phase = .zlibMagic ∧ s.str.limit ≤ s.str.ip) ∧
    (t.bus = [] ∧ t.host.busy = true ∧ t.str.limit ≤ t.cfg.inCap.toNat ∧ t.host.inLen.toNat ≤ t.cfg.inCap.toNat ∧
      t.phase = .xpckMagic ∧ t.inp.readN 0 4 ≠ [0x58#8, 0x50#8, 0x43#8, 0x4B#8]) := by decide

theorem witness_LitEmitsItsByte :
    SpacesOk (outCapped 2#32 (emitted .lz [0x42#8] [0x41#8] 4)) ∧
    (outCapped 2#32 (emitted .lz [0x42#8] [0x41#8] 4)).str.op <
      capacity (outCapped 2#32 (emitted .lz [0x42#8] [0x41#8] 4)) := by
  unfold SpacesOk; decide

theorem witness_RefCopiesPeriodically :
    let s := outCapped 10#32 (emitted .lz [0x60#8, 0#8] [0x41#8] 10)
    SpacesOk s ∧ refDisp 0#12 < s.str.op ∧ s.str.op + refLength 6#4 ≤ s.str.size ∧ s.str.size ≤ capacity s := by
  unfold SpacesOk; decide

theorem witness_RefFailsInOrder :
    let s := emitted .lz [0x60#8, 0#8] [0x41#8] 9
    SpacesOk s ∧ s.str.op ≤ refDisp 1#12 ∧ refDisp 0#12 < s.str.op ∧ s.str.size < s.str.op + refLength 6#4 ∧
    s.cfg.overrunPolicy = .raises ∧ SpacesOk (clipping s) ∧ (clipping s).cfg.overrunPolicy = .clip ∧
    (clipping s).str.op ≤ (clipping s).str.size ∧ (clipping s).str.size ≤ capacity (clipping s) := by
  unfold SpacesOk; decide

theorem witness_RunRepeatsItsByte :
    let s := running .rle [0x83#8, 0x41#8] 6
    let t := running .rle [0x83#8, 0x41#8] 5
    SpacesOk s ∧ SpacesOk t ∧ s.str.op ≤ s.str.size ∧ s.str.size ≤ capacity s ∧ t.str.size ≤ capacity t ∧
    s.str.op + runCount 3#7 ≤ s.str.size ∧ t.str.size < t.str.op + runCount 3#7 ∧
    t.cfg.overrunPolicy = .raises ∧ (clipping t).cfg.overrunPolicy = .clip := by
  unfold SpacesOk; decide

theorem witness_CopyCopiesItsBytes :
    let s := running .rle [2#8, 0x10#8, 0x20#8, 0x30#8] 3
    let t := running .rle [2#8, 0x10#8, 0x20#8] 3
    let u := running .rle [2#8, 0x10#8] 2
    (SpacesOk s ∧ s.str.op ≤ s.str.size ∧ s.str.size ≤ capacity s ∧ s.str.limit ≤ s.cfg.inCap.toNat ∧
      s.str.op + copyCount 2#7 ≤ s.str.size ∧ s.str.ip + 1 + 3 ≤ s.str.limit) ∧
    (SpacesOk t ∧ t.str.op + copyCount 2#7 ≤ t.str.size ∧ t.str.limit < t.str.ip + 1 + 3) ∧
    (SpacesOk u ∧ u.str.size < u.str.op + copyCount 2#7 ∧ u.cfg.overrunPolicy = .raises ∧
      (clipping u).cfg.overrunPolicy = .clip) := by
  unfold SpacesOk; decide

theorem witness_HufTableLoads :
    let s := running .hufTable [1#8, 0xC0#8, 0x41#8, 0x42#8] 2
    SpacesOk s ∧ CanFetch 2 s ∧ s.str.ip + 2 + 2 * (1#8).toNat ≤ s.str.limit ∧
    s.str.limit < s.str.ip + 2 + 2 * (2#8).toNat := by
  unfold SpacesOk CanFetch; decide

theorem witness_HufStepTakesTheChild :
    let s := walk 8 0x80#8 [0x41#8, 0xC0#8] 4
    let t := walk 8 0x81#8 [0x41#8, 0xC0#8] 4
    s.huf.next + 2 * (s.huf.cur.toNat &&& 0x3F) + 2 - 2 + true.toNat < 2 * s.huf.tsize.toNat ∧
    2 * t.huf.tsize.toNat ≤ t.huf.next + 2 * (t.huf.cur.toNat &&& 0x3F) + 2 - 2 + false.toNat := by decide

theorem witness_HufLeaf8EmitsItsSymbol :
    SpacesOk (walk 8 0x80#8 [] 4) ∧ (walk 8 0x80#8 [] 4).str.op < capacity (walk 8 0x80#8 [] 4) := by
  unfold SpacesOk; decide

/-- A 4-bit walk with a nibble pending. -/
def halfByte : State :=
  let s := walk 4 0xC0#8 [0x01#8, 0x1F#8] 1
  { s with huf := { s.huf with nib := 1#4, nibv := true, need := 1 } }

theorem witness_HufLeaf4PacksNibbles :
    (walk 4 0xC0#8 [0x01#8, 0x1F#8] 1).huf.nibv = false ∧
    (halfByte.huf.nibv = true ∧ SpacesOk halfByte ∧ halfByte.str.op < capacity halfByte) ∧
    (let s := { halfByte with phase := .hufChild 1 true }
     s.bus = [] ∧ s.host.busy = true ∧ s.phase = .hufChild 1 true ∧ s.huf.depth = 4 ∧ 15 < (s.tbl.read 1).toNat) := by
  unfold SpacesOk; decide

theorem witness_CountFieldRoundTrip :
    4095 ≤ 4095 ∧ 1 ≤ 255 ∧ 255 < 256 ∧ 256 ≤ 4095 ∧ ∀ c ∈ [1, 16, 255, 256, 4095],
      c ∉ [257, 514, 515, 1028, 1029, 1030, 1031, 2056, 2057, 2058, 2059, 2060, 2061, 2062, 2063] := by decide

theorem witness_RecordIsInserted_find :
    lutFind 7#32 [{ key := 6#32, addr := 0, size := 1 }, { key := 7#32, addr := 2, size := 3 }] =
      some { key := 7#32, addr := 2, size := 3 } ∧
    lutFind 5#32 [{ key := 6#32, addr := 0, size := 1 }] = none := by decide

theorem witness_RecordIsInserted :
    let s := running .records (List.replicate 16 1#8) 0
    ((1#16).toNat ||| ((0#8).toNat <<< 16)) * 4 + s.xp.dataOff + ((12#16).toNat ||| ((0#8).toNat <<< 16)) ≤
      s.host.inLen.toNat ∧
    s.host.inLen.toNat <
      ((1#16).toNat ||| ((0#8).toNat <<< 16)) * 4 + s.xp.dataOff + ((13#16).toNat ||| ((0#8).toNat <<< 16)) := by decide

/-- The name table `61 00 00` in `SCR`, at name-table offset `p`, with `lut`. -/
def names (p : Nat) (lut : List LutEntry) : State :=
  let s := running (.lookup p) [0x11#8, 0x22#8] 0
  { s with scr := Memory.writeN [] 0 [0x61#8, 0#8, 0#8], xp := { s.xp with ntLen := 3 }, lut := lut }

/-- `Crc32("a")` (R236). -/
theorem witness_NamesAreLookedUp :
    (let s := names 0 [{ key := 0xE8B7BE43#32, addr := 0, size := 2 }]
     s.bus = [] ∧ s.host.busy = true ∧ s.phase = .lookup 0 ∧ 0 < s.xp.ntLen ∧
       lutFind (crc32 s.cfg (s.scr.readN 0 1)) s.lut = some { key := 0xE8B7BE43#32, addr := 0, size := 2 }) ∧
    (let s := names 0 []
     s.phase = .lookup 0 ∧ 0 < s.xp.ntLen ∧ lutFind (crc32 s.cfg (s.scr.readN 0 1)) s.lut = none) ∧
    (let s := names 2 []
     s.phase = .lookup 2 ∧ 2 < s.xp.ntLen ∧ s.scr.read 2 = 0#8) := by decide +kernel

/-- After the last name, with one member found. -/
def namesDone : State := { names 3 [] with found := [{ off := 0, len := 1, addr := 0, size := 2 }] }

theorem witness_ResultIsWritten :
    (namesDone.bus = [] ∧ namesDone.host.busy = true ∧ namesDone.phase = .lookup 3 ∧ namesDone.xp.ntLen ≤ 3 ∧
      SpacesOk namesDone ∧ namesDone.host.inLen.toNat ≤ namesDone.cfg.inCap.toNat) ∧
    (∀ f ∈ namesDone.found, f.len ≤ 65535) ∧
    (fileListBytes [([0x61#8], [0x11#8, 0x22#8])]).length ≤ (outCapped 13#32 namesDone).cfg.outCap.toNat ∧
    (outCapped 12#32 namesDone).cfg.outCap.toNat < (fileListBytes [([0x61#8], [0x11#8, 0x22#8])]).length ∧
    (let f : Found := { off := 0, len := 65536, addr := 0, size := 0 }
     let s : State := { namesDone with found := [{ off := 0, len := 1, addr := 0, size := 2 }, f] }
     s.found = [{ off := 0, len := 1, addr := 0, size := 2 }] ++ f :: [] ∧ 65535 < f.len ∧ s.phase = .lookup 3 ∧
       s.xp.ntLen ≤ 3) := by
  unfold SpacesOk; decide

theorem witness_FlsPacksAcceptedLists :
    SpacesOk (running .fls [] 0) ∧ refusedList State.resetConfig [] = some 0 ∧
    refusedList State.resetConfig [([0x78#8], [0x31#8])] = none ∧
    rangeFailure State.resetConfig (sortByName [([0x78#8], [0x31#8])]) = none ∧
    (packArchive State.resetConfig (sortByName [([0x78#8], [0x31#8])])).length = 68 ∧
    68 ≤ (outCapped 68#32 (running .fls [] 0)).cfg.outCap.toNat ∧
    (outCapped 67#32 (running .fls [] 0)).cfg.outCap.toNat < 68 ∧
    rangeFailure { State.resetConfig with scrCap := 1#32 } (sortByName [([0x78#8], [0x31#8])]) = some 2 := by
  unfold SpacesOk; decide +kernel

/-- Bytes that are no file list: the count cut, a byte left over, an entry's lengths cut (X28), a name and data cut. -/
theorem witness_FlsPacksAcceptedLists_malformed :
    (let s := running .fls [0#8, 0#8, 0#8] 0
     s.bus = [] ∧ s.host.busy = true ∧ s.phase = .fls ∧ s.host.inLen.toNat ≤ s.cfg.inCap.toNat ∧
       (s.inp.readN 0 s.host.inLen.toNat).length < 4) ∧
    (let s := running .fls [0#8, 0#8, 0#8, 0#8, 9#8] 0
     (Instr.fls []).wellFormed = true ∧
       s.inp.readN 0 s.host.inLen.toNat = le32 0#32 ++ [].flatMap memberBytes ++ [9#8] ∧ (0#32).toNat = 0) ∧
    (let s := running .fls [1#8, 0#8, 0#8, 0#8, 5#8, 0#8] 0
     s.inp.readN 0 s.host.inLen.toNat = le32 1#32 ++ [].flatMap memberBytes ++ [5#8, 0#8] ∧ 0 < (1#32).toNat) ∧
    (let s := running .fls [1#8, 0#8, 0#8, 0#8, 2#8, 0#8, 1#8, 0#8, 0#8, 0#8, 0x61#8] 0
     s.inp.readN 0 s.host.inLen.toNat = le32 1#32 ++ [].flatMap memberBytes ++ (le16 2#16 ++ le32 1#32 ++ [0x61#8]) ∧
       [0x61#8].length < (2#16).toNat) ∧
    (let s := running .fls [1#8, 0#8, 0#8, 0#8, 1#8, 0#8, 1#8, 0#8, 0#8, 0#8, 0x61#8] 0
     s.inp.readN 0 s.host.inLen.toNat = le32 1#32 ++ [].flatMap memberBytes ++ (le16 1#16 ++ le32 1#32 ++ [0x61#8]) ∧
       (1#16).toNat ≤ [0x61#8].length ∧ [0x61#8].length < (1#16).toNat + (1#32).toNat) := by decide

theorem witness_PackLayoutIsAligned :
    State.resetConfig.xpckHdrLen = 20 ∧ State.resetConfig.xpckHdrLen % 4 = 0 := by decide

/-- Two members, "b" before "a", and their archive. -/
def twoMembers : List Member := [([0x62#8], [2#8]), ([0x61#8], [1#8])]

theorem witness_PackedArchiveOpens_pack :
    (let s := idle (fileListBytes twoMembers) 0#32 0#32
     Ready s ∧ SpacesOk s ∧ (Instr.fls twoMembers).wellFormed = true ∧ refusedList s.cfg twoMembers = none ∧
       rangeFailure s.cfg (sortByName twoMembers) = none ∧ s.host.inLen.toNat = (fileListBytes twoMembers).length ∧
       s.inp.readN 0 s.host.inLen.toNat = fileListBytes twoMembers ∧
       (packArchive s.cfg (sortByName twoMembers)).length ≤ s.cfg.outCap.toNat) ∧
    (twoMembers.map fun m => crc32 State.resetConfig m.1).Nodup := by
  unfold Ready SpacesOk; decide +kernel

theorem witness_PackedArchiveOpens_open :
    let s := idle (packArchive State.resetConfig (sortByName twoMembers)) 0#32 0#32
    Ready s ∧ SpacesOk s ∧ s.host.inLen.toNat = (packArchive s.cfg (sortByName twoMembers)).length ∧
      s.inp.readN 0 s.host.inLen.toNat = packArchive s.cfg (sortByName twoMembers) ∧
      s.cfg.countDecode ≠ .mask12 ∧
      (fileListBytes ((sortByName twoMembers).map fun m => (m.1, pad16 m.2))).length ≤ s.cfg.outCap.toNat := by
  unfold Ready SpacesOk; decide +kernel

theorem witness_PackAcceptsExactlyMappings :
    ([] : List Member).length = 0 ∧ State.resetConfig.countDecode = .branchAware ∧ 257 ∈ [257, 514, 515, 1028, 1029, 1030, 1031, 2056, 2057, 2058, 2059, 2060, 2061, 2062, 2063] ∧
    (List.replicate 257 (([0x61#8], []) : Member)).length = 257 ∧
    (let pre : List Member := [([0x61#8], [])]
     (pre ++ ([0x61#8], [1#8]) :: [([], [])]).length ≤ 4095 ∧ 
       3 ∉ [257, 514, 515, 1028, 1029, 1030, 1031, 2056, 2057, 2058, 2059, 2060, 2061, 2062, 2063] ∧
       (∀ x ∈ pre, x.1 ≠ [] ∧ 0#8 ∉ x.1) ∧ (pre.map Prod.fst).Nodup ∧ [0x61#8] ∈ pre.map Prod.fst) :=
  ⟨rfl, rfl, by decide, List.length_replicate, by decide⟩

theorem pad16_length_of_mod {d : List Byte} (h : d.length % 16 = 0) : (pad16 d).length = d.length := by
  simp [pad16, h]

/-- One member whose data fits: the three checks on the members hold. -/
theorem member_checks_hold (n d : List Byte) (h : (pad16 d).length ≤ 0xFFFFFF) :
    (∀ v ∈ (dataOffsets 0 [(n, d)]).map (fun v => v / 4), v ≤ 0xFFFFFF) ∧
      (∀ v ∈ [((n, d) : Member)].map (fun m => (pad16 m.2).length), v ≤ 0xFFFFFF) ∧
      ∀ v ∈ nameOffsets 0 [(n, d)], v ≤ 0xFFFF := by
  simp [dataOffsets, nameOffsets, h]

theorem first_bad_offset (d : List Byte) (h : d.length = 67108864) :
    ((dataOffsets 0 [([0x61#8], d), ([0x62#8], [])]).map fun v => v / 4) = [0] ++ 16777216 :: [] := by
  simp [dataOffsets, pad16_length_of_mod, h]

theorem first_bad_length (d : List Byte) (h : d.length = 16777216) :
    (∀ v ∈ (dataOffsets 0 [([0x61#8], d)]).map (fun v => v / 4), v ≤ 0xFFFFFF) ∧
      ([(([0x61#8], d) : Member)].map fun m => (pad16 m.2).length) = [] ++ 16777216 :: [] := by
  simp [dataOffsets, pad16_length_of_mod, h]

theorem first_bad_name_offset (n : List Byte) (h : n.length = 65535) :
    (∀ v ∈ (dataOffsets 0 [(n, []), ([0x62#8], [])]).map (fun v => v / 4), v ≤ 0xFFFFFF) ∧
      (∀ v ∈ [((n, []) : Member), ([0x62#8], [])].map (fun m => (pad16 m.2).length), v ≤ 0xFFFFFF) ∧
      nameOffsets 0 [(n, []), ([0x62#8], [])] = [0] ++ 65536 :: [] := by
  simp [dataOffsets, nameOffsets, pad16, h]

/-- The first value above each bound of R269: a data offset, a padded length, a name offset. -/
theorem witness_PackAcceptsExactlyMappings_members :
    (((dataOffsets 0 [([0x61#8], List.replicate 67108864 0#8), ([0x62#8], [])]).map fun v => v / 4) =
      [0] ++ 16777216 :: []) ∧
    ((∀ v ∈ (dataOffsets 0 [([0x61#8], List.replicate 16777216 0#8)]).map (fun v => v / 4), v ≤ 0xFFFFFF) ∧
      ([(([0x61#8], List.replicate 16777216 0#8) : Member)].map fun m => (pad16 m.2).length) =
        [] ++ 16777216 :: []) ∧
    ((∀ v ∈ (dataOffsets 0 [(List.replicate 65535 0x61#8, []), ([0x62#8], [])]).map (fun v => v / 4),
        v ≤ 0xFFFFFF) ∧
      (∀ v ∈ [((List.replicate 65535 0x61#8, []) : Member), ([0x62#8], [])].map (fun m => (pad16 m.2).length),
        v ≤ 0xFFFFFF) ∧
      nameOffsets 0 [(List.replicate 65535 0x61#8, []), ([0x62#8], [])] = [0] ++ 65536 :: []) :=
  ⟨first_bad_offset _ List.length_replicate, first_bad_length _ List.length_replicate,
    first_bad_name_offset _ List.length_replicate⟩

theorem one_name_table_length (n : List Byte) :
    ([((n, []) : Member)].flatMap fun m => m.1 ++ [0#8]).length = n.length + 1 := by simp

/-- A name table above SCR_CAP, a header length of 18, and a DATA_OFF beyond 16 bits (by a long header). -/
theorem witness_PackAcceptsExactlyMappings_tables :
    (let ms : List Member := [([0x78#8], [0x31#8])]
     let long := { State.resetConfig with xpckHdrLen := 262144 }
     (∀ v ∈ (dataOffsets 0 ms).map (fun v => v / 4), v ≤ 0xFFFFFF) ∧
       (∀ v ∈ ms.map (fun m => (pad16 m.2).length), v ≤ 0xFFFFFF) ∧ (∀ v ∈ nameOffsets 0 ms, v ≤ 0xFFFF) ∧
       (1#32).toNat < (ms.flatMap fun m => m.1 ++ [0#8]).length ∧
       (ms.flatMap fun m => m.1 ++ [0#8]).length ≤ 0x1FFFFFFF ∧
       (ms.flatMap fun m => m.1 ++ [0#8]).length ≤ State.resetConfig.scrCap.toNat ∧ ¬18 % 4 = 0 ∧
       14 ≤ long.xpckHdrLen ∧ long.xpckHdrLen % 4 = 0 ∧ 0xFFFF < packDataOff long ms / 4) := by decide +kernel

/-- A name table above 2^29 - 1 bytes, of a member that passes the checks before that one. -/
theorem witness_PackAcceptsExactlyMappings_longTable :
    ((∀ v ∈ (dataOffsets 0 [(List.replicate 536870911 0x61#8, [])]).map (fun v => v / 4), v ≤ 0xFFFFFF) ∧
      (∀ v ∈ [((List.replicate 536870911 0x61#8, []) : Member)].map (fun m => (pad16 m.2).length),
        v ≤ 0xFFFFFF) ∧
      ∀ v ∈ nameOffsets 0 [(List.replicate 536870911 0x61#8, [])], v ≤ 0xFFFF) ∧
    ([((List.replicate 536870911 0x61#8, []) : Member)].flatMap fun m => m.1 ++ [0#8]).length = 536870911 + 1 ∧
      0x1FFFFFFF < 536870911 + 1 :=
  ⟨member_checks_hold _ _ (by decide), (one_name_table_length _).trans (congrArg (· + 1) List.length_replicate),
    by decide⟩

/-- `s` with the flag of the next LZ symbol taken, from a new flag byte where none is left (R171). -/
def flagTaken (s : State) : State :=
  let flags := if s.lz.fcnt = 0 then s.inp.read s.str.ip else s.lz.flags
  { s with
    str := { s.str with ip := if s.lz.fcnt = 0 then s.str.ip + 1 else s.str.ip }
    lz := { s.lz with flags := flags <<< 1, fcnt := if s.lz.fcnt = 0 then 7 else s.lz.fcnt - 1 } }

theorem witness_FetchIsAllOrNothing :
    let s := running .lz [0x18#8, 0x41#8] 4
    s.str.limit ≤ s.cfg.inCap.toNat ∧ s.str.limit < s.str.ip + 3 ∧ s.str.ip + 2 ≤ s.str.limit := by decide

/-- Each item cut: the flag byte, the literal, the token, the control byte, the data byte of a run, the table header, the
code word, the archive header, the record. -/
theorem witness_FetchIsAllOrNothing_steps :
    (let s := running .lz [] 4
     s.bus = [] ∧ s.host.busy = true ∧ s.str.limit ≤ s.cfg.inCap.toNat ∧ s.phase = .lz ∧ s.str.op < s.str.size ∧
       s.lz.fcnt = 0 ∧ s.str.limit < s.str.ip + 1) ∧
    (let s := running .lz [0#8] 4
     s.str.ip + 1 ≤ s.str.limit ∧
       s.str.limit < (flagTaken s).str.ip + (if (s.inp.read s.str.ip).getLsbD 7 then 2 else 1)) ∧
    (let s := running .lz [0x80#8, 0x30#8] 4
     s.str.ip + 1 ≤ s.str.limit ∧ (s.inp.read s.str.ip).getLsbD 7 = true ∧ s.str.limit < (flagTaken s).str.ip + 2) ∧
    (let s := running .rle [] 4
     s.phase = .rle ∧ s.str.op < s.str.size ∧ s.str.limit < s.str.ip + 1) ∧
    (let s := running .rle [0x83#8] 4
     s.str.ip + 1 = s.str.limit ∧ 128 ≤ (s.inp.read s.str.ip).toNat) ∧
    (let s := running .hufTable [2#8] 4
     s.phase = .hufTable ∧ s.str.limit < s.str.ip + 2) ∧
    (let s := { running .hufBit [1#8, 2#8, 3#8] 1 with huf := { State.reset.huf with need := 1 } }
     s.phase = .hufBit ∧ 0 < s.huf.need ∧ s.huf.bitCnt = 0 ∧ s.str.limit < s.str.ip + 4) ∧
    (let s := running .xph [0x58#8, 0x50#8, 0x43#8, 0x4B#8, 1#8] 0
     s.phase = .xph ∧ s.str.limit < s.str.ip + 10) ∧
    (let s := { running .records [1#8] 0 with xp := { State.reset.xp with cnt := 1 } }
     s.phase = .records ∧ s.xp.recIdx < s.xp.cnt ∧ s.str.limit < s.xp.infoOff + 12 * s.xp.recIdx + 12) := by decide

theorem witness_EmitAndBackAgree :
    SpacesOk (emitted .lz [] [0x41#8] 4) ∧ 0 < (emitted .lz [] [0x41#8] 4).str.op := by
  unfold SpacesOk; decide

theorem witness_StepRunsTheDecodedInstruction_host :
    (withCommand 3#32 State.reset).bus = .writeReg 0 3#32 :: [] ∧ decode .cmd (le32 3#32) = .ok (.decompress, []) ∧
    (let s := running .header [0x34#8, 0#8, 0#8, 0#8] 0
     s.bus = [] ∧ s.host.busy = true ∧ s.phase = .header ∧ s.str.base + 4 ≤ s.str.limit ∧ CanFetch 4 s ∧
       decode .hdr (s.inp.readN s.str.ip 4) = .ok (.rle 6#29, [])) ∧
    (let s := running .zlibMagic [0x78#8] 0
     s.phase = .zlibMagic ∧ CanFetch 1 s ∧ decode .zlibMagic (s.inp.readN s.str.ip 1) = .ok (.zlibMagic, [])) :=
  ⟨rfl, rfl, ⟨rfl, rfl, rfl, by decide, by unfold CanFetch; decide, rfl⟩, rfl, by unfold CanFetch; decide, rfl⟩

theorem witness_StepRunsTheDecodedInstruction_symbols :
    (let s := running .lz [0x80#8, 0x30#8, 0x05#8] 8
     s.phase = .lz ∧ s.str.op < s.str.size ∧ CanFetch 1 s ∧ (s.inp.read s.str.ip).getLsbD 7 = true ∧
       CanFetch 2 (flagTaken s) ∧
       decode .lzg (1#8 :: s.inp.readN (flagTaken s).str.ip 2) = .ok (.ref 3#4 5#12, [])) ∧
    (let s := running .lz [0#8, 0x41#8] 8
     (s.inp.read s.str.ip).getLsbD 7 = false ∧ CanFetch 1 (flagTaken s) ∧
       decode .lzg (0#8 :: s.inp.readN (flagTaken s).str.ip 1) = .ok (.lit 0x41#8, [])) ∧
    (let s := running .rle [0x83#8, 0x41#8] 8
     s.phase = .rle ∧ s.str.op < s.str.size ∧ ¬(s.inp.read s.str.ip).toNat < 128 ∧ CanFetch 2 s ∧
       decode .rlc (s.inp.readN s.str.ip 2) = .ok (.run 3#7 0x41#8, [])) ∧
    (let s := running .rle [0x7F#8] 8
     (s.inp.read s.str.ip).toNat < 128 ∧ CanFetch 1 s ∧ decode .rlc (s.inp.readN s.str.ip 1) = .ok (.copy 127#7, [])) :=
  ⟨⟨rfl, by decide, by unfold CanFetch; decide, by decide, by unfold CanFetch; decide, rfl⟩,
    ⟨by decide, by unfold CanFetch; decide, rfl⟩, ⟨rfl, by decide, by decide, by unfold CanFetch; decide, rfl⟩,
    by decide, by unfold CanFetch; decide, rfl⟩

theorem witness_StepRunsTheDecodedInstruction_huffman :
    (let s := running .hufTable [2#8, 0x80#8] 0
     s.phase = .hufTable ∧ CanFetch 2 s ∧ decode .hufTable (s.inp.readN s.str.ip 2) = .ok (.hufTable 2#8 0x80#8, [])) ∧
    (let s := { running .hufBit [0x58#8, 0#8, 0#8, 0#8] 1 with huf := { State.reset.huf with need := 1 } }
     s.phase = .hufBit ∧ 0 < s.huf.need ∧ s.huf.bitCnt = 0 ∧ CanFetch 4 s ∧
       decode (.hufWord s.cfg.hufWordOrder) (s.inp.readN s.str.ip 4) = .ok (.hufWord 0x58000000#32, [])) ∧
    (let s := walk 8 0x80#8 [] 1
     s.phase = .hufBit ∧ 0 < s.huf.need ∧ 0 < s.huf.bitCnt ∧
       decode .hufBit [if s.huf.code.getLsbD 31 then 1#8 else 0#8] = .ok (.hufStep0, [])) ∧
    (let s := { walk 8 0x80#8 [0x41#8, 0xC0#8] 1 with phase := .hufChild 1 false }
     s.phase = .hufChild 1 false ∧ decode .hufNode (s.tbl.readN 1 1) = .ok (.hufNode true true 0#6, []) ∧
       decode .hufLeaf8 (s.tbl.readN 0 1) = .ok (.hufLeaf8 0x41#8, [])) :=
  ⟨⟨rfl, by unfold CanFetch; decide, rfl⟩, ⟨rfl, by decide, rfl, by unfold CanFetch; decide, rfl⟩,
    ⟨rfl, by decide, by decide, rfl⟩, rfl, rfl, rfl⟩

/-- An archive header with one record of zeros at address 16. -/
def archive (ph : Phase) : State :=
  let s := running ph ([0x58#8, 0x50#8, 0x43#8, 0x4B#8, 1#8, 1#8, 4#8, 0#8, 7#8, 0#8, 7#8, 0#8, 3#8, 0#8] ++
    List.replicate 16 0#8) 0
  { s with str := { s.str with ip := 4 }, xp := { s.xp with cnt := 1, infoOff := 16 } }

theorem witness_StepRunsTheDecodedInstruction_archive :
    (let s := archive .xpckMagic
     s.phase = .xpckMagic ∧ 4 ≤ s.host.inLen.toNat ∧ s.host.inLen.toNat ≤ s.cfg.inCap.toNat ∧
       decode .xpckMagic (s.inp.readN 0 4) = .ok (.xpckMagic, [])) ∧
    (let s := archive .xph
     s.phase = .xph ∧ CanFetch 10 s ∧ decode .xphOpen (s.inp.readN 0 4 ++ s.inp.readN s.str.ip 10) =
       .ok (.xph 0x0101#16 4#16 7#16 7#16 3#16 0#16 0#32, [])) ∧
    (let s := archive .countField
     s.phase = .countField ∧ decode .countField (s.inp.readN 4 2) = .ok (.countField 1#8 1#8, [])) ∧
    (let s := archive .records
     let u := { s with str := { s.str with ip := s.xp.infoOff + 12 * s.xp.recIdx } }
     s.phase = .records ∧ s.xp.recIdx < s.xp.cnt ∧ CanFetch 12 u ∧
       decode .xpr (s.inp.readN u.str.ip 12) = .ok (.xpr 0#32 0#16 0#16 0#16 0#8 0#8, [])) ∧
    decode .rpt (le32 5#32 ++ le32 7#32 ++ le32 0#32 ++ le32 1#32) = .ok (.rptEntry 7#32 0#32 1#32, []) ∧
    (let s := running .fls [0#8, 0#8, 0#8, 0#8] 0
     s.phase = .fls ∧ s.host.inLen.toNat ≤ s.cfg.inCap.toNat ∧
       decode .fls (s.inp.readN 0 s.host.inLen.toNat) = .ok (.fls [], [])) :=
  ⟨⟨rfl, by decide, by decide, rfl⟩, ⟨rfl, by unfold CanFetch; decide, rfl⟩, ⟨rfl, rfl⟩,
    ⟨rfl, by decide, by unfold CanFetch; decide, rfl⟩, rfl, rfl, by decide, rfl⟩

theorem witness_UnitsEndWhereTheirRulesSay :
    (let s := emitted .lz [] [0x41#8] 1
     s.bus = [] ∧ s.host.busy = true ∧ s.phase = .lz ∧ s.str.size ≤ s.str.op ∧ s.str.dst = false) ∧
    (let s := running .rle [] 0
     s.phase = .rle ∧ s.str.size ≤ s.str.op ∧ s.str.dst = false) ∧
    (let s := running .hufBit [] 0
     s.phase = .hufBit ∧ s.huf.need = 0 ∧ s.str.dst = false) ∧
    (let s := { running .finish [] 0 with str := { State.reset.str with dst := true } }
     s.bus = [] ∧ s.host.busy = true ∧ s.phase = .finish ∧ s.str.dst = true) := by decide

/-- After a command that ended with one output byte and one report. -/
def ended (bus : List HostReq) : State :=
  { State.reset with
    host := { State.reset.host with done := true, outLen := 1#32, rptFlag := true, rptCnt := 1#32 }
    out := [(0, 0x41#8)]
    rpt := [{ code := 5#32, crc := 1#32, off := 2#32, len := 3#32 }]
    bus := bus }

theorem witness_UnitsEndWhereTheirRulesSay_idle : (ended []).bus = [] ∧ (ended []).host.busy = false := by decide

/-- After the last record: the offsets out of order, the data beyond the input, and neither. -/
theorem witness_UnitsEndWhereTheirRulesSay_records :
    let s := fun n d => { running .records [1#8, 2#8] 0 with xp := { State.reset.xp with nameOff := n, dataOff := d } }
    ((s 1 0).bus = [] ∧ (s 1 0).host.busy = true ∧ (s 1 0).phase = .records ∧ (s 1 0).xp.cnt ≤ (s 1 0).xp.recIdx ∧
      (s 1 0).xp.dataOff < (s 1 0).xp.nameOff) ∧
    ((s 1 3).xp.nameOff ≤ (s 1 3).xp.dataOff ∧ (s 1 3).host.inLen.toNat < (s 1 3).xp.dataOff) ∧
    ((s 1 2).xp.nameOff ≤ (s 1 2).xp.dataOff ∧ (s 1 2).xp.dataOff ≤ (s 1 2).host.inLen.toNat) := by decide

theorem witness_HostRegisterAccess :
    (let s := { idle [] 0#32 0#32 with bus := [.writeReg 0x1C 9#32] }
     s.host.busy = false ∧ s.bus = .writeReg 0x1C 9#32 :: []) ∧
    (let s := { running .lz [] 1 with bus := [.writeReg 0x28 9#32] }
     s.host.busy = true ∧ s.bus = .writeReg 0x28 9#32 :: [] ∧
       0x28 ∈ [0x00, 0x04, 0x08, 0x0C, 0x10, 0x14, 0x18, 0x1C, 0x20, 0x24, 0x28]) ∧
    (let s := { running .lz [] 1 with bus := [.readReg 0x08] }
     s.host.busy = true ∧ s.bus = .readReg 0x08 :: []) ∧
    0x2C ∉ [0x00, 0x04, 0x08, 0x0C, 0x10, 0x14, 0x18, 0x1C, 0x20, 0x24, 0x28] := by decide

/-- A poll with BUSY = 0, a poll and a pass while the core runs. -/
theorem witness_HostRegisterAccess_poll :
    (let s := { idle [] 0#32 0#32 with bus := [.poll] }
     s.bus = .poll :: [] ∧ s.host.busy = false) ∧
    (let s := { running .lz [0#8, 0x41#8] 1 with bus := [.poll, .pass] }
     s.bus = .poll :: [.pass] ∧ s.host.busy = true ∧ (nextOf (step { s with bus := [] })).isSome = true) ∧
    (let s := { running .lz [0#8, 0x41#8] 1 with bus := [.pass] }
     s.bus = .pass :: [] ∧ (nextOf (step { s with bus := [] })).isSome = true) := by decide

theorem witness_HostBufferAccess :
    (let s := ended [.readOut 0]
     SpacesOk s ∧ 0 < s.cfg.outCap.toNat ∧ s.bus = .readOut 0 :: [] ∧ s.host.busy = false ∧ s.host.done = true ∧
       s.host.err = false ∧ 0 < s.host.outLen.toNat ∧ s.host.outLen.toNat ≤ 1) ∧
    (let s := ended [.readRpt 0 3]
     s.rpt[0]? = some { code := 5#32, crc := 1#32, off := 2#32, len := 3#32 } ∧ s.bus = .readRpt 0 3 :: [] ∧
       s.rpt.length ≤ 1) ∧
    (let s := { running .rle [] 1 with bus := [.writeIn 0 1#8] }
     SpacesOk s ∧ 0 < s.cfg.inCap.toNat ∧ s.bus = .writeIn 0 1#8 :: [] ∧ s.host.busy = true) ∧
    (let s := { idle [5#8] 0#32 0#32 with bus := [.readIn 4294967294] }
     4294967294 < s.cfg.inCap.toNat ∧ s.bus = .readIn 4294967294 :: [] ∧ s.host.busy = false ∧
       s.inp.written 4294967294 = none ∧ s.inp.written 0 = some 5#8 ∧ s.cfg.inCap.toNat ≤ 4294967295 ∧
       s.cfg.outCap.toNat ≤ 4294967295) := by
  unfold SpacesOk; decide

theorem witness_ResetValues : 4294967294 < State.reset.cfg.outCap.toNat := by decide

theorem witness_ResetAbandonsTheCommand :
    ({ running .lz [0x18#8] 4 with bus := [.reset] } : State).bus = .reset :: [] := by decide

/-- In the LZ loop: one byte out, a reference next. -/
def midLz : State :=
  let s := emitted .lz [0x40#8, 0x41#8, 0x60#8, 0#8] [0x41#8] 10
  { s with str := { s.str with ip := 2 }, lz := { s.lz with flags := 0x80#8, fcnt := 7 } }

/-- A flag is left: the symbol follows without a flag byte, and with one byte fewer it is cut. -/
theorem witness_StepRunsTheDecodedInstruction_flagLeft :
    (let s := midLz
     s.bus = [] ∧ s.host.busy = true ∧ s.phase = .lz ∧ s.str.op < s.str.size ∧ s.lz.fcnt ≠ 0 ∧
       s.lz.flags.getLsbD 7 = true ∧ CanFetch 2 (flagTaken s) ∧
       decode .lzg (1#8 :: s.inp.readN (flagTaken s).str.ip 2) = .ok (.ref 6#4 0#12, [])) ∧
    (let s := { midLz with str := { midLz.str with limit := 3 } }
     s.lz.fcnt ≠ 0 ∧ s.lz.flags.getLsbD 7 = true ∧ s.str.limit < (flagTaken s).str.ip + 2) :=
  ⟨⟨by decide, by decide, by decide, by decide, by decide, by decide, by unfold CanFetch; decide, rfl⟩, by decide⟩

/-- A state that satisfies the invariant, and the step from it. -/
theorem witness_StepKeepsStateOk : StateOk midLz ∧ (nextOf (step midLz)).isSome = true := by
  refine ⟨⟨by unfold HostOk; decide, by unfold SpacesOk; decide, by unfold WidthOk; decide, fun _ =>
    ⟨by unfold StreamOk; decide, by unfold LutOk; decide, ?_⟩⟩, by decide⟩
  show DecoderOk midLz ∧ midLz.str.op ≤ midLz.str.size ∧ midLz.str.size ≤ capacity midLz
  unfold DecoderOk WholeInput NoNamesYet
  decide

/-- The two ways of stopping, from states that satisfy the invariant. -/
theorem witness_OnlyHostAccessesStop :
    StateOk (ended [.readReg 0x2C]) ∧ (nextOf (step (ended [.readReg 0x2C]))).isSome = false ∧
    StateOk (ended [.readOut 1]) ∧ (nextOf (step (ended [.readOut 1]))).isSome = false ∧
    StateOk (ended [.poll]) ∧ (ended [.poll]).bus = .poll :: [] := by
  unfold StateOk HostOk SpacesOk WidthOk
  refine ⟨⟨by decide, by decide, by decide, fun h => ?_⟩, by decide, ⟨by decide, by decide, by decide, fun h => ?_⟩,
    by decide, ⟨by decide, by decide, by decide, fun h => ?_⟩, rfl⟩ <;> exact absurd h (by decide)

theorem witness_EveryCommandEnds : StateOk midLz ∧ midLz.bus = [] ∧ midLz.host.busy = true :=
  ⟨witness_StepKeepsStateOk.1, rfl, rfl⟩

theorem witness_NoInstructionWritesTheHostSide :
    (nextOf (exec (.ref 6#4 0#12) midLz)).isSome = true := by decide

/-- A fresh machine and one that has ended a command, with the same inputs. -/
theorem witness_SameInputsSameResult :
    StateOk (ended []) ∧ StateOk (idle [] 0#32 0#32) ∧ (ended []).host.busy = false ∧
    (idle [] 0#32 0#32).host.busy = false ∧ SameInputs (ended []) (idle [] 0#32 0#32) ∧
    ({ ended [] with freeCtr := 9 } : State).freeCtr ≠ (idle [] 0#32 0#32).freeCtr ∧
    (nextOf (runSteps 1 (withCommand 0#32 (ended [])))).isSome = true := by
  unfold StateOk HostOk SpacesOk WidthOk
  refine ⟨⟨by decide, by decide, by decide, fun h => absurd h (by decide)⟩,
    ⟨by decide, by decide, by decide, fun h => absurd h (by decide)⟩, rfl, rfl,
    ⟨rfl, rfl, rfl, rfl, fun a h => absurd h (Nat.not_lt_zero a)⟩, by decide, by decide⟩

end Sys2Proof.Tests
end

section
/-! SUPPORT. Rules for outcomes: what every next state of an outcome satisfies (`Ensures`), and how the outcomes of two
states compare (`Matches`). One rule per way the model builds an outcome, so that a fact about all instructions is a
walk along the branches of each. -/

namespace Sys2Proof.Machine

/-! ## One outcome -/

/-- Every next state of the outcome satisfies `P`; a fault and a refusal have none. -/
def Ensures (P : State → Prop) : Outcome → Prop
  | .next t => P t
  | .fault _ => True
  | .refused _ => True

theorem Ensures.of_eq {P : State → Prop} {o : Outcome} {t : State} (h : Ensures P o) (ho : o = .next t) : P t := by
  subst ho; exact h

theorem Ensures.ite {P : State → Prop} {c : Prop} [Decidable c] {a b : Outcome} (ha : c → Ensures P a)
    (hb : ¬c → Ensures P b) : Ensures P (if c then a else b) := by
  by_cases h : c
  · rw [if_pos h]; exact ha h
  · rw [if_neg h]; exact hb h

/-- A branch between two next states. -/
theorem ite_of {P : State → Prop} {c : Prop} [Decidable c] {a b : State} (ha : c → P a) (hb : ¬c → P b) :
    P (if c then a else b) := by
  by_cases h : c
  · rw [if_pos h]; exact ha h
  · rw [if_neg h]; exact hb h

theorem ensures_startCommand {P : State → Prop} {body : State → Outcome} {s : State} (hbusy : s.host.busy = true → P s)
    (hcap : s.host.busy = false → s.cfg.inCap.toNat < s.host.inLen.toNat →
      P (raise .badArgument s.host.inLen.toNat (prologue s)))
    (hbody : s.host.busy = false → s.host.inLen.toNat ≤ s.cfg.inCap.toNat → Ensures P (body (prologue s))) :
    Ensures P (startCommand body s) := by
  rcases startCommand_cases body s with ⟨hb, ho⟩ | ⟨hb, hc, ho⟩ | ⟨hb, hc, ho⟩ <;> rw [ho]
  · exact hbusy hb
  · exact hcap hb hc
  · exact hbody hb hc

theorem ensures_fetch {P : State → Prop} {n : Nat} {s : State} {k : List Byte → State → Outcome}
    (hstop : P (raise .truncatedStream s.str.ip s))
    (hk : s.str.ip + n ≤ s.str.limit → Ensures P (k (bytesAtIp n s) (advanceIp n s))) : Ensures P (fetch n s k) := by
  unfold fetch
  rcases fetchStop_cases n s with ⟨_, ho⟩ | ⟨_, _, ho⟩ | ⟨hl, _, ho⟩ <;> rw [ho]
  · exact hstop
  · trivial
  · exact hk hl

theorem ensures_withRoom {P : State → Prop} {n : Nat} {s k : State} (hk : s.str.op + n ≤ capacity s → P k) :
    Ensures P (withRoom n s k) := by
  rcases withRoom_cases n s k with ⟨h, ho⟩ | ⟨_, ho⟩ <;> rw [ho]
  · exact hk h
  · trivial

end Sys2Proof.Machine
end

section
/-! SUPPORT. The output operations in closed form, the commands by their bodies, and what each format's decoder can
answer. -/

namespace Sys2Proof.Machine

/-! ## Emit (R63) in closed form -/

/-- `Emit` of several bytes as one update: the bytes in the destination at `OP` on, and `OP` past them. -/
theorem emitAll_eq (bs : List Byte) (s : State) :
    emitAll bs s =
      { s with
        out := if s.str.dst then s.out else s.out.writeN s.str.op bs
        scr := if s.str.dst then s.scr.writeN s.str.op bs else s.scr
        str := { s.str with op := s.str.op + bs.length } } := by
  induction bs generalizing s with
  | nil => simp [emitAll, Memory.writeN]
  | cons b bs ih =>
    rw [emitAll, ih]
    by_cases h : s.str.dst = true <;> simp [emit, h, Memory.writeN, Nat.add_comm 1, Nat.add_assoc]

/-- `Emit` of one byte is `Emit` of a list of one. -/
theorem emit_eq_emitAll (b : Byte) (s : State) : emit b s = emitAll [b] s := rfl

/-- A copy of `n` earlier bytes of the output (R173) emits some `n` bytes. -/
theorem copyBack_eq_emitAll (d n : Nat) (s : State) : ∃ bs, bs.length = n ∧ copyBack d n s = emitAll bs s := by
  induction n generalizing s with
  | zero => exact ⟨[], rfl, rfl⟩
  | succ n ih =>
    obtain ⟨bs, hlen, hcopy⟩ := ih (emit (back d s) s)
    exact ⟨back d s :: bs, by rw [List.length_cons, hlen], hcopy⟩

/-- The payload of `STORE` and `ZLIB` as one update (R151, R156). -/
theorem payloadOut_eq (bs : List Byte) (s : State) :
    payloadOut bs s =
      { s with
        out := if s.str.dst then s.out else s.out.writeN 0 bs
        scr := if s.str.dst then s.scr.writeN 0 bs else s.scr
        str := { s.str with op := bs.length, ip := s.str.limit }
        phase := .finish } := by
  simp [payloadOut, emitAll_eq]

/-! ## Commands (R91, R130) -/

/-- The reserved `CMD` codes (R134). -/
def reservedInstrs : List Instr := [.cmdReserved11, .cmdReserved12, .cmdReserved13, .cmdReserved14, .cmdReserved15]

/-- The rule a command's start runs after the prologue (R130). -/
def commandBody : Instr → State → Outcome
  | .decHdr => decHdrBody
  | .encHdr => encHdrBody
  | .decompress => fun p => .next (dispatchEnter p)
  | .lzDec => lzDecBody
  | .hufDec => hufDecBody
  | .rleDec => rleStream
  | .lzEnc => lzEncBody
  | .crc32 => crc32Body
  | .xpckOpen => fun p => .next { p with phase := .xpckMagic }
  | .xpckPack => fun p => .next { p with phase := .fls }
  | _ => fun p => .next (endCommand p)

/-- Every command is a reserved code, or runs its body after the common start. -/
theorem exec_command {i : Instr} (hf : fmtOf .big i = .cmd) :
    (i ∈ reservedInstrs ∧ ∃ v, ∀ s, exec i s = .next (reservedCommand v s)) ∨
    (i ∉ reservedInstrs ∧ ∀ s, exec i s = startCommand (commandBody i) s) := by
  cases i with
  | cmdReserved11 => exact .inl ⟨by decide, _, fun _ => rfl⟩
  | cmdReserved12 => exact .inl ⟨by decide, _, fun _ => rfl⟩
  | cmdReserved13 => exact .inl ⟨by decide, _, fun _ => rfl⟩
  | cmdReserved14 => exact .inl ⟨by decide, _, fun _ => rfl⟩
  | cmdReserved15 => exact .inl ⟨by decide, _, fun _ => rfl⟩
  | nop => exact .inr ⟨by decide, fun _ => rfl⟩
  | decHdr => exact .inr ⟨by decide, fun _ => rfl⟩
  | encHdr => exact .inr ⟨by decide, fun _ => rfl⟩
  | decompress => exact .inr ⟨by decide, fun _ => rfl⟩
  | lzDec => exact .inr ⟨by decide, fun _ => rfl⟩
  | hufDec => exact .inr ⟨by decide, fun _ => rfl⟩
  | rleDec => exact .inr ⟨by decide, fun _ => rfl⟩
  | lzEnc => exact .inr ⟨by decide, fun _ => rfl⟩
  | crc32 => exact .inr ⟨by decide, fun _ => rfl⟩
  | xpckOpen => exact .inr ⟨by decide, fun _ => rfl⟩
  | xpckPack => exact .inr ⟨by decide, fun _ => rfl⟩
  | _ => exact absurd hf (by simp [fmtOf])

/-- A property of every command body is a property of what a start runs: it is enough to look at the eleven rules. -/
theorem commandBody_cases {Q : (State → Outcome) → Prop} (hend : Q fun p => .next (endCommand p))
    (hdec : Q decHdrBody) (henc : Q encHdrBody) (hdisp : Q fun p => .next (dispatchEnter p)) (hlz : Q lzDecBody)
    (hhuf : Q hufDecBody) (hrle : Q rleStream) (hlzEnc : Q lzEncBody) (hcrc : Q crc32Body)
    (hopen : Q fun p => .next { p with phase := .xpckMagic }) (hpack : Q fun p => .next { p with phase := .fls })
    (i : Instr) : Q (commandBody i) := by
  cases i with
  | decHdr => exact hdec
  | encHdr => exact henc
  | decompress => exact hdisp
  | lzDec => exact hlz
  | hufDec => exact hhuf
  | rleDec => exact hrle
  | lzEnc => exact hlzEnc
  | crc32 => exact hcrc
  | xpckOpen => exact hopen
  | xpckPack => exact hpack
  | _ => exact hend

/-! ## What the decoder answers (R90 to R117) -/

theorem fmtOf_commandOf {v : Word} {i : Instr} (h : commandOf v = some i) : fmtOf .big i = .cmd := by
  unfold commandOf at h
  split at h <;> cases h <;> rfl

theorem decode_cmd {bs rest : List Byte} {i : Instr} (h : decode .cmd bs = .ok (i, rest)) : fmtOf .big i = .cmd := by
  unfold decode at h
  simp only at h
  split at h
  · split at h
    · cases h; exact fmtOf_commandOf ‹_›
    · cases h
  · cases h

theorem decode_hdr {bs rest : List Byte} {i : Instr} (h : decode .hdr bs = .ok (i, rest)) :
    ∃ m z, i = headerInstr m z := by
  unfold decode at h
  simp only at h
  split at h <;> cases h
  exact ⟨_, _, rfl⟩

/-- The eight methods of a header (R93). -/
theorem headerInstr_cases {Q : Instr → Prop} (z : BitVec 29) (h0 : Q (.store z)) (h1 : Q (.lz z)) (h2 : Q (.huf4 z))
    (h3 : Q (.huf8 z)) (h4 : Q (.rle z)) (h5 : Q (.zlib z)) (h6 : Q (.method6 z)) (h7 : Q (.method7 z))
    (m : BitVec 3) : Q (headerInstr m z) := by
  unfold headerInstr
  split <;> assumption

/-- A clear flag stands before a literal (R95). -/
theorem decode_lzg_clear {bs rest : List Byte} {i : Instr} (h : decode .lzg (0#8 :: bs) = .ok (i, rest)) :
    ∃ b, i = .lit b := by
  unfold decode at h
  simp only [if_true] at h
  split at h <;> cases h
  exact ⟨_, rfl⟩

/-- A set flag stands before a back-reference (R95). -/
theorem decode_lzg_set {bs rest : List Byte} {i : Instr} (h : decode .lzg (1#8 :: bs) = .ok (i, rest)) :
    ∃ l d, i = .ref l d := by
  unfold decode at h
  simp only [if_neg (show ¬(1#8 = 0#8) by decide), if_true] at h
  split at h <;> cases h
  exact ⟨_, _, rfl⟩

theorem decode_rlc {bs rest : List Byte} {i : Instr} (h : decode .rlc bs = .ok (i, rest)) :
    (∃ n v, i = .run n v) ∨ ∃ n, i = .copy n := by
  unfold decode at h
  simp only at h
  split at h
  · split at h
    · split at h <;> cases h
      exact .inl ⟨_, _, rfl⟩
    · cases h; exact .inr ⟨_, rfl⟩
  · cases h

/-- A control byte with bit 7 clear stands before a literal run (R104). -/
theorem decode_rlc_copy {bs rest : List Byte} {i : Instr} (h : decode .rlc bs = .ok (i, rest))
    (hc : (bs.headD 0#8).getLsbD 7 = false) : ∃ n, i = .copy n := by
  unfold decode at h
  simp only at h
  split at h
  · rw [List.headD_cons] at hc
    rw [if_neg (by rw [hc]; exact Bool.false_ne_true)] at h
    cases h; exact ⟨_, rfl⟩
  · cases h

theorem takeBytes_eq {n : Nat} {bs name rest : List Byte} (h : takeBytes n bs = some (name, rest)) :
    name ++ rest = bs := by
  unfold takeBytes at h
  split at h
  · cases h; exact List.take_append_drop n bs
  · cases h

theorem decode_hufTable {bs rest : List Byte} {i : Instr} (h : decode .hufTable bs = .ok (i, rest)) :
    ∃ t r, i = .hufTable t r := by
  unfold decode at h
  simp only at h
  split at h <;> cases h
  exact ⟨_, _, rfl⟩

theorem decode_hufNode {bs rest : List Byte} {i : Instr} (h : decode .hufNode bs = .ok (i, rest)) :
    ∃ l r o, i = .hufNode l r o := by
  unfold decode at h
  simp only at h
  split at h <;> cases h
  exact ⟨_, _, _, rfl⟩

theorem decode_hufBit {bs rest : List Byte} {i : Instr} (h : decode .hufBit bs = .ok (i, rest)) :
    i = .hufStep0 ∨ i = .hufStep1 := by
  unfold decode at h
  simp only at h
  split at h
  · split at h
    · cases h; exact .inl rfl
    · split at h <;> cases h
      exact .inr rfl
  · cases h

theorem decode_hufLeaf8 {bs rest : List Byte} {i : Instr} (h : decode .hufLeaf8 bs = .ok (i, rest)) :
    ∃ b, i = .hufLeaf8 b := by
  unfold decode at h
  simp only at h
  split at h <;> cases h
  exact ⟨_, rfl⟩

theorem decode_hufLeaf4 {bs rest : List Byte} {i : Instr} (h : decode .hufLeaf4 bs = .ok (i, rest)) :
    ∃ b, i = .hufLeaf4 b := by
  unfold decode at h
  simp only at h
  split at h
  · split at h <;> cases h
    exact ⟨_, rfl⟩
  · cases h

theorem decode_hufWord {o : WordOrder} {bs rest : List Byte} {i : Instr}
    (h : decode (.hufWord o) bs = .ok (i, rest)) : ∃ c, i = .hufWord c := by
  unfold decode at h
  simp only at h
  split at h <;> cases h
  exact ⟨_, rfl⟩

theorem decode_zlibMagic {bs rest : List Byte} {i : Instr} (h : decode .zlibMagic bs = .ok (i, rest)) :
    i = .zlibMagic := by
  unfold decode at h
  simp only at h
  split at h
  · split at h <;> cases h
    rfl
  · cases h

theorem decode_xpckMagic {bs rest : List Byte} {i : Instr} (h : decode .xpckMagic bs = .ok (i, rest)) :
    i = .xpckMagic := by
  unfold decode at h
  simp only at h
  split at h
  · split at h <;> cases h
    rfl
  · cases h

theorem decode_xphOpen {bs rest : List Byte} {i : Instr} (h : decode .xphOpen bs = .ok (i, rest)) :
    ∃ c io no d f, i = .xph c io no d f 0#16 0#32 := by
  unfold decode at h
  simp only at h
  split at h
  · split at h <;> cases h
    exact ⟨_, _, _, _, _, rfl⟩
  · cases h

theorem decode_xpr {bs rest : List Byte} {i : Instr} (h : decode .xpr bs = .ok (i, rest)) :
    ∃ c n ol sl oh sh, i = .xpr c n ol sl oh sh := by
  unfold decode at h
  simp only at h
  split at h <;> cases h
  exact ⟨_, _, _, _, _, _, rfl⟩

theorem decode_countField {bs rest : List Byte} {i : Instr} (h : decode .countField bs = .ok (i, rest)) :
    ∃ f1 f2, i = .countField f1 f2 := by
  unfold decode at h
  simp only at h
  split at h <;> cases h
  exact ⟨_, _, rfl⟩

theorem decode_fls {bs rest : List Byte} {i : Instr} (h : decode .fls bs = .ok (i, rest)) : ∃ ms, i = .fls ms := by
  unfold decode at h
  simp only at h
  split at h <;> cases h
  exact ⟨_, rfl⟩

end Sys2Proof.Machine
end

section
/-! SUPPORT. Equations that name what the model's matches continue with, so that each continuation is analysed once. -/

namespace Sys2Proof.Machine

/-! ## Symbols that stand for several bytes (R173, R222, R223) -/

/-- The failure where the overrun check accepts no count, else what follows with the count. -/
def onAccepted (o : Option Nat) (r : State) (k : Nat → Outcome) : Outcome :=
  match o with
  | none => .next r
  | some n => k n

theorem ensures_onAccepted {P : State → Prop} {o : Option Nat} {r : State} {k : Nat → Outcome} (hr : P r)
    (hk : ∀ n, o = some n → Ensures P (k n)) : Ensures P (onAccepted o r k) := by
  cases o with
  | none => exact hr
  | some n => exact hk n rfl

theorem execRef_eq (l : BitVec 4) (d : BitVec 12) (s : State) :
    execRef l d s =
      let t := advanceIp 2 { s with lz := { s.lz with len := refLength l, disp := refDisp d } }
      if s.str.op ≤ refDisp d then .next (raise .invalidStream s.str.ip t)
      else
        onAccepted (acceptedCount s.cfg.overrunPolicy s.str.op (refLength l) s.str.size)
          (raise .malformedHeader s.str.ip t)
          fun n => withRoom n s (copyBack (refDisp d) n { t with lz := { t.lz with len := n } }) := rfl

theorem execRun_eq (n3 : BitVec 7) (v : Byte) (s : State) :
    execRun n3 v s =
      let t := advanceIp 2 { s with rle := { ctl := runControl n3, count := runCount n3 } }
      onAccepted (acceptedCount s.cfg.overrunPolicy s.str.op (runCount n3) s.str.size)
        (raise .malformedHeader s.str.ip t)
        fun n => withRoom n s (emitAll (List.replicate n v) { t with rle := { t.rle with count := n } }) := rfl

theorem execCopy_eq (n1 : BitVec 7) (s : State) :
    execCopy n1 s =
      let t := advanceIp 1 { s with rle := { ctl := copyControl n1, count := copyCount n1 } }
      onAccepted (acceptedCount s.cfg.overrunPolicy s.str.op (copyCount n1) s.str.size)
        (raise .malformedHeader s.str.ip t)
        fun n => fetch n { t with rle := { t.rle with count := n } } fun bs u => withRoom n u (emitAll bs u) := rfl

/-! ## The archive's answers (R252, R254, R260, R269) -/

/-- What the lookup of a nonempty name does with the entry found (R252). -/
def lookupAnswer (o : Option LutEntry) (p : Nat) (name : List Byte) (s : State) : State :=
  match o with
  | some e =>
    { s with
      found := s.found ++ [{ off := p, len := name.length, addr := e.addr, size := e.size }]
      phase := .lookup (p + name.length + 1) }
  | none =>
    { s with
      phase := .report
        { code := 5#32, crc := crc32 s.cfg name, off := BitVec.ofNat 32 p, len := BitVec.ofNat 32 name.length } }

theorem lookupName_eq (p : Nat) (s : State) :
    lookupName p s =
      if nameAt p s = [] then { s with phase := .lookup (p + 1) }
      else
        lookupAnswer (lutFind (crc32 s.cfg (nameAt p s)) s.lut) p (nameAt p s)
          { s with
            crcAcc := crcRun s.cfg (nameAt p s), xp := { s.xp with recIdx := nameRec (nameIndex s) } } := by
  unfold lookupName
  refine if_congr Iff.rfl rfl ?_
  dsimp only
  cases lutFind (crc32 s.cfg (nameAt p s)) s.lut <;> rfl

/-- How `WriteResult` ends, given the first name that is too long and the bytes of the result (R254). -/
def resultAnswer (o : Option Nat) (bytes : List Byte) (s : State) : State :=
  match o with
  | some n => if s.cfg.outCap.toNat < bytes.length then raiseFree .badArgument n s else raise .badArgument n s
  | none =>
    if s.cfg.outCap.toNat < bytes.length then raiseLength .badArgument bytes.length s
    else
      endCommand { s with
        out := s.out.writeN 0 bytes
        str := { s.str with op := bytes.length }
        host :=
          { s.host with res0 := BitVec.ofNat 32 s.found.length, res1 := BitVec.ofNat 32 s.xp.cnt } }

theorem writeResult_eq (s : State) :
    writeResult s =
      if s.cfg.inCap.toNat < s.host.inLen.toNat then .fault .readBeyondSpace
      else .next (resultAnswer (longName s) (fileListBytes (resultMembers s)) s) := by
  unfold writeResult resultAnswer
  refine if_congr Iff.rfl rfl ?_
  cases longName s <;> dsimp only <;> split <;> rfl

/-- The results of `XPCK_PACK` once its archive is written (R267). -/
def packDone (cfg : Config) (ms : List Member) (t : State) : State :=
  { t with
    host := { t.host with res0 := BitVec.ofNat 32 ms.length, res1 := BitVec.ofNat 32 (packDataOff cfg ms) }
    phase := .finish }

/-- What `XPCK_PACK` does with a sorted list, given the range check that fails (R269). -/
def packAnswer (o : Option Nat) (ms : List Member) (s : State) : State :=
  match o with
  | some v => raiseLength .badArgument v s
  | none =>
    encoderOut (packArchive s.cfg ms) { s with scr := packScratch s ms, crcAcc := packCrcAcc s ms } (packDone s.cfg ms)

/-- What `XPCK_PACK` does with a list, given the value R260 refuses it for. -/
def flsAnswer (o : Option Nat) (ms : List Member) (s : State) : State :=
  match o with
  | some v => raise .badArgument v s
  | none => packAnswer (rangeFailure s.cfg (sortByName ms)) (sortByName ms) s

theorem execFls_eq (ms : List Member) (s : State) : execFls ms s = .next (flsAnswer (refusedList s.cfg ms) ms s) := by
  unfold execFls flsAnswer packSorted
  cases refusedList s.cfg ms with
  | some v => rfl
  | none => cases rangeFailure s.cfg (sortByName ms) <;> rfl

/-! ## Fetching -/

/-- What the core fetches at a control point. -/
def fetchAt (p : Phase) (s : State) : Fetched :=
  match p with
  | .idle => .stop (.next s)
  | .header => fetchHeader s
  | .zlibMagic => fetchZlibMagic s
  | .lz => fetchLz s
  | .rle => fetchRle s
  | .hufTable => fetchHufTable s
  | .hufBit => fetchHufBit s
  | .hufChild idx leaf => fetchHufChild idx leaf s
  | .finish => .stop (.next (unitDone s))
  | .xpckMagic => fetchXpckMagic s
  | .xph => fetchXph s
  | .countField => fetchCountField s
  | .records => fetchRecord s
  | .lookup p => fetchName p s
  | .report e => fetchReport e s
  | .fls => fetchFls s

theorem fetchCore_eq (s : State) : fetchCore s = if s.host.busy then fetchAt s.phase s else .stop (.next s) := by
  unfold fetchCore
  cases s.phase <;> rfl

/-- One pass of the LZ loop (R171): the flag byte is peeked at where no flag is left. -/
theorem fetchLz_eq (s : State) :
    fetchLz s =
      if s.str.op < s.str.size then
        if s.lz.fcnt = 0 then peek 1 s fun _ => fetchSymbol (nextFlag (loadFlags s)) (takeFlag (loadFlags s))
        else fetchSymbol (nextFlag (loadFlags s)) (takeFlag (loadFlags s))
      else .stop (.next (unitDone s)) := by
  unfold fetchLz peek
  refine if_congr Iff.rfl ?_ rfl
  by_cases h : s.lz.fcnt = 0
  · cases fetchStop 1 s <;> simp only [if_pos h]
  · simp only [if_neg h]

/-- What `XPCK_PACK` does with the decoder's answer on its input (R260). -/
def flsFetched (r : Except DecodeErr (Instr × List Byte)) (s : State) : Fetched :=
  match r with
  | .ok (i, rest) =>
    let t := { s with str := { s.str with ip := s.host.inLen.toNat - rest.length } }
    if rest = [] then .run i t else .stop (.next (raise .badArgument t.str.ip t))
  | .error (.malformedList addr) =>
    .stop (.next (raise .badArgument addr { s with str := { s.str with ip := addr } }))
  | .error _ => .stop (.fault .undecodable)

theorem fetchFls_eq (s : State) :
    fetchFls s =
      if s.cfg.inCap.toNat < s.host.inLen.toNat then .stop (.fault .readBeyondSpace)
      else flsFetched (decode .fls (s.inp.readN 0 s.host.inLen.toNat)) s := by
  unfold fetchFls
  refine if_congr Iff.rfl rfl ?_
  cases decode .fls (s.inp.readN 0 s.host.inLen.toNat) with
  | ok r => rfl
  | error e => cases e <;> rfl

end Sys2Proof.Machine
end

section
/-! SUPPORT. A step as one outcome: what `fetchNext` finds, run by `exec`. -/

namespace Sys2Proof.Machine

/-- The outcome of what a fetch found. -/
def Fetched.outcome : Fetched → Outcome
  | .run i s => exec i s
  | .stop o => o

/-- The core's own step: the outcome of `fetchCore`. -/
def coreStep (s : State) : Outcome := (fetchCore s).outcome

theorem step_eq_outcome (s : State) : step s = (fetchNext s).outcome := by
  unfold step
  cases fetchNext s <;> rfl

/-- With no request of the host pending, a step is the core's own. -/
theorem step_eq_coreStep {s : State} (h : s.bus = []) : step s = coreStep s := by
  rw [step_eq_outcome, fetchNext_core h, coreStep]

theorem Ensures.fetched_ite {P : State → Prop} {c : Prop} [Decidable c] {a b : Fetched}
    (ha : c → Ensures P a.outcome) (hb : ¬c → Ensures P b.outcome) :
    Ensures P (if c then a else b).outcome := by
  by_cases h : c
  · rw [if_pos h]; exact ha h
  · rw [if_neg h]; exact hb h

theorem ensures_peek {P : State → Prop} {n : Nat} {s : State} {k : List Byte → Fetched}
    (hstop : P (raise .truncatedStream s.str.ip s))
    (hk : s.str.ip + n ≤ s.str.limit → Ensures P (k (bytesAtIp n s)).outcome) : Ensures P (peek n s k).outcome := by
  unfold peek
  rcases fetchStop_cases n s with ⟨_, ho⟩ | ⟨_, _, ho⟩ | ⟨hl, _, ho⟩ <;> rw [ho]
  · exact hstop
  · trivial
  · exact hk hl

theorem ensures_runDecoded {P : State → Prop} {f : Fmt} {bs : List Byte} {s : State} {onErr : Outcome}
    (hrun : ∀ i rest, decode f bs = .ok (i, rest) → Ensures P (exec i s)) (herr : Ensures P onErr) :
    Ensures P (runDecoded f bs s onErr).outcome := by
  cases h : decode f bs with
  | ok r => obtain ⟨i, rest⟩ := r; rw [runDecoded_ok h]; exact hrun i rest h
  | error e => rw [runDecoded_error h]; exact herr

/-! ## A report entry and its words (R117) -/

theorem u32le_le32 (w : Word) :
    u32le (w.extractLsb' 0 8) (w.extractLsb' 8 8) (w.extractLsb' 16 8) (w.extractLsb' 24 8) = w := by
  unfold u32le
  ext i hi
  simp only [BitVec.getElem_append, BitVec.getElem_extractLsb']
  split
  · simp [BitVec.getLsbD_eq_getElem hi]
  · split
    · rw [← BitVec.getLsbD_eq_getElem hi]; congr 1; omega
    · split <;> rw [← BitVec.getLsbD_eq_getElem hi] <;> congr 1 <;> omega

/-- The four words of an entry with code 5 decode to the report itself. -/
theorem decode_rpt (c o l : Word) :
    decode .rpt (le32 5#32 ++ le32 c ++ le32 o ++ le32 l) = .ok (.rptEntry c o l, []) := by
  simp only [le32, List.cons_append, List.nil_append, decode, u32le_le32, if_true]

end Sys2Proof.Machine
end
section
/-! SUPPORT. What no instruction writes (20_memory.md R61, R74; 10_state.md R29). -/

namespace Sys2Proof.Machine

theorem HostSideKept.refl (s : State) : HostSideKept s s := ⟨rfl, rfl, rfl, rfl, rfl, rfl, rfl⟩

theorem emitAll_kept (bs : List Byte) (s : State) : HostSideKept s (emitAll bs s) := by
  rw [emitAll_eq]; exact .refl s

theorem copyBack_kept (d n : Nat) (s : State) : HostSideKept s (copyBack d n s) := by
  obtain ⟨bs, _, h⟩ := copyBack_eq_emitAll d n s
  rw [h]; exact emitAll_kept bs s

theorem payloadOut_kept (bs : List Byte) (s : State) : HostSideKept s (payloadOut bs s) := by
  rw [payloadOut_eq]; exact .refl s

theorem raiseLength_kept (f : Failure) (n : Nat) (s : State) : HostSideKept s (raiseLength f n s) :=
  ite_of (fun _ => .refl s) fun _ => .refl s

theorem reservedCommand_kept (v : Word) (s : State) : HostSideKept s (reservedCommand v s) :=
  ite_of (fun _ => .refl s) fun _ => .refl s

theorem encoderOut_kept {bs : List Byte} {s : State} {k : State → State} (hk : ∀ t, HostSideKept t (k t)) :
    HostSideKept s (encoderOut bs s k) :=
  ite_of (fun _ => hk _) fun _ => .refl s

theorem startCommand_kept {body : State → Outcome} {s : State} (h : ∀ p, Ensures (HostSideKept p) (body p)) :
    Ensures (HostSideKept s) (startCommand body s) :=
  ensures_startCommand (fun _ => .refl s) (fun _ _ => .refl s) fun _ _ => h (prologue s)

theorem hufEnter_kept (s : State) : HostSideKept s (hufEnter s) := ite_of (fun _ => .refl s) fun _ => .refl s

theorem lzEnter_kept (s : State) : HostSideKept s (lzEnter s) := ite_of (fun _ => .refl s) fun _ => .refl s

theorem rleHeader_kept (h : Word) (s : State) : HostSideKept s (rleHeader h s) :=
  ite_of (fun _ => .refl s) fun _ => ite_of (fun _ => .refl s) fun _ => .refl s

theorem rleStream_kept (s : State) : Ensures (HostSideKept s) (rleStream s) :=
  .ite (fun _ => .refl s) fun _ => ensures_fetch (.refl s) fun _ => rleHeader_kept _ _

/-- No command body writes the host's side. -/
theorem commandBody_kept (i : Instr) (p : State) : Ensures (HostSideKept p) (commandBody i p) := by
  refine commandBody_cases (Q := fun body => Ensures (HostSideKept p) (body p)) ?nop ?dec ?enc ?disp ?lz ?huf
    (rleStream_kept p) ?lzEnc ?crc ?xopen ?pack i
  case nop | disp | crc | xopen | pack => exact .refl p
  case dec => exact .ite (fun _ => .refl p) fun _ => .refl p
  case enc =>
    exact .ite (fun _ => .refl p) fun _ => .ite (fun _ => .refl p) fun _ => .ite (fun _ => .refl p) fun _ => .refl p
  case lz => exact .ite (fun _ => .refl p) fun _ => lzEnter_kept _
  case huf => exact .ite (fun _ => .refl p) fun _ => .ite (fun _ => .refl p) fun _ => hufEnter_kept _
  case lzEnc => exact .ite (fun _ => .refl p) fun _ => encoderOut_kept .refl

theorem storePayload_kept (s : State) : Ensures (HostSideKept s) (storePayload s) :=
  .ite (fun _ => .refl s) fun _ => .ite (fun _ => .refl s) fun _ => .ite (fun _ => trivial) fun _ => payloadOut_kept _ s

theorem zlibAnswer_kept (r : Option (List Byte)) (s : State) : HostSideKept s (zlibAnswer r s) := by
  cases r with
  | none => exact .refl s
  | some bytes =>
    exact ite_of (fun _ => .refl s) fun _ => ite_of (fun _ => raiseLength_kept _ _ s) fun _ => payloadOut_kept _ s

theorem execRef_kept (l : BitVec 4) (d : BitVec 12) (s : State) : Ensures (HostSideKept s) (execRef l d s) := by
  rw [execRef_eq]
  exact .ite (fun _ => .refl s) fun _ =>
    ensures_onAccepted (.refl s) fun _ _ => ensures_withRoom fun _ => copyBack_kept _ _ _

theorem execRun_kept (n : BitVec 7) (v : Byte) (s : State) : Ensures (HostSideKept s) (execRun n v s) := by
  rw [execRun_eq]
  exact ensures_onAccepted (.refl s) fun _ _ => ensures_withRoom fun _ => emitAll_kept _ _

theorem execCopy_kept (n : BitVec 7) (s : State) : Ensures (HostSideKept s) (execCopy n s) := by
  rw [execCopy_eq]
  exact ensures_onAccepted (.refl s) fun _ _ =>
    ensures_fetch (.refl s) fun _ => ensures_withRoom fun _ => emitAll_kept _ _

theorem execHufLeaf4_kept (b : BitVec 4) (s : State) : Ensures (HostSideKept s) (execHufLeaf4 b s) := by
  refine .ite (fun _ => ensures_withRoom fun _ => ?_) fun _ => .refl s
  rw [emit_eq_emitAll, emitAll_eq]; exact .refl s

theorem packAnswer_kept (o : Option Nat) (ms : List Member) (s : State) : HostSideKept s (packAnswer o ms s) := by
  cases o with
  | some v => exact raiseLength_kept _ _ s
  | none => exact encoderOut_kept (s := { s with scr := _, crcAcc := _ }) (k := packDone s.cfg ms) .refl

theorem flsAnswer_kept (o : Option Nat) (ms : List Member) (s : State) : HostSideKept s (flsAnswer o ms s) := by
  cases o with
  | some v => exact .refl s
  | none => exact packAnswer_kept _ _ s

theorem execFls_kept (ms : List Member) (s : State) : Ensures (HostSideKept s) (execFls ms s) := by
  rw [execFls_eq]; exact flsAnswer_kept _ ms s

/-- No instruction writes the host's side. -/
theorem exec_kept (i : Instr) (s : State) : Ensures (HostSideKept s) (exec i s) := by
  by_cases hf : fmtOf .big i = .cmd
  · rcases exec_command hf with ⟨_, v, he⟩ | ⟨_, he⟩ <;> rw [he]
    · exact reservedCommand_kept v s
    · exact startCommand_kept (commandBody_kept i)
  cases i with
  | store size => exact storePayload_kept _
  | lz size => exact lzEnter_kept _
  | huf4 size => exact hufEnter_kept _
  | huf8 size => exact hufEnter_kept _
  | rle size => exact rleStream_kept _
  | zlib size => exact .refl s
  | method6 size => exact .refl s
  | method7 size => exact .refl s
  | lit byte => exact ensures_withRoom fun _ => emitAll_kept [byte] _
  | ref len3 disp => exact execRef_kept len3 disp s
  | run n3 value => exact execRun_kept n3 value s
  | copy n1 => exact execCopy_kept n1 s
  | hufTable tsize root => exact ensures_fetch (.refl s) fun _ => .refl s
  | hufNode leaf0 leaf1 offset => exact .refl s
  | hufStep0 => exact ite_of (P := HostSideKept s) (fun _ => .refl s) fun _ => .refl s
  | hufStep1 => exact ite_of (P := HostSideKept s) (fun _ => .refl s) fun _ => .refl s
  | hufLeaf8 symbol => exact ensures_withRoom fun _ => emitAll_kept [symbol] _
  | hufLeaf4 symbol => exact execHufLeaf4_kept symbol s
  | hufWord code => exact .refl s
  | zlibMagic => exact .ite (fun _ => trivial) fun _ => zlibAnswer_kept _ s
  | xpckMagic => exact .refl s
  | xph count infoOff4 nameOff4 dataOff4 f4 nameLen4 dataLen4 => exact .refl s
  | xpr crc nameOff offLo sizeLo offHi sizeHi => exact .ite (fun _ => .refl s) fun _ => .refl s
  | countField f1 f2 => exact .refl s
  | fls members => exact execFls_kept members s
  | rptEntry crc off len => exact .refl s
  | _ => exact absurd rfl hf

/-- Settles O59: a walk along the branches of every instruction. -/
theorem noInstructionWritesTheHostSide : Obligations.NoInstructionWritesTheHostSide :=
  fun i s _ h => (exec_kept i s).of_eq h

end Sys2Proof.Machine
end

section
/-! SUPPORT. Rules for two outcomes side by side. -/

namespace Sys2Proof.Machine

/-- Two outcomes of one kind: next states related by `R`, or the same stop. -/
def Matches (R : State → State → Prop) : Outcome → Outcome → Prop
  | .next s, .next t => R s t
  | .fault f, .fault g => f = g
  | .refused q, .refused r => q = r
  | _, _ => False

theorem Matches.next {R : State → State → Prop} {o o' : Outcome} {s : State} (h : Matches R o o') (ho : o = .next s) :
    ∃ t, o' = .next t ∧ R s t := by
  subst ho
  cases o' with
  | next t => exact ⟨t, rfl, h⟩
  | fault f => exact h.elim
  | refused r => exact h.elim

theorem matches_next {R : State → State → Prop} {s t : State} (h : R s t) : Matches R (.next s) (.next t) := h

section
variable {R : State → State → Prop} {c c' : Prop} [Decidable c] [Decidable c']

theorem Matches.ite {a b a' b' : Outcome} (hc : c ↔ c') (ha : c → Matches R a a') (hb : ¬c → Matches R b b') :
    Matches R (if c then a else b) (if c' then a' else b') := by
  by_cases h : c
  · rw [if_pos h, if_pos (hc.1 h)]; exact ha h
  · rw [if_neg h, if_neg (mt hc.2 h)]; exact hb h

theorem Matches.fetched_ite {a b a' b' : Fetched} (hc : c ↔ c') (ha : c → Matches R a.outcome a'.outcome)
    (hb : ¬c → Matches R b.outcome b'.outcome) :
    Matches R (if c then a else b).outcome (if c' then a' else b').outcome := by
  by_cases h : c
  · rw [if_pos h, if_pos (hc.1 h)]; exact ha h
  · rw [if_neg h, if_neg (mt hc.2 h)]; exact hb h

theorem rel_ite {a b a' b' : State} (hc : c ↔ c') (ha : c → R a a') (hb : ¬c → R b b') :
    R (if c then a else b) (if c' then a' else b') := by
  by_cases h : c
  · rw [if_pos h, if_pos (hc.1 h)]; exact ha h
  · rw [if_neg h, if_neg (mt hc.2 h)]; exact hb h

end

section
variable {R : State → State → Prop} {s t : State}

theorem matches_startCommand {b b' : State → Outcome} (hb : s.host.busy = t.host.busy)
    (hl : s.host.inLen = t.host.inLen) (hc : s.cfg = t.cfg) (hbusy : s.host.busy = true → R s t)
    (hcap : R (raise .badArgument s.host.inLen.toNat (prologue s)) (raise .badArgument t.host.inLen.toNat (prologue t)))
    (hbody : s.host.busy = false → Matches R (b (prologue s)) (b' (prologue t))) :
    Matches R (startCommand b s) (startCommand b' t) :=
  .ite (by rw [hb]) hbusy fun h => .ite (by rw [hl, hc]) (fun _ => hcap) fun _ => hbody (by simpa using h)

variable {n : Nat} (hip : s.str.ip = t.str.ip) (hl : s.str.limit = t.str.limit) (hc : s.cfg = t.cfg)
include hip hl hc

/-- Two fetches at one place in inputs of one length stop alike, or both go on. -/
theorem fetchStop_match (n : Nat) :
    (fetchStop n s = some (.next (raise .truncatedStream s.str.ip s)) ∧
      fetchStop n t = some (.next (raise .truncatedStream t.str.ip t))) ∨
    (fetchStop n s = some (.fault .readBeyondSpace) ∧ fetchStop n t = some (.fault .readBeyondSpace)) ∨
    (s.str.ip + n ≤ s.str.limit ∧ fetchStop n s = none ∧ fetchStop n t = none) := by
  rcases fetchStop_cases n s with ⟨h, ho⟩ | ⟨h1, h2, ho⟩ | ⟨h1, h2, ho⟩
  · exact .inl ⟨ho, fetchStop_truncated (by omega)⟩
  · refine .inr (.inl ⟨ho, ?_⟩)
    unfold fetchStop
    rw [← hip, ← hl, ← hc, if_neg (by omega), if_pos h2]
  · exact .inr (.inr ⟨h1, ho, fetchStop_none (by omega) (by rw [← hc, ← hip]; exact h2)⟩)

theorem matches_fetch {k k' : List Byte → State → Outcome}
    (hstop : R (raise .truncatedStream s.str.ip s) (raise .truncatedStream t.str.ip t))
    (hk : s.str.ip + n ≤ s.str.limit →
      Matches R (k (bytesAtIp n s) (advanceIp n s)) (k' (bytesAtIp n t) (advanceIp n t))) :
    Matches R (fetch n s k) (fetch n t k') := by
  unfold fetch
  rcases fetchStop_match hip hl hc n with ⟨h, h'⟩ | ⟨h, h'⟩ | ⟨hle, h, h'⟩ <;> rw [h, h']
  · exact hstop
  · exact rfl
  · exact hk hle

theorem matches_peek {k k' : List Byte → Fetched}
    (hstop : R (raise .truncatedStream s.str.ip s) (raise .truncatedStream t.str.ip t))
    (hk : s.str.ip + n ≤ s.str.limit → Matches R (k (bytesAtIp n s)).outcome (k' (bytesAtIp n t)).outcome) :
    Matches R (peek n s k).outcome (peek n t k').outcome := by
  unfold peek
  rcases fetchStop_match hip hl hc n with ⟨h, h'⟩ | ⟨h, h'⟩ | ⟨hle, h, h'⟩ <;> rw [h, h']
  · exact hstop
  · exact rfl
  · exact hk hle

end

section
variable {R : State → State → Prop} {s t : State}

theorem matches_withRoom {n : Nat} {k k' : State} (hop : s.str.op = t.str.op) (hcap : capacity s = capacity t)
    (hk : R k k') : Matches R (withRoom n s k) (withRoom n t k') :=
  .ite (by rw [hop, hcap]) (fun _ => hk) fun _ => rfl

theorem matches_onAccepted {o : Option Nat} {r r' : State} {k k' : Nat → Outcome} (hr : R r r')
    (hk : ∀ n, o = some n → Matches R (k n) (k' n)) : Matches R (onAccepted o r k) (onAccepted o r' k') := by
  cases o with
  | none => exact hr
  | some n => exact hk n rfl

/-- The same bytes decode to the same instruction in both states. -/
theorem matches_runDecoded {f : Fmt} {bs : List Byte} {onErr onErr' : Outcome}
    (hrun : ∀ i rest, decode f bs = .ok (i, rest) → Matches R (exec i s) (exec i t)) (herr : Matches R onErr onErr') :
    Matches R (runDecoded f bs s onErr).outcome (runDecoded f bs t onErr').outcome := by
  cases h : decode f bs with
  | ok r => obtain ⟨i, rest⟩ := r; rw [runDecoded_ok h, runDecoded_ok h]; exact hrun i rest h
  | error e => rw [runDecoded_error h, runDecoded_error h]; exact herr

end

end Sys2Proof.Machine
end

section
/-! SUPPORT. Reset, the prologue and the start of a command (10_state.md R23, R46, R47; 40_commands_header.md R130). -/

namespace Sys2Proof.Machine

/-- Settles O6: the prologue is that update. -/
theorem prologueInitialises : Obligations.PrologueInitialises := fun _ => rfl

theorem reservedCommand_busy {v : Word} {s : State} (hb : s.host.busy = true) : reservedCommand v s = s := if_pos hb

/-- A command word while a command runs changes nothing (R23). -/
theorem exec_command_busy {i : Instr} {s : State} (hf : fmtOf .big i = .cmd) (hb : s.host.busy = true) :
    exec i s = .next s := by
  rcases exec_command hf with ⟨_, v, he⟩ | ⟨_, he⟩ <;> rw [he]
  · rw [reservedCommand_busy hb]
  · exact startCommand_busy hb

/-- Settles O9: both guards stand in the common start of the commands. -/
theorem commandGuards : Obligations.CommandGuards := by
  refine ⟨fun i s => exec_command_busy, fun i s hf hres hb hcap => ?_⟩
  rcases exec_command hf with ⟨hi, _⟩ | ⟨_, he⟩
  · exact absurd hi hres
  · rw [he]
    rcases startCommand_cases (commandBody i) s with ⟨hb', _⟩ | ⟨_, _, ho⟩ | ⟨_, hc, _⟩
    · exact absurd hb' (by simp [hb])
    · exact ho
    · omega

/-! ## The host's requests, one equation each (log 15) -/

section
variable {s : State} {rest : List HostReq}

theorem step_readOut {a : Nat} (h : s.bus = .readOut a :: rest) : step s = hostReadOut a { s with bus := rest } :=
  step_stop (by unfold fetchNext; rw [h])

theorem step_readIn {a : Nat} (h : s.bus = .readIn a :: rest) : step s = hostReadIn a { s with bus := rest } :=
  step_stop (by unfold fetchNext; rw [h])

theorem step_writeIn {a : Nat} {v : Byte} (h : s.bus = .writeIn a v :: rest) :
    step s = hostWriteIn a v { s with bus := rest } :=
  step_stop (by unfold fetchNext; rw [h])

theorem step_readRpt {e w : Nat} (h : s.bus = .readRpt e w :: rest) : step s = hostReadRpt e w { s with bus := rest } :=
  step_stop (by unfold fetchNext; rw [h])

theorem step_readReg {off : Nat} (h : s.bus = .readReg off :: rest) :
    step s = hostReadReg off { s with bus := rest } :=
  step_stop (by unfold fetchNext; rw [h])

theorem step_reset (h : s.bus = .reset :: rest) : step s = .next (applyReset { s with bus := rest }) :=
  step_stop (by unfold fetchNext; rw [h])

theorem step_writeReg {off : Nat} {v : Word} (h : s.bus = .writeReg off v :: rest) :
    step s = (hostWriteReg off v { s with bus := rest }).outcome := by
  rw [step_eq_outcome]; unfold fetchNext; rw [h]

theorem step_pass (h : s.bus = .pass :: rest) : step s = coreStep { s with bus := rest } := by
  rw [step_eq_outcome]; unfold fetchNext; rw [h]; rfl

theorem step_poll_busy (h : s.bus = .poll :: rest) (hb : s.host.busy = true) : step s = coreStep s := by
  rw [step_eq_outcome]; unfold fetchNext; rw [h]; simp only [hb, if_true]; rfl

theorem step_poll_idle (h : s.bus = .poll :: rest) (hb : s.host.busy = false) :
    step s = .next (returnWord (statusWord s.host) { s with bus := rest }) :=
  step_stop (by unfold fetchNext; rw [h]; simp only [hb, Bool.false_eq_true, if_false])

end

/-- A write of a register other than `CMD` (R22). -/
theorem hostWriteReg_of_regAt {off : Nat} {v : Word} {s : State} {r : HostReg} (hr : regAt off = some r)
    (hc : r ≠ .cmd) : hostWriteReg off v s = .stop (.next (writeReg r v s)) := by
  unfold hostWriteReg
  rw [hr]
  cases r with
  | cmd => exact absurd rfl hc
  | _ => rfl

/-- A write of `CMD` runs a command, or raises for a value that is none (R23, R134). -/
theorem hostWriteReg_cmd (v : Word) :
    (∃ i, fmtOf .big i = .cmd ∧ ∀ s, hostWriteReg 0 v s = .run i s) ∨
    ∀ s, hostWriteReg 0 v s = .stop (.next (reservedCommand v s)) := by
  unfold hostWriteReg
  cases h : decode .cmd (le32 v) with
  | ok r => exact .inl ⟨r.1, decode_cmd h, fun _ => rfl⟩
  | error e => exact .inr fun _ => rfl

/-- An offset outside the list of R22 is no register's. -/
theorem regAt_eq_none {off : Nat} (h : off ∉ regOffsets) : regAt off = none := by
  unfold regAt
  split
  case h_12 => rfl
  all_goals exact absurd (by decide) h

theorem writeReg_busy {r : HostReg} {v : Word} {s : State} (hb : s.host.busy = true) : writeReg r v s = s := if_pos hb

/-- With `BUSY = 0` a register that is read only ignores a write (R22). -/
theorem writeReg_readOnly {r : HostReg} {v : Word} {s : State}
    (hr : r ≠ .inLen ∧ r ≠ .arg0 ∧ r ≠ .arg1) : writeReg r v s = s := by
  obtain ⟨h1, h2, h3⟩ := hr
  unfold writeReg
  split
  · rfl
  · cases r with
    | inLen => exact absurd rfl h1
    | arg0 => exact absurd rfl h2
    | arg1 => exact absurd rfl h3
    | _ => rfl

/-- `STATUS` by its four bits (R22, R27). -/
theorem statusWord_eq (h : HostRegs) :
    statusWord h = BitVec.ofNat 32 (h.busy.toNat + 2 * h.done.toNat + 4 * h.err.toNat + 8 * h.rptFlag.toNat) := by
  unfold statusWord
  cases h.busy <;> cases h.done <;> cases h.err <;> cases h.rptFlag <;> decide

/-! ## Reset -/

/-- Settles O53: the registers are 0 in the definition, and no output is valid while `DONE = 0`. -/
theorem resetValues : Obligations.ResetValues := by
  refine ⟨rfl, rfl, rfl, rfl, rfl, rfl, rfl, rfl, rfl, rfl, rfl, rfl, fun a ha => ?_⟩
  rw [step_readOut rfl]
  exact if_neg (Nat.not_le.2 ha)

/-! ## IN, OUT and RPT (R40, R43, R61, R333) -/

section
variable {s : State}

theorem hostReadIn_outside {a : Nat} (h : s.cfg.inCap.toNat ≤ a) : hostReadIn a s = .fault (.noSuchAddress a) :=
  if_pos h

theorem hostReadIn_busy {a : Nat} (h : a < s.cfg.inCap.toNat) (hb : s.host.busy = true) :
    hostReadIn a s = .next (returnFree s) := by
  unfold hostReadIn
  rw [if_neg (Nat.not_le.2 h), if_pos hb]

theorem hostReadIn_written {a : Nat} {v : Byte} (h : a < s.cfg.inCap.toNat) (hb : s.host.busy = false)
    (hw : s.inp.written a = some v) : hostReadIn a s = .next (returnWord (v.setWidth 32) s) := by
  unfold hostReadIn
  simp only [if_neg (Nat.not_le.2 h), hb, Bool.false_eq_true, if_false, hw]

theorem hostReadIn_unwritten {a : Nat} (h : a < s.cfg.inCap.toNat) (hb : s.host.busy = false)
    (hw : s.inp.written a = none) : hostReadIn a s = .refused .inUnspecified := by
  unfold hostReadIn
  simp only [if_neg (Nat.not_le.2 h), hb, Bool.false_eq_true, if_false, hw]

theorem hostWriteIn_outside {a : Nat} {v : Byte} (h : s.cfg.inCap.toNat ≤ a) :
    hostWriteIn a v s = .fault (.noSuchAddress a) := if_pos h

theorem hostWriteIn_busy {a : Nat} {v : Byte} (h : a < s.cfg.inCap.toNat) (hb : s.host.busy = true) :
    hostWriteIn a v s = .refused .inWriteWhileBusy := by
  unfold hostWriteIn
  rw [if_neg (Nat.not_le.2 h), if_pos hb]

theorem hostWriteIn_idle {a : Nat} {v : Byte} (h : a < s.cfg.inCap.toNat) (hb : s.host.busy = false) :
    hostWriteIn a v s = .next { s with inp := s.inp.write a v } := by
  unfold hostWriteIn
  rw [if_neg (Nat.not_le.2 h), hb, if_neg Bool.false_ne_true]

theorem hostReadOut_outside {a : Nat} (h : s.cfg.outCap.toNat ≤ a) : hostReadOut a s = .fault (.noSuchAddress a) :=
  if_pos h

theorem hostReadOut_busy {a : Nat} (h : a < s.cfg.outCap.toNat) (hb : s.host.busy = true) :
    hostReadOut a s = .next (returnFree s) := by
  unfold hostReadOut
  rw [if_neg (Nat.not_le.2 h), if_pos hb]

theorem hostReadOut_valid {a : Nat} (h : a < s.cfg.outCap.toNat) (hb : s.host.busy = false) (hd : s.host.done = true)
    (he : s.host.err = false) (ha : a < s.host.outLen.toNat) :
    hostReadOut a s = .next (returnWord ((s.out.read a).setWidth 32) s) := by
  unfold hostReadOut
  rw [if_neg (Nat.not_le.2 h), hb, if_neg Bool.false_ne_true, if_pos (by simp [hd, he, ha])]

theorem hostReadOut_invalid {a : Nat} (h : a < s.cfg.outCap.toNat) (hb : s.host.busy = false)
    (hn : s.host.done = false ∨ s.host.err = true ∨ s.host.outLen.toNat ≤ a) :
    hostReadOut a s = .refused .outUnspecified := by
  unfold hostReadOut
  rw [if_neg (Nat.not_le.2 h), hb, if_neg Bool.false_ne_true, if_neg]
  rcases hn with hn | hn | hn
  · simp [hn]
  · simp [hn]
  · simp [Nat.not_lt.2 hn]

theorem hostReadRpt_outside {e w : Nat} (h : 4 ≤ w) : hostReadRpt e w s = .fault (.noSuchAddress w) := if_pos h

theorem hostReadRpt_busy {e w : Nat} (h : w < 4) (hb : s.host.busy = true) :
    hostReadRpt e w s = .next (returnFree s) := by
  unfold hostReadRpt
  rw [if_neg (Nat.not_le.2 h), if_pos hb]

theorem hostReadRpt_stored {n w : Nat} {e : RptEntry} (h : w < 4) (hb : s.host.busy = false) (he : s.rpt[n]? = some e) :
    hostReadRpt n w s = .next (returnWord (rptWord e w) s) := by
  unfold hostReadRpt
  simp only [if_neg (Nat.not_le.2 h), hb, Bool.false_eq_true, if_false, he]

theorem hostReadRpt_unstored {n w : Nat} (h : w < 4) (hb : s.host.busy = false) (hn : s.rpt.length ≤ n) :
    hostReadRpt n w s = .refused .rptUnspecified := by
  unfold hostReadRpt
  simp only [if_neg (Nat.not_le.2 h), hb, Bool.false_eq_true, if_false, List.getElem?_eq_none hn]

end

/-- Settles O52: each window by its own case equations, and the write by what memory reads after a write. -/
theorem hostBufferAccess : Obligations.HostBufferAccess := by
  intro s rest a _ u free
  refine ⟨fun v h => ?_, fun h => ?_, fun h => ?_, fun w h => ?_⟩
  · rw [step_writeIn h]
    refine ⟨fun ha => hostWriteIn_outside ha, fun ha hb => hostWriteIn_busy ha hb, fun ha hb => ?_⟩
    refine ⟨_, hostWriteIn_idle ha hb, ?_, ?_, fun x hx => ⟨?_, ?_⟩, rfl⟩
    · exact (Memory.written_write s.inp a a v).trans (if_pos rfl)
    · exact (Memory.read_write s.inp a a v).trans (if_pos rfl)
    · exact (Memory.written_write s.inp a x v).trans (if_neg hx)
    · exact (Memory.read_write s.inp a x v).trans (if_neg hx)
  · rw [step_readIn h]
    exact ⟨fun ha => hostReadIn_outside ha, fun ha hb => hostReadIn_busy ha hb, fun ha hb =>
      ⟨fun v hw => hostReadIn_written ha hb hw, fun hw => hostReadIn_unwritten ha hb hw⟩⟩
  · rw [step_readOut h]
    exact ⟨fun ha => hostReadOut_outside ha, fun ha hb => hostReadOut_busy ha hb,
      fun ha hb hd he hl => hostReadOut_valid ha hb hd he hl, fun ha hb hn => hostReadOut_invalid ha hb hn⟩
  · rw [step_readRpt h]
    refine ⟨fun hw => hostReadRpt_outside hw, fun hw hb => hostReadRpt_busy hw hb,
      fun hw hb hn => hostReadRpt_unstored hw hb hn, fun e he hb => ⟨?_, ?_, ?_, ?_⟩⟩ <;> rintro rfl
    · exact hostReadRpt_stored (by decide) hb he
    · exact hostReadRpt_stored (by decide) hb he
    · exact hostReadRpt_stored (by decide) hb he
    · exact hostReadRpt_stored (by decide) hb he

end Sys2Proof.Machine
end

section
/-! SUPPORT. The core does not look at the host's pending requests (log 15): its step is the same whatever they are, and
leaves them as they are. -/

namespace Sys2Proof.Machine

/-- `s` with other requests pending. -/
def withBus (b : List HostReq) (s : State) : State := { s with bus := b }

/-- The second state is the first with requests `b` pending. -/
def BusShift (b : List HostReq) (s t : State) : Prop := t = withBus b s

variable (b : List HostReq)

theorem BusShift.intro (s : State) : BusShift b s (withBus b s) := rfl

theorem emitAll_withBus (bs : List Byte) (s : State) : BusShift b (emitAll bs s) (emitAll bs (withBus b s)) := by
  rw [emitAll_eq, emitAll_eq]; exact .intro b _

theorem copyBack_withBus (d n : Nat) (s : State) : BusShift b (copyBack d n s) (copyBack d n (withBus b s)) := by
  induction n generalizing s with
  | zero => exact .intro b s
  | succ n ih =>
    have h : emit (back d (withBus b s)) (withBus b s) = withBus b (emit (back d s) s) := emitAll_withBus b [_] s
    rw [copyBack, copyBack, h]
    exact ih _

theorem payloadOut_withBus (bs : List Byte) (s : State) :
    BusShift b (payloadOut bs s) (payloadOut bs (withBus b s)) := by
  rw [payloadOut_eq, payloadOut_eq]; exact .intro b _

theorem fetch_withBus {n : Nat} {s : State} {k k' : List Byte → State → Outcome}
    (hk : Matches (BusShift b) (k (bytesAtIp n s) (advanceIp n s)) (k' (bytesAtIp n s) (withBus b (advanceIp n s)))) :
    Matches (BusShift b) (fetch n s k) (fetch n (withBus b s) k') :=
  matches_fetch (s := s) (t := withBus b s) rfl rfl rfl (BusShift.intro b _) fun _ => hk

theorem peek_withBus {n : Nat} {s : State} {k k' : List Byte → Fetched}
    (hk : Matches (BusShift b) (k (bytesAtIp n s)).outcome (k' (bytesAtIp n s)).outcome) :
    Matches (BusShift b) (peek n s k).outcome (peek n (withBus b s) k').outcome :=
  matches_peek (s := s) (t := withBus b s) rfl rfl rfl (BusShift.intro b _) fun _ => hk

theorem withRoom_withBus {n : Nat} {s k k' : State} (hk : BusShift b k k') :
    Matches (BusShift b) (withRoom n s k) (withRoom n (withBus b s) k') :=
  matches_withRoom (s := s) (t := withBus b s) rfl rfl hk

theorem raiseLength_withBus (f : Failure) (n : Nat) (s : State) :
    BusShift b (raiseLength f n s) (raiseLength f n (withBus b s)) :=
  rel_ite Iff.rfl (fun _ => rfl) fun _ => rfl

theorem reservedCommand_withBus (v : Word) (s : State) :
    BusShift b (reservedCommand v s) (reservedCommand v (withBus b s)) :=
  rel_ite Iff.rfl (fun _ => rfl) fun _ => rfl

theorem unitDone_withBus (s : State) : BusShift b (unitDone s) (unitDone (withBus b s)) :=
  rel_ite Iff.rfl (fun _ => rfl) fun _ => rfl

theorem encoderOut_withBus {bs : List Byte} {s : State} {k k' : State → State}
    (hk : ∀ t, BusShift b (k t) (k' (withBus b t))) : BusShift b (encoderOut bs s k) (encoderOut bs (withBus b s) k') :=
  rel_ite Iff.rfl (fun _ => hk { s with out := _, str := _ }) fun _ => .intro b _

theorem startCommand_withBus {body : State → Outcome} (h : ∀ p, Matches (BusShift b) (body p) (body (withBus b p)))
    (s : State) : Matches (BusShift b) (startCommand body s) (startCommand body (withBus b s)) :=
  matches_startCommand rfl rfl rfl (fun _ => rfl) rfl fun _ => h (prologue s)

theorem hufEnter_withBus (s : State) : BusShift b (hufEnter s) (hufEnter (withBus b s)) :=
  rel_ite Iff.rfl (fun _ => rfl) fun _ => rfl

theorem lzEnter_withBus (s : State) : BusShift b (lzEnter s) (lzEnter (withBus b s)) :=
  rel_ite Iff.rfl (fun _ => rfl) fun _ => rfl

theorem rleHeader_withBus (h : Word) (s : State) : BusShift b (rleHeader h s) (rleHeader h (withBus b s)) :=
  rel_ite Iff.rfl (fun _ => rfl) fun _ => rel_ite Iff.rfl (fun _ => rfl) fun _ => rfl

theorem rleStream_withBus (s : State) : Matches (BusShift b) (rleStream s) (rleStream (withBus b s)) :=
  .ite Iff.rfl (fun _ => rfl) fun _ => fetch_withBus b (rleHeader_withBus b _ _)

theorem commandBody_withBus (i : Instr) (p : State) :
    Matches (BusShift b) (commandBody i p) (commandBody i (withBus b p)) := by
  refine commandBody_cases (Q := fun body => Matches (BusShift b) (body p) (body (withBus b p))) ?nop ?dec ?enc ?disp
    ?lz ?huf (rleStream_withBus b p) ?lzEnc ?crc ?xopen ?pack i
  case nop | disp | crc | xopen | pack => exact rfl
  case dec => exact .ite Iff.rfl (fun _ => rfl) fun _ => rfl
  case enc =>
    exact .ite Iff.rfl (fun _ => rfl) fun _ => .ite Iff.rfl (fun _ => rfl) fun _ =>
      .ite Iff.rfl (fun _ => rfl) fun _ => rfl
  case lz => exact .ite Iff.rfl (fun _ => rfl) fun _ => matches_next (lzEnter_withBus b { p with str := _ })
  case huf =>
    exact .ite Iff.rfl (fun _ => rfl) fun _ => .ite Iff.rfl (fun _ => rfl) fun _ =>
      matches_next (hufEnter_withBus b { p with huf := _, str := _ })
  case lzEnc =>
    exact .ite Iff.rfl (fun _ => rfl) fun _ => matches_next (encoderOut_withBus (k := endCommand) b fun _ => .intro b _)

theorem storePayload_withBus (s : State) : Matches (BusShift b) (storePayload s) (storePayload (withBus b s)) :=
  .ite Iff.rfl (fun _ => rfl) fun _ => .ite Iff.rfl (fun _ => rfl) fun _ =>
    .ite Iff.rfl (fun _ => rfl) fun _ => payloadOut_withBus b _ s

theorem zlibAnswer_withBus (r : Option (List Byte)) (s : State) :
    BusShift b (zlibAnswer r s) (zlibAnswer r (withBus b s)) := by
  cases r with
  | none => exact rfl
  | some bytes =>
    exact rel_ite Iff.rfl (fun _ => rfl) fun _ =>
      rel_ite Iff.rfl (fun _ => raiseLength_withBus b _ _ s) fun _ => payloadOut_withBus b _ s

theorem execRef_withBus (l : BitVec 4) (d : BitVec 12) (s : State) :
    Matches (BusShift b) (execRef l d s) (execRef l d (withBus b s)) := by
  rw [execRef_eq, execRef_eq]
  exact .ite Iff.rfl (fun _ => rfl) fun _ =>
    matches_onAccepted (BusShift.intro b _) fun _ _ => withRoom_withBus b (copyBack_withBus b _ _ _)

theorem execRun_withBus (n : BitVec 7) (v : Byte) (s : State) :
    Matches (BusShift b) (execRun n v s) (execRun n v (withBus b s)) := by
  rw [execRun_eq, execRun_eq]
  exact matches_onAccepted (BusShift.intro b _) fun _ _ => withRoom_withBus b (emitAll_withBus b _ _)

theorem execCopy_withBus (n : BitVec 7) (s : State) :
    Matches (BusShift b) (execCopy n s) (execCopy n (withBus b s)) := by
  rw [execCopy_eq, execCopy_eq]
  exact matches_onAccepted (BusShift.intro b _) fun _ _ =>
    fetch_withBus b (withRoom_withBus b (emitAll_withBus b _ _))

theorem execHufLeaf4_withBus (x : BitVec 4) (s : State) :
    Matches (BusShift b) (execHufLeaf4 x s) (execHufLeaf4 x (withBus b s)) := by
  refine .ite Iff.rfl (fun _ => withRoom_withBus b ?_) fun _ => rfl
  simp only [emit_eq_emitAll, emitAll_eq]; rfl

theorem packAnswer_withBus (o : Option Nat) (ms : List Member) (s : State) :
    BusShift b (packAnswer o ms s) (packAnswer o ms (withBus b s)) := by
  cases o with
  | some v => exact raiseLength_withBus b _ _ s
  | none =>
    exact encoderOut_withBus b (s := { s with scr := packScratch s ms, crcAcc := packCrcAcc s ms })
      (k := packDone s.cfg ms) (k' := packDone s.cfg ms) fun t => .intro b (packDone s.cfg ms t)

theorem execFls_withBus (ms : List Member) (s : State) :
    Matches (BusShift b) (execFls ms s) (execFls ms (withBus b s)) := by
  rw [execFls_eq, execFls_eq]
  show BusShift b (flsAnswer (refusedList s.cfg ms) ms s) (flsAnswer (refusedList s.cfg ms) ms (withBus b s))
  cases refusedList s.cfg ms with
  | some v => exact rfl
  | none => exact packAnswer_withBus b _ _ s

/-- The meaning of every instruction is the same whatever requests are pending. -/
theorem exec_withBus (i : Instr) (s : State) : Matches (BusShift b) (exec i s) (exec i (withBus b s)) := by
  by_cases hf : fmtOf .big i = .cmd
  · rcases exec_command hf with ⟨_, v, he⟩ | ⟨_, he⟩ <;> rw [he, he]
    · exact reservedCommand_withBus b v s
    · exact startCommand_withBus b (commandBody_withBus b i) s
  cases i with
  | store size => exact storePayload_withBus b (beginMethod 0#3 size s)
  | lz size => exact lzEnter_withBus b (beginMethod 1#3 size s)
  | huf4 size =>
    exact hufEnter_withBus b { beginMethod 2#3 size s with huf := { s.huf with depth := 4 } }
  | huf8 size =>
    exact hufEnter_withBus b { beginMethod 3#3 size s with huf := { s.huf with depth := 8 } }
  | rle size => exact rleStream_withBus b (beginMethod 4#3 size s)
  | zlib size => exact rfl
  | method6 size => exact rfl
  | method7 size => exact rfl
  | lit byte => exact withRoom_withBus b (emitAll_withBus b [byte] (advanceIp 1 s))
  | ref len3 disp => exact execRef_withBus b len3 disp s
  | run n3 value => exact execRun_withBus b n3 value s
  | copy n1 => exact execCopy_withBus b n1 s
  | hufTable tsize root => exact fetch_withBus b (matches_next (BusShift.intro b _))
  | hufNode leaf0 leaf1 offset => exact rfl
  | hufStep0 => exact rel_ite (R := BusShift b) Iff.rfl (fun _ => rfl) fun _ => rfl
  | hufStep1 => exact rel_ite (R := BusShift b) Iff.rfl (fun _ => rfl) fun _ => rfl
  | hufLeaf8 symbol =>
    refine withRoom_withBus b ?_
    rw [emit_eq_emitAll, emit_eq_emitAll, emitAll_withBus]; rfl
  | hufLeaf4 symbol => exact execHufLeaf4_withBus b symbol s
  | hufWord code => exact rfl
  | zlibMagic => exact .ite Iff.rfl (fun _ => rfl) fun _ => zlibAnswer_withBus b _ s
  | xpckMagic => exact rfl
  | xph count infoOff4 nameOff4 dataOff4 f4 nameLen4 dataLen4 => exact rfl
  | xpr crc nameOff offLo sizeLo offHi sizeHi => exact .ite Iff.rfl (fun _ => rfl) fun _ => rfl
  | countField f1 f2 => exact rfl
  | fls members => exact execFls_withBus b members s
  | rptEntry crc off len => exact rfl
  | _ => exact absurd rfl hf

/-! ## The core's step -/

theorem runDecoded_withBus (f : Fmt) (bs : List Byte) (s : State) :
    Matches (BusShift b) (runDecoded f bs s (.fault .undecodable)).outcome
      (runDecoded f bs (withBus b s) (.fault .undecodable)).outcome :=
  matches_runDecoded (fun i _ _ => exec_withBus b i s) rfl

theorem runDecoded_raise_withBus (f : Fmt) (bs : List Byte) (e : Failure) (v : Nat) (s u : State) :
    Matches (BusShift b) (runDecoded f bs s (.next (raise e v u))).outcome
      (runDecoded f bs (withBus b s) (.next (raise e v (withBus b u)))).outcome :=
  matches_runDecoded (fun i _ _ => exec_withBus b i s) (matches_next (BusShift.intro b _))

theorem fetchSymbol_withBus (flag : Bool) (s : State) :
    Matches (BusShift b) (fetchSymbol flag s).outcome (fetchSymbol flag (withBus b s)).outcome :=
  .fetched_ite Iff.rfl (fun _ => peek_withBus b (runDecoded_withBus b _ _ s)) fun _ =>
    peek_withBus b (runDecoded_withBus b _ _ s)

theorem takeFlag_loadFlags_withBus (s : State) :
    takeFlag (loadFlags (withBus b s)) = withBus b (takeFlag (loadFlags s)) ∧
    nextFlag (loadFlags (withBus b s)) = nextFlag (loadFlags s) := by
  have h : BusShift b (loadFlags s) (loadFlags (withBus b s)) := rel_ite Iff.rfl (fun _ => rfl) fun _ => rfl
  rw [show loadFlags (withBus b s) = withBus b (loadFlags s) from h]
  exact ⟨rfl, rfl⟩

theorem fetchLz_withBus (s : State) : Matches (BusShift b) (fetchLz s).outcome (fetchLz (withBus b s)).outcome := by
  obtain ⟨htake, hnext⟩ := takeFlag_loadFlags_withBus b s
  rw [fetchLz_eq, fetchLz_eq, htake, hnext]
  exact .fetched_ite Iff.rfl
    (fun _ => .fetched_ite Iff.rfl
      (fun _ => peek_withBus b (fetchSymbol_withBus b _ _)) fun _ => fetchSymbol_withBus b _ _)
    fun _ => unitDone_withBus b s

theorem fetchRle_withBus (s : State) : Matches (BusShift b) (fetchRle s).outcome (fetchRle (withBus b s)).outcome :=
  .fetched_ite Iff.rfl
    (fun _ => peek_withBus b (.fetched_ite Iff.rfl
      (fun _ => peek_withBus b (s := advanceIp 1 { s with rle := _ }) (runDecoded_withBus b _ _ s))
      fun _ => runDecoded_withBus b _ _ s))
    fun _ => unitDone_withBus b s

theorem fetchHufTable_withBus (s : State) :
    Matches (BusShift b) (fetchHufTable s).outcome (fetchHufTable (withBus b s)).outcome :=
  peek_withBus b (runDecoded_withBus b _ _ s)

theorem fetchXph_withBus (s : State) : Matches (BusShift b) (fetchXph s).outcome (fetchXph (withBus b s)).outcome :=
  peek_withBus b (runDecoded_raise_withBus b _ _ _ _ s s)

theorem fetchHufBit_withBus (s : State) :
    Matches (BusShift b) (fetchHufBit s).outcome (fetchHufBit (withBus b s)).outcome :=
  .fetched_ite Iff.rfl (fun _ => unitDone_withBus b s) fun _ => .fetched_ite Iff.rfl
    (fun _ => peek_withBus b (runDecoded_withBus b _ _ s)) fun _ => runDecoded_withBus b _ _ s

theorem fetchHufChild_withBus (idx : Nat) (leaf : Bool) (s : State) :
    Matches (BusShift b) (fetchHufChild idx leaf s).outcome (fetchHufChild idx leaf (withBus b s)).outcome :=
  .fetched_ite Iff.rfl
    (fun _ => .fetched_ite Iff.rfl
      (fun _ => runDecoded_raise_withBus b _ _ _ _ s { s with huf := { s.huf with cur := s.tbl.read idx } })
      fun _ => runDecoded_withBus b _ _ s)
    fun _ => runDecoded_withBus b _ _ s

theorem fetchRecord_withBus (s : State) :
    Matches (BusShift b) (fetchRecord s).outcome (fetchRecord (withBus b s)).outcome := by
  refine .fetched_ite Iff.rfl
    (fun _ => peek_withBus b (s := { s with str := _ }) (runDecoded_withBus b _ _ { s with str := _ })) fun _ => ?_
  exact rel_ite (R := BusShift b) Iff.rfl (fun _ => rfl) fun _ => rel_ite Iff.rfl (fun _ => rfl) fun _ => rfl

theorem lookupName_withBus (p : Nat) (s : State) : BusShift b (lookupName p s) (lookupName p (withBus b s)) := by
  rw [lookupName_eq, lookupName_eq]
  refine rel_ite Iff.rfl (fun _ => rfl) fun _ => ?_
  show BusShift b (lookupAnswer (lutFind (crc32 s.cfg (nameAt p s)) s.lut) p _ _)
    (lookupAnswer (lutFind (crc32 s.cfg (nameAt p s)) s.lut) p _ _)
  cases lutFind (crc32 s.cfg (nameAt p s)) s.lut <;> exact rfl

theorem resultAnswer_withBus (o : Option Nat) (bytes : List Byte) (s : State) :
    BusShift b (resultAnswer o bytes s) (resultAnswer o bytes (withBus b s)) := by
  cases o with
  | some n => exact rel_ite Iff.rfl (fun _ => rfl) fun _ => rfl
  | none => exact rel_ite Iff.rfl (fun _ => raiseLength_withBus b _ _ s) fun _ => rfl

theorem writeResult_withBus (s : State) : Matches (BusShift b) (writeResult s) (writeResult (withBus b s)) := by
  rw [writeResult_eq, writeResult_eq]
  exact .ite Iff.rfl (fun _ => rfl) fun _ => resultAnswer_withBus b _ _ s

theorem fetchFls_withBus (s : State) : Matches (BusShift b) (fetchFls s).outcome (fetchFls (withBus b s)).outcome := by
  rw [fetchFls_eq, fetchFls_eq]
  refine .fetched_ite Iff.rfl (fun _ => rfl) fun _ => ?_
  show Matches (BusShift b) (flsFetched (decode .fls (s.inp.readN 0 s.host.inLen.toNat)) s).outcome
    (flsFetched (decode .fls (s.inp.readN 0 s.host.inLen.toNat)) (withBus b s)).outcome
  cases decode .fls (s.inp.readN 0 s.host.inLen.toNat) with
  | ok r => exact .fetched_ite Iff.rfl (fun _ => exec_withBus b _ { s with str := _ }) fun _ => rfl
  | error e => cases e <;> exact rfl

theorem fetchAt_withBus (p : Phase) (s : State) :
    Matches (BusShift b) (fetchAt p s).outcome (fetchAt p (withBus b s)).outcome := by
  cases p with
  | idle => exact rfl
  | header =>
    exact .fetched_ite Iff.rfl (fun _ => rfl) fun _ =>
      peek_withBus b (runDecoded_withBus b _ _ s)
  | zlibMagic =>
    exact .fetched_ite Iff.rfl (fun _ => rfl) fun _ =>
      peek_withBus b (runDecoded_raise_withBus b _ _ _ _ s s)
  | lz => exact fetchLz_withBus b s
  | rle => exact fetchRle_withBus b s
  | hufTable => exact fetchHufTable_withBus b s
  | hufBit => exact fetchHufBit_withBus b s
  | hufChild idx leaf => exact fetchHufChild_withBus b idx leaf s
  | finish => exact unitDone_withBus b s
  | xpckMagic =>
    exact .fetched_ite Iff.rfl (fun _ => rfl) fun _ => .fetched_ite Iff.rfl (fun _ => rfl) fun _ =>
      runDecoded_raise_withBus b _ _ _ _ s s
  | xph => exact fetchXph_withBus b s
  | countField => exact runDecoded_withBus b .countField (s.inp.readN 4 2) s
  | records => exact fetchRecord_withBus b s
  | lookup p => exact .fetched_ite Iff.rfl (fun _ => lookupName_withBus b p s) fun _ => writeResult_withBus b s
  | report e => exact runDecoded_withBus b .rpt _ s
  | fls => exact fetchFls_withBus b s

/-- The core's step is the same whatever requests are pending. -/
theorem coreStep_withBus (s : State) : Matches (BusShift b) (coreStep s) (coreStep (withBus b s)) := by
  unfold coreStep
  rw [fetchCore_eq, fetchCore_eq]
  exact .fetched_ite Iff.rfl (fun _ => fetchAt_withBus b s.phase s) fun _ => rfl

/-- The core's step leaves the pending requests as they are. -/
theorem coreStep_bus {s t : State} (h : coreStep s = .next t) : t.bus = s.bus := by
  obtain ⟨u, hu, hshift⟩ := (coreStep_withBus s.bus s).next h
  have heq : coreStep (withBus s.bus s) = coreStep s := rfl
  rw [heq, h] at hu
  cases hu
  have hbus : t.bus = (withBus s.bus t).bus := congrArg State.bus hshift
  exact hbus

theorem coreStep_of_withBus {s t : State} (h : coreStep (withBus [] s) = .next t) (hb : withBus b s = s) :
    coreStep s = .next (withBus b t) := by
  obtain ⟨u, hu, hshift⟩ := (coreStep_withBus b (withBus [] s)).next h
  rw [← show withBus b (withBus [] s) = s from hb, hu, show u = withBus b t from hshift]

/-! ## Registers (R22, R333) -/

theorem writeReg_idle {v : Word} {s : State} (hb : s.host.busy = false) :
    writeReg .inLen v s = { s with host := { s.host with inLen := v } } ∧
    writeReg .arg0 v s = { s with host := { s.host with arg0 := v } } ∧
    writeReg .arg1 v s = { s with host := { s.host with arg1 := v } } := by
  have hne : ¬s.host.busy = true := by simp [hb]
  exact ⟨if_neg hne, if_neg hne, if_neg hne⟩

/-- The offsets of the read-only registers. -/
theorem regAt_readOnly {off : Nat} (h : off ∈ [0x04, 0x08, 0x0C, 0x14, 0x20, 0x24, 0x28]) :
    ∃ r, regAt off = some r ∧ r ≠ .cmd ∧ r ≠ .inLen ∧ r ≠ .arg0 ∧ r ≠ .arg1 := by
  simp only [List.mem_cons, List.not_mem_nil, or_false] at h
  rcases h with rfl | rfl | rfl | rfl | rfl | rfl | rfl <;> exact ⟨_, rfl, by decide⟩

/-- The offsets of the registers besides `CMD`. -/
theorem regAt_of_mem {off : Nat} (h : off ∈ regOffsets) : off = 0 ∨ ∃ r, regAt off = some r ∧ r ≠ .cmd := by
  simp only [regOffsets, List.mem_cons, List.not_mem_nil, or_false] at h
  rcases h with rfl | h
  · exact .inl rfl
  · rcases h with rfl | rfl | rfl | rfl | rfl | rfl | rfl | rfl | rfl | rfl <;> exact .inr ⟨_, rfl, by decide⟩

/-- While a command runs a write of any register changes nothing (R23, R333). -/
theorem hostWriteReg_busy {off : Nat} {v : Word} {s : State} (hoff : off ∈ regOffsets) (hb : s.host.busy = true) :
    (hostWriteReg off v s).outcome = .next s := by
  rcases regAt_of_mem hoff with rfl | ⟨r, hr, hc⟩
  · rcases hostWriteReg_cmd v with ⟨i, hf, hrun⟩ | hstop
    · rw [hrun]; exact exec_command_busy hf hb
    · rw [hstop, reservedCommand_busy hb]; rfl
  · rw [hostWriteReg_of_regAt hr hc, writeReg_busy hb]; rfl

/-- The registers whose reads wait for `BUSY = 0`, with their values. -/
theorem regAt_valued {h : HostRegs} {off : Nat} {val : Word}
    (hoff : (off, val) ∈ [(0x08, h.errCode.setWidth 32), (0x0C, h.errInfo), (0x10, h.inLen), (0x14, h.outLen),
      (0x18, h.arg0), (0x1C, h.arg1), (0x20, h.res0), (0x24, h.res1), (0x28, h.rptCnt)]) :
    ∃ r, regAt off = some r ∧ r ≠ .status ∧ r ≠ .cmd ∧ regValue h r = val := by
  simp only [List.mem_cons, Prod.mk.injEq, List.not_mem_nil, or_false] at hoff
  rcases hoff with ⟨rfl, rfl⟩ | ⟨rfl, rfl⟩ | ⟨rfl, rfl⟩ | ⟨rfl, rfl⟩ | ⟨rfl, rfl⟩ | ⟨rfl, rfl⟩ | ⟨rfl, rfl⟩ |
    ⟨rfl, rfl⟩ | ⟨rfl, rfl⟩ <;> exact ⟨_, rfl, by decide, by decide, rfl⟩

theorem hostReadReg_of_regAt {off : Nat} {s : State} {r : HostReg} (hr : regAt off = some r) :
    hostReadReg off s = .next (readReg r s) := by
  unfold hostReadReg; rw [hr]

theorem readReg_of_value {r : HostReg} {s : State} (h : ¬(s.host.busy = true ∧ r ≠ .status ∧ r ≠ .cmd)) :
    readReg r s = returnWord (regValue s.host r) s := if_neg h

theorem readReg_busy {r : HostReg} {s : State} (hb : s.host.busy = true) (hs : r ≠ .status) (hc : r ≠ .cmd) :
    readReg r s = returnFree s := if_pos ⟨hb, hs, hc⟩

/-- Settles O51: register accesses by the register at the offset; a poll and a pass by the core's step being the same
whatever requests are pending. -/
theorem hostRegisterAccess : Obligations.HostRegisterAccess := by
  refine ⟨fun s rest v => ⟨fun hb => ?takes, fun off hoff h => ?readOnly, fun hb off hoff h => ?busy⟩,
    fun s rest => ⟨fun h => ?cmd, fun h => ?status, fun h hb => ?pollIdle, fun h hb t ht => ?pollBusy,
    fun h t ht => ?pass, statusWord_eq s.host, fun off val hoff h => ?value, fun off v hoff => ?noRegister⟩⟩
  case takes =>
    obtain ⟨hlen, h0, h1⟩ := writeReg_idle (v := v) (s := { s with bus := rest }) hb
    refine ⟨fun h => ?_, fun h => ?_, fun h => ?_⟩ <;> rw [step_writeReg h, hostWriteReg_of_regAt rfl (by decide)]
    · rw [hlen]; rfl
    · rw [h0]; rfl
    · rw [h1]; rfl
  case readOnly =>
    obtain ⟨r, hr, hc, hro⟩ := regAt_readOnly hoff
    rw [step_writeReg h, hostWriteReg_of_regAt hr hc, writeReg_readOnly hro]; rfl
  case busy =>
    rw [step_writeReg h]; exact hostWriteReg_busy hoff hb
  case cmd =>
    rw [step_readReg h, hostReadReg_of_regAt rfl, readReg_of_value (by simp)]; rfl
  case status =>
    rw [step_readReg h, hostReadReg_of_regAt rfl, readReg_of_value (by simp), ← statusWord_eq]; rfl
  case pollIdle =>
    rw [step_poll_idle h hb, statusWord_eq]; rfl
  case pollBusy =>
    rw [step_poll_busy h hb]
    rw [step_eq_coreStep rfl] at ht
    exact coreStep_of_withBus (.poll :: rest) ht (by rw [← h]; rfl)
  case pass =>
    rw [step_pass h]
    rw [step_eq_coreStep rfl] at ht
    exact coreStep_of_withBus rest (s := { s with bus := rest }) ht rfl
  case value =>
    obtain ⟨r, hr, hs, hc, rfl⟩ := regAt_valued hoff
    rw [step_readReg h, hostReadReg_of_regAt hr]
    refine ⟨fun hb => ?_, fun hb => ?_⟩
    · rw [readReg_of_value (by simp [hb])]; rfl
    · rw [readReg_busy (s := { s with bus := rest }) hb hs hc]; rfl
  case noRegister =>
    have hnone : regAt off = none := regAt_eq_none hoff
    refine ⟨fun h => ?_, fun h => ?_⟩
    · rw [step_readReg h]; unfold hostReadReg; rw [hnone]
    · rw [step_writeReg h]; unfold hostWriteReg; rw [hnone]; rfl

end Sys2Proof.Machine
end

section
/-! SUPPORT. The invariant `StateOk`, taken apart: what holds of the registers and spaces while a command runs
(`Running`), what is added while it has a stream before it (`InCommand`), and how a state inside the invariant is made
from these. -/

namespace Sys2Proof.Machine

/-! ## Widths by group of registers (10_state.md R24 to R34) -/

/-- The stream registers inside their widths (R24 to R26). -/
structure StrWidth (r : StreamRegs) : Prop where
  ip : r.ip < 2 ^ 32
  op : r.op < 2 ^ 32
  base : r.base < 2 ^ 32
  limit : r.limit < 2 ^ 32
  size : r.size ≤ Config.sizeMax

/-- The LZ decoder's registers inside their widths (R30). -/
structure LzWidth (r : LzRegs) : Prop where
  fcnt : r.fcnt ≤ 8
  len : r.len ≤ 18
  disp : r.disp < 4096

/-- The Huffman decoder's registers inside their widths (R31). -/
structure HufWidth (r : HufRegs) : Prop where
  depth : r.depth ≤ 8
  bitCnt : r.bitCnt ≤ 32
  next : r.next ≤ 639
  need : r.need < 2 ^ 30

/-- The archive unit's registers inside their widths (R34). -/
structure XpckWidth (r : XpckRegs) : Prop where
  cnt : r.cnt ≤ Config.countMax
  infoOff : r.infoOff < 2 ^ 18
  nameOff : r.nameOff < 2 ^ 18
  dataOff : r.dataOff < 2 ^ 18
  f4 : r.f4 < 2 ^ 18
  recIdx : r.recIdx ≤ Config.countMax
  ntLen : r.ntLen < 2 ^ 32

theorem widthOk_iff {s : State} :
    WidthOk s ↔ StrWidth s.str ∧ LzWidth s.lz ∧ HufWidth s.huf ∧ s.rle.count ≤ 130 ∧ XpckWidth s.xp := by
  constructor
  · rintro ⟨hip, hop, hbase, hlimit, hsize, hfcnt, hlen, hdisp, hdepth, hbit, hnext, hneed, hrle, hcnt, hinfo, hname,
      hdata, hf4, hrec, hnt⟩
    exact ⟨⟨hip, hop, hbase, hlimit, hsize⟩, ⟨hfcnt, hlen, hdisp⟩, ⟨hdepth, hbit, hnext, hneed⟩, hrle,
      ⟨hcnt, hinfo, hname, hdata, hf4, hrec, hnt⟩⟩
  · rintro ⟨⟨hip, hop, hbase, hlimit, hsize⟩, ⟨hfcnt, hlen, hdisp⟩, ⟨hdepth, hbit, hnext, hneed⟩, hrle,
      ⟨hcnt, hinfo, hname, hdata, hf4, hrec, hnt⟩⟩
    exact ⟨hip, hop, hbase, hlimit, hsize, hfcnt, hlen, hdisp, hdepth, hbit, hnext, hneed, hrle, hcnt, hinfo, hname,
      hdata, hf4, hrec, hnt⟩

/-! ## The host registers while a command runs (R27 to R29, R43) -/

/-- What `HostOk` says of the host registers and of `RPT` while `BUSY = 1`. -/
structure HostRunning (cfg : Config) (h : HostRegs) (rpt : List RptEntry) : Prop where
  busy : h.busy = true
  done : h.done = false
  err : h.err = false
  errCode : h.errCode = 0#3
  errInfo : h.errInfo = 0#32
  outLen : h.outLen = 0#32
  rptFlag : h.rptFlag = true ↔ h.rptCnt ≠ 0#32
  rptLength : rpt.length = min h.rptCnt.toNat cfg.rptCap
  rptCode : ∀ e ∈ rpt, e.code = 5#32

theorem HostOk.running {s : State} (h : HostOk s) (hb : s.host.busy = true) : HostRunning s.cfg s.host s.rpt := by
  obtain ⟨hbd, hed, hcode, -, hinfo, -, hflag, hlen, hrpt, -, hout⟩ := h
  have hd : s.host.done = false := by
    cases hd : s.host.done with
    | false => rfl
    | true => exact absurd ⟨hb, hd⟩ hbd
  have he : s.host.err = false := by
    cases he : s.host.err with
    | false => rfl
    | true => rw [hed he] at hd; cases hd
  exact ⟨hb, hd, he, hcode.1 he, hinfo he, hout hb, hflag, hlen, hrpt⟩

theorem HostOk.phase_ne_idle {s : State} (h : HostOk s) (hb : s.host.busy = true) : s.phase ≠ .idle := by
  obtain ⟨-, -, -, -, -, -, -, -, -, hidle, -⟩ := h
  intro hp
  rw [hidle.2 hp] at hb
  cases hb

theorem HostRunning.hostOk {s : State} (h : HostRunning s.cfg s.host s.rpt) (hp : s.phase ≠ .idle) : HostOk s := by
  refine ⟨?_, ?_, ?_, ?_, fun _ => h.errInfo, ?_, h.rptFlag, h.rptLength, h.rptCode, ?_, fun _ => h.outLen⟩
  · simp [h.done]
  · simp [h.err]
  · simp [h.err, h.errCode]
  · simp [h.errCode]
  · simp [h.err]
  · simp [h.busy, hp]

/-- A failure leaves the host registers agreeing with each other (R300); `HashNotFound` is only reported (R305). -/
theorem HostRunning.hostOk_raise {s : State} (h : HostRunning s.cfg s.host s.rpt) {f : Failure}
    (hf : f ≠ .hashNotFound) (v : Nat) : HostOk (raise f v s) := by
  refine ⟨?_, ?_, ?_, ?_, ?_, ?_, h.rptFlag, h.rptLength, h.rptCode, ?_, ?_⟩
  · simp
  · simp
  · cases f <;> simp [Failure.code]
  · cases f <;> simp [Failure.code] at hf ⊢
  · simp
  · simp
  · simp
  · simp

/-- So does the successful end (R130). -/
theorem HostRunning.hostOk_endCommand {s : State} (h : HostRunning s.cfg s.host s.rpt) : HostOk (endCommand s) := by
  refine ⟨?_, ?_, ?_, ?_, fun _ => h.errInfo, ?_, h.rptFlag, h.rptLength, h.rptCode, ?_, ?_⟩
  · simp
  · simp
  · simp [h.err, h.errCode]
  · simp [h.errCode]
  · simp [h.err]
  · simp
  · simp

/-- The prologue puts the host registers in order, whatever they were (R47). -/
theorem hostRunning_prologue (s : State) : HostRunning (prologue s).cfg (prologue s).host (prologue s).rpt :=
  ⟨rfl, rfl, rfl, rfl, rfl, rfl, by simp, by simp, by simp⟩

/-! ## A command runs -/

/-- The part of the invariant that does not look at the stream or at the control point, while `BUSY = 1`. -/
structure Running (s : State) : Prop where
  host : HostRunning s.cfg s.host s.rpt
  spaces : SpacesOk s
  str : StrWidth s.str
  lz : LzWidth s.lz
  huf : HufWidth s.huf
  rle : s.rle.count ≤ 130
  xp : XpckWidth s.xp

theorem Running.widthOk {s : State} (h : Running s) : WidthOk s := widthOk_iff.2 ⟨h.str, h.lz, h.huf, h.rle, h.xp⟩

/-- A command runs with its stream and `LUT` in order. -/
structure InCommand (s : State) : Prop extends Running s where
  stream : StreamOk s
  lut : LutOk s

theorem Running.raise {s : State} (h : Running s) (v : Nat) {f : Failure} (hf : f ≠ .hashNotFound := by decide) :
    StateOk (raise f v s) :=
  ⟨h.host.hostOk_raise hf v, h.spaces, h.widthOk, fun hb => absurd hb (by simp)⟩

theorem Running.endCommand {s : State} (h : Running s) : StateOk (endCommand s) :=
  ⟨h.host.hostOk_endCommand, h.spaces, h.widthOk, fun hb => absurd hb (by simp)⟩

theorem Running.raiseFree {s : State} (h : Running s) (n : Nat) {f : Failure} (hf : f ≠ .hashNotFound := by decide) :
    StateOk (raiseFree f n s) := h.raise _ hf

theorem Running.raiseLength {s : State} (h : Running s) (n : Nat) {f : Failure}
    (hf : f ≠ .hashNotFound := by decide) : StateOk (raiseLength f n s) :=
  ite_of (fun _ => h.raise n hf) fun _ => h.raiseFree n hf

/-- The facts of a control point do not look at the control point itself. -/
theorem phaseOk_at {s : State} {p : Phase} (hp : s.phase = p) : PhaseOk s ↔ PhaseOk { s with phase := p } := by
  subst hp; rfl

/-- A running command at a control point, with that point's facts, is inside the invariant. -/
theorem InCommand.stateOk {s : State} (h : InCommand s) {p : Phase} (hp : s.phase = p) (hne : p ≠ .idle)
    (hph : PhaseOk { s with phase := p }) : StateOk s :=
  ⟨h.host.hostOk (by rw [hp]; exact hne), h.spaces, h.widthOk,
    fun _ => ⟨h.stream, h.lut, (phaseOk_at hp).2 hph⟩⟩

theorem StateOk.inCommand {s : State} (h : StateOk s) (hb : s.host.busy = true) :
    InCommand s ∧ s.phase ≠ .idle ∧ PhaseOk s := by
  obtain ⟨hhost, hspaces, hwidth, hrun⟩ := h
  obtain ⟨hstream, hlut, hph⟩ := hrun hb
  obtain ⟨hstr, hlz, hhuf, hrle, hxp⟩ := widthOk_iff.1 hwidth
  exact ⟨⟨⟨hhost.running hb, hspaces, hstr, hlz, hhuf, hrle, hxp⟩, hstream, hlut⟩, hhost.phase_ne_idle hb, hph⟩

/-- Outside a command only the host registers, the spaces and the widths count. -/
theorem stateOk_of_idle {s : State} (hb : s.host.busy = false) (hhost : HostOk s) (hspaces : SpacesOk s)
    (hwidth : WidthOk s) : StateOk s :=
  ⟨hhost, hspaces, hwidth, fun h => absurd h (by simp [hb])⟩

theorem capacity_lt (s : State) : capacity s < 2 ^ 32 := by
  unfold capacity
  split
  · exact s.cfg.scrCap.isLt
  · exact s.cfg.outCap.isLt

section
variable {s : State}

theorem InCommand.base_le_ip (h : InCommand s) : s.str.base ≤ s.str.ip := h.stream.1
theorem InCommand.ip_le_limit (h : InCommand s) : s.str.ip ≤ s.str.limit := h.stream.2.1
theorem InCommand.limit_le_inLen (h : InCommand s) : s.str.limit ≤ s.host.inLen.toNat := h.stream.2.2.1
theorem InCommand.inLen_le_inCap (h : InCommand s) : s.host.inLen.toNat ≤ s.cfg.inCap.toNat := h.stream.2.2.2
theorem InCommand.limit_lt (h : InCommand s) : s.str.limit < 2 ^ 32 := lt_of_le_of_lt h.limit_le_inLen s.host.inLen.isLt

/-- A cursor moved inside the stream. -/
theorem InCommand.setIp (h : InCommand s) {a : Nat} (hbase : s.str.base ≤ a) (hlimit : a ≤ s.str.limit) :
    InCommand { s with str := { s.str with ip := a } } :=
  { h with
    str := { h.str with ip := lt_of_le_of_lt hlimit h.limit_lt }
    stream := ⟨hbase, hlimit, h.limit_le_inLen, h.inLen_le_inCap⟩ }

theorem InCommand.advanceIp (h : InCommand s) {n : Nat} (hn : s.str.ip + n ≤ s.str.limit) :
    InCommand (advanceIp n s) :=
  h.setIp (le_trans h.base_le_ip (Nat.le_add_right _ n)) hn

/-- Output within 32 bits of `OP` (R63). -/
theorem InCommand.emitAll (h : InCommand s) {bs : List Byte} (hop : s.str.op + bs.length < 2 ^ 32) :
    InCommand (emitAll bs s) := by
  obtain ⟨hin, hout, htbl, hscr⟩ := h.spaces
  have hwf := emitAll_wf bs hout hscr
  rw [emitAll_eq] at hwf ⊢
  exact { h with
    spaces := ⟨hin, hwf.1, htbl, hwf.2⟩
    str := { h.str with op := hop } }

theorem InCommand.setOp (h : InCommand s) {n : Nat} (hn : n < 2 ^ 32) :
    InCommand { s with str := { s.str with op := n } } :=
  { h with str := { h.str with op := hn } }

theorem InCommand.setLz (h : InCommand s) {r : LzRegs} (hr : LzWidth r) : InCommand { s with lz := r } :=
  { h with lz := hr }

theorem InCommand.setHuf (h : InCommand s) {r : HufRegs} (hr : HufWidth r) : InCommand { s with huf := r } :=
  { h with huf := hr }

theorem InCommand.setRle (h : InCommand s) {r : RleRegs} (hr : r.count ≤ 130) : InCommand { s with rle := r } :=
  { h with rle := hr }

theorem InCommand.setPhase (h : InCommand s) (p : Phase) : InCommand { s with phase := p } := { h with }

end

theorem decoderOk_emitAll (bs : List Byte) (s : State) : DecoderOk (emitAll bs s) ↔ DecoderOk s := by
  rw [emitAll_eq]; rfl

@[simp] theorem capacity_emitAll (bs : List Byte) (s : State) : capacity (emitAll bs s) = capacity s := by
  rw [emitAll_eq]; rfl

/-- A stream that is the whole input is a decoder's stream. -/
theorem WholeInput.decoderOk {s : State} (hw : WholeInput s) (hn : NoNamesYet s) : DecoderOk s := ⟨.inl hw, hn⟩

/-! ## The state after the prologue and at reset -/

/-- What a command's rule finds: the whole input before it, and nothing produced. -/
structure Started (p : State) : Prop extends InCommand p where
  whole : WholeInput p
  names : NoNamesYet p
  op : p.str.op = 0

theorem Started.decoderOk {p : State} (h : Started p) : DecoderOk p := h.whole.decoderOk h.names

theorem running_prologue {s : State} (h : StateOk s) : Running (prologue s) := by
  obtain ⟨-, hspaces, hwidth, -⟩ := h
  obtain ⟨hstr, hlz, hhuf, hrle, hxp⟩ := widthOk_iff.1 hwidth
  exact ⟨hostRunning_prologue s, hspaces,
    { hstr with ip := Nat.two_pow_pos 32, op := Nat.two_pow_pos 32, base := Nat.two_pow_pos 32,
                limit := s.host.inLen.isLt },
    { hlz with fcnt := Nat.zero_le 8 }, { hhuf with bitCnt := Nat.zero_le 32 }, hrle, hxp⟩

theorem started_prologue {s : State} (h : StateOk s) (hc : s.host.inLen.toNat ≤ s.cfg.inCap.toNat) :
    Started (prologue s) :=
  { running_prologue h with
    stream := ⟨le_refl 0, Nat.zero_le _, le_refl _, hc⟩
    lut := ⟨by simp, by simp, by simp⟩
    whole := ⟨rfl, rfl, rfl⟩
    names := ⟨rfl, rfl⟩
    op := rfl }

/-- The state after reset satisfies the invariant, whatever stands outside the machine (log 26). -/
theorem applyReset_stateOk (s : State) : StateOk (applyReset s) := by
  refine stateOk_of_idle rfl ?_ reset_spaces_wf (show WidthOk State.reset by unfold WidthOk; decide)
  show HostOk { State.reset with cfg := s.cfg }
  simp [HostOk, State.reset]

/-- Settles O55: reset of the reset state is itself. -/
theorem resetStateIsOk : Obligations.ResetStateIsOk := applyReset_stateOk State.reset

end Sys2Proof.Machine
end

section
/-! SUPPORT. Every instruction keeps the invariant, at the control point that fetches it. -/

namespace Sys2Proof.Machine

/-! ## Shared ends of units -/

theorem unitDone_stateOk {s : State} (h : InCommand s) (hd : DecoderOk s) (hop : s.str.op ≤ capacity s) :
    StateOk (unitDone s) := by
  obtain ⟨-, hfound, hcnt⟩ := hd
  refine ite_of (fun hdst => ?_) fun _ => h.endCommand
  have hscr : s.str.op ≤ s.cfg.scrCap.toNat := by simpa [capacity, hdst] using hop
  have hin : InCommand { s with
      xp := { s.xp with ntLen := s.str.op }
      str := { s.str with base := 0, limit := s.host.inLen.toNat, dst := false } } :=
    { h with
      str := { h.str with base := Nat.two_pow_pos 32, limit := s.host.inLen.isLt }
      xp := { h.xp with ntLen := h.str.op }
      stream := ⟨Nat.zero_le _, le_trans h.ip_le_limit h.limit_le_inLen, le_refl _, h.inLen_le_inCap⟩ }
  refine (hin.setPhase (.lookup 0)).stateOk rfl nofun (show _ ∧ _ from ⟨⟨rfl, rfl, rfl⟩, ⟨?_, ?_, hscr⟩, Nat.zero_le _⟩)
  · simp [hfound]
  · simp [hfound, hcnt]

theorem payloadOut_stateOk {bs : List Byte} {s : State} (h : InCommand s) (hd : DecoderOk s)
    (hlen : bs.length ≤ capacity s) : StateOk (payloadOut bs s) := by
  have hlt : bs.length < 2 ^ 32 := lt_of_le_of_lt hlen (capacity_lt s)
  have hop0 := h.setOp (Nat.two_pow_pos 32)
  have hout := hop0.emitAll (bs := bs) (by simpa using hlt)
  have hdone := (hout.setIp (a := s.str.limit) (by simpa using le_trans h.base_le_ip h.ip_le_limit) (by simp)).setPhase
    .finish
  refine hdone.stateOk rfl nofun (show _ ∧ _ from ⟨?_, ?_⟩)
  · exact (decoderOk_emitAll _ _).2 hd
  · simpa [capacity] using hlen

/-- An encoder's output that fits goes on from `k`; one that does not raises (R75). -/
theorem encoderOut_stateOk {bs : List Byte} {s : State} {k : State → State} (h : InCommand s)
    (hk : ∀ t, InCommand t → t.phase = s.phase → (WholeInput s → WholeInput t) → (NoNamesYet s → NoNamesYet t) →
      t.str.op ≤ t.cfg.outCap.toNat → StateOk (k t)) : StateOk (encoderOut bs s k) := by
  obtain ⟨hin, hout, htbl, hscr⟩ := h.spaces
  have hwrote (cs : List Byte) {n : Nat} (hn : n ≤ s.cfg.outCap.toNat) :
      InCommand { s with out := s.out.writeN 0 cs, str := { s.str with op := n } } :=
    { h with
      spaces := ⟨hin, Memory.writeN_wf 0 cs hout, htbl, hscr⟩
      str := { h.str with op := lt_of_le_of_lt hn s.cfg.outCap.isLt } }
  rcases encoderOut_cases bs s k with ⟨hfit, ho⟩ | ⟨_, ho⟩ <;> rw [ho]
  · exact hk _ (hwrote bs hfit) rfl id id hfit
  · exact (hwrote _ (le_refl _)).raise _

/-! ## The LZ decoder (R171 to R175) -/

theorem InCommand.stateOk_lz {s : State} (h : InCommand s) (hp : s.phase = .lz) (hd : DecoderOk s)
    (hop : s.str.op ≤ s.str.size) (hsize : s.str.size ≤ capacity s) : StateOk s :=
  h.stateOk hp nofun (show _ ∧ _ from ⟨hd, hop, hsize⟩)

theorem lzEnter_stateOk {s : State} (h : InCommand s) (hd : DecoderOk s) : StateOk (lzEnter s) := by
  refine ite_of (fun _ => h.raise _) fun hcap => ?_
  have hin := ((h.setOp (Nat.two_pow_pos 32)).setLz (r := { s.lz with fcnt := 0 })
    { h.lz with fcnt := Nat.zero_le 8 }).setPhase .lz
  exact hin.stateOk_lz rfl hd (Nat.zero_le _) (Nat.le_of_not_lt hcap)

theorem execLit_stateOk {s : State} (byte : Byte) (h : InCommand s) (hp : s.phase = .lz) (hd : DecoderOk s)
    (hop : s.str.op < s.str.size) (hsize : s.str.size ≤ capacity s) (hip : s.str.ip + 1 ≤ s.str.limit) :
    Ensures StateOk (execLit byte s) := by
  refine ensures_withRoom fun hroom => ?_
  have hlt := capacity_lt s
  have hin := (h.advanceIp hip).emitAll (bs := [byte]) (by simp; omega)
  exact hin.stateOk_lz (by simpa using hp) ((decoderOk_emitAll _ _).2 hd)
    (by simpa using hop) (by simpa using hsize)

theorem refLength_le (l : BitVec 4) : refLength l ≤ 18 := by unfold refLength; omega

theorem execRef_stateOk {s : State} (l : BitVec 4) (d : BitVec 12) (h : InCommand s) (hp : s.phase = .lz)
    (hd : DecoderOk s) (hop : s.str.op ≤ s.str.size) (hsize : s.str.size ≤ capacity s)
    (hip : s.str.ip + 2 ≤ s.str.limit) : Ensures StateOk (execRef l d s) := by
  have hin {n : Nat} (hn : n ≤ 18) := (h.advanceIp hip).setLz (r := { s.lz with len := n, disp := refDisp d })
    { h.lz with len := hn, disp := d.isLt }
  rw [execRef_eq]
  refine .ite (fun _ => (hin (refLength_le l)).raise _) fun _ =>
    ensures_onAccepted ((hin (refLength_le l)).raise _) fun n hacc => ensures_withRoom fun hroom => ?_
  obtain ⟨hfit, hle⟩ := acceptedCount_le hacc hop
  obtain ⟨bs, rfl, hcopy⟩ := copyBack_eq_emitAll (refDisp d) n
    (advanceIp 2 { s with lz := { s.lz with len := n, disp := refDisp d } })
  have hout := (hin (le_trans hle (refLength_le l))).emitAll (bs := bs) (lt_of_le_of_lt hroom (capacity_lt s))
  refine hcopy ▸ hout.stateOk_lz (by simpa using hp) ?_ ?_ ?_
  · exact (decoderOk_emitAll _ _).2 hd
  · simpa using hfit
  · simpa [capacity] using hsize

/-! ## The RLE expander (R220 to R224) -/

theorem InCommand.stateOk_rle {s : State} (h : InCommand s) (hp : s.phase = .rle) (hd : DecoderOk s)
    (hop : s.str.op ≤ s.str.size) (hsize : s.str.size ≤ capacity s) (hip : s.str.base + 4 ≤ s.str.ip) : StateOk s :=
  h.stateOk hp nofun (show _ ∧ _ from ⟨hd, hop, hsize, hip⟩)

theorem size_le_sizeMax (z : BitVec 29) : z.toNat ≤ Config.sizeMax := Nat.le_of_lt_succ z.isLt

theorem InCommand.setHeader {s : State} (h : InCommand s) (m : BitVec 3) (z : BitVec 29) :
    InCommand { s with str := { s.str with method := m, size := z.toNat } } :=
  { h with str := { h.str with size := size_le_sizeMax z } }

theorem rleHeader_stateOk {w : Word} {s : State} (h : InCommand s) (hd : DecoderOk s)
    (hip : s.str.base + 4 ≤ s.str.ip) : StateOk (rleHeader w s) := by
  have hin := h.setHeader (headerMethod w) (headerSize w)
  refine ite_of (fun _ => hin.raise _) fun _ => ite_of (fun _ => hin.raise _) fun hcap => ?_
  exact ((hin.setOp (Nat.two_pow_pos 32)).setPhase .rle).stateOk_rle rfl hd (Nat.zero_le _) (Nat.le_of_not_lt hcap) hip

theorem rleStream_stateOk {s : State} (h : InCommand s) (hd : DecoderOk s) : Ensures StateOk (rleStream s) := by
  have hin := h.setIp (le_refl s.str.base) (le_trans h.base_le_ip h.ip_le_limit)
  exact .ite (fun _ => hin.raise _) fun _ => ensures_fetch (hin.raise _) fun hlim =>
    rleHeader_stateOk (hin.advanceIp hlim) hd (le_refl _)

theorem runCount_le (n : BitVec 7) : runCount n ≤ 130 := by unfold runCount; omega

theorem copyCount_le (n : BitVec 7) : copyCount n ≤ 128 := by unfold copyCount; omega

theorem execRun_stateOk {s : State} (n3 : BitVec 7) (v : Byte) (h : InCommand s) (hp : s.phase = .rle)
    (hd : DecoderOk s) (hop : s.str.op ≤ s.str.size) (hsize : s.str.size ≤ capacity s)
    (hbase : s.str.base + 4 ≤ s.str.ip) (hip : s.str.ip + 2 ≤ s.str.limit) : Ensures StateOk (execRun n3 v s) := by
  have hin {n : Nat} (hn : n ≤ 130) := (h.advanceIp hip).setRle (r := { ctl := runControl n3, count := n }) hn
  rw [execRun_eq]
  refine ensures_onAccepted ((hin (runCount_le n3)).raise _) fun n hacc => ensures_withRoom fun hroom => ?_
  obtain ⟨hfit, hle⟩ := acceptedCount_le hacc hop
  have hout := (hin (le_trans hle (runCount_le n3))).emitAll (bs := List.replicate n v)
    (by simpa using lt_of_le_of_lt hroom (capacity_lt s))
  refine hout.stateOk_rle (by simpa using hp) ?_ ?_ ?_ ?_
  · exact (decoderOk_emitAll _ _).2 hd
  · simpa using hfit
  · simpa [capacity] using hsize
  · simp; omega

theorem execCopy_stateOk {s : State} (n1 : BitVec 7) (h : InCommand s) (hp : s.phase = .rle)
    (hd : DecoderOk s) (hop : s.str.op ≤ s.str.size) (hsize : s.str.size ≤ capacity s)
    (hbase : s.str.base + 4 ≤ s.str.ip) (hip : s.str.ip + 1 ≤ s.str.limit) : Ensures StateOk (execCopy n1 s) := by
  have hin {n : Nat} (hn : n ≤ 130) := (h.advanceIp hip).setRle (r := { ctl := copyControl n1, count := n }) hn
  have hcount : copyCount n1 ≤ 130 := le_trans (copyCount_le n1) (by decide)
  rw [execCopy_eq]
  refine ensures_onAccepted ((hin hcount).raise _) fun n hacc => ?_
  obtain ⟨hfit, hle⟩ := acceptedCount_le hacc hop
  have hin' := hin (le_trans hle hcount)
  refine ensures_fetch (hin'.raise _) fun hlim => ensures_withRoom fun hroom => ?_
  refine ((hin'.advanceIp hlim).emitAll ?_).stateOk_rle (by simpa using hp) ?_ ?_ ?_ ?_
  · simpa using lt_of_le_of_lt hroom (capacity_lt _)
  · exact (decoderOk_emitAll _ _).2 hd
  · simpa using hfit
  · simpa [capacity] using hsize
  · simp; omega

/-! ## The Huffman decoder (R200 to R206) -/

theorem hufEnter_stateOk {s : State} (h : InCommand s) (hd : DecoderOk s) (hdepth : s.huf.depth = 4 ∨ s.huf.depth = 8) :
    StateOk (hufEnter s) :=
  ite_of (fun _ => h.raise _) fun hcap =>
    (h.setPhase .hufTable).stateOk rfl nofun (show _ ∧ _ from ⟨hd, hdepth, Nat.le_of_not_lt hcap⟩)

theorem InCommand.stateOk_hufBit {s : State} (h : InCommand s) (hp : s.phase = .hufBit) (hd : DecoderOk s)
    (hh : HufOk s) : StateOk s := h.stateOk hp nofun (show _ ∧ _ from ⟨hd, hh⟩)

theorem hufLoad_stateOk {bytes : List Byte} {s : State} (h : InCommand s) (hd : DecoderOk s)
    (hdepth : s.huf.depth = 4 ∨ s.huf.depth = 8) (hsize : s.str.size ≤ capacity s) :
    Ensures StateOk (hufLoad bytes s) := by
  obtain ⟨hinp, hout, htbl, hscr⟩ := h.spaces
  have hmax : s.str.size ≤ 536870911 := h.str.size
  have hneed : symbolCount s.huf.depth s.str.size < 2 ^ 30 := by
    rcases hdepth with hdep | hdep <;> simp [symbolCount, hdep] <;> omega
  have hin : InCommand { s with
      tbl := s.tbl.writeN 0 bytes
      str := { s.str with op := 0 }
      huf :=
        { s.huf with
          need := symbolCount s.huf.depth s.str.size, bitCnt := 0, nibv := false, cur := s.huf.root, next := 0 } } :=
    { h with
      spaces := ⟨hinp, hout, Memory.writeN_wf 0 bytes htbl, hscr⟩
      str := { h.str with op := Nat.two_pow_pos 32 }
      huf := { h.huf with bitCnt := Nat.zero_le 32, next := Nat.zero_le 639, need := hneed } }
  refine (hin.setPhase .hufBit).stateOk_hufBit rfl hd ⟨hsize, ?_, rfl, Nat.zero_le _⟩
  rcases hdepth with hdep | hdep
  · refine .inr ⟨hdep, ?_⟩
    show 2 * 0 + 0 + symbolCount s.huf.depth s.str.size = 2 * s.str.size
    rw [symbolCount, hdep]; omega
  · refine .inl ⟨hdep, ?_⟩
    show 0 + symbolCount s.huf.depth s.str.size = s.str.size
    rw [symbolCount, hdep]; omega

theorem execHufTable_stateOk {s : State} (tsize root : Byte) (h : InCommand s) (hd : DecoderOk s)
    (hdepth : s.huf.depth = 4 ∨ s.huf.depth = 8) (hsize : s.str.size ≤ capacity s)
    (hip : s.str.ip + 2 ≤ s.str.limit) : Ensures StateOk (execHufTable tsize root s) := by
  have hin := (h.advanceIp hip).setHuf (r := { s.huf with tsize := tsize, root := root }) { h.huf with }
  exact ensures_fetch (hin.raise _) fun hlim => hufLoad_stateOk (hin.advanceIp hlim) hd hdepth hsize

theorem execHufWord_stateOk {s : State} (code : Word) (h : InCommand s) (hp : s.phase = .hufBit) (hd : DecoderOk s)
    (hh : HufOk s) (hip : s.str.ip + 4 ≤ s.str.limit) : Ensures StateOk (execHufWord code s) :=
  ((h.advanceIp hip).setHuf (r := { s.huf with code := code, bitCnt := 32 })
    { h.huf with bitCnt := le_refl 32 }).stateOk_hufBit hp hd hh

/-- The index of a child stays below the table, or the stream is invalid (R202, R206). -/
theorem hufStep_stateOk {s : State} (bit : Bool) (h : InCommand s) (hd : DecoderOk s) (hh : HufOk s)
    (hneed : s.huf.need ≠ 0) : StateOk (hufStep bit s) := by
  obtain ⟨hsize, hcount, heven, hnext⟩ := hh
  have htsize := s.huf.tsize.isLt
  have hoff := (nodeOffset s.huf.cur).isLt
  have hchild : childNext s.huf.next s.huf.cur = s.huf.next + 2 * (nodeOffset s.huf.cur).toNat + 2 := rfl
  have hwide : childNext s.huf.next s.huf.cur ≤ 639 := by omega
  have hin := h.setHuf
    (r := { s.huf with
      code := s.huf.code <<< 1, bitCnt := s.huf.bitCnt - 1, next := childNext s.huf.next s.huf.cur })
    { h.huf with bitCnt := le_trans (Nat.sub_le _ 1) h.huf.bitCnt, next := hwide }
  refine ite_of (fun _ => hin.raise _) fun hidx => ?_
  have hidx' : childIndex (childNext s.huf.next s.huf.cur) bit < 2 * s.huf.tsize.toNat := Nat.lt_of_not_le hidx
  have hnext' : childNext s.huf.next s.huf.cur ≤ 2 * s.huf.tsize.toNat := by
    unfold childIndex at hidx'; omega
  refine (hin.setPhase (.hufChild _ _)).stateOk rfl nofun (show _ ∧ _ from ⟨hd, ⟨hsize, hcount, ?_, hnext'⟩,
    Nat.pos_of_ne_zero hneed, hidx'⟩)
  show childNext s.huf.next s.huf.cur % 2 = 0
  omega

theorem execHufNode_stateOk {s : State} (l r : Bool) (o : BitVec 6) (h : InCommand s) (hd : DecoderOk s)
    (hh : HufOk s) : Ensures StateOk (execHufNode l r o s) :=
  ((h.setHuf (r := { s.huf with cur := nodeByte l r o }) { h.huf with }).setPhase .hufBit).stateOk_hufBit rfl hd hh

/-- Back at the root with one symbol fewer to decode (R202). -/
theorem hufRestart_stateOk {s : State} (h : InCommand s) (hd : DecoderOk s) (hsize : s.str.size ≤ capacity s)
    (hcount : (s.huf.depth = 8 ∧ s.str.op + (s.huf.need - 1) = s.str.size) ∨
      (s.huf.depth = 4 ∧ 2 * s.str.op + s.huf.nibv.toNat + (s.huf.need - 1) = 2 * s.str.size)) :
    StateOk (hufRestart s) :=
  ((h.setHuf (r := { s.huf with need := s.huf.need - 1, cur := s.huf.root, next := 0 })
    { h.huf with next := Nat.zero_le 639, need := lt_of_le_of_lt (Nat.sub_le _ 1) h.huf.need }).setPhase
      .hufBit).stateOk_hufBit rfl hd ⟨hsize, hcount, rfl, Nat.zero_le _⟩

theorem execHufLeaf8_stateOk {s : State} (b : Byte) (h : InCommand s) (hd : DecoderOk s) (hh : HufOk s)
    (hneed : 0 < s.huf.need) (hdepth : s.huf.depth ≠ 4) : Ensures StateOk (execHufLeaf8 b s) := by
  obtain ⟨hsize, hcount, -, -⟩ := hh
  refine ensures_withRoom fun hroom => ?_
  have hlt := capacity_lt s
  refine hufRestart_stateOk (h.emitAll (bs := [b]) (by simp; omega)) ((decoderOk_emitAll [b] s).2 hd)
    (by simpa using hsize) (.inl ?_)
  simp; omega

theorem execHufLeaf4_stateOk {s : State} (x : BitVec 4) (h : InCommand s) (hd : DecoderOk s) (hh : HufOk s)
    (hneed : 0 < s.huf.need) (hdepth : s.huf.depth = 4) : Ensures StateOk (execHufLeaf4 x s) := by
  obtain ⟨hsize, hcount, -, -⟩ := hh
  refine .ite (fun hnib => ensures_withRoom fun hroom => ?_) fun hnib => ?_
  · have hlt := capacity_lt s
    have hin := (h.emitAll (bs := [x ++ s.huf.nib]) (by simp; omega)).setHuf (r := { s.huf with nibv := false })
      { h.huf with }
    refine hufRestart_stateOk hin ((decoderOk_emitAll [x ++ s.huf.nib] s).2 hd) (by simpa [capacity] using hsize)
      (.inr ?_)
    simp [hnib] at hcount ⊢
    omega
  · have hin := h.setHuf (r := { s.huf with nib := x, nibv := true }) { h.huf with }
    refine hufRestart_stateOk hin hd hsize (.inr ?_)
    simp [hnib] at hcount ⊢
    omega

end Sys2Proof.Machine
end

section
/-! SUPPORT. The invariant, continued: the dispatcher, the archive unit and the commands. -/

namespace Sys2Proof.Machine

/-! ## The dispatcher (R150 to R159) -/

theorem InCommand.beginMethod {s : State} (h : InCommand s) (m : BitVec 3) (z : BitVec 29)
    (hip : s.str.ip + 4 ≤ s.str.limit) : InCommand (beginMethod m z s) :=
  { h.advanceIp hip with
    str := { (h.advanceIp hip).str with op := Nat.two_pow_pos 32, size := size_le_sizeMax z } }

theorem storePayload_stateOk {s : State} (h : InCommand s) (hd : DecoderOk s) : Ensures StateOk (storePayload s) :=
  .ite (fun _ => h.raise _) fun _ => .ite (fun _ => h.raise _) fun hcap => .ite (fun _ => trivial) fun _ =>
    payloadOut_stateOk h hd (by simpa using hcap)

theorem zlibAnswer_stateOk {r : Option (List Byte)} {s : State} (h : InCommand s) (hd : DecoderOk s) :
    StateOk (zlibAnswer r s) := by
  cases r with
  | none => exact h.raise _
  | some bytes =>
    exact ite_of (fun _ => h.raise _) fun _ => ite_of (fun _ => h.raiseLength _) fun hcap =>
      payloadOut_stateOk h hd (Nat.le_of_not_lt hcap)

theorem hufMethod_stateOk {s : State} {d : Nat} (h : InCommand s) (hd : DecoderOk s) (hdepth : d = 4 ∨ d = 8) :
    StateOk (hufMethod d s) :=
  hufEnter_stateOk (h.setHuf (r := { s.huf with depth := d }) { h.huf with depth := by show d ≤ 8; omega }) hd hdepth

/-- The eight methods of a container header (R151 to R157). -/
theorem headerInstr_stateOk {s : State} (m : BitVec 3) (z : BitVec 29) (h : InCommand s) (hd : DecoderOk s)
    (hip : s.str.ip + 4 ≤ s.str.limit) : Ensures StateOk (exec (headerInstr m z) s) := by
  have hin (m : BitVec 3) := h.beginMethod m z hip
  refine headerInstr_cases (Q := fun i => Ensures StateOk (exec i s)) z ?_ ?_ ?_ ?_ ?_ ?_ ?_ ?_ m
  · exact storePayload_stateOk (hin _) hd
  · exact lzEnter_stateOk (hin _) hd
  · exact hufMethod_stateOk (hin _) hd (.inl rfl)
  · exact hufMethod_stateOk (hin _) hd (.inr rfl)
  · exact rleStream_stateOk (hin _) hd
  · exact ((hin 5#3).setPhase .zlibMagic).stateOk rfl nofun (show DecoderOk _ from hd)
  · exact (hin _).raise _
  · exact (hin _).raise _

theorem dispatchEnter_stateOk {s : State} (h : InCommand s) (hd : DecoderOk s) (hop : s.str.op = 0) :
    StateOk (dispatchEnter s) :=
  ((h.setIp (le_refl s.str.base) (le_trans h.base_le_ip h.ip_le_limit)).setPhase .header).stateOk rfl nofun
    (show _ ∧ _ from ⟨hd, rfl, hop⟩)

/-! ## XPCK_OPEN (R247 to R255) -/

theorem execXpckMagic_stateOk {s : State} (h : InCommand s) (hw : WholeInput s) (hn : NoNamesYet s)
    (hop : s.str.op = 0) (hlen : 4 ≤ s.host.inLen.toNat) : Ensures StateOk (execXpckMagic s) := by
  have ⟨hbase, hlimit, _⟩ := hw
  exact ((h.setIp (a := 4) (by omega) (by omega)).setPhase .xph).stateOk rfl nofun (show _ ∧ _ from ⟨hw, hn, hop⟩)

theorem countDecode_le (mode : CountMode) (cf : BitVec 16) : countDecode mode cf ≤ Config.countMax := by
  unfold countDecode
  dsimp only
  split
  · rename_i hbranch
    exact le_trans hbranch.2.2.1 (by decide)
  · exact Nat.le_of_lt_succ (Nat.mod_lt _ (by decide))

theorem execXph_stateOk {s : State} (c io no d f l : BitVec 16) (k : Word) (h : InCommand s) (hw : WholeInput s)
    (hn : NoNamesYet s) (hop : s.str.op = 0) (hip : s.str.ip + 10 ≤ s.str.limit) :
    Ensures StateOk (execXph c io no d f l k s) := by
  have hunit (x : BitVec 16) : 4 * x.toNat < 2 ^ 18 := by omega
  have hin : InCommand { advanceIp 10 s with
      xp :=
        { s.xp with
          cnt := countDecode s.cfg.countDecode c
          infoOff := 4 * io.toNat, nameOff := 4 * no.toNat, dataOff := 4 * d.toNat, f4 := 4 * f.toNat } } :=
    { h.advanceIp hip with
      xp :=
        { h.xp with
          cnt := countDecode_le _ c, infoOff := hunit io, nameOff := hunit no, dataOff := hunit d, f4 := hunit f } }
  exact (hin.setPhase .countField).stateOk rfl nofun (show _ ∧ _ from ⟨hw, hn, hop⟩)

theorem execCountField_stateOk {s : State} (f1 f2 : Byte) (h : InCommand s) (hw : WholeInput s) (hn : NoNamesYet s)
    (hop : s.str.op = 0) : Ensures StateOk (execCountField f1 f2 s) := by
  have hin : InCommand { s with
      xp := { s.xp with cnt := countDecode s.cfg.countDecode (u16le f1 f2), recIdx := 0 }, lut := [] } :=
    { h with
      xp := { h.xp with cnt := countDecode_le _ _, recIdx := Nat.zero_le _ }
      lut := ⟨by simp, by simp, by simp⟩ }
  exact (hin.setPhase .records).stateOk rfl nofun
    (show _ ∧ _ from ⟨hw, hn, hop, Nat.zero_le _, Nat.zero_le _⟩)

theorem lutInsert_length_le (e : LutEntry) (lut : List LutEntry) : (lutInsert e lut).length ≤ lut.length + 1 :=
  Nat.succ_le_succ (List.length_filter_le _ _)

/-- Insertion keeps keys distinct and every entry inside the input (R42, R250). -/
theorem LutOk.insert {s : State} (h : LutOk s) {e : LutEntry} (he : e.addr + e.size ≤ s.host.inLen.toNat)
    (hlen : s.lut.length < Config.countMax) : LutOk { s with lut := lutInsert e s.lut } := by
  obtain ⟨hin, hkeys, -⟩ := h
  refine ⟨?_, ?_, le_trans (lutInsert_length_le e s.lut) hlen⟩
  · intro x hx
    rcases List.mem_cons.1 hx with rfl | hx
    · exact he
    · exact hin x (List.mem_filter.1 hx).1
  · refine List.nodup_cons.2 ⟨?_, hkeys.sublist (List.filter_sublist.map _)⟩
    simp

theorem execXpr_stateOk {s : State} (crc : Word) (n ol sl : BitVec 16) (oh sh : Byte) (h : InCommand s)
    (hw : WholeInput s) (hn : NoNamesYet s) (hop : s.str.op = 0) (hrec : s.xp.recIdx < s.xp.cnt)
    (hlut : s.lut.length ≤ s.xp.recIdx) (hip : s.str.ip + 12 ≤ s.str.limit) :
    Ensures StateOk (execXpr crc n ol sl oh sh s) := by
  have hcnt := h.xp.cnt
  refine .ite (fun _ => (h.advanceIp hip).raise _) fun hfit => ?_
  have hin : InCommand { advanceIp 12 s with
      lut := lutInsert
        { key := crc, addr := recordAddr s.xp.dataOff ol oh, size := recordSize sl sh } s.lut
      xp := { s.xp with recIdx := s.xp.recIdx + 1 } } :=
    { h.advanceIp hip with
      lut := h.lut.insert (e := { key := crc, addr := _, size := _ }) (Nat.le_of_not_lt hfit) (by omega)
      xp := { h.xp with recIdx := by show s.xp.recIdx + 1 ≤ _; omega } }
  exact (hin.setPhase .records).stateOk rfl nofun (show _ ∧ _ from
    ⟨hw, hn, hop, hrec, le_trans (lutInsert_length_le _ _) (Nat.succ_le_succ hlut)⟩)

theorem readNames_stateOk {s : State} (h : InCommand s) (hn : NoNamesYet s) (hop : s.str.op = 0) :
    StateOk (readNames s) := by
  refine ite_of (fun _ => h.raise _) fun hname => ite_of (fun _ => h.raise _) fun hdata => ?_
  have hname' : s.xp.nameOff ≤ s.xp.dataOff := Nat.le_of_not_lt hname
  have hdata' : s.xp.dataOff ≤ s.host.inLen.toNat := Nat.le_of_not_lt hdata
  have hlt : s.xp.dataOff < 2 ^ 32 := lt_of_le_of_lt hdata' s.host.inLen.isLt
  have hin : InCommand { s with
      str := { s.str with ip := s.xp.nameOff, base := s.xp.nameOff, limit := s.xp.dataOff, dst := true } } :=
    { h with
      str := { h.str with ip := lt_of_le_of_lt hname' hlt, base := lt_of_le_of_lt hname' hlt, limit := hlt }
      stream := ⟨le_refl _, hname', hdata', h.inLen_le_inCap⟩ }
  exact (hin.setPhase .header).stateOk rfl nofun
    (show _ ∧ _ from ⟨⟨.inr ⟨rfl, rfl, rfl⟩, hn⟩, rfl, hop⟩)

/-- A name ends inside the name table (R252). -/
theorem nameAt_length_le (p : Nat) (s : State) : (nameAt p s).length ≤ s.xp.ntLen - p := by
  unfold nameAt
  exact le_trans (List.length_take_le' _ _) (by simp)

theorem lutFind_mem {k : Word} {lut : List LutEntry} {e : LutEntry} (h : lutFind k lut = some e) : e ∈ lut :=
  List.mem_of_find?_eq_some h

theorem InCommand.stateOk_lookup {s : State} (h : InCommand s) {p : Nat} (hp : s.phase = .lookup p)
    (hw : WholeInput s) (hn : NamesOk p s) (hle : p ≤ s.xp.ntLen + 1) : StateOk s :=
  h.stateOk hp nofun (show _ ∧ _ from ⟨hw, hn, hle⟩)

theorem NamesOk.mono {s : State} {p q : Nat} (h : NamesOk p s) (hpq : p ≤ q) : NamesOk q s :=
  ⟨h.1, le_trans h.2.1 hpq, h.2.2⟩

theorem lookupName_stateOk {s : State} {p : Nat} (h : InCommand s) (hw : WholeInput s) (hn : NamesOk p s)
    (hp : p < s.xp.ntLen) : StateOk (lookupName p s) := by
  have hle := nameAt_length_le p s
  have hnt := h.xp.ntLen
  rw [lookupName_eq]
  refine ite_of (fun _ => (h.setPhase _).stateOk_lookup rfl hw (hn.mono (Nat.le_succ p)) (Nat.succ_le_succ hp.le))
    fun hne => ?_
  have hpos : 1 ≤ (nameAt p s).length := List.length_pos_iff.2 hne
  obtain ⟨hfound, hcount, hcap⟩ := hn
  have hin : InCommand { s with
      crcAcc := crcRun s.cfg (nameAt p s), xp := { s.xp with recIdx := nameRec (nameIndex s) } } :=
    { h with xp := { h.xp with recIdx := nameRec_le _ } }
  cases hfind : lutFind (crc32 s.cfg (nameAt p s)) s.lut with
  | some e =>
    have hin' : InCommand { s with
        crcAcc := crcRun s.cfg (nameAt p s), xp := { s.xp with recIdx := nameRec (nameIndex s) }
        found := s.found ++ [{ off := p, len := (nameAt p s).length, addr := e.addr, size := e.size }] } := { hin with }
    refine (hin'.setPhase (.lookup (p + (nameAt p s).length + 1))).stateOk_lookup rfl hw ⟨?_, ?_, hcap⟩
      (by show p + (nameAt p s).length + 1 ≤ s.xp.ntLen + 1; omega)
    · intro f hf
      rcases List.mem_append.1 hf with hf | hf
      · exact hfound f hf
      · rw [List.mem_singleton.1 hf]
        exact ⟨by show p + (nameAt p s).length ≤ s.xp.ntLen; omega, hpos, h.lut.1 e (lutFind_mem hfind)⟩
    · show (s.found ++ [_]).length + s.host.rptCnt.toNat ≤ _
      rw [List.length_append, List.length_singleton]
      omega
  | none =>
    have hoff : (BitVec.ofNat 32 p).toNat = p := by simp; omega
    have hlen : (BitVec.ofNat 32 (nameAt p s).length).toNat = (nameAt p s).length := by simp; omega
    refine (hin.setPhase (.report _)).stateOk rfl nofun (show _ ∧ _ from ⟨hw, ⟨hfound, ?_, hcap⟩, rfl, ?_, ?_⟩)
    · show s.found.length + s.host.rptCnt.toNat ≤ (BitVec.ofNat 32 p).toNat
      rw [hoff]; exact hcount
    · show (BitVec.ofNat 32 p).toNat + (BitVec.ofNat 32 (nameAt p s).length).toNat ≤ s.xp.ntLen
      omega
    · show 1 ≤ (BitVec.ofNat 32 (nameAt p s).length).toNat
      omega

/-- A report counts one more, which does not wrap: every report took a byte of the name table (R253, R305). -/
theorem hostRunning_report {s : State} {e : RptEntry} (h : HostRunning s.cfg s.host s.rpt) (he : e.code = 5#32)
    (hcnt : s.host.rptCnt.toNat + 1 < 2 ^ 32) :
    HostRunning (report e s).cfg (report e s).host (report e s).rpt := by
  have hadd : (s.host.rptCnt + 1#32).toNat = s.host.rptCnt.toNat + 1 := by
    rw [BitVec.toNat_add]; exact Nat.mod_eq_of_lt hcnt
  refine { h with rptFlag := ?_, rptLength := ?_, rptCode := ?_ }
  · have hne : s.host.rptCnt + 1#32 ≠ 0#32 := fun h0 => by rw [h0] at hadd; exact absurd hadd (by simp)
    simp [hne]
  · have hlen := h.rptLength
    rw [report_rpt, report_host_rptCnt, report_cfg, hadd]
    split
    · rw [List.length_append, List.length_singleton]; omega
    · omega
  · intro x hx
    rw [report_rpt] at hx
    split at hx
    · rcases List.mem_append.1 hx with hx | hx
      · exact h.rptCode x hx
      · rw [List.mem_singleton.1 hx]; exact he
    · exact h.rptCode x hx

theorem execRptEntry_stateOk {s : State} (crc off len : Word) (h : InCommand s) (hw : WholeInput s)
    (hn : NamesOk off.toNat s) (hlen : off.toNat + len.toNat ≤ s.xp.ntLen) (hpos : 1 ≤ len.toNat) :
    Ensures StateOk (execRptEntry crc off len s) := by
  obtain ⟨hfound, hcount, hcap⟩ := hn
  have hnt := h.xp.ntLen
  have hadd : (s.host.rptCnt + 1#32).toNat = s.host.rptCnt.toNat + 1 := by
    rw [BitVec.toNat_add]; exact Nat.mod_eq_of_lt (by simp; omega)
  have hin : InCommand (report { code := 5#32, crc := crc, off := off, len := len } s) :=
    { h with host := hostRunning_report h.host rfl (by omega) }
  refine (hin.setPhase (.lookup (off.toNat + len.toNat + 1))).stateOk_lookup rfl hw ⟨hfound, ?_, hcap⟩
    (by show _ ≤ s.xp.ntLen + 1; omega)
  show s.found.length + (s.host.rptCnt + 1#32).toNat ≤ _
  omega

theorem writeResult_stateOk {s : State} (h : InCommand s) : Ensures StateOk (writeResult s) := by
  obtain ⟨hinp, hout, htbl, hscr⟩ := h.spaces
  rw [writeResult_eq]
  refine .ite (fun _ => trivial) fun _ => ?_
  show StateOk (resultAnswer _ _ s)
  cases longName s with
  | some n => exact ite_of (fun _ => h.raiseFree _) fun _ => h.raise _
  | none =>
    refine ite_of (fun _ => h.raiseLength _) fun hfit => ?_
    have hlt := lt_of_le_of_lt (Nat.le_of_not_lt hfit) s.cfg.outCap.isLt
    exact Running.endCommand
      { h with
        host := { h.host with }
        spaces := ⟨hinp, Memory.writeN_wf 0 _ hout, htbl, hscr⟩
        str := { h.str with op := hlt } }

/-! ## XPCK_PACK (R260 to R269) -/

theorem packDone_stateOk {s : State} (cfg : Config) (ms : List Member) (h : InCommand s) (hw : WholeInput s)
    (hn : NoNamesYet s) (hop : s.str.op ≤ s.cfg.outCap.toNat) : StateOk (packDone cfg ms s) := by
  have hin : InCommand { s with
      host := { s.host with res0 := BitVec.ofNat 32 ms.length, res1 := BitVec.ofNat 32 (packDataOff cfg ms) } } :=
    { h with host := { h.host with } }
  refine (hin.setPhase .finish).stateOk rfl nofun (show _ ∧ _ from ⟨⟨.inl hw, hn⟩, ?_⟩)
  obtain ⟨-, -, hdst⟩ := hw
  simpa [capacity, hdst] using hop

theorem execFls_stateOk {s : State} (ms : List Member) (h : InCommand s) (hw : WholeInput s) (hn : NoNamesYet s) :
    Ensures StateOk (execFls ms s) := by
  obtain ⟨hinp, hout, htbl, hscr⟩ := h.spaces
  rw [execFls_eq]
  show StateOk (flsAnswer _ ms s)
  cases refusedList s.cfg ms with
  | some v => exact h.raise v
  | none =>
    show StateOk (packAnswer _ _ s)
    cases rangeFailure s.cfg (sortByName ms) with
    | some v => exact h.raiseLength v
    | none =>
      have hin : InCommand { s with scr := packScratch s (sortByName ms), crcAcc := packCrcAcc s (sortByName ms) } :=
        { h with spaces := ⟨hinp, hout, htbl, Memory.writeN_wf _ _ (Memory.writeN_wf _ _ hscr)⟩ }
      exact encoderOut_stateOk hin fun t ht _ htw htn hop => packDone_stateOk _ _ ht (htw hw) (htn hn) hop

/-! ## Commands (R130 to R135) -/

theorem crc32Body_stateOk {p : State} (h : Started p) : Ensures StateOk (crc32Body p) :=
  Running.endCommand { h with host := { h.host with } }

theorem decHdrBody_stateOk {p : State} (h : Started p) : Ensures StateOk (decHdrBody p) :=
  .ite (fun _ => h.raise _) fun _ => Running.endCommand { h with host := { h.host with } }

theorem encHdrBody_stateOk {p : State} (h : Started p) : Ensures StateOk (encHdrBody p) := by
  obtain ⟨hinp, hout, htbl, hscr⟩ := h.spaces
  exact .ite (fun _ => h.raise _) fun _ => .ite (fun _ => h.raise _) fun _ => .ite (fun _ => h.raise _) fun _ =>
    Running.endCommand
      { h with
        spaces := ⟨hinp, Memory.writeN_wf 0 _ hout, htbl, hscr⟩
        str := { h.str with op := by show 4 < 2 ^ 32; decide } }

theorem InCommand.setSize {s : State} (h : InCommand s) {n : Nat} (hn : n ≤ Config.sizeMax) :
    InCommand { s with str := { s.str with size := n } } := { h with str := { h.str with size := hn } }

/-- A stream that is the whole input, from its first byte (R170, R200). -/
theorem Started.setSizeIp {p : State} (h : Started p) {n : Nat} (hn : n ≤ Config.sizeMax) :
    InCommand { p with str := { p.str with size := n, ip := 0 } } :=
  (h.setSize hn).setIp (a := 0) (Nat.le_of_eq h.whole.1) (Nat.zero_le _)

theorem lzDecBody_stateOk {p : State} (h : Started p) : Ensures StateOk (lzDecBody p) :=
  .ite (fun _ => h.raise _) fun hsize => lzEnter_stateOk (h.setSizeIp (Nat.le_of_not_lt hsize)) h.decoderOk

theorem hufDecBody_stateOk {p : State} (h : Started p) : Ensures StateOk (hufDecBody p) := by
  refine .ite (fun _ => h.raise _) fun hdepth => .ite (fun _ => h.raise _) fun hsize => ?_
  have hdepth' : p.host.arg0.toNat = 4 ∨ p.host.arg0.toNat = 8 := by omega
  have hin := (h.setSizeIp (Nat.le_of_not_lt hsize)).setHuf (r := { p.huf with depth := p.host.arg0.toNat })
    { h.huf with depth := by show p.host.arg0.toNat ≤ 8; omega }
  exact hufEnter_stateOk hin h.decoderOk hdepth'

theorem lzEncBody_stateOk {p : State} (h : Started p) : Ensures StateOk (lzEncBody p) :=
  .ite (fun _ => h.raise _) fun _ => encoderOut_stateOk h.toInCommand fun _ ht _ _ _ _ => ht.endCommand

theorem commandBody_stateOk (i : Instr) {p : State} (h : Started p) : Ensures StateOk (commandBody i p) :=
  commandBody_cases (Q := fun body => Ensures StateOk (body p)) h.endCommand (decHdrBody_stateOk h)
    (encHdrBody_stateOk h) (dispatchEnter_stateOk h.toInCommand h.decoderOk h.op) (lzDecBody_stateOk h)
    (hufDecBody_stateOk h) (rleStream_stateOk h.toInCommand h.decoderOk) (lzEncBody_stateOk h) (crc32Body_stateOk h)
    ((h.setPhase .xpckMagic).stateOk rfl nofun (show _ ∧ _ from ⟨h.whole, h.names, h.op⟩))
    ((h.setPhase .fls).stateOk rfl nofun (show _ ∧ _ from ⟨h.whole, h.names⟩)) i

theorem reservedCommand_stateOk (v : Word) {s : State} (h : StateOk s) : StateOk (reservedCommand v s) :=
  ite_of (fun _ => h) fun _ => (running_prologue h).raise _

/-- A command word keeps the invariant, whether or not a command runs. -/
theorem exec_command_stateOk {i : Instr} {s : State} (hf : fmtOf .big i = .cmd) (h : StateOk s) :
    Ensures StateOk (exec i s) := by
  rcases exec_command hf with ⟨_, v, he⟩ | ⟨_, he⟩ <;> rw [he]
  · exact reservedCommand_stateOk v h
  · exact ensures_startCommand (fun _ => h) (fun _ _ => (running_prologue h).raise _) fun _ hcap =>
      commandBody_stateOk i (started_prologue h hcap)

end Sys2Proof.Machine
end

section
/-! SUPPORT. The invariant, concluded: what the core fetches at each control point, and every step. -/

namespace Sys2Proof.Machine

/-! ## The LZ loop (R171) -/

/-- What the LZ loop does about the flag byte: nothing while a flag is left, else it takes one input byte. -/
theorem loadFlags_cases (s : State) :
    (s.lz.fcnt = 0 ∧
      loadFlags s = advanceIp 1 { s with lz := { s.lz with flags := s.inp.read s.str.ip, fcnt := 8 } }) ∨
    (s.lz.fcnt ≠ 0 ∧ loadFlags s = s) := by
  unfold loadFlags
  by_cases h : s.lz.fcnt = 0
  · exact .inl ⟨h, if_pos h⟩
  · exact .inr ⟨h, if_neg h⟩

theorem InCommand.takeFlag {s : State} (h : InCommand s) : InCommand (takeFlag s) :=
  h.setLz { h.lz with fcnt := le_trans (Nat.sub_le _ 1) h.lz.fcnt }

theorem InCommand.loadFlags {s : State} (h : InCommand s) (hip : s.lz.fcnt = 0 → s.str.ip + 1 ≤ s.str.limit) :
    InCommand (loadFlags s) := by
  rcases loadFlags_cases s with ⟨h0, he⟩ | ⟨_, he⟩ <;> rw [he]
  · exact (h.advanceIp (hip h0)).setLz (r := { s.lz with flags := _, fcnt := 8 }) { h.lz with fcnt := le_refl 8 }
  · exact h

theorem fetchSymbol_stateOk {s : State} (flag : Bool) (h : InCommand s) (hp : s.phase = .lz) (hd : DecoderOk s)
    (hop : s.str.op < s.str.size) (hsize : s.str.size ≤ capacity s) :
    Ensures StateOk (fetchSymbol flag s).outcome := by
  refine .fetched_ite (fun _ => ensures_peek (h.raise _) fun hip => ensures_runDecoded ?_ trivial) fun _ =>
    ensures_peek (h.raise _) fun hip => ensures_runDecoded ?_ trivial
  · intro i rest hi
    obtain ⟨l, d, rfl⟩ := decode_lzg_set hi
    exact execRef_stateOk l d h hp hd hop.le hsize hip
  · intro i rest hi
    obtain ⟨b, rfl⟩ := decode_lzg_clear hi
    exact execLit_stateOk b h hp hd hop hsize hip

theorem fetchLz_stateOk {s : State} (h : InCommand s) (hp : s.phase = .lz) (hd : DecoderOk s)
    (hop : s.str.op ≤ s.str.size) (hsize : s.str.size ≤ capacity s) : Ensures StateOk (fetchLz s).outcome := by
  have hsymbol (flag : Bool) (hlt : s.str.op < s.str.size) (hip : s.lz.fcnt = 0 → s.str.ip + 1 ≤ s.str.limit) :
      Ensures StateOk (fetchSymbol flag (takeFlag (loadFlags s))).outcome := by
    have hin := (h.loadFlags hip).takeFlag
    rcases loadFlags_cases s with ⟨_, he⟩ | ⟨_, he⟩ <;> rw [he] at hin ⊢ <;>
      exact fetchSymbol_stateOk flag hin hp hd hlt hsize
  rw [fetchLz_eq]
  refine .fetched_ite (fun hlt => .fetched_ite (fun _ => ?_) fun hf => ?_) fun _ => ?_
  · exact ensures_peek (h.raise _) fun hip => hsymbol _ hlt fun _ => hip
  · exact hsymbol _ hlt fun h0 => absurd h0 hf
  · exact unitDone_stateOk h hd (le_trans hop hsize)

/-! ## The other decoders -/

theorem fetchRle_stateOk {s : State} (h : InCommand s) (hp : s.phase = .rle) (hd : DecoderOk s)
    (hop : s.str.op ≤ s.str.size) (hsize : s.str.size ≤ capacity s) (hbase : s.str.base + 4 ≤ s.str.ip) :
    Ensures StateOk (fetchRle s).outcome := by
  refine .fetched_ite (fun _ => ensures_peek (h.raise _) fun hip => .fetched_ite (fun hrun => ?_) fun hcopy => ?_)
    fun _ => unitDone_stateOk h hd (le_trans hop hsize)
  · refine ensures_peek (((h.advanceIp hip).setRle (runCount_le _)).raise _) fun hip2 =>
      ensures_runDecoded (fun i rest hi => ?_) trivial
    have hip2' : s.str.ip + 1 + 1 ≤ s.str.limit := hip2
    rcases decode_rlc hi with ⟨n, v, rfl⟩ | ⟨n, rfl⟩
    · exact execRun_stateOk n v h hp hd hop hsize hbase hip2'
    · exact execCopy_stateOk n h hp hd hop hsize hbase hip
  · refine ensures_runDecoded (fun i rest hi => ?_) trivial
    obtain ⟨n, rfl⟩ := decode_rlc_copy hi (by simpa using hcopy)
    exact execCopy_stateOk n h hp hd hop hsize hbase hip

theorem fetchHufBit_stateOk {s : State} (h : InCommand s) (hp : s.phase = .hufBit) (hd : DecoderOk s) (hh : HufOk s) :
    Ensures StateOk (fetchHufBit s).outcome := by
  refine .fetched_ite (fun hneed => ?_) fun hneed => .fetched_ite (fun _ => ensures_peek (h.raise _) fun hip => ?_)
    fun _ => ?_
  · obtain ⟨hsize, hcount, -, -⟩ := hh
    exact unitDone_stateOk h hd (by omega)
  · refine ensures_runDecoded (fun i rest hi => ?_) trivial
    obtain ⟨c, rfl⟩ := decode_hufWord hi
    exact execHufWord_stateOk c h hp hd hh hip
  · refine ensures_runDecoded (fun i rest hi => ?_) trivial
    rcases decode_hufBit hi with rfl | rfl
    · exact hufStep_stateOk false h hd hh hneed
    · exact hufStep_stateOk true h hd hh hneed

theorem fetchHufChild_stateOk {s : State} (idx : Nat) (leaf : Bool) (h : InCommand s) (hd : DecoderOk s)
    (hh : HufOk s) (hneed : 0 < s.huf.need) : Ensures StateOk (fetchHufChild idx leaf s).outcome := by
  refine .fetched_ite (fun _ => .fetched_ite (fun hdepth => ?_) fun hdepth => ?_) fun _ => ?_
  · have hin := h.setHuf (r := { s.huf with cur := s.tbl.read idx }) { h.huf with }
    refine ensures_runDecoded (fun i rest hi => ?_) (hin.raise _)
    obtain ⟨x, rfl⟩ := decode_hufLeaf4 hi
    exact execHufLeaf4_stateOk x h hd hh hneed hdepth
  · refine ensures_runDecoded (fun i rest hi => ?_) trivial
    obtain ⟨b, rfl⟩ := decode_hufLeaf8 hi
    exact execHufLeaf8_stateOk b h hd hh hneed hdepth
  · refine ensures_runDecoded (fun i rest hi => ?_) trivial
    obtain ⟨l, r, o, rfl⟩ := decode_hufNode hi
    exact execHufNode_stateOk l r o h hd hh

/-! ## The archive unit -/

theorem fetchXpckMagic_stateOk {s : State} (h : InCommand s) (hw : WholeInput s) (hn : NoNamesYet s)
    (hop : s.str.op = 0) : Ensures StateOk (fetchXpckMagic s).outcome := by
  refine .fetched_ite (fun _ => h.raise _) fun hlen => .fetched_ite (fun _ => trivial) fun _ =>
    ensures_runDecoded (fun i rest hi => ?_) (h.raise _)
  rw [decode_xpckMagic hi]
  exact execXpckMagic_stateOk h hw hn hop (Nat.le_of_not_lt hlen)

/-- The record's address is inside the 32 bits of `IP`, wherever it lies in the input (R250). -/
theorem fetchRecord_stateOk {s : State} (h : InCommand s) (hw : WholeInput s) (hn : NoNamesYet s) (hop : s.str.op = 0)
    (hlut : s.lut.length ≤ s.xp.recIdx) : Ensures StateOk (fetchRecord s).outcome := by
  have hinfo := h.xp.infoOff
  have hrec' : s.xp.recIdx ≤ 4095 := h.xp.recIdx
  have ⟨hbase, _, _⟩ := hw
  have hat : Running { s with str := { s.str with ip := s.xp.infoOff + 12 * s.xp.recIdx } } :=
    { h with str := { h.str with ip := by show s.xp.infoOff + 12 * s.xp.recIdx < 2 ^ 32; omega } }
  refine .fetched_ite
    (fun hrec => ensures_peek (hat.raise _) fun hip => ensures_runDecoded (fun i rest hi => ?_) trivial) fun _ => readNames_stateOk h hn hop
  have hip' : s.xp.infoOff + 12 * s.xp.recIdx + 12 ≤ s.str.limit := hip
  have hin := h.setIp (a := s.xp.infoOff + 12 * s.xp.recIdx) (by omega) (by omega)
  obtain ⟨c, n, ol, sl, oh, sh, rfl⟩ := decode_xpr hi
  exact execXpr_stateOk c n ol sl oh sh hin hw hn hop hrec hlut hip

/-- A malformed field of a file list starts inside the list or at its end (R260). -/
theorem parseEntries_error_le {n addr : Nat} {bs : List Byte} {a : Nat}
    (h : parseEntries n addr bs = .error (.malformedList a)) : a ≤ addr + bs.length := by
  induction n generalizing addr bs with
  | zero => cases h
  | succ n ih =>
    match bs with
    | b0 :: b1 :: b2 :: b3 :: b4 :: b5 :: bs =>
      simp only [parseEntries] at h
      split at h
      next => cases h; simp only [List.length_cons]; omega
      next name bs' hname =>
        have hlen := congrArg List.length (takeBytes_eq hname)
        rw [List.length_append] at hlen
        split at h
        next => cases h; simp only [List.length_cons]; omega
        next data bs'' hdata =>
          have hlen' := congrArg List.length (takeBytes_eq hdata)
          rw [List.length_append] at hlen'
          split at h
          next => cases h
          next e herr =>
            cases h
            have := ih herr
            simp only [List.length_cons]
            omega
    | [] | [_] | [_, _] | [_, _, _] | [_, _, _, _] | [_, _, _, _, _] =>
      cases h
      exact Nat.le_add_right _ _

theorem parseFileList_error_le {bs : List Byte} {a : Nat} (h : parseFileList bs = .error (.malformedList a)) :
    a ≤ bs.length := by
  unfold parseFileList at h
  split at h
  · have := parseEntries_error_le h
    simp only [List.length_cons]; omega
  · cases h; exact Nat.zero_le _

theorem decode_fls_error_le {bs : List Byte} {a : Nat} (h : decode .fls bs = .error (.malformedList a)) :
    a ≤ bs.length := by
  unfold decode at h
  simp only at h
  split at h
  · cases h
  · cases h; exact parseFileList_error_le ‹_›

theorem fetchFls_stateOk {s : State} (h : InCommand s) (hw : WholeInput s) (hn : NoNamesYet s) :
    Ensures StateOk (fetchFls s).outcome := by
  have hlt := s.host.inLen.isLt
  have ⟨hbase, hlimit, _⟩ := hw
  have hat {a : Nat} (ha : a ≤ s.host.inLen.toNat) : InCommand { s with str := { s.str with ip := a } } :=
    h.setIp (by omega) (by omega)
  rw [fetchFls_eq]
  refine .fetched_ite (fun _ => trivial) fun _ => ?_
  cases hdec : decode .fls (s.inp.readN 0 s.host.inLen.toNat) with
  | ok r =>
    obtain ⟨i, rest⟩ := r
    obtain ⟨ms, rfl⟩ := decode_fls hdec
    exact .fetched_ite (fun _ => execFls_stateOk ms (hat (Nat.sub_le _ _)) hw hn) fun _ =>
      (hat (Nat.sub_le _ _)).raise _
  | error e =>
    cases e with
    | malformedList a => exact (hat (by simpa using decode_fls_error_le hdec)).raise _
    | _ => exact trivial

/-! ## Every step -/

/-- What the core fetches at a control point keeps the invariant, given that point's facts. -/
theorem fetchAt_stateOk {s : State} {p : Phase} (h : InCommand s) (hp : s.phase = p) (hne : p ≠ .idle)
    (hph : PhaseOk { s with phase := p }) : Ensures StateOk (fetchAt p s).outcome := by
  cases p with
  | idle => exact absurd rfl hne
  | header =>
    obtain ⟨hd, hip, hop⟩ := hph
    refine .fetched_ite (fun _ => h.raise _) fun _ => ensures_peek (h.raise _) fun hip4 =>
      ensures_runDecoded (fun i rest hi => ?_) trivial
    obtain ⟨m, z, rfl⟩ := decode_hdr hi
    exact headerInstr_stateOk m z h hd hip4
  | zlibMagic =>
    refine .fetched_ite (fun _ => h.raise _) fun _ => ensures_peek (h.raise _) fun _ =>
      ensures_runDecoded (fun i rest hi => ?_) (h.raise _)
    rw [decode_zlibMagic hi]
    exact .ite (fun _ => trivial) fun _ => zlibAnswer_stateOk h hph
  | lz =>
    obtain ⟨hd, hop, hsize⟩ := hph
    exact fetchLz_stateOk h hp hd hop hsize
  | rle =>
    obtain ⟨hd, hop, hsize, hbase⟩ := hph
    exact fetchRle_stateOk h hp hd hop hsize hbase
  | hufTable =>
    obtain ⟨hd, hdepth, hsize⟩ := hph
    show Ensures StateOk (fetchHufTable s).outcome
    refine ensures_peek (h.raise _) fun hip => ensures_runDecoded (fun i rest hi => ?_) trivial
    obtain ⟨t, r, rfl⟩ := decode_hufTable hi
    exact execHufTable_stateOk t r h hd hdepth hsize hip
  | hufBit =>
    obtain ⟨hd, hh⟩ := hph
    exact fetchHufBit_stateOk h hp hd hh
  | hufChild idx leaf =>
    obtain ⟨hd, hh, hneed, -⟩ := hph
    exact fetchHufChild_stateOk idx leaf h hd hh hneed
  | finish =>
    obtain ⟨hd, hop⟩ := hph
    exact unitDone_stateOk h hd hop
  | xpckMagic =>
    obtain ⟨hw, hn, hop⟩ := hph
    exact fetchXpckMagic_stateOk h hw hn hop
  | xph =>
    obtain ⟨hw, hn, hop⟩ := hph
    show Ensures StateOk (fetchXph s).outcome
    refine ensures_peek (h.raise _) fun hip => ensures_runDecoded (fun i rest hi => ?_) (h.raise _)
    obtain ⟨c, io, no, d, f, rfl⟩ := decode_xphOpen hi
    exact execXph_stateOk c io no d f 0#16 0#32 h hw hn hop hip
  | countField =>
    obtain ⟨hw, hn, hop⟩ := hph
    show Ensures StateOk (fetchCountField s).outcome
    refine ensures_runDecoded (fun i rest hi => ?_) trivial
    obtain ⟨f1, f2, rfl⟩ := decode_countField hi
    exact execCountField_stateOk f1 f2 h hw hn hop
  | records =>
    obtain ⟨hw, hn, hop, -, hlut⟩ := hph
    exact fetchRecord_stateOk h hw hn hop hlut
  | lookup p =>
    obtain ⟨hw, hn, -⟩ := hph
    exact .fetched_ite (fun hlt => lookupName_stateOk h hw hn hlt) fun _ => writeResult_stateOk h
  | report e =>
    obtain ⟨hw, hn, hcode, hlen, hpos⟩ := hph
    show Ensures StateOk (fetchReport e s).outcome
    have hcode' : e.code = 5#32 := hcode
    refine ensures_runDecoded (fun i rest hi => ?_) trivial
    rw [hcode', decode_rpt] at hi
    cases hi
    exact execRptEntry_stateOk e.crc e.off e.len h hw hn hlen hpos
  | fls =>
    obtain ⟨hw, hn⟩ := hph
    exact fetchFls_stateOk h hw hn

/-- The core's own step keeps the invariant. -/
theorem coreStep_stateOk {s : State} (h : StateOk s) : Ensures StateOk (coreStep s) := by
  unfold coreStep
  rw [fetchCore_eq]
  refine .fetched_ite (fun hb => ?_) fun _ => h
  obtain ⟨hin, hne, hph⟩ := h.inCommand hb
  exact fetchAt_stateOk hin rfl hne hph

/-! ## The host's accesses -/

theorem StateOk.setBus {s : State} (h : StateOk s) (b : List HostReq) : StateOk { s with bus := b } := h

theorem returnWord_stateOk {s : State} (h : StateOk s) (v : Word) : StateOk (returnWord v s) := h

theorem returnFree_stateOk {s : State} (h : StateOk s) : StateOk (returnFree s) := h

/-- A write of `IN_LEN`, `ARG0` or `ARG1` takes effect outside a command only, where the invariant asks nothing of
them. -/
theorem writeReg_stateOk {s : State} (r : HostReg) (v : Word) (h : StateOk s) : StateOk (writeReg r v s) := by
  refine ite_of (fun _ => h) fun hb => ?_
  obtain ⟨hhost, hspaces, hwidth, -⟩ := h
  have hidle : s.host.busy = false := by simpa using hb
  cases r with
  | inLen | arg0 | arg1 => exact ⟨hhost, hspaces, hwidth, fun h => absurd h hb⟩
  | _ => exact stateOk_of_idle hidle hhost hspaces hwidth

theorem hostWriteReg_stateOk {s : State} (off : Nat) (v : Word) (h : StateOk s) :
    Ensures StateOk (hostWriteReg off v s).outcome := by
  by_cases hoff : off ∈ regOffsets
  · rcases regAt_of_mem hoff with rfl | ⟨r, hr, hc⟩
    · rcases hostWriteReg_cmd v with ⟨i, hf, hrun⟩ | hstop
      · rw [hrun]; exact exec_command_stateOk hf h
      · rw [hstop]; exact reservedCommand_stateOk v h
    · rw [hostWriteReg_of_regAt hr hc]; exact writeReg_stateOk r v h
  · unfold hostWriteReg
    rw [regAt_eq_none hoff]
    exact trivial

theorem hostReadReg_stateOk {s : State} (off : Nat) (h : StateOk s) : Ensures StateOk (hostReadReg off s) := by
  unfold hostReadReg
  split
  · exact trivial
  · exact ite_of (P := StateOk) (fun _ => returnFree_stateOk h) fun _ => returnWord_stateOk h _

theorem hostWriteIn_stateOk {s : State} (a : Nat) (v : Byte) (h : StateOk s) :
    Ensures StateOk (hostWriteIn a v s) := by
  refine .ite (fun _ => trivial) fun _ => .ite (fun _ => trivial) fun hb => ?_
  obtain ⟨hhost, ⟨hinp, hrest⟩, hwidth, -⟩ := h
  exact ⟨hhost, ⟨Memory.write_wf a v hinp, hrest⟩, hwidth, fun h => absurd h hb⟩

theorem hostReadIn_stateOk {s : State} (a : Nat) (h : StateOk s) : Ensures StateOk (hostReadIn a s) := by
  refine .ite (fun _ => trivial) fun _ => .ite (fun _ => returnFree_stateOk h) fun _ => ?_
  split
  · exact returnWord_stateOk h _
  · exact trivial

theorem hostReadOut_stateOk {s : State} (a : Nat) (h : StateOk s) : Ensures StateOk (hostReadOut a s) :=
  .ite (fun _ => trivial) fun _ => .ite (fun _ => returnFree_stateOk h) fun _ =>
    .ite (fun _ => returnWord_stateOk h _) fun _ => trivial

theorem hostReadRpt_stateOk {s : State} (e w : Nat) (h : StateOk s) : Ensures StateOk (hostReadRpt e w s) := by
  refine .ite (fun _ => trivial) fun _ => .ite (fun _ => returnFree_stateOk h) fun _ => ?_
  split
  · exact trivial
  · exact returnWord_stateOk h _

/-- Every step keeps the invariant: the host's access where one is pending, else the core's step. -/
theorem step_stateOk {s : State} (h : StateOk s) : Ensures StateOk (step s) := by
  cases hbus : s.bus with
  | nil => rw [step_eq_coreStep hbus]; exact coreStep_stateOk h
  | cons req rest =>
    have h' := h.setBus rest
    cases req with
    | writeReg off v => rw [step_writeReg hbus]; exact hostWriteReg_stateOk off v h'
    | readReg off => rw [step_readReg hbus]; exact hostReadReg_stateOk off h'
    | writeIn a v => rw [step_writeIn hbus]; exact hostWriteIn_stateOk a v h'
    | readIn a => rw [step_readIn hbus]; exact hostReadIn_stateOk a h'
    | readOut a => rw [step_readOut hbus]; exact hostReadOut_stateOk a h'
    | readRpt e w => rw [step_readRpt hbus]; exact hostReadRpt_stateOk e w h'
    | pass => rw [step_pass hbus]; exact coreStep_stateOk h'
    | reset => rw [step_reset hbus]; exact applyReset_stateOk _
    | poll =>
      cases hb : s.host.busy with
      | true => rw [step_poll_busy hbus hb]; exact coreStep_stateOk h
      | false => rw [step_poll_idle hbus hb]; exact returnWord_stateOk h' _

/-- Settles O56: the host's accesses and the core's step each keep the invariant. -/
theorem stepKeepsStateOk : Obligations.StepKeepsStateOk := fun _ _ h ht => (step_stateOk h).of_eq ht

end Sys2Proof.Machine
end

section
/-! SUPPORT. Two runs side by side (10_state.md R21, 70_reset_and_hazards.md R344): what two states must share for the
rest of a command to go alike. `Agree` holds all through a command; `LiveAt` adds, per control point, the registers and
bytes that the command has written since its prologue and may still read. -/

namespace Sys2Proof.Machine

/-- Two spaces read alike below `n`. -/
def SameBelow (n : Nat) (m m' : Memory) : Prop := ∀ a, a < n → m.read a = m'.read a

theorem SameBelow.zero (m m' : Memory) : SameBelow 0 m m' := fun a h => absurd h (Nat.not_lt_zero a)

/-- The same bytes appended to spaces that read alike so far. -/
theorem SameBelow.append {n : Nat} {m m' : Memory} (h : SameBelow n m m') (bs : List Byte) :
    SameBelow (n + bs.length) (m.writeN n bs) (m'.writeN n bs) := by
  intro a ha
  rw [Memory.read_writeN, Memory.read_writeN]
  by_cases hlt : a < n
  · rw [if_neg (by omega), if_neg (by omega)]; exact h a hlt
  · rw [if_pos (by omega), if_pos (by omega)]

theorem sameBelow_writeN_zero (m m' : Memory) (bs : List Byte) :
    SameBelow bs.length (m.writeN 0 bs) (m'.writeN 0 bs) := by
  simpa using (SameBelow.zero m m').append bs

theorem SameBelow.readN {k : Nat} {m m' : Memory} (h : SameBelow k m m') {a n : Nat} (hn : n ≤ k - a) :
    m.readN a n = m'.readN a n :=
  Memory.readN_congr fun x _ hx => h x (by omega)

/-- What two runs of a command share all along. The parameters, the input and the host registers; the cursors and the
destination; `LUT`, the names found and the reports. The stream lies inside the input; the member count counts only once
the name table is being decoded. -/
structure Agree (s t : State) : Prop where
  cfg : s.cfg = t.cfg
  host : s.host = t.host
  ip : s.str.ip = t.str.ip
  op : s.str.op = t.str.op
  base : s.str.base = t.str.base
  limit : s.str.limit = t.str.limit
  dst : s.str.dst = t.str.dst
  found : s.found = t.found
  lut : s.lut = t.lut
  rpt : s.rpt = t.rpt
  inp : SameBelow s.host.inLen.toNat s.inp t.inp
  bound : s.str.limit ≤ s.host.inLen.toNat
  cnt : s.str.dst = true → s.xp.cnt = t.xp.cnt

/-- The output so far is the same. -/
def SameOutput (s t : State) : Prop := SameBelow s.str.op (dstSpace s) (dstSpace t)

/-- In the LZ loop: the flag byte counts while flags are left in it. -/
structure LzAgree (s t : State) : Prop where
  size : s.str.size = t.str.size
  fcnt : s.lz.fcnt = t.lz.fcnt
  flags : s.lz.fcnt ≠ 0 → s.lz.flags = t.lz.flags
  output : SameOutput s t

/-- In the Huffman loop: the code word counts while bits are left in it, the nibble while one is kept. -/
structure HufAgree (s t : State) : Prop where
  depth : s.huf.depth = t.huf.depth
  tsize : s.huf.tsize = t.huf.tsize
  root : s.huf.root = t.huf.root
  cur : s.huf.cur = t.huf.cur
  next : s.huf.next = t.huf.next
  need : s.huf.need = t.huf.need
  bitCnt : s.huf.bitCnt = t.huf.bitCnt
  code : s.huf.bitCnt ≠ 0 → s.huf.code = t.huf.code
  nibv : s.huf.nibv = t.huf.nibv
  nib : s.huf.nibv = true → s.huf.nib = t.huf.nib
  table : SameBelow (2 * s.huf.tsize.toNat) s.tbl t.tbl
  output : SameOutput s t

/-- The section offsets of the archive header (R248). -/
structure OffsetsAgree (s t : State) : Prop where
  infoOff : s.xp.infoOff = t.xp.infoOff
  nameOff : s.xp.nameOff = t.xp.nameOff
  dataOff : s.xp.dataOff = t.xp.dataOff

/-- In the name loop: the name table and the member count. -/
structure NamesAgree (s t : State) : Prop where
  ntLen : s.xp.ntLen = t.xp.ntLen
  cnt : s.xp.cnt = t.xp.cnt
  table : SameBelow s.xp.ntLen s.scr t.scr

/-- What two runs share beside `Agree`, at each control point. -/
def LiveAt (p : Phase) (s t : State) : Prop :=
  match p with
  | .idle => s.host.done = true → s.host.err = false → SameBelow s.host.outLen.toNat s.out t.out
  | .header | .xpckMagic | .xph | .fls => True
  | .zlibMagic => s.str.size = t.str.size
  | .lz => LzAgree s t
  | .rle => s.str.size = t.str.size ∧ SameOutput s t
  | .hufTable => s.str.size = t.str.size ∧ s.huf.depth = t.huf.depth
  | .hufBit => HufAgree s t
  | .hufChild idx _ => HufAgree s t ∧ idx < 2 * s.huf.tsize.toNat
  | .finish => SameOutput s t
  | .countField => OffsetsAgree s t ∧ 6 ≤ s.host.inLen.toNat
  | .records => OffsetsAgree s t ∧ s.xp.cnt = t.xp.cnt ∧ s.xp.recIdx = t.xp.recIdx
  | .lookup _ | .report _ => NamesAgree s t

/-- The two states are at one control point and share what the rest of the command may read. -/
structure Sim (s t : State) : Prop where
  agree : Agree s t
  phase : t.phase = s.phase
  live : LiveAt s.phase s t

variable {s t : State}

theorem Agree.sim (h : Agree s t) {p : Phase} (hs : s.phase = p) (ht : t.phase = p) (hl : LiveAt p s t) : Sim s t := by
  subst hs
  exact ⟨h, ht, hl⟩

theorem Agree.capacity (h : Agree s t) : capacity s = capacity t := by
  unfold Machine.capacity
  rw [h.dst, h.cfg]

/-! ## Input, and the ends of a command -/

theorem Agree.bytesAtIp (h : Agree s t) {n : Nat} (hn : n ≤ s.host.inLen.toNat - s.str.ip) :
    bytesAtIp n t = bytesAtIp n s := by
  unfold Machine.bytesAtIp
  rw [← h.ip]
  exact (h.inp.readN hn).symm

theorem Agree.wholeInput (h : Agree s t) :
    t.inp.readN 0 t.host.inLen.toNat = s.inp.readN 0 s.host.inLen.toNat := by
  rw [← h.host]
  exact (h.inp.readN (Nat.le_refl _)).symm

/-- A failure that records the same value leaves the same registers and no output to agree on (R300). -/
theorem Agree.raise (h : Agree s t) {f : Failure} {v v' : Nat} (hv : v = v') : Sim (raise f v s) (raise f v' t) := by
  subst hv
  refine Agree.sim (p := .idle) { h with host := ?_ } rfl rfl fun _ he => absurd he (by simp)
  show HostRegs.mk .. = HostRegs.mk ..
  rw [h.host]

theorem Agree.raiseFree (h : Agree s t) {f : Failure} {n : Nat} : Sim (raiseFree f n s) (raiseFree f n t) := by
  unfold Machine.raiseFree
  rw [h.wholeInput, ← h.cfg]
  exact h.raise rfl

theorem Agree.raiseLength (h : Agree s t) {f : Failure} {n : Nat} : Sim (raiseLength f n s) (raiseLength f n t) :=
  rel_ite Iff.rfl (fun _ => h.raise rfl) fun _ => h.raiseFree

theorem Agree.endCommand (h : Agree s t) (hout : SameBelow s.str.op s.out t.out) :
    Sim (endCommand s) (endCommand t) := by
  refine Agree.sim (p := .idle) { h with host := ?_ } rfl rfl fun _ _ a ha => hout a (lt_of_lt_of_le ha ?_)
  · show HostRegs.mk .. = HostRegs.mk ..
    rw [h.host, h.op]
  · rw [endCommand_host_outLen, BitVec.toNat_ofNat]
    exact Nat.mod_le _ _

theorem Agree.advanceIp (h : Agree s t) (n : Nat) : Agree (advanceIp n s) (advanceIp n t) :=
  { h with ip := congrArg (· + n) h.ip }

/-- A fetch at one place reads the same bytes, or stops alike (R62). -/
theorem Agree.fetch (h : Agree s t) {n : Nat} {k k' : List Byte → State → Outcome}
    (hk : s.str.ip + n ≤ s.str.limit → Agree (Machine.advanceIp n s) (Machine.advanceIp n t) →
      Matches Sim (k (Machine.bytesAtIp n s) (Machine.advanceIp n s))
        (k' (Machine.bytesAtIp n s) (Machine.advanceIp n t))) :
    Matches Sim (fetch n s k) (fetch n t k') := by
  have hb := h.bound
  refine matches_fetch h.ip h.limit h.cfg (h.raise h.ip) fun hle => ?_
  rw [h.bytesAtIp (by omega)]
  exact hk hle (h.advanceIp n)

theorem Agree.peek (h : Agree s t) {n : Nat} {k k' : List Byte → Fetched}
    (hk : s.str.ip + n ≤ s.str.limit →
      Matches Sim (k (Machine.bytesAtIp n s)).outcome (k' (Machine.bytesAtIp n s)).outcome) :
    Matches Sim (peek n s k).outcome (peek n t k').outcome := by
  have hb := h.bound
  refine matches_peek h.ip h.limit h.cfg (h.raise h.ip) fun hle => ?_
  rw [h.bytesAtIp (by omega)]
  exact hk hle

/-! ## Output -/

theorem Agree.emitAll (h : Agree s t) (bs : List Byte) : Agree (emitAll bs s) (emitAll bs t) := by
  rw [emitAll_eq, emitAll_eq]
  exact { h with op := congrArg (· + bs.length) h.op }

theorem Agree.sameOutput_emitAll (h : Agree s t) (ho : SameOutput s t) (bs : List Byte) :
    SameOutput (Machine.emitAll bs s) (Machine.emitAll bs t) := by
  unfold SameOutput
  rw [emitAll_dst, emitAll_dst, emitAll_str_op, ← h.op]
  exact ho.append bs

/-- Output from address 0 does not depend on what stood there. -/
theorem sameOutput_of_op_eq_zero (h : s.str.op = 0) : SameOutput s t := by
  unfold SameOutput
  rw [h]
  exact .zero _ _

theorem Agree.back (h : Agree s t) (ho : SameOutput s t) {d : Nat} (hd : d < s.str.op) : back d s = back d t := by
  unfold Machine.back
  rw [← h.op]
  exact ho _ (by omega)

/-- A copy reads only output, so it copies the same bytes (R64, R173). -/
theorem Agree.copyBack (h : Agree s t) (ho : SameOutput s t) {d : Nat} (hd : d < s.str.op) (n : Nat) :
    Agree (copyBack d n s) (copyBack d n t) ∧ SameOutput (Machine.copyBack d n s) (Machine.copyBack d n t) := by
  induction n generalizing s t with
  | zero => exact ⟨h, ho⟩
  | succ n ih =>
    rw [Machine.copyBack, Machine.copyBack, ← h.back ho hd, emit_eq_emitAll, emit_eq_emitAll]
    exact ih (h.emitAll _) (h.sameOutput_emitAll ho _) (by rw [emitAll_str_op]; omega)

theorem Agree.payloadOut (h : Agree s t) (bs : List Byte) : Sim (payloadOut bs s) (payloadOut bs t) := by
  rw [payloadOut_eq, payloadOut_eq]
  refine Agree.sim (p := .finish) { h with ip := h.limit, op := rfl } rfl rfl ?_
  show SameBelow bs.length (dstSpace _) (dstSpace _)
  unfold dstSpace
  rw [← h.dst]
  by_cases hd : s.str.dst = true <;> simp only [hd, if_true, if_false, Bool.false_eq_true] <;>
    exact sameBelow_writeN_zero _ _ bs

/-- An encoder's output from address 0 (R75). -/
theorem Agree.encoderOut (h : Agree s t) {bs : List Byte} {k k' : State → State}
    (hk : ∀ u w, Agree u w → u.str.dst = s.str.dst → SameBelow u.str.op u.out w.out → Sim (k u) (k' w)) :
    Sim (encoderOut bs s k) (encoderOut bs t k') := by
  have hagree (cs : List Byte) (n : Nat) : Agree { s with out := s.out.writeN 0 cs, str := { s.str with op := n } }
      { t with cfg := s.cfg, out := t.out.writeN 0 cs, str := { t.str with op := n } } :=
    { h with cfg := rfl, op := rfl }
  unfold Machine.encoderOut
  rw [← h.cfg]
  exact rel_ite Iff.rfl (fun _ => hk _ _ (hagree _ _) rfl (sameBelow_writeN_zero _ _ _)) fun _ =>
    (hagree _ _).raise rfl

/-- The end of a unit (R150, R251). -/
theorem Agree.unitDone (h : Agree s t) (ho : SameOutput s t) : Sim (unitDone s) (unitDone t) := by
  unfold SameOutput dstSpace at ho
  rw [← h.dst] at ho
  refine rel_ite (by rw [h.dst]) (fun hd => ?_) fun hd => ?_
  · rw [if_pos hd, if_pos hd] at ho
    exact Agree.sim (p := .lookup 0)
      { h with
        base := rfl, limit := by rw [h.host], dst := rfl, bound := Nat.le_refl _, cnt := fun h => absurd h (by simp) }
      rfl rfl (show NamesAgree _ _ from ⟨h.op, h.cnt hd, ho⟩)
  · rw [if_neg hd, if_neg hd] at ho
    exact h.endCommand ho

end Sys2Proof.Machine
end

section
/-! SUPPORT. Two runs side by side, continued: the decoders and the dispatcher. -/

namespace Sys2Proof.Machine

variable {s t : State}

/-- Where the bytes decode in every run. -/
theorem sim_runDecoded {f : Fmt} {bs : List Byte}
    (hrun : ∀ i rest, decode f bs = .ok (i, rest) → Matches Sim (exec i s) (exec i t)) :
    Matches Sim (runDecoded f bs s (.fault .undecodable)).outcome (runDecoded f bs t (.fault .undecodable)).outcome :=
  matches_runDecoded hrun rfl

theorem Agree.acceptedCount (h : Agree s t) (hsize : s.str.size = t.str.size) (n : Nat) :
    acceptedCount t.cfg.overrunPolicy t.str.op n t.str.size =
      Machine.acceptedCount s.cfg.overrunPolicy s.str.op n s.str.size := by
  rw [h.cfg, h.op, hsize]

/-! ## LZ (R171 to R173) -/

theorem Agree.lzEnter (h : Agree s t) (hsize : s.str.size = t.str.size) : Sim (lzEnter s) (lzEnter t) :=
  rel_ite (by rw [h.capacity, hsize]) (fun _ => h.raise hsize) fun _ =>
    Agree.sim (p := .lz) { h with op := rfl } rfl rfl
      (show LzAgree _ _ from ⟨hsize, rfl, fun h0 => absurd rfl h0, sameOutput_of_op_eq_zero rfl⟩)

/-- After the flag is taken, both runs hold the same flags and stand at the same input byte. -/
theorem Agree.takeFlag_loadFlags (h : Agree s t) (hl : LzAgree s t) (hip : s.lz.fcnt = 0 → s.str.ip + 1 ≤ s.str.limit) :
    nextFlag (loadFlags t) = nextFlag (loadFlags s) ∧
    Agree (takeFlag (loadFlags s)) (takeFlag (loadFlags t)) ∧
    LzAgree (takeFlag (loadFlags s)) (takeFlag (loadFlags t)) ∧
    (takeFlag (loadFlags s)).lz.flags = (takeFlag (loadFlags t)).lz.flags := by
  have hb := h.bound
  have htake {u w : State} (ha : Agree u w) (hu : LzAgree u w) (hf : u.lz.flags = w.lz.flags) :
      nextFlag w = nextFlag u ∧ Agree (takeFlag u) (takeFlag w) ∧ LzAgree (takeFlag u) (takeFlag w) ∧
        (takeFlag u).lz.flags = (takeFlag w).lz.flags := by
    have hflags : (takeFlag u).lz.flags = (takeFlag w).lz.flags := by rw [takeFlag_lz, takeFlag_lz, hf]
    exact ⟨by unfold nextFlag; rw [hf], { ha with },
      ⟨hu.size, congrArg (· - 1) hu.fcnt, fun _ => hflags, hu.output⟩, hflags⟩
  rcases loadFlags_cases s with ⟨h0, hs⟩ | ⟨h0, hs⟩ <;> rcases loadFlags_cases t with ⟨h1, ht⟩ | ⟨h1, ht⟩
  · have hread : s.inp.read s.str.ip = t.inp.read t.str.ip := by
      rw [← h.ip]; exact h.inp _ (by have := hip h0; omega)
    rw [hs, ht]
    exact htake { h with ip := congrArg (· + 1) h.ip } ⟨hl.size, rfl, fun _ => hread, hl.output⟩ hread
  · exact absurd (hl.fcnt ▸ h0) h1
  · exact absurd (hl.fcnt ▸ h1) h0
  · rw [hs, ht]
    exact htake h hl (hl.flags h0)

theorem Agree.execLit (h : Agree s t) (hl : LzAgree s t) (hf : s.lz.flags = t.lz.flags) (hs : s.phase = .lz)
    (ht : t.phase = .lz) (b : Byte) : Matches Sim (execLit b s) (execLit b t) := by
  refine matches_withRoom h.op h.capacity ((Agree.emitAll (h.advanceIp 1) [b]).sim (p := .lz) ?_ ?_ ?_)
  · simpa using hs
  · simpa using ht
  · exact ⟨by simpa using hl.size, by simpa using hl.fcnt, fun _ => by simpa using hf,
      (h.advanceIp 1).sameOutput_emitAll hl.output [b]⟩

theorem Agree.execRef (h : Agree s t) (hl : LzAgree s t) (hf : s.lz.flags = t.lz.flags) (hs : s.phase = .lz)
    (ht : t.phase = .lz) (l : BitVec 4) (d : BitVec 12) : Matches Sim (execRef l d s) (execRef l d t) := by
  have hin (n : Nat) : Agree (Machine.advanceIp 2 { s with lz := { s.lz with len := n, disp := refDisp d } })
      (Machine.advanceIp 2 { t with lz := { t.lz with len := n, disp := refDisp d } }) :=
    { h with ip := congrArg (· + 2) h.ip }
  rw [execRef_eq, execRef_eq]
  refine .ite (by rw [h.op]) (fun _ => (hin _).raise h.ip) fun hd => ?_
  rw [h.acceptedCount hl.size]
  refine matches_onAccepted ((hin _).raise h.ip) fun n _ => matches_withRoom h.op h.capacity ?_
  obtain ⟨hagree, hout⟩ := (hin n).copyBack hl.output (Nat.lt_of_not_le hd) n
  refine hagree.sim (p := .lz) ?_ ?_ ⟨?_, ?_, fun _ => ?_, hout⟩
  · simpa using hs
  · simpa using ht
  · simpa using hl.size
  · simpa using hl.fcnt
  · simpa using hf

theorem Agree.fetchSymbol (h : Agree s t) (hl : LzAgree s t) (hf : s.lz.flags = t.lz.flags) (hs : s.phase = .lz)
    (ht : t.phase = .lz) (flag : Bool) : Matches Sim (fetchSymbol flag s).outcome (fetchSymbol flag t).outcome := by
  refine .fetched_ite Iff.rfl (fun _ => h.peek fun _ => sim_runDecoded fun i rest hi => ?_) fun _ =>
    h.peek fun _ => sim_runDecoded fun i rest hi => ?_
  · obtain ⟨l, d, rfl⟩ := decode_lzg_set hi
    exact h.execRef hl hf hs ht l d
  · obtain ⟨b, rfl⟩ := decode_lzg_clear hi
    exact h.execLit hl hf hs ht b

theorem Agree.fetchLz (h : Agree s t) (hl : LzAgree s t) (hs : s.phase = .lz) (ht : t.phase = .lz) :
    Matches Sim (fetchLz s).outcome (fetchLz t).outcome := by
  have hphase {u : State} (hu : u.phase = .lz) : (takeFlag (loadFlags u)).phase = .lz := by
    rcases loadFlags_cases u with ⟨_, he⟩ | ⟨_, he⟩ <;> rw [he] <;> exact hu
  have hsymbol (hip : s.lz.fcnt = 0 → s.str.ip + 1 ≤ s.str.limit) :
      Matches Sim (Machine.fetchSymbol (nextFlag (loadFlags s)) (takeFlag (loadFlags s))).outcome
        (Machine.fetchSymbol (nextFlag (loadFlags t)) (takeFlag (loadFlags t))).outcome := by
    obtain ⟨hnext, hagree, hlz, hflags⟩ := h.takeFlag_loadFlags hl hip
    rw [hnext]
    exact hagree.fetchSymbol hlz hflags (hphase hs) (hphase ht) _
  rw [fetchLz_eq, fetchLz_eq]
  exact .fetched_ite (by rw [h.op, hl.size])
    (fun _ => .fetched_ite (by rw [hl.fcnt]) (fun _ => h.peek fun hip => hsymbol fun _ => hip)
      fun h0 => hsymbol fun h1 => absurd h1 h0)
    fun _ => h.unitDone hl.output

/-! ## RLE (R220 to R223) -/

theorem Agree.rleHeader (h : Agree s t) (w : Word) : Sim (rleHeader w s) (rleHeader w t) := by
  have hin : Agree { s with str := { s.str with method := headerMethod w, size := (headerSize w).toNat } }
      { t with str := { t.str with method := headerMethod w, size := (headerSize w).toNat } } := { h with }
  exact rel_ite Iff.rfl (fun _ => hin.raise h.base) fun _ => rel_ite (by rw [hin.capacity]) (fun _ => hin.raise rfl)
    fun _ => Agree.sim (p := .rle) { h with op := rfl } rfl rfl (show _ ∧ _ from ⟨rfl, sameOutput_of_op_eq_zero rfl⟩)

theorem Agree.rleStream (h : Agree s t) : Matches Sim (rleStream s) (rleStream t) := by
  have hin : Agree { s with str := { s.str with ip := s.str.base } }
      { t with str := { t.str with ip := t.str.base } } :=
    { h with ip := h.base }
  exact .ite (by rw [h.limit, h.base]) (fun _ => hin.raise h.base) fun _ => hin.fetch fun _ ha => ha.rleHeader _

theorem Agree.execRun (h : Agree s t) (hsize : s.str.size = t.str.size) (ho : SameOutput s t) (hs : s.phase = .rle)
    (ht : t.phase = .rle) (n3 : BitVec 7) (v : Byte) : Matches Sim (execRun n3 v s) (execRun n3 v t) := by
  have hin (n : Nat) : Agree { Machine.advanceIp 2 s with rle := { ctl := runControl n3, count := n } }
      { Machine.advanceIp 2 t with rle := { ctl := runControl n3, count := n } } := { h.advanceIp 2 with }
  rw [execRun_eq, execRun_eq, h.acceptedCount hsize]
  refine matches_onAccepted ((hin _).raise h.ip) fun n _ => matches_withRoom h.op h.capacity ?_
  refine ((hin n).emitAll _).sim (p := .rle) ?_ ?_ (show _ ∧ _ from ⟨?_, (hin n).sameOutput_emitAll ho _⟩)
  · simpa using hs
  · simpa using ht
  · simpa using hsize

theorem Agree.execCopy (h : Agree s t) (hsize : s.str.size = t.str.size) (ho : SameOutput s t) (hs : s.phase = .rle)
    (ht : t.phase = .rle) (n1 : BitVec 7) : Matches Sim (execCopy n1 s) (execCopy n1 t) := by
  have hin (n : Nat) : Agree { Machine.advanceIp 1 s with rle := { ctl := copyControl n1, count := n } }
      { Machine.advanceIp 1 t with rle := { ctl := copyControl n1, count := n } } := { h.advanceIp 1 with }
  rw [execCopy_eq, execCopy_eq, h.acceptedCount hsize]
  refine matches_onAccepted ((hin _).raise h.ip) fun n _ => (hin n).fetch fun _ ha =>
    matches_withRoom ha.op ha.capacity ?_
  refine (ha.emitAll _).sim (p := .rle) ?_ ?_ (show _ ∧ _ from ⟨?_, ha.sameOutput_emitAll ho _⟩)
  · simpa using hs
  · simpa using ht
  · simpa using hsize

theorem Agree.fetchRle (h : Agree s t) (hsize : s.str.size = t.str.size) (ho : SameOutput s t) (hs : s.phase = .rle)
    (ht : t.phase = .rle) : Matches Sim (fetchRle s).outcome (fetchRle t).outcome := by
  have hrun {bs : List Byte} (i : Instr) (rest : List Byte) (hi : decode .rlc bs = .ok (i, rest)) :
      Matches Sim (exec i s) (exec i t) := by
    rcases decode_rlc hi with ⟨n, v, rfl⟩ | ⟨n, rfl⟩
    · exact h.execRun hsize ho hs ht n v
    · exact h.execCopy hsize ho hs ht n
  refine .fetched_ite (by rw [h.op, hsize]) (fun _ => h.peek fun _ => .fetched_ite Iff.rfl (fun _ => ?_) fun _ => ?_)
    fun _ => h.unitDone ho
  · refine Agree.peek ?_ fun _ => sim_runDecoded hrun
    exact { h with ip := congrArg (· + 1) h.ip }
  · exact sim_runDecoded hrun

/-! ## Huffman (R200 to R204) -/

theorem Agree.hufEnter (h : Agree s t) (hsize : s.str.size = t.str.size) (hdepth : s.huf.depth = t.huf.depth) :
    Sim (hufEnter s) (hufEnter t) :=
  rel_ite (by rw [h.capacity, hsize]) (fun _ => h.raise hsize) fun _ =>
    Agree.sim (p := .hufTable) { h with } rfl rfl (show _ ∧ _ from ⟨hsize, hdepth⟩)

theorem Agree.execHufTable (h : Agree s t) (hsize : s.str.size = t.str.size) (hdepth : s.huf.depth = t.huf.depth)
    (tsize root : Byte) : Matches Sim (execHufTable tsize root s) (execHufTable tsize root t) := by
  have hin : Agree (Machine.advanceIp 2 { s with huf := { s.huf with tsize := tsize, root := root } })
      (Machine.advanceIp 2 { t with huf := { t.huf with tsize := tsize, root := root } }) :=
    { h with ip := congrArg (· + 2) h.ip }
  refine hin.fetch fun _ ha => matches_next (Agree.sim (p := .hufBit) { ha with op := rfl } rfl rfl ?_)
  show HufAgree _ _
  exact
    { depth := hdepth, tsize := rfl, root := rfl, cur := rfl, next := rfl
      need := by show symbolCount s.huf.depth s.str.size = symbolCount t.huf.depth t.str.size; rw [hdepth, hsize]
      bitCnt := rfl, code := fun h0 => absurd rfl h0, nibv := rfl, nib := fun h0 => absurd h0 (by simp)
      table := by
        have := sameBelow_writeN_zero s.tbl t.tbl
          (Machine.bytesAtIp (2 * tsize.toNat)
            (Machine.advanceIp 2 { s with huf := { s.huf with tsize := tsize, root := root } }))
        rwa [bytesAtIp_length] at this
      output := sameOutput_of_op_eq_zero rfl }

theorem Agree.execHufWord (h : Agree s t) (hh : HufAgree s t) (hs : s.phase = .hufBit) (ht : t.phase = .hufBit)
    (code : Word) : Matches Sim (execHufWord code s) (execHufWord code t) :=
  matches_next (Agree.sim (p := .hufBit) { h with ip := congrArg (· + 4) h.ip } hs ht
    (show HufAgree _ _ from { hh with bitCnt := rfl, code := fun _ => rfl }))

theorem Agree.hufStep (h : Agree s t) (hh : HufAgree s t) (hbit : s.huf.bitCnt ≠ 0) (bit : Bool) :
    Sim (hufStep bit s) (hufStep bit t) := by
  have hnext : childNext s.huf.next s.huf.cur = childNext t.huf.next t.huf.cur := by rw [hh.next, hh.cur]
  refine rel_ite (by rw [hh.tsize, hh.next, hh.cur]) (fun _ => Agree.raise (by exact { h with }) h.ip) fun hidx => ?_
  refine Agree.sim (p := .hufChild _ _) { h with } rfl ?_ (show _ ∧ _ from ⟨?_, Nat.lt_of_not_le hidx⟩)
  · show Phase.hufChild _ _ = Phase.hufChild _ _
    rw [hnext, hh.cur]
  · exact { hh with
      code := fun _ => by show s.huf.code <<< 1 = t.huf.code <<< 1; rw [hh.code hbit]
      bitCnt := congrArg (· - 1) hh.bitCnt
      next := hnext }

theorem Agree.execHufNode (h : Agree s t) (hh : HufAgree s t) (l r : Bool) (o : BitVec 6) :
    Matches Sim (execHufNode l r o s) (execHufNode l r o t) :=
  matches_next (Agree.sim (p := .hufBit) { h with } rfl rfl (show HufAgree _ _ from { hh with cur := rfl }))

theorem Agree.hufRestart (h : Agree s t) (hh : HufAgree s t) : Sim (hufRestart s) (hufRestart t) :=
  Agree.sim (p := .hufBit) { h with } rfl rfl
    (show HufAgree _ _ from { hh with need := congrArg (· - 1) hh.need, cur := hh.root, next := rfl })

theorem Agree.hufAgree_emitAll (h : Agree s t) (hh : HufAgree s t) (bs : List Byte) :
    HufAgree (Machine.emitAll bs s) (Machine.emitAll bs t) := by
  have hout := h.sameOutput_emitAll hh.output bs
  rw [emitAll_eq, emitAll_eq] at hout ⊢
  exact { hh with output := hout }

theorem Agree.execHufLeaf8 (h : Agree s t) (hh : HufAgree s t) (b : Byte) :
    Matches Sim (execHufLeaf8 b s) (execHufLeaf8 b t) :=
  matches_withRoom h.op h.capacity ((h.emitAll [b]).hufRestart (h.hufAgree_emitAll hh [b]))

theorem Agree.execHufLeaf4 (h : Agree s t) (hh : HufAgree s t) (x : BitVec 4) :
    Matches Sim (execHufLeaf4 x s) (execHufLeaf4 x t) := by
  refine .ite (by rw [hh.nibv]) (fun hnib => matches_withRoom h.op h.capacity ?_) fun _ => matches_next ?_
  · have hhuf : HufAgree { s with huf := { s.huf with nibv := false } }
        { t with huf := { t.huf with nibv := false } } :=
      { hh with nibv := rfl, nib := fun h0 => absurd h0 (by simp) }
    have hin : Agree { s with huf := { s.huf with nibv := false } }
        { t with huf := { t.huf with nibv := false } } :=
      { h with }
    have hemit := (hin.emitAll [x ++ s.huf.nib]).hufRestart (hin.hufAgree_emitAll hhuf [x ++ s.huf.nib])
    rw [emit_eq_emitAll, emit_eq_emitAll, ← hh.nib hnib]
    simp only [emitAll_eq] at hemit ⊢
    exact hemit
  · exact Agree.hufRestart { h with } { hh with nibv := rfl, nib := fun _ => rfl }

theorem Agree.fetchHufBit (h : Agree s t) (hh : HufAgree s t) (hs : s.phase = .hufBit) (ht : t.phase = .hufBit) :
    Matches Sim (fetchHufBit s).outcome (fetchHufBit t).outcome := by
  refine .fetched_ite (by rw [hh.need]) (fun _ => h.unitDone hh.output) fun _ =>
    .fetched_ite (by rw [hh.bitCnt]) (fun _ => ?_) fun hbit => ?_
  · rw [← h.cfg]
    refine h.peek fun _ => sim_runDecoded fun i rest hi => ?_
    obtain ⟨c, rfl⟩ := decode_hufWord hi
    exact h.execHufWord hh hs ht c
  · have hnext : nextBit t = nextBit s := by unfold nextBit; rw [hh.code hbit]
    rw [hnext]
    refine sim_runDecoded fun i rest hi => ?_
    rcases decode_hufBit hi with rfl | rfl
    · exact h.hufStep hh hbit false
    · exact h.hufStep hh hbit true

theorem Agree.fetchHufChild (h : Agree s t) (hh : HufAgree s t) {idx : Nat} (hidx : idx < 2 * s.huf.tsize.toNat)
    (leaf : Bool) : Matches Sim (fetchHufChild idx leaf s).outcome (fetchHufChild idx leaf t).outcome := by
  unfold Machine.fetchHufChild
  rw [← hh.table idx hidx]
  refine .fetched_ite Iff.rfl (fun _ => .fetched_ite (by rw [hh.depth]) (fun _ => ?_) fun _ => ?_) fun _ => ?_
  · refine matches_runDecoded (fun i rest hi => ?_) (matches_next (Agree.raise ?_ h.ip))
    · obtain ⟨x, rfl⟩ := decode_hufLeaf4 hi
      exact h.execHufLeaf4 hh x
    · exact { h with }
  · refine sim_runDecoded fun i rest hi => ?_
    obtain ⟨b, rfl⟩ := decode_hufLeaf8 hi
    exact h.execHufLeaf8 hh b
  · refine sim_runDecoded fun i rest hi => ?_
    obtain ⟨l, r, o, rfl⟩ := decode_hufNode hi
    exact h.execHufNode hh l r o

/-! ## The dispatcher (R150 to R157) -/

theorem Agree.beginMethod (h : Agree s t) (m : BitVec 3) (z : BitVec 29) :
    Agree (beginMethod m z s) (beginMethod m z t) := { h with ip := congrArg (· + 4) h.ip, op := rfl }

theorem Agree.sizeMismatch (h : Agree s t) (hsize : s.str.size = t.str.size) (n : Nat) :
    sizeMismatch n s = sizeMismatch n t := by
  unfold Machine.sizeMismatch
  rw [h.cfg, hsize]

/-- The payload is what is left of the stream (R151, R156). -/
theorem Agree.payload (h : Agree s t) :
    Machine.bytesAtIp (t.str.limit - t.str.ip) t = Machine.bytesAtIp (s.str.limit - s.str.ip) s := by
  have hb := h.bound
  rw [← h.limit, ← h.ip]
  exact h.bytesAtIp (by omega)

theorem Agree.storePayload (h : Agree s t) (hsize : s.str.size = t.str.size) :
    Matches Sim (storePayload s) (storePayload t) := by
  unfold Machine.storePayload
  dsimp only
  rw [h.payload]
  refine .ite (by rw [h.sizeMismatch hsize, h.limit, h.ip]) (fun _ => h.raise h.ip) fun _ =>
    .ite (by rw [h.capacity, h.limit, h.ip]) (fun _ => h.raise (by rw [h.limit, h.ip])) fun _ =>
      .ite (by rw [h.cfg, h.limit, h.ip]) (fun _ => rfl) fun _ => h.payloadOut _

theorem Agree.zlibAnswer (h : Agree s t) (hsize : s.str.size = t.str.size) (r : Option (List Byte)) :
    Sim (zlibAnswer r s) (zlibAnswer r t) := by
  cases r with
  | none => exact h.raise h.ip
  | some bytes =>
    exact rel_ite (by rw [h.sizeMismatch hsize]) (fun _ => h.raise h.ip) fun _ =>
      rel_ite (by rw [h.capacity]) (fun _ => h.raiseLength) fun _ => h.payloadOut bytes

theorem Agree.execZlibMagic (h : Agree s t) (hsize : s.str.size = t.str.size) :
    Matches Sim (execZlibMagic s) (execZlibMagic t) := by
  unfold Machine.execZlibMagic
  dsimp only
  rw [h.payload]
  exact .ite (by rw [h.cfg, h.limit, h.ip]) (fun _ => rfl) fun _ => h.zlibAnswer hsize _

theorem Agree.hufMethod (h : Agree s t) (hsize : s.str.size = t.str.size) (d : Nat) :
    Sim (hufMethod d s) (hufMethod d t) := Agree.hufEnter { h with } hsize rfl

theorem Agree.headerInstr (h : Agree s t) (m : BitVec 3) (z : BitVec 29) :
    Matches Sim (exec (headerInstr m z) s) (exec (headerInstr m z) t) := by
  have hin (m : BitVec 3) := h.beginMethod m z
  refine headerInstr_cases (Q := fun i => Matches Sim (exec i s) (exec i t)) z ?_ ?_ ?_ ?_ ?_ ?_ ?_ ?_ m
  · exact (hin 0#3).storePayload rfl
  · exact (hin 1#3).lzEnter rfl
  · exact (hin 2#3).hufMethod rfl 4
  · exact (hin 3#3).hufMethod rfl 8
  · exact (hin 4#3).rleStream
  · exact matches_next (Agree.sim (p := .zlibMagic) { hin 5#3 with } rfl rfl rfl)
  · exact matches_next ((hin 6#3).raise rfl)
  · exact matches_next ((hin 7#3).raise rfl)

theorem Agree.dispatchEnter (h : Agree s t) : Sim (dispatchEnter s) (dispatchEnter t) :=
  Agree.sim (p := .header) { h with ip := h.base } rfl rfl trivial

end Sys2Proof.Machine
end

section
/-! SUPPORT. Two runs side by side, concluded: the archive unit, the commands, and whole runs. -/

namespace Sys2Proof.Machine

variable {s t : State}

/-! ## XPCK_OPEN (R247 to R255) -/

theorem Agree.fetchXpckMagic (h : Agree s t) : Matches Sim (fetchXpckMagic s).outcome (fetchXpckMagic t).outcome := by
  unfold Machine.fetchXpckMagic
  refine .fetched_ite (by rw [h.host]) (fun _ => h.raise rfl) fun hlen =>
    .fetched_ite (by rw [h.cfg]) (fun _ => rfl) fun _ => ?_
  rw [← h.inp.readN (a := 0) (n := 4) (by omega)]
  refine matches_runDecoded (fun i rest hi => ?_) (h.raise rfl)
  rw [decode_xpckMagic hi]
  exact matches_next (Agree.sim (p := .xph) { h with ip := rfl } rfl rfl trivial)

theorem Agree.execXph (h : Agree s t) (hlen : 6 ≤ s.host.inLen.toNat) (c io no d f l : BitVec 16) (k : Word) :
    Matches Sim (execXph c io no d f l k s) (execXph c io no d f l k t) := by
  have hcnt : countDecode s.cfg.countDecode c = countDecode t.cfg.countDecode c := by rw [h.cfg]
  exact matches_next (Agree.sim (p := .countField)
    { h with ip := congrArg (· + 10) h.ip, cnt := fun _ => hcnt } rfl rfl (show _ ∧ _ from ⟨⟨rfl, rfl, rfl⟩, hlen⟩))

theorem Agree.fetchXph (h : Agree s t) : Matches Sim (fetchXph s).outcome (fetchXph t).outcome := by
  have hb := h.bound
  refine h.peek fun hip => ?_
  rw [← h.inp.readN (a := 0) (n := 4) (by omega)]
  refine matches_runDecoded (fun i rest hi => ?_) (h.raise rfl)
  obtain ⟨c, io, no, d, f, rfl⟩ := decode_xphOpen hi
  exact h.execXph (by omega) c io no d f 0#16 0#32

theorem Agree.fetchCountField (h : Agree s t) (ho : OffsetsAgree s t) (hlen : 6 ≤ s.host.inLen.toNat) :
    Matches Sim (fetchCountField s).outcome (fetchCountField t).outcome := by
  unfold Machine.fetchCountField
  rw [← h.inp.readN (a := 4) (n := 2) (by omega)]
  refine sim_runDecoded fun i rest hi => ?_
  obtain ⟨f1, f2, rfl⟩ := decode_countField hi
  have hcnt : countDecode s.cfg.countDecode (u16le f1 f2) = countDecode t.cfg.countDecode (u16le f1 f2) := by rw [h.cfg]
  exact matches_next (Agree.sim (p := .records) { h with lut := rfl, cnt := fun _ => hcnt } rfl rfl
    (show _ ∧ _ from ⟨{ ho with }, hcnt, rfl⟩))

theorem Agree.execXpr (h : Agree s t) (ho : OffsetsAgree s t) (hcnt : s.xp.cnt = t.xp.cnt)
    (hrec : s.xp.recIdx = t.xp.recIdx) (c : Word) (n ol sl : BitVec 16) (oh sh : Byte) :
    Matches Sim (execXpr c n ol sl oh sh s) (execXpr c n ol sl oh sh t) := by
  have haddr : recordAddr t.xp.dataOff ol oh = recordAddr s.xp.dataOff ol oh := by rw [ho.dataOff]
  unfold Machine.execXpr
  dsimp only
  rw [haddr]
  refine .ite (by rw [h.host]) (fun _ => (h.advanceIp 12).raise h.ip) fun _ => matches_next ?_
  exact Agree.sim (p := .records)
    { h with ip := congrArg (· + 12) h.ip, lut := congrArg (lutInsert _) h.lut, cnt := fun _ => hcnt } rfl rfl
    (show _ ∧ _ from ⟨{ ho with }, hcnt, congrArg (· + 1) hrec⟩)

theorem Agree.readNames (h : Agree s t) (ho : OffsetsAgree s t) (hcnt : s.xp.cnt = t.xp.cnt) :
    Sim (readNames s) (readNames t) := by
  refine rel_ite (by rw [ho.dataOff, ho.nameOff]) (fun _ => h.raise ho.nameOff) fun _ =>
    rel_ite (by rw [h.host, ho.dataOff]) (fun _ => h.raise ho.dataOff) fun hdata => ?_
  exact Agree.dispatchEnter
    { h with
      base := ho.nameOff, limit := ho.dataOff, dst := rfl, bound := Nat.le_of_not_lt hdata, cnt := fun _ => hcnt }

theorem Agree.fetchRecord (h : Agree s t) (ho : OffsetsAgree s t) (hcnt : s.xp.cnt = t.xp.cnt)
    (hrec : s.xp.recIdx = t.xp.recIdx) : Matches Sim (fetchRecord s).outcome (fetchRecord t).outcome := by
  have hin : Agree { s with str := { s.str with ip := s.xp.infoOff + 12 * s.xp.recIdx } }
      { t with str := { t.str with ip := t.xp.infoOff + 12 * t.xp.recIdx } } :=
    { h with ip := by show _ + _ = _ + _; rw [ho.infoOff, hrec] }
  refine .fetched_ite (by rw [hcnt, hrec]) (fun _ => hin.peek fun _ => sim_runDecoded fun i rest hi => ?_) fun _ =>
    h.readNames ho hcnt
  obtain ⟨c, n, ol, sl, oh, sh, rfl⟩ := decode_xpr hi
  exact hin.execXpr { ho with } hcnt hrec c n ol sl oh sh

theorem NamesAgree.nameAt (hn : NamesAgree s t) (p : Nat) : nameAt p t = nameAt p s := by
  unfold Machine.nameAt
  rw [← hn.ntLen, hn.table.readN (Nat.le_refl _)]

theorem Agree.lookupName (h : Agree s t) (hn : NamesAgree s t) (p : Nat) : Sim (lookupName p s) (lookupName p t) := by
  rw [lookupName_eq, lookupName_eq, hn.nameAt]
  refine rel_ite Iff.rfl (fun _ => Agree.sim (p := .lookup (p + 1)) { h with } rfl rfl { hn with }) fun _ => ?_
  have hfind : lutFind (crc32 t.cfg (Machine.nameAt p s)) t.lut = lutFind (crc32 s.cfg (Machine.nameAt p s)) s.lut := by
    rw [h.cfg, h.lut]
  rw [hfind]
  cases lutFind (crc32 s.cfg (Machine.nameAt p s)) s.lut with
  | some e =>
    exact Agree.sim (p := .lookup _) { h with found := congrArg (· ++ _) h.found, cnt := fun _ => hn.cnt } rfl rfl
      (show NamesAgree _ _ from { hn with })
  | none =>
    refine Agree.sim (p := .report _) { h with cnt := fun _ => hn.cnt } rfl ?_ (show NamesAgree _ _ from { hn with })
    show Phase.report _ = Phase.report _
    rw [h.cfg]

theorem Agree.execRptEntry (h : Agree s t) (hn : NamesAgree s t) (crc off len : Word) :
    Matches Sim (execRptEntry crc off len s) (execRptEntry crc off len t) := by
  refine matches_next (Agree.sim (p := .lookup _) { h with host := ?_, rpt := ?_ } rfl rfl
    (show NamesAgree _ _ from { hn with }))
  · show HostRegs.mk .. = HostRegs.mk ..
    rw [h.host]
  · show ite _ _ _ = ite _ _ _
    rw [h.host, h.cfg, h.rpt]

/-- The members found are ranges of the name table and of the input (R252, R254). -/
theorem Agree.resultMembers (h : Agree s t) (hn : NamesAgree s t)
    (hfound : ∀ f ∈ s.found, f.off + f.len ≤ s.xp.ntLen ∧ 1 ≤ f.len ∧ f.addr + f.size ≤ s.host.inLen.toNat) :
    resultMembers t = resultMembers s := by
  unfold Machine.resultMembers
  rw [← h.found]
  refine List.map_congr_left fun f hf => ?_
  obtain ⟨hname, -, hdata⟩ := hfound f hf
  unfold foundMember
  rw [hn.table.readN (a := f.off) (n := f.len) (by omega), h.inp.readN (a := f.addr) (n := f.size) (by omega)]

theorem Agree.resultAnswer (h : Agree s t) (hn : NamesAgree s t) (o : Option Nat) (bytes : List Byte) :
    Sim (resultAnswer o bytes s) (resultAnswer o bytes t) := by
  cases o with
  | some n => exact rel_ite (by rw [h.cfg]) (fun _ => h.raiseFree) fun _ => h.raise rfl
  | none =>
    refine rel_ite (by rw [h.cfg]) (fun _ => h.raiseLength) fun _ =>
      Agree.endCommand { h with host := ?_, op := rfl } ?_
    · show HostRegs.mk .. = HostRegs.mk ..
      rw [h.host, h.found, hn.cnt]
    · exact sameBelow_writeN_zero s.out t.out bytes

theorem Agree.writeResult (h : Agree s t) (hn : NamesAgree s t) {p : Nat} (hnames : NamesOk p s) :
    Matches Sim (writeResult s) (writeResult t) := by
  have hlong : longName t = longName s := by unfold longName; rw [h.found]
  rw [writeResult_eq, writeResult_eq, h.resultMembers hn hnames.1, hlong]
  exact .ite (by rw [h.cfg, h.host]) (fun _ => rfl) fun _ => matches_next (h.resultAnswer hn _ _)

/-! ## XPCK_PACK (R260 to R269) -/

theorem Agree.packDone (h : Agree s t) (cfg : Config) (ms : List Member) (hdst : s.str.dst = false)
    (hout : SameBelow s.str.op s.out t.out) : Sim (packDone cfg ms s) (packDone cfg ms t) := by
  refine Agree.sim (p := .finish) { h with host := ?_ } rfl rfl ?_
  · show HostRegs.mk .. = HostRegs.mk ..
    rw [h.host]
  · show SameBelow s.str.op (dstSpace s) (dstSpace t)
    unfold dstSpace
    rw [← h.dst, hdst]
    exact hout

theorem Agree.execFls (h : Agree s t) (hdst : s.str.dst = false) (ms : List Member) :
    Matches Sim (execFls ms s) (execFls ms t) := by
  rw [execFls_eq, execFls_eq]
  have hrefused : refusedList t.cfg ms = refusedList s.cfg ms := by rw [h.cfg]
  have hrange : rangeFailure t.cfg (sortByName ms) = rangeFailure s.cfg (sortByName ms) := by rw [h.cfg]
  rw [hrefused]
  refine matches_next ?_
  cases refusedList s.cfg ms with
  | some v => exact h.raise rfl
  | none =>
    show Sim (packAnswer (rangeFailure s.cfg (sortByName ms)) _ s) (packAnswer (rangeFailure t.cfg (sortByName ms)) _ t)
    rw [hrange]
    cases rangeFailure s.cfg (sortByName ms) with
    | some v => exact h.raiseLength
    | none =>
      unfold packAnswer
      have hbytes : packArchive t.cfg (sortByName ms) = packArchive s.cfg (sortByName ms) := by rw [h.cfg]
      have hdone : Machine.packDone t.cfg (sortByName ms) = Machine.packDone s.cfg (sortByName ms) := by rw [h.cfg]
      rw [hbytes, hdone]
      refine Agree.encoderOut ?_ fun u w hu hud hout => hu.packDone _ _ (hud.trans hdst) hout
      exact { h with }

theorem Agree.fetchFls (h : Agree s t) (hdst : s.str.dst = false) :
    Matches Sim (fetchFls s).outcome (fetchFls t).outcome := by
  have hin {a a' : Nat} (ha : a = a') :
      Agree { s with str := { s.str with ip := a } } { t with str := { t.str with ip := a' } } := { h with ip := ha }
  rw [fetchFls_eq, fetchFls_eq, h.wholeInput]
  refine .fetched_ite (by rw [h.cfg, h.host]) (fun _ => rfl) fun _ => ?_
  cases hdec : decode .fls (s.inp.readN 0 s.host.inLen.toNat) with
  | ok r =>
    obtain ⟨i, rest⟩ := r
    obtain ⟨ms, rfl⟩ := decode_fls hdec
    have hip : s.host.inLen.toNat - rest.length = t.host.inLen.toNat - rest.length := by rw [h.host]
    exact .fetched_ite Iff.rfl (fun _ => (hin hip).execFls hdst ms) fun _ => (hin hip).raise hip
  | error e =>
    cases e with
    | malformedList a => exact (hin (Eq.refl a)).raise rfl
    | _ => exact rfl

/-! ## The core's step -/

/-- What the core fetches goes alike in two states that share what it may read. -/
theorem Agree.fetchAt (h : Agree s t) (hok : StateOk s) (hb : s.host.busy = true) {p : Phase} (hs : s.phase = p)
    (ht : t.phase = p) (hl : LiveAt p s t) : Matches Sim (fetchAt p s).outcome (fetchAt p t).outcome := by
  obtain ⟨-, hne, hph⟩ := hok.inCommand hb
  rw [phaseOk_at hs] at hph
  cases p with
  | idle => exact absurd hs hne
  | header =>
    refine .fetched_ite (by rw [h.limit, h.base]) (fun _ => h.raise h.base) fun _ => h.peek fun _ =>
      sim_runDecoded fun i rest hi => ?_
    obtain ⟨m, z, rfl⟩ := decode_hdr hi
    exact h.headerInstr m z
  | zlibMagic =>
    refine .fetched_ite (by rw [h.limit, h.ip]) (fun _ => h.raise h.ip) fun _ => h.peek fun _ =>
      matches_runDecoded (fun i rest hi => ?_) (h.raise h.ip)
    rw [decode_zlibMagic hi]
    exact h.execZlibMagic hl
  | lz => exact h.fetchLz hl hs ht
  | rle =>
    obtain ⟨hsize, hout⟩ := hl
    exact h.fetchRle hsize hout hs ht
  | hufTable =>
    obtain ⟨hsize, hdepth⟩ := hl
    show Matches Sim (fetchHufTable s).outcome (fetchHufTable t).outcome
    refine h.peek fun _ => sim_runDecoded fun i rest hi => ?_
    obtain ⟨a, b, rfl⟩ := decode_hufTable hi
    exact h.execHufTable hsize hdepth a b
  | hufBit => exact h.fetchHufBit hl hs ht
  | hufChild idx leaf =>
    obtain ⟨hh, hidx⟩ := hl
    exact h.fetchHufChild hh hidx leaf
  | finish => exact h.unitDone hl
  | xpckMagic => exact h.fetchXpckMagic
  | xph => exact h.fetchXph
  | countField =>
    obtain ⟨ho, hlen⟩ := hl
    exact h.fetchCountField ho hlen
  | records =>
    obtain ⟨ho, hcnt, hrec⟩ := hl
    exact h.fetchRecord ho hcnt hrec
  | lookup p =>
    obtain ⟨-, hnames, -⟩ := hph
    have hn : NamesAgree s t := hl
    exact .fetched_ite (by rw [hn.ntLen]) (fun _ => h.lookupName hn p) fun _ => h.writeResult hn hnames
  | report e =>
    obtain ⟨-, -, hcode, -⟩ := hph
    have hcode' : e.code = 5#32 := hcode
    show Matches Sim (fetchReport e s).outcome (fetchReport e t).outcome
    refine sim_runDecoded fun i rest hi => ?_
    rw [hcode', decode_rpt] at hi
    cases hi
    exact h.execRptEntry hl e.crc e.off e.len
  | fls =>
    obtain ⟨⟨-, -, hdst⟩, -⟩ := hph
    exact h.fetchFls hdst

/-- The core's step goes alike in two similar states. -/
theorem Sim.coreStep (h : Sim s t) (hok : StateOk s) : Matches Sim (coreStep s) (coreStep t) := by
  have hbusy : t.host.busy = s.host.busy := by rw [h.agree.host]
  unfold Machine.coreStep
  rw [fetchCore_eq, fetchCore_eq]
  refine .fetched_ite (by rw [hbusy]) (fun hb => ?_) fun _ => h
  rw [h.phase]
  exact h.agree.fetchAt hok hb rfl h.phase h.live

/-! ## The start of a command (R47, R130) -/

/-- The prologue leaves nothing of the states but the inputs to differ in. -/
theorem SameInputs.agree_prologue (h : SameInputs s t) : Agree (prologue s) (prologue t) := by
  obtain ⟨hcfg, h0, h1, hlen, hinp⟩ := h
  refine
    { cfg := hcfg, host := ?_, ip := rfl, op := rfl, base := rfl, limit := congrArg BitVec.toNat hlen, dst := rfl
      found := rfl, lut := rfl, rpt := rfl, inp := hinp, bound := Nat.le_refl _, cnt := fun h => absurd h (by simp) }
  simp only [prologue, flagsAtStart, hlen, h0, h1]

section
variable (h : Agree s t)
include h

theorem Agree.decHdrBody (hop : s.str.op = 0) : Matches Sim (decHdrBody s) (decHdrBody t) := by
  unfold Machine.decHdrBody
  refine .ite (by rw [h.host]) (fun _ => h.raise (by rw [h.host])) fun hlen => matches_next ?_
  have hread (a : Nat) (ha : a < 4) : t.inp.read a = s.inp.read a := (h.inp a (by omega)).symm
  rw [hread 0 (by decide), hread 1 (by decide), hread 2 (by decide), hread 3 (by decide)]
  refine Agree.endCommand { h with host := ?_ } ?_
  · show HostRegs.mk .. = HostRegs.mk ..
    rw [h.host]
  · show SameBelow s.str.op s.out t.out
    rw [hop]; exact .zero _ _

theorem Agree.encHdrBody : Matches Sim (encHdrBody s) (encHdrBody t) := by
  unfold Machine.encHdrBody
  refine .ite (by rw [h.host]) (fun _ => h.raise (by rw [h.host])) fun _ =>
    .ite (by rw [h.host]) (fun _ => h.raise (by rw [h.host])) fun _ =>
      .ite (by rw [h.cfg]) (fun _ => h.raise rfl) fun _ => matches_next (Agree.endCommand { h with op := rfl } ?_)
  show SameBelow 4 (s.out.writeN 0 (le32 _)) (t.out.writeN 0 (le32 _))
  rw [h.host]
  exact sameBelow_writeN_zero s.out t.out (le32 _)

theorem Agree.crc32Body (hop : s.str.op = 0) : Matches Sim (crc32Body s) (crc32Body t) := by
  unfold Machine.crc32Body
  dsimp only
  rw [h.wholeInput]
  refine matches_next (Agree.endCommand { h with host := ?_ } ?_)
  · show HostRegs.mk .. = HostRegs.mk ..
    rw [h.host, h.cfg]
  · show SameBelow s.str.op s.out t.out
    rw [hop]; exact .zero _ _

theorem Agree.lzDecBody : Matches Sim (lzDecBody s) (lzDecBody t) :=
  .ite (by rw [h.host]) (fun _ => h.raise (by rw [h.host])) fun _ =>
    matches_next (Agree.lzEnter { h with ip := rfl } (by show _ = _; rw [h.host]))

theorem Agree.hufDecBody : Matches Sim (hufDecBody s) (hufDecBody t) :=
  .ite (by rw [h.host]) (fun _ => h.raise (by rw [h.host])) fun _ =>
    .ite (by rw [h.host]) (fun _ => h.raise (by rw [h.host])) fun _ =>
      matches_next (Agree.hufEnter { h with ip := rfl } (by show _ = _; rw [h.host]) (by show _ = _; rw [h.host]))

theorem Agree.lzEncBody : Matches Sim (lzEncBody s) (lzEncBody t) := by
  unfold Machine.lzEncBody
  rw [h.wholeInput]
  exact .ite (by rw [h.host]) (fun _ => h.raise (by rw [h.host])) fun _ =>
    matches_next (h.encoderOut fun _ _ hu _ hout => hu.endCommand hout)

theorem Agree.commandBody (hop : s.str.op = 0) (i : Instr) : Matches Sim (commandBody i s) (commandBody i t) := by
  refine commandBody_cases (Q := fun body => Matches Sim (body s) (body t)) ?_ (h.decHdrBody hop) h.encHdrBody
    (matches_next h.dispatchEnter) h.lzDecBody h.hufDecBody h.rleStream h.lzEncBody (h.crc32Body hop)
    (matches_next (Agree.sim (p := .xpckMagic) { h with } rfl rfl trivial))
    (matches_next (Agree.sim (p := .fls) { h with } rfl rfl trivial)) i
  exact matches_next (h.endCommand (by rw [hop]; exact .zero _ _))

end

/-- A command word runs alike from two idle states with the same inputs. -/
theorem SameInputs.exec_command (h : SameInputs s t) (hs : s.host.busy = false) (ht : t.host.busy = false) {i : Instr}
    (hf : fmtOf .big i = .cmd) : Matches Sim (exec i s) (exec i t) := by
  have hp := h.agree_prologue
  rcases Machine.exec_command hf with ⟨_, v, he⟩ | ⟨_, he⟩ <;> rw [he, he]
  · rw [reservedCommand_idle hs, reservedCommand_idle ht]
    exact matches_next (hp.raise rfl)
  · obtain ⟨hcfg, -, -, hlen, -⟩ := h
    exact matches_startCommand (hs.trans ht.symm) hlen hcfg (fun hb => absurd hb (by simp [hs]))
      (hp.raise (by rw [hlen])) fun _ => hp.commandBody rfl i

/-- So does any value written to `CMD`. -/
theorem SameInputs.step_withCommand (h : SameInputs s t) (hs : s.host.busy = false) (ht : t.host.busy = false)
    (v : Word) : Matches Sim (step (withCommand v s)) (step (withCommand v t)) := by
  have h' : SameInputs { s with bus := [] } { t with bus := [] } := h
  rw [step_writeReg (s := withCommand v s) rfl, step_writeReg (s := withCommand v t) rfl]
  rcases hostWriteReg_cmd v with ⟨i, hf, hrun⟩ | hstop
  · rw [hrun, hrun]
    exact h'.exec_command hs ht hf
  · rw [hstop, hstop, reservedCommand_idle (s := { withCommand v s with bus := [] }) hs,
      reservedCommand_idle (s := { withCommand v t with bus := [] }) ht]
    exact matches_next (h'.agree_prologue.raise rfl)

/-! ## Whole runs -/

/-- A step of a command's start takes the host's write off the bus. -/
theorem step_withCommand_bus {u : State} {v : Word} (h : step (withCommand v s) = .next u) : u.bus = [] := by
  rw [step_writeReg (s := withCommand v s) rfl] at h
  rcases hostWriteReg_cmd v with ⟨i, _, hrun⟩ | hstop
  · rw [hrun] at h
    obtain ⟨-, -, -, -, -, hbus, -⟩ := (exec_kept i _).of_eq h
    exact hbus
  · rw [hstop] at h
    cases h
    obtain ⟨-, -, -, -, -, hbus, -⟩ := reservedCommand_kept v { withCommand v s with bus := [] }
    exact hbus

/-- Similar states with nothing pending stay similar, step by step. -/
theorem Sim.runSteps (n : Nat) (h : Sim s t) (hok : StateOk s) (hs : s.bus = []) (ht : t.bus = []) {s' : State}
    (hrun : runSteps n s = .next s') : ∃ t', runSteps n t = .next t' ∧ Sim s' t' ∧ StateOk s' := by
  induction n generalizing s t with
  | zero => cases hrun; exact ⟨t, rfl, h, hok⟩
  | succ n ih =>
    unfold Machine.runSteps at hrun ⊢
    rw [step_eq_coreStep hs] at hrun
    rw [step_eq_coreStep ht]
    cases hu : Machine.coreStep s with
    | next u =>
      obtain ⟨w, hw, hsim⟩ := (h.coreStep hok).next hu
      rw [hu] at hrun
      rw [hw]
      exact ih hsim ((coreStep_stateOk hok).of_eq hu) ((coreStep_bus hu).trans hs) ((coreStep_bus hw).trans ht) hrun
    | fault f => rw [hu] at hrun; cases hrun
    | refused r => rw [hu] at hrun; cases hrun

/-- Similar states show the host the same result (R344): with `DONE = 1` the core is idle, where the valid output is
shared. -/
theorem Sim.sameResult (h : Sim s t) (hok : StateOk s) : SameResult s t := by
  refine ⟨h.agree.host, h.agree.rpt, fun hdone herr => ?_⟩
  obtain ⟨⟨hexcl, -, -, -, -, -, -, -, -, hidle, -⟩, -⟩ := hok
  have hb : s.host.busy = false := by
    cases hb : s.host.busy with
    | false => rfl
    | true => exact absurd ⟨hb, hdone⟩ hexcl
  have hlive := h.live
  rw [hidle.1 hb] at hlive
  exact hlive hdone herr

/-- Settles O60: after the step that starts the command the two states are similar, and similarity is kept. -/
theorem sameInputsSameResult : Obligations.SameInputsSameResult := by
  intro s t v n hoks _ hs ht hin s' hrun
  unfold Machine.runSteps at hrun ⊢
  have hstart := hin.step_withCommand hs ht v
  have hokc : StateOk (withCommand v s) := hoks.setBus _
  cases hu : step (withCommand v s) with
  | next u =>
    obtain ⟨w, hw, hsim⟩ := hstart.next hu
    rw [hu] at hrun
    rw [hw]
    obtain ⟨t', ht', hsim', hok'⟩ :=
      hsim.runSteps n ((step_stateOk hokc).of_eq hu) (step_withCommand_bus hu) (step_withCommand_bus hw) hrun
    exact ⟨t', ht', hsim'.sameResult hok'⟩
  | fault f => rw [hu] at hrun; cases hrun
  | refused r => rw [hu] at hrun; cases hrun

end Sys2Proof.Machine
end

section
/-! SUPPORT. Emit and Back (20_memory.md R63, R64): the bytes an emit writes, its frame, and what `Back` reads after
it. -/

namespace Sys2Proof.Machine

/-- The bytes just written are the bytes read at their addresses. -/
theorem Memory.readN_writeN_same (m : Memory) (a : Nat) (bs : List Byte) : (m.writeN a bs).readN a bs.length = bs := by
  refine List.ext_getElem? fun k => ?_
  rw [Memory.getElem?_readN]
  split
  next hk =>
    rw [Memory.read_writeN, if_pos ⟨Nat.le_add_right a k, Nat.add_lt_add_left hk a⟩, Nat.add_sub_cancel_left,
      List.getD_eq_getElem _ _ hk, List.getElem?_eq_getElem hk]
  next hk => exact (List.getElem?_eq_none (Nat.not_lt.1 hk)).symm

/-- The frame of `Emit`, for any number of bytes: they stand in the destination from `OP` on, and no other byte of the
four spaces changes. -/
theorem emitted_emitAll (bs : List Byte) (s : State) : Emitted s (emitAll bs s) s.str.op bs := by
  have hdst : (if s.str.dst then (emitAll bs s).scr else (emitAll bs s).out) = (dstSpace s).writeN s.str.op bs := by
    rw [← emitAll_dst, dstSpace, emitAll_str_dst]
  refine ⟨?_, fun x hx => ?_, ?_, emitAll_inp bs s, emitAll_tbl bs s⟩
  · rw [hdst, Memory.readN_writeN_same]
  · rw [hdst, Memory.read_writeN, if_neg (by omega)]
  · by_cases h : s.str.dst = true <;> simp [h, emitAll_out, emitAll_scr]

/-- `Emit` writes no register but `OP` and no space but the destination. -/
theorem emit_frame (b : Byte) (s : State) :
    emit b s = { s with
      str := { s.str with op := s.str.op + 1 }, out := (emit b s).out, scr := (emit b s).scr } := by
  rw [emit_eq_emitAll, emitAll_eq]
  rfl

theorem back_zero_emit (b : Byte) (s : State) : back 0 (emit b s) = b := by
  rw [back, emit_dst, emit_str_op, Memory.read_write, if_pos (by omega)]

/-- A byte already emitted stands one further back after an emit. -/
theorem back_succ_emit (b : Byte) {s : State} {d : Nat} (hd : d < s.str.op) :
    back (d + 1) (emit b s) = back d s := by
  rw [back, back, emit_dst, emit_str_op, Memory.read_write, if_neg (by omega),
    show s.str.op + 1 - (d + 1) - 1 = s.str.op - d - 1 by omega]

/-- Settles O48: the frame of `Emit` and the two readings of `Back` after it. -/
theorem emitAndBackAgree : Obligations.EmitAndBackAgree :=
  ⟨fun _ _ => ⟨rfl, rfl, rfl⟩,
    fun b s _ => ⟨emitted_emitAll [b] s, emit_frame b s, back_zero_emit b s, fun _ => back_succ_emit b⟩⟩

end Sys2Proof.Machine
end

section
/-! SUPPORT. Steps whose bytes are missing (20_memory.md R62; 60_exceptions.md R293, R302): each unit's fetch stops at
the item that is cut. -/

namespace Sys2Proof.Machine

theorem Memory.readN_eq_map_range (m : Memory) (a n : Nat) :
    m.readN a n = (List.range n).map fun k => m.read (a + k) := by
  refine List.ext_getElem? fun k => ?_
  rw [Memory.getElem?_readN, List.getElem?_map]
  split
  next hk => rw [List.getElem?_range hk, Option.map_some]
  next hk => rw [List.getElem?_eq_none (by simpa using hk), Option.map_none]

/-- With a command running and no request pending, a step is what the core fetches at its control point. -/
theorem step_eq_fetchAt {s : State} {p : Phase} (hbus : s.bus = []) (hbusy : s.host.busy = true) (hp : s.phase = p) :
    step s = (fetchAt p s).outcome := by
  rw [step_eq_coreStep hbus, coreStep, fetchCore_eq, if_pos hbusy, hp]

/-! ## The LZ symbol (R171, R173) -/

/-- The flag byte of the next LZ symbol: the byte at `IP` where no flag is left, else `FLAGS`. -/
def lzFlagByte (s : State) : Byte := if s.lz.fcnt = 0 then s.inp.read s.str.ip else s.lz.flags

theorem nextFlag_loadFlags (s : State) : nextFlag (loadFlags s) = (lzFlagByte s).getLsbD 7 := by
  unfold lzFlagByte nextFlag
  rcases loadFlags_cases s with ⟨h, he⟩ | ⟨h, he⟩ <;> rw [he]
  · rw [if_pos h]; rfl
  · rw [if_neg h]

/-- The state in which the LZ symbol is fetched, its flag taken. -/
theorem takeFlag_loadFlags_eq (s : State) :
    takeFlag (loadFlags s) = { s with
      str := { s.str with ip := if s.lz.fcnt = 0 then s.str.ip + 1 else s.str.ip }
      lz := { s.lz with flags := lzFlagByte s <<< 1, fcnt := if s.lz.fcnt = 0 then 7 else s.lz.fcnt - 1 } } := by
  unfold lzFlagByte
  rcases loadFlags_cases s with ⟨h, he⟩ | ⟨h, he⟩ <;> rw [he]
  · simp only [if_pos h]; rfl
  · simp only [if_neg h]; rfl

theorem fetchSymbol_truncated {flag : Bool} {s : State} (h : s.str.limit < s.str.ip + (if flag then 2 else 1)) :
    fetchSymbol flag s = .stop (.next (raise .truncatedStream s.str.ip s)) := by
  unfold fetchSymbol
  cases flag with
  | false => rw [if_neg Bool.false_ne_true] at h ⊢; exact peek_truncated h
  | true => rw [if_pos rfl] at h ⊢; exact peek_truncated h

theorem fetchLz_flag_truncated {s : State} (hop : s.str.op < s.str.size) (hf : s.lz.fcnt = 0)
    (h : s.str.limit < s.str.ip + 1) : fetchLz s = .stop (.next (raise .truncatedStream s.str.ip s)) := by
  rw [fetchLz_eq, if_pos hop, if_pos hf, peek_truncated h]

/-- Where the flag byte is there or not needed, the LZ loop fetches a symbol with the flag taken. -/
theorem fetchLz_symbol {s : State} (hop : s.str.op < s.str.size) (hcap : s.str.limit ≤ s.cfg.inCap.toNat)
    (hf : s.lz.fcnt = 0 → s.str.ip + 1 ≤ s.str.limit) :
    fetchLz s = fetchSymbol ((lzFlagByte s).getLsbD 7) (takeFlag (loadFlags s)) := by
  rw [fetchLz_eq, if_pos hop, nextFlag_loadFlags]
  split
  next h => exact peek_eq (hf h) (le_trans (hf h) hcap)
  next => rfl

/-! ## The RLE chunk (R221, R222) -/

theorem runCount_control (c : Byte) : runCount (c.extractLsb' 0 7) = (c.toNat &&& 0x7F) + 3 := by
  rw [runCount, BitVec.extractLsb'_toNat, Nat.shiftRight_zero, show 0x7F = 2 ^ 7 - 1 from rfl,
    Nat.and_two_pow_sub_one_eq_mod]

/-- The top bit of a control byte says that it is a run's (R103). -/
theorem getLsbD_seven_of_le {c : Byte} (h : 128 ≤ c.toNat) : c.getLsbD 7 = true := by
  have hmsb : c.msb = true := BitVec.msb_eq_true_iff_two_mul_ge.2 (by omega)
  exact hmsb

theorem fetchRle_control_truncated {s : State} (hop : s.str.op < s.str.size) (h : s.str.limit < s.str.ip + 1) :
    fetchRle s = .stop (.next (raise .truncatedStream s.str.ip s)) := by
  rw [fetchRle, if_pos hop, peek_truncated h]

/-- A run whose data byte is missing: its control byte is consumed (R222, R302). -/
theorem fetchRle_data_truncated {s : State} (hop : s.str.op < s.str.size) (hcap : s.str.limit ≤ s.cfg.inCap.toNat)
    (hip : s.str.ip + 1 = s.str.limit) (hrun : 128 ≤ (s.inp.read s.str.ip).toNat) :
    fetchRle s = .stop (.next (raise .truncatedStream (s.str.ip + 1) { s with
      str := { s.str with ip := s.str.ip + 1 }
      rle := { ctl := s.inp.read s.str.ip, count := ((s.inp.read s.str.ip).toNat &&& 0x7F) + 3 } })) := by
  have hc : (bytesAtIp 1 s).headD 0#8 = s.inp.read s.str.ip := rfl
  rw [fetchRle, if_pos hop, peek_eq hip.le (hip.le.trans hcap)]
  simp only [hc, if_pos (getLsbD_seven_of_le hrun), runCount_control]
  exact peek_truncated (show s.str.limit < s.str.ip + 1 + 1 by omega)

/-! ## The Huffman table and code word, the archive header and record (R200, R201, R248, R250) -/

theorem fetchHufTable_truncated {s : State} (h : s.str.limit < s.str.ip + 2) :
    fetchHufTable s = .stop (.next (raise .truncatedStream s.str.ip s)) := by
  rw [fetchHufTable, peek_truncated h]

theorem fetchHufBit_truncated {s : State} (hneed : 0 < s.huf.need) (hbits : s.huf.bitCnt = 0)
    (h : s.str.limit < s.str.ip + 4) : fetchHufBit s = .stop (.next (raise .truncatedStream s.str.ip s)) := by
  rw [fetchHufBit, if_neg hneed.ne', if_pos hbits, peek_truncated h]

theorem fetchXph_truncated {s : State} (h : s.str.limit < s.str.ip + 10) :
    fetchXph s = .stop (.next (raise .truncatedStream s.str.ip s)) := by
  rw [fetchXph, peek_truncated h]

theorem fetchRecord_truncated {s : State} (hrec : s.xp.recIdx < s.xp.cnt)
    (h : s.str.limit < s.xp.infoOff + 12 * s.xp.recIdx + 12) :
    fetchRecord s = .stop (.next (raise .truncatedStream (s.xp.infoOff + 12 * s.xp.recIdx)
      { s with str := { s.str with ip := s.xp.infoOff + 12 * s.xp.recIdx } })) := by
  rw [fetchRecord, if_pos hrec]
  exact peek_truncated h

/-- Settles O47: `Fetch` by its two cases, and each step by the fetch of its unit. -/
theorem fetchIsAllOrNothing : Obligations.FetchIsAllOrNothing := by
  refine ⟨Memory.readN_eq_map_range, fun n s k hcap => ⟨fetch_truncated, fun h => fetch_eq h (h.trans hcap)⟩,
    fun s hbus hbusy hcap => ?_⟩
  have hstop {p : Phase} {o : Outcome} (hp : s.phase = p) (hf : fetchAt p s = .stop o) : step s = o := by
    rw [step_eq_fetchAt hbus hbusy hp, hf]; rfl
  refine ⟨fun hp hop => ⟨fun hf h => ?flagByte, fun hf => ?symbol⟩,
    fun hp hop => ⟨fun h => ?control, fun hip hrun => ?runData⟩, fun hp h => ?tableHeader,
    fun hp hneed hbits h => ?codeWord, fun hp h => ?archiveHeader, fun hp hrec => ?record⟩
  case flagByte => exact hstop hp (fetchLz_flag_truncated hop hf h)
  case symbol =>
    intro flags u h
    have hu : takeFlag (loadFlags s) = u := takeFlag_loadFlags_eq s
    refine hstop hp ((fetchLz_symbol hop hcap hf).trans ?_)
    rw [hu]
    exact fetchSymbol_truncated h
  case control => exact hstop hp (fetchRle_control_truncated hop h)
  case runData => exact hstop hp (fetchRle_data_truncated hop hcap hip hrun)
  case tableHeader => exact hstop hp (fetchHufTable_truncated h)
  case codeWord => exact hstop hp (fetchHufBit_truncated hneed hbits h)
  case archiveHeader => exact hstop hp (fetchXph_truncated h)
  case record => exact fun h => hstop hp (fetchRecord_truncated hrec h)

end Sys2Proof.Machine
end

section
/-! SUPPORT. Byte order and fields (00_scope.md R9, R60; 30_encoding.md R92, R96, R99, R103, R104): a value read from
its own bytes, and the bytes of a value read. -/

namespace Sys2Proof.Machine

/-! ## Byte order (R9, R60) -/

/-- A value is its high field before its low field. -/
theorem append_extractLsb'_eq_self {lo hi : Nat} (x : BitVec (hi + lo)) :
    x.extractLsb' lo hi ++ x.extractLsb' 0 lo = x := by
  rw [BitVec.extractLsb'_append_extractLsb'_eq_extractLsb' (Nat.zero_add lo).symm, BitVec.extractLsb'_eq_self]

@[simp] theorem u16le_le16 (v : BitVec 16) : u16le (v.extractLsb' 0 8) (v.extractLsb' 8 8) = v :=
  append_extractLsb'_eq_self (lo := 8) (hi := 8) v

@[simp] theorem u16be_be16 (v : BitVec 16) : u16be (v.extractLsb' 8 8) (v.extractLsb' 0 8) = v :=
  append_extractLsb'_eq_self (lo := 8) (hi := 8) v

theorem u32be_eq_u32le (b0 b1 b2 b3 : Byte) : u32be b0 b1 b2 b3 = u32le b3 b2 b1 b0 := rfl

@[simp] theorem u32be_be32 (v : Word) :
    u32be (v.extractLsb' 24 8) (v.extractLsb' 16 8) (v.extractLsb' 8 8) (v.extractLsb' 0 8) = v := by
  rw [u32be_eq_u32le, u32le_le32]

@[simp] theorem le16_u16le (b0 b1 : Byte) : le16 (u16le b0 b1) = [b0, b1] := by
  rw [le16, u16le, BitVec.extractLsb'_append_eq_right, BitVec.extractLsb'_append_eq_left]

@[simp] theorem be16_u16be (hi lo : Byte) : be16 (u16be hi lo) = [hi, lo] := by
  rw [be16, u16be, BitVec.extractLsb'_append_eq_right, BitVec.extractLsb'_append_eq_left]

/-- A byte above the lowest one is a byte of what stands above it. -/
theorem extractLsb'_append_byte {w : Nat} (x : BitVec w) (y : Byte) (k : Nat) :
    (x ++ y).extractLsb' (k + 8) 8 = x.extractLsb' k 8 := by
  rw [BitVec.extractLsb'_append_eq_of_le (Nat.le_add_left 8 k), Nat.add_sub_cancel]

/-- The bytes of four appended bytes, from the lowest. -/
theorem extractLsb'_append4 (b3 b2 b1 b0 : Byte) :
    (b3 ++ b2 ++ b1 ++ b0).extractLsb' 0 8 = b0 ∧ (b3 ++ b2 ++ b1 ++ b0).extractLsb' 8 8 = b1 ∧
      (b3 ++ b2 ++ b1 ++ b0).extractLsb' 16 8 = b2 ∧ (b3 ++ b2 ++ b1 ++ b0).extractLsb' 24 8 = b3 := by
  refine ⟨BitVec.extractLsb'_append_eq_right, ?_, ?_, ?_⟩
  · exact (extractLsb'_append_byte _ b0 0).trans BitVec.extractLsb'_append_eq_right
  · rw [extractLsb'_append_byte _ b0 8, extractLsb'_append_byte _ b1 0, BitVec.extractLsb'_append_eq_right]
  · rw [extractLsb'_append_byte _ b0 16, extractLsb'_append_byte _ b1 8, extractLsb'_append_byte b3 b2 0,
      BitVec.extractLsb'_eq_self]

@[simp] theorem le32_u32le (b0 b1 b2 b3 : Byte) : le32 (u32le b0 b1 b2 b3) = [b0, b1, b2, b3] := by
  obtain ⟨h0, h1, h2, h3⟩ := extractLsb'_append4 b3 b2 b1 b0
  rw [le32, u32le, h0, h1, h2, h3]

@[simp] theorem be32_u32be (b0 b1 b2 b3 : Byte) : be32 (u32be b0 b1 b2 b3) = [b0, b1, b2, b3] := by
  obtain ⟨h3, h2, h1, h0⟩ := extractLsb'_append4 b0 b1 b2 b3
  rw [be32, u32be, h0, h1, h2, h3]

@[simp] theorem codeWordBytes_codeWordOf (o : WordOrder) (b0 b1 b2 b3 : Byte) :
    codeWordBytes o (codeWordOf o b0 b1 b2 b3) = [b0, b1, b2, b3] := by
  cases o with
  | big => exact be32_u32be b0 b1 b2 b3
  | little => exact le32_u32le b0 b1 b2 b3

/-! ## Fields -/

@[simp] theorem headerMethod_headerWord (m : BitVec 3) (z : BitVec 29) : headerMethod (headerWord m z) = m :=
  BitVec.extractLsb'_append_eq_right

@[simp] theorem headerSize_headerWord (m : BitVec 3) (z : BitVec 29) : headerSize (headerWord m z) = z :=
  BitVec.extractLsb'_append_eq_left

@[simp] theorem headerWord_fields (h : Word) : headerWord (headerMethod h) (headerSize h) = h :=
  append_extractLsb'_eq_self (lo := 3) (hi := 29) h

@[simp] theorem refOfToken_lzToken (l : BitVec 4) (d : BitVec 12) : refOfToken (lzToken l d) = .ref l d := by
  rw [refOfToken, lzToken, BitVec.extractLsb'_append_eq_right, BitVec.extractLsb'_append_eq_left]

@[simp] theorem lzToken_fields (t : BitVec 16) : lzToken (t.extractLsb' 12 4) (t.extractLsb' 0 12) = t :=
  append_extractLsb'_eq_self (lo := 12) (hi := 4) t

theorem extractLsb'_one_eq_ofBool {w : Nat} (x : BitVec w) (k : Nat) :
    x.extractLsb' k 1 = BitVec.ofBool (x.getLsbD k) := by
  ext i hi
  obtain rfl : i = 0 := by omega
  simp

@[simp] theorem nodeLeaf0_nodeByte (l0 l1 : Bool) (off : BitVec 6) : nodeLeaf0 (nodeByte l0 l1 off) = l0 := by
  rw [nodeLeaf0, nodeByte, BitVec.getLsbD_append, BitVec.getLsbD_append]; simp

@[simp] theorem nodeLeaf1_nodeByte (l0 l1 : Bool) (off : BitVec 6) : nodeLeaf1 (nodeByte l0 l1 off) = l1 := by
  rw [nodeLeaf1, nodeByte, BitVec.getLsbD_append, BitVec.getLsbD_append]; simp

@[simp] theorem nodeOffset_nodeByte (l0 l1 : Bool) (off : BitVec 6) : nodeOffset (nodeByte l0 l1 off) = off :=
  BitVec.extractLsb'_append_eq_right

@[simp] theorem nodeByte_fields (b : Byte) : nodeByte (nodeLeaf0 b) (nodeLeaf1 b) (nodeOffset b) = b := by
  rw [nodeByte, nodeLeaf0, nodeLeaf1, nodeOffset, ← extractLsb'_one_eq_ofBool, ← extractLsb'_one_eq_ofBool,
    BitVec.extractLsb'_append_extractLsb'_eq_extractLsb' (start₁ := 6) (len₁ := 1) rfl]
  exact append_extractLsb'_eq_self (lo := 6) (hi := 2) b

/-- The control byte of a run is bit 7 set before `N - 3` (R103), that of a literal run bit 7 clear before `N - 1`
(R104). -/
theorem control_fields (c : Byte) : BitVec.ofBool (c.getLsbD 7) ++ c.extractLsb' 0 7 = c := by
  rw [← extractLsb'_one_eq_ofBool]
  exact append_extractLsb'_eq_self (lo := 7) (hi := 1) c

/-- Bit 7 of a control byte is the bit before its count (R103, R104). -/
theorem getLsbD_seven_control (x : BitVec 1) (n : BitVec 7) : (x ++ n).getLsbD 7 = x.getLsbD 0 := by
  rw [BitVec.getLsbD_append]; rfl

end Sys2Proof.Machine
end

section
/-! SUPPORT. Each format reads back what its encoder wrote and leaves the bytes that follow (30_encoding.md R90 to
R117). -/

namespace Sys2Proof.Machine

section
variable (rest : List Byte)

/-! ## Commands and headers (R91, R92, R93) -/

theorem decode_cmd_le32 {v : Word} {i : Instr} (h : commandOf v = some i) :
    decode .cmd (le32 v ++ rest) = .ok (i, rest) := by
  simp only [le32, List.cons_append, List.nil_append, decode, u32le_le32, h]

theorem decode_hdr_headerWord (m : BitVec 3) (z : BitVec 29) :
    decode .hdr (le32 (headerWord m z) ++ rest) = .ok (headerInstr m z, rest) := by
  simp only [le32, List.cons_append, List.nil_append, decode, u32le_le32, headerMethod_headerWord,
    headerSize_headerWord]

/-! ## LZ and RLE symbols (R95, R96, R103, R104) -/

theorem decode_lzg_token (l : BitVec 4) (d : BitVec 12) :
    decode .lzg (1#8 :: be16 (lzToken l d) ++ rest) = .ok (.ref l d, rest) := by
  have hflag : ¬(1#8 = 0#8) := by decide
  simp only [be16, List.cons_append, List.nil_append, decode, if_neg hflag, if_true, u16be_be16, refOfToken_lzToken]

theorem decode_rlc_run (n : BitVec 7) (v : Byte) : decode .rlc ((1#1 ++ n) :: v :: rest) = .ok (.run n v, rest) := by
  have hbit : ((1#1 ++ n : Byte)).getLsbD 7 = true := getLsbD_seven_control 1#1 n
  simp only [decode, hbit, if_true, BitVec.extractLsb'_append_eq_right]

theorem decode_rlc_copyControl (n : BitVec 7) : decode .rlc ((0#1 ++ n) :: rest) = .ok (.copy n, rest) := by
  have hbit : ((0#1 ++ n : Byte)).getLsbD 7 = false := getLsbD_seven_control 0#1 n
  simp only [decode, hbit, Bool.false_eq_true, if_false, BitVec.extractLsb'_append_eq_right]

/-! ## Huffman (R99, R100, R112) -/

theorem decode_hufNode_nodeByte (l0 l1 : Bool) (off : BitVec 6) :
    decode .hufNode (nodeByte l0 l1 off :: rest) = .ok (.hufNode l0 l1 off, rest) := by
  simp only [decode, nodeLeaf0_nodeByte, nodeLeaf1_nodeByte, nodeOffset_nodeByte]

theorem decode_hufLeaf4_nibble (x : BitVec 4) :
    decode .hufLeaf4 ((0#4 ++ x) :: rest) = .ok (.hufLeaf4 x, rest) := by
  have hhi : (0#4 ++ x : Byte).extractLsb' 4 4 = 0#4 := BitVec.extractLsb'_append_eq_left
  have hlo : (0#4 ++ x : Byte).extractLsb' 0 4 = x := BitVec.extractLsb'_append_eq_right
  simp only [decode, hhi, if_true, hlo]

theorem decode_hufWord_codeWord (o : WordOrder) (c : Word) :
    decode (.hufWord o) (codeWordBytes o c ++ rest) = .ok (.hufWord c, rest) := by
  cases o with
  | big => simp only [codeWordBytes, be32, List.cons_append, List.nil_append, decode, codeWordOf, u32be_be32]
  | little => simp only [codeWordBytes, le32, List.cons_append, List.nil_append, decode, codeWordOf, u32le_le32]

/-! ## Archive header and record, report entry (R105, R107, R117) -/

theorem decode_xph_fields (c i n d f l : BitVec 16) (k : Word) :
    decode .xph (xpckMagicBytes ++ le16 c ++ le16 i ++ le16 n ++ le16 d ++ le16 f ++ le16 l ++ le32 k ++ rest) =
      .ok (.xph c i n d f l k, rest) := by
  simp only [xpckMagicBytes, le16, le32, List.cons_append, List.nil_append, decode, if_true, u16le_le16, u32le_le32]

theorem decode_xphOpen_fields (c i n d f : BitVec 16) :
    decode .xphOpen (xpckMagicBytes ++ le16 c ++ le16 i ++ le16 n ++ le16 d ++ le16 f ++ rest) =
      .ok (.xph c i n d f 0#16 0#32, rest) := by
  simp only [xpckMagicBytes, le16, List.cons_append, List.nil_append, decode, if_true, u16le_le16]

theorem decode_xpr_fields (c : Word) (n ol sl : BitVec 16) (oh sh : Byte) :
    decode .xpr (le32 c ++ le16 n ++ le16 ol ++ le16 sl ++ [oh, sh] ++ rest) = .ok (.xpr c n ol sl oh sh, rest) := by
  simp only [le32, le16, List.cons_append, List.nil_append, decode, u16le_le16, u32le_le32]

theorem decode_rpt_fields (c o l : Word) :
    decode .rpt (le32 5#32 ++ le32 c ++ le32 o ++ le32 l ++ rest) = .ok (.rptEntry c o l, rest) := by
  simp only [le32, List.cons_append, List.nil_append, decode, u32le_le32, if_true]

/-! ## The file list (R111) -/

theorem takeBytes_append (bs : List Byte) : takeBytes bs.length (bs ++ rest) = some (bs, rest) := by
  rw [takeBytes, if_pos (by rw [List.length_append]; exact Nat.le_add_right _ _), List.take_left, List.drop_left]

/-- The two length fields of an entry say the lengths of its name and its data. -/
theorem memberFits_iff (m : Member) :
    memberFits m = true ↔
      (BitVec.ofNat 16 m.1.length).toNat = m.1.length ∧ (BitVec.ofNat 32 m.2.length).toNat = m.2.length := by
  simp only [memberFits, Bool.and_eq_true, decide_eq_true_eq, BitVec.toNat_ofNat]
  omega

/-- An entry is its 6 length bytes, its name and its data. -/
theorem memberBytes_append (m : Member) :
    memberBytes m ++ rest = le16 (BitVec.ofNat 16 m.1.length) ++
      (le32 (BitVec.ofNat 32 m.2.length) ++ (m.1 ++ (m.2 ++ rest))) := by
  simp only [memberBytes, List.append_assoc]

/-- At every address of the list, the entries are read back from their bytes. -/
theorem parseEntries_memberBytes (ms : List Member) (hfit : ms.all memberFits = true) (addr : Nat) :
    parseEntries ms.length addr (ms.flatMap memberBytes ++ rest) = .ok (ms, rest) := by
  induction ms generalizing addr with
  | nil => rfl
  | cons m ms ih =>
    rw [List.all_cons, Bool.and_eq_true, memberFits_iff] at hfit
    obtain ⟨⟨hname, hdata⟩, hms⟩ := hfit
    rw [List.flatMap_cons, List.append_assoc, memberBytes_append, List.length_cons]
    simp only [le16, le32, List.cons_append, List.nil_append, parseEntries, u16le_le16, u32le_le32, hname, hdata,
      takeBytes_append, ih hms]

theorem decode_fls_fileListBytes {ms : List Member} (hw : (Instr.fls ms).wellFormed = true) :
    decode .fls (fileListBytes ms ++ rest) = .ok (.fls ms, rest) := by
  obtain ⟨hlen, hfit⟩ : ms.length < 4294967296 ∧ ms.all memberFits = true := by
    simpa only [Instr.wellFormed, Bool.and_eq_true, decide_eq_true_eq] using hw
  have hcount : (BitVec.ofNat 32 ms.length).toNat = ms.length := by
    rw [BitVec.toNat_ofNat]; exact Nat.mod_eq_of_lt hlen
  simp only [decode, fileListBytes, parseFileList, le32, List.cons_append, List.nil_append, u32le_le32, hcount,
    parseEntries_memberBytes rest ms hfit]

end

/-- Settles O1: by the instruction, each with what its format reads. -/
theorem decodeOfEncodeIsTheInstruction : Obligations.DecodeOfEncodeIsTheInstruction := by
  intro o i rest hw
  cases i with
  | nop => exact decode_cmd_le32 rest rfl
  | decHdr => exact decode_cmd_le32 rest rfl
  | encHdr => exact decode_cmd_le32 rest rfl
  | decompress => exact decode_cmd_le32 rest rfl
  | lzDec => exact decode_cmd_le32 rest rfl
  | hufDec => exact decode_cmd_le32 rest rfl
  | rleDec => exact decode_cmd_le32 rest rfl
  | lzEnc => exact decode_cmd_le32 rest rfl
  | crc32 => exact decode_cmd_le32 rest rfl
  | xpckOpen => exact decode_cmd_le32 rest rfl
  | xpckPack => exact decode_cmd_le32 rest rfl
  | cmdReserved11 => exact decode_cmd_le32 rest rfl
  | cmdReserved12 => exact decode_cmd_le32 rest rfl
  | cmdReserved13 => exact decode_cmd_le32 rest rfl
  | cmdReserved14 => exact decode_cmd_le32 rest rfl
  | cmdReserved15 => exact decode_cmd_le32 rest rfl
  | store size => exact decode_hdr_headerWord rest 0#3 size
  | lz size => exact decode_hdr_headerWord rest 1#3 size
  | huf4 size => exact decode_hdr_headerWord rest 2#3 size
  | huf8 size => exact decode_hdr_headerWord rest 3#3 size
  | rle size => exact decode_hdr_headerWord rest 4#3 size
  | zlib size => exact decode_hdr_headerWord rest 5#3 size
  | method6 size => exact decode_hdr_headerWord rest 6#3 size
  | method7 size => exact decode_hdr_headerWord rest 7#3 size
  | lit b => rfl
  | ref l d => exact decode_lzg_token rest l d
  | run n v => exact decode_rlc_run rest n v
  | copy n => exact decode_rlc_copyControl rest n
  | hufTable t r => rfl
  | hufNode l0 l1 off => exact decode_hufNode_nodeByte rest l0 l1 off
  | hufStep0 => rfl
  | hufStep1 => rfl
  | hufLeaf8 b => rfl
  | hufLeaf4 x => exact decode_hufLeaf4_nibble rest x
  | hufWord c => exact decode_hufWord_codeWord rest o c
  | zlibMagic => rfl
  | xpckMagic => rfl
  | xph c i n d f l k => exact decode_xph_fields rest c i n d f l k
  | xpr c n ol sl oh sh => exact decode_xpr_fields rest c n ol sl oh sh
  | countField f1 f2 => rfl
  | fls ms => exact decode_fls_fileListBytes rest hw
  | rptEntry c off l => exact decode_rpt_fields rest c off l

end Sys2Proof.Machine
end

section
/-! SUPPORT. What each format reads is the encoding of the instruction it answers (30_encoding.md R90 to R117): no bit
of the bytes read is ignored. -/

namespace Sys2Proof.Machine

/-- `bs` is `rest` after an encoding of `i`, a well-formed instruction of format `f`. -/
def EncodedBefore (f : Fmt) (bs : List Byte) (i : Instr) (rest : List Byte) : Prop :=
  i.wellFormed = true ∧ ∃ o, fmtOf o i = f ∧ encodeIn o i ++ rest = bs

section
variable {bs rest : List Byte} {i : Instr}

/-! ## Commands and headers (R91, R92, R93) -/

/-- A command is encoded by the `CMD` value it was read from. -/
theorem encodeIn_commandOf {v : Word} (o : WordOrder) (h : commandOf v = some i) :
    i.wellFormed = true ∧ fmtOf o i = .cmd ∧ encodeIn o i = le32 v := by
  unfold commandOf at h
  split at h
  case h_17 => cases h
  all_goals
    cases h
    exact ⟨rfl, rfl, congrArg le32 (BitVec.eq_of_toNat_eq (Eq.symm ‹_›))⟩

theorem encodeIn_headerInstr (o : WordOrder) (m : BitVec 3) (z : BitVec 29) :
    (headerInstr m z).wellFormed = true ∧ fmtOf o (headerInstr m z) = .hdr ∧
      encodeIn o (headerInstr m z) = le32 (headerWord m z) := by
  have hm : ∀ m : BitVec 3, m = 0#3 ∨ m = 1#3 ∨ m = 2#3 ∨ m = 3#3 ∨ m = 4#3 ∨ m = 5#3 ∨ m = 6#3 ∨ m = 7#3 := by
    decide
  rcases hm m with rfl | rfl | rfl | rfl | rfl | rfl | rfl | rfl <;> exact ⟨rfl, rfl, rfl⟩

theorem decode_cmd_encoded (h : decode .cmd bs = .ok (i, rest)) : EncodedBefore .cmd bs i rest := by
  unfold decode at h
  simp only at h
  split at h
  next b0 b1 b2 b3 _ =>
    split at h <;> cases h
    obtain ⟨hw, hf, he⟩ := encodeIn_commandOf .big ‹_›
    exact ⟨hw, .big, hf, by rw [he, le32_u32le]; rfl⟩
  next => cases h

theorem decode_hdr_encoded (h : decode .hdr bs = .ok (i, rest)) : EncodedBefore .hdr bs i rest := by
  unfold decode at h
  simp only at h
  split at h <;> cases h
  obtain ⟨hw, hf, he⟩ := encodeIn_headerInstr .big _ _
  exact ⟨hw, .big, hf, by rw [he, headerWord_fields, le32_u32le]; rfl⟩

/-! ## LZ and RLE symbols (R95, R96, R103, R104) -/

theorem decode_lzg_encoded (h : decode .lzg bs = .ok (i, rest)) : EncodedBefore .lzg bs i rest := by
  unfold decode at h
  simp only at h
  split at h
  next flag _ =>
    split at h
    next hflag =>
      split at h <;> cases h
      exact ⟨rfl, .big, rfl, by rw [hflag]; rfl⟩
    next =>
      split at h
      next hflag =>
        split at h <;> cases h
        exact ⟨rfl, .big, rfl, by simp only [refOfToken, encodeIn, lzToken_fields, be16_u16be, hflag]; rfl⟩
      next => cases h
  next => cases h

theorem decode_rlc_encoded (h : decode .rlc bs = .ok (i, rest)) : EncodedBefore .rlc bs i rest := by
  unfold decode at h
  simp only at h
  split at h
  next c _ =>
    have hc := control_fields c
    split at h
    next hbit =>
      rw [hbit] at hc
      split at h <;> cases h
      exact ⟨rfl, .big, rfl, congrArg (· :: _ :: _) hc⟩
    next hbit =>
      rw [Bool.not_eq_true] at hbit
      rw [hbit] at hc
      cases h
      exact ⟨rfl, .big, rfl, congrArg (· :: _) hc⟩
  next => cases h

/-! ## Huffman (R98 to R101, R112) -/

theorem decode_hufTable_encoded (h : decode .hufTable bs = .ok (i, rest)) : EncodedBefore .hufTable bs i rest := by
  unfold decode at h
  simp only at h
  split at h <;> cases h
  exact ⟨rfl, .big, rfl, rfl⟩

theorem decode_hufNode_encoded (h : decode .hufNode bs = .ok (i, rest)) : EncodedBefore .hufNode bs i rest := by
  unfold decode at h
  simp only at h
  split at h <;> cases h
  exact ⟨rfl, .big, rfl, congrArg (· :: _) (nodeByte_fields _)⟩

theorem decode_hufBit_encoded (h : decode .hufBit bs = .ok (i, rest)) : EncodedBefore .hufBit bs i rest := by
  unfold decode at h
  simp only at h
  split at h
  next =>
    split at h
    next hb => cases h; exact ⟨rfl, .big, rfl, by rw [hb]; rfl⟩
    next =>
      split at h <;> cases h
      next hb => exact ⟨rfl, .big, rfl, by rw [hb]; rfl⟩
  next => cases h

theorem decode_hufLeaf8_encoded (h : decode .hufLeaf8 bs = .ok (i, rest)) : EncodedBefore .hufLeaf8 bs i rest := by
  unfold decode at h
  simp only at h
  split at h <;> cases h
  exact ⟨rfl, .big, rfl, rfl⟩

theorem decode_hufLeaf4_encoded (h : decode .hufLeaf4 bs = .ok (i, rest)) : EncodedBefore .hufLeaf4 bs i rest := by
  unfold decode at h
  simp only at h
  split at h
  next b _ =>
    have hb := append_extractLsb'_eq_self (lo := 4) (hi := 4) b
    split at h <;> cases h
    next hhi =>
      rw [hhi] at hb
      exact ⟨rfl, .big, rfl, congrArg (· :: _) hb⟩
  next => cases h

/-- The one format whose instruction is encoded in the order it was read in (R100). -/
theorem decode_hufWord_encoded {o : WordOrder} (h : decode (.hufWord o) bs = .ok (i, rest)) :
    EncodedBefore (.hufWord o) bs i rest := by
  unfold decode at h
  simp only at h
  split at h <;> cases h
  exact ⟨rfl, o, rfl, by rw [encodeIn, codeWordBytes_codeWordOf]; rfl⟩

/-! ## Magic values, archive header and record, report entry (R105, R107, R116, R117) -/

theorem decode_zlibMagic_encoded (h : decode .zlibMagic bs = .ok (i, rest)) : EncodedBefore .zlibMagic bs i rest := by
  unfold decode at h
  simp only at h
  split at h
  next =>
    split at h <;> cases h
    next hb => exact ⟨rfl, .big, rfl, by rw [hb]; rfl⟩
  next => cases h

theorem decode_xpckMagic_encoded (h : decode .xpckMagic bs = .ok (i, rest)) : EncodedBefore .xpckMagic bs i rest := by
  unfold decode at h
  simp only at h
  split at h
  next =>
    split at h <;> cases h
    next hmagic => exact ⟨rfl, .big, rfl, by rw [encodeIn, ← hmagic]; rfl⟩
  next => cases h

theorem decode_xph_encoded (h : decode .xph bs = .ok (i, rest)) : EncodedBefore .xph bs i rest := by
  unfold decode at h
  simp only at h
  split at h
  next =>
    split at h <;> cases h
    next hmagic => exact ⟨rfl, .big, rfl, by simp only [encodeIn, ← hmagic, le16_u16le, le32_u32le]; rfl⟩
  next => cases h

theorem decode_xpr_encoded (h : decode .xpr bs = .ok (i, rest)) : EncodedBefore .xpr bs i rest := by
  unfold decode at h
  simp only at h
  split at h <;> cases h
  exact ⟨rfl, .big, rfl, by simp only [encodeIn, le16_u16le, le32_u32le]; rfl⟩

theorem decode_countField_encoded (h : decode .countField bs = .ok (i, rest)) :
    EncodedBefore .countField bs i rest := by
  unfold decode at h
  simp only at h
  split at h <;> cases h
  exact ⟨rfl, .big, rfl, rfl⟩

theorem decode_rpt_encoded (h : decode .rpt bs = .ok (i, rest)) : EncodedBefore .rpt bs i rest := by
  unfold decode at h
  simp only at h
  split at h
  next =>
    split at h <;> cases h
    next hcode => exact ⟨rfl, .big, rfl, by simp only [encodeIn, ← hcode, le32_u32le]; rfl⟩
  next => cases h

end

/-! ## The file list (R111) -/

theorem length_of_takeBytes {n : Nat} {bs taken rest : List Byte} (h : takeBytes n bs = some (taken, rest)) :
    taken.length = n := by
  unfold takeBytes at h
  split at h
  next hn => cases h; exact List.length_take_of_le hn
  next => cases h

/-- An entry that was read fits its length fields and has the bytes it was read from. -/
theorem memberBytes_of_takeBytes {b0 b1 b2 b3 b4 b5 : Byte} {bs bs' bs'' name data : List Byte}
    (hname : takeBytes (u16le b0 b1).toNat bs = some (name, bs'))
    (hdata : takeBytes (u32le b2 b3 b4 b5).toNat bs' = some (data, bs'')) :
    memberFits (name, data) = true ∧ memberBytes (name, data) ++ bs'' = b0 :: b1 :: b2 :: b3 :: b4 :: b5 :: bs := by
  have hlen16 := length_of_takeBytes hname
  have hlen32 := length_of_takeBytes hdata
  rw [memberFits_iff, memberBytes_append, hlen16, hlen32, BitVec.ofNat_toNat, BitVec.ofNat_toNat,
    BitVec.setWidth_eq, BitVec.setWidth_eq, le16_u16le, le32_u32le, takeBytes_eq hdata, takeBytes_eq hname]
  exact ⟨⟨rfl, rfl⟩, rfl⟩

/-- Where another entry is read, it stands first in the bytes, and the others are read after it. -/
theorem parseEntries_succ {n addr : Nat} {bs rest : List Byte} {ms : List Member}
    (h : parseEntries (n + 1) addr bs = .ok (ms, rest)) :
    ∃ m ms' addr' bs', ms = m :: ms' ∧ memberFits m = true ∧ memberBytes m ++ bs' = bs ∧
      parseEntries n addr' bs' = .ok (ms', rest) := by
  unfold parseEntries at h
  split at h
  next => contradiction
  next hsucc =>
    obtain rfl := Nat.succ.inj hsucc
    split at h
    next => cases h
    next name bs' hname =>
      split at h
      next => cases h
      next data bs'' hdata =>
        obtain ⟨hfit, hbytes⟩ := memberBytes_of_takeBytes hname hdata
        split at h <;> cases h
        exact ⟨(name, data), _, _, bs'', rfl, hfit, hbytes, ‹_›⟩
  next => cases h

/-- The entries that were read are as many as asked for, fit their length fields and have the bytes they were read
from. -/
theorem memberBytes_of_parseEntries {n addr : Nat} {bs rest : List Byte} {ms : List Member}
    (h : parseEntries n addr bs = .ok (ms, rest)) :
    ms.length = n ∧ ms.all memberFits = true ∧ ms.flatMap memberBytes ++ rest = bs := by
  induction n generalizing addr bs ms with
  | zero => cases h; exact ⟨rfl, rfl, rfl⟩
  | succ n ih =>
    obtain ⟨m, ms', addr', bs', rfl, hfit, hbytes, hrest⟩ := parseEntries_succ h
    obtain ⟨hlen, hall, hflat⟩ := ih hrest
    refine ⟨congrArg (· + 1) hlen, ?_, ?_⟩
    · rw [List.all_cons, hfit, hall]; rfl
    · rw [List.flatMap_cons, List.append_assoc, hflat, hbytes]

theorem decode_fls_encoded {bs rest : List Byte} {i : Instr} (h : decode .fls bs = .ok (i, rest)) :
    EncodedBefore .fls bs i rest := by
  unfold decode at h
  simp only at h
  split at h <;> cases h
  next ms hparse =>
    unfold parseFileList at hparse
    split at hparse
    next b0 b1 b2 b3 tail =>
      obtain ⟨hlen, hall, hflat⟩ := memberBytes_of_parseEntries hparse
      refine ⟨?_, .big, rfl, ?_⟩
      · rw [Instr.wellFormed, hall, hlen, Bool.and_true, decide_eq_true_eq]
        exact (u32le b0 b1 b2 b3).isLt
      · rw [encodeIn, fileListBytes, hlen, BitVec.ofNat_toNat, BitVec.setWidth_eq, le32_u32le, List.append_assoc,
          hflat]
        rfl
    next => cases hparse

/-! ## All formats -/

/-- Settles O2: by the format, and the 14-byte view by its five fields. -/
theorem encodeOfDecodeIsTheBytes : Obligations.EncodeOfDecodeIsTheBytes := by
  refine ⟨fun f bs i rest hf h => ?_, fun c i n d f l k rest => decode_xphOpen_fields rest c i n d f⟩
  cases f with
  | cmd => exact decode_cmd_encoded h
  | hdr => exact decode_hdr_encoded h
  | lzg => exact decode_lzg_encoded h
  | rlc => exact decode_rlc_encoded h
  | hufTable => exact decode_hufTable_encoded h
  | hufNode => exact decode_hufNode_encoded h
  | hufBit => exact decode_hufBit_encoded h
  | hufLeaf8 => exact decode_hufLeaf8_encoded h
  | hufLeaf4 => exact decode_hufLeaf4_encoded h
  | hufWord o => exact decode_hufWord_encoded h
  | zlibMagic => exact decode_zlibMagic_encoded h
  | xpckMagic => exact decode_xpckMagic_encoded h
  | xph => exact decode_xph_encoded h
  | xphOpen => exact absurd rfl hf
  | xpr => exact decode_xpr_encoded h
  | countField => exact decode_countField_encoded h
  | fls => exact decode_fls_encoded h
  | rpt => exact decode_rpt_encoded h

end Sys2Proof.Machine
end

section
/-! SUPPORT. The fields of headers and symbols as numbers (00_scope.md R9; 30_encoding.md R92, R96, R97, R103, R104;
40_commands_header.md R132, R133). -/

namespace Sys2Proof.Machine

/-! ## Header fields (R92, R132, R133) -/

/-- A field placed above the lower ones adds its value (R9). -/
theorem shiftLeft_or_eq_add {a b k : Nat} (h : b < 2 ^ k) : b ||| (a <<< k) = b + 2 ^ k * a := by
  rw [Nat.or_comm, ← Nat.shiftLeft_add_eq_or_of_lt h, Nat.shiftLeft_eq, Nat.mul_comm, Nat.add_comm]

theorem u32le_toNat (h0 h1 h2 h3 : Byte) :
    (u32le h0 h1 h2 h3).toNat = h0.toNat + 2 ^ 8 * h1.toNat + 2 ^ 16 * h2.toNat + 2 ^ 24 * h3.toNat := by
  simp only [u32le, BitVec.toNat_append]
  rw [Nat.or_comm, shiftLeft_or_eq_add h0.isLt, Nat.or_comm, shiftLeft_or_eq_add h1.isLt, Nat.or_comm,
    shiftLeft_or_eq_add h2.isLt]
  omega

/-- `SIZE` by bytes (R132): the five upper bits of `h0` and the other three bytes above them. -/
theorem sizeByBytes_eq_add (h0 h1 h2 h3 : Byte) :
    (h0.toNat >>> 3) ||| (h1.toNat <<< 5) ||| (h2.toNat <<< 13) ||| (h3.toNat <<< 21) =
      h0.toNat / 8 + 2 ^ 5 * h1.toNat + 2 ^ 13 * h2.toNat + 2 ^ 21 * h3.toNat := by
  rw [show h0.toNat >>> 3 = h0.toNat / 8 from Nat.shiftRight_eq_div_pow _ 3,
    shiftLeft_or_eq_add (a := h1.toNat) (by omega), shiftLeft_or_eq_add (a := h2.toNat) (by omega),
    shiftLeft_or_eq_add (a := h3.toNat) (by omega)]

theorem headerMethod_toNat (h : Word) : (headerMethod h).toNat = h.toNat % 8 := by
  rw [headerMethod, BitVec.extractLsb'_toNat, Nat.shiftRight_zero]

theorem headerSize_toNat (h : Word) : (headerSize h).toNat = h.toNat / 8 := by
  rw [headerSize, BitVec.extractLsb'_toNat, Nat.shiftRight_eq_div_pow]
  omega

theorem headerMethod_u32le (h0 h1 h2 h3 : Byte) : (headerMethod (u32le h0 h1 h2 h3)).toNat = h0.toNat &&& 7 := by
  rw [headerMethod_toNat, u32le_toNat, show 7 = 2 ^ 3 - 1 from rfl, Nat.and_two_pow_sub_one_eq_mod]
  omega

theorem headerSize_u32le (h0 h1 h2 h3 : Byte) :
    (headerSize (u32le h0 h1 h2 h3)).toNat =
      (h0.toNat >>> 3) ||| (h1.toNat <<< 5) ||| (h2.toNat <<< 13) ||| (h3.toNat <<< 21) := by
  rw [headerSize_toNat, u32le_toNat, sizeByBytes_eq_add]
  omega

/-- `(n << 3) | m` as a number, where the method and the size fit their fields (R133). -/
theorem shiftedHeader_toNat {m n : Word} (hm : m.toNat ≤ 5) (hn : n.toNat ≤ 0x1FFFFFFF) :
    ((n <<< 3) ||| m).toNat = 8 * n.toNat + m.toNat := by
  have hshift : (n <<< 3).toNat = n.toNat <<< 3 := by
    rw [BitVec.toNat_shiftLeft, Nat.shiftLeft_eq]
    omega
  rw [BitVec.toNat_or, hshift, Nat.or_comm, shiftLeft_or_eq_add (by omega)]
  omega

/-- Settles O4: the fields are remainder and quotient by 8 of the header's number. -/
theorem headerFieldsAreExact : Obligations.HeaderFieldsAreExact := by
  refine ⟨fun h0 h1 h2 h3 => ⟨headerMethod_u32le h0 h1 h2 h3, headerSize_u32le h0 h1 h2 h3⟩, fun v => rfl,
    fun w => ⟨rfl, u32le_le32 w⟩, fun m n hm hn => ?_⟩
  rw [headerMethod_toNat, headerSize_toNat, shiftedHeader_toNat hm hn]
  omega

/-! ## LZ and RLE symbols (R97, R103, R104) -/

/-- The length field of a token is the high half of its first byte (R96). -/
theorem refLength_token (hi lo : Byte) : refLength ((u16be hi lo).extractLsb' 12 4) = (hi.toNat >>> 4) + 3 := by
  rw [refLength, u16be, BitVec.extractLsb'_append_eq_of_le (by decide), BitVec.extractLsb'_toNat,
    Nat.shiftRight_eq_div_pow]
  omega

/-- The displacement field of a token is the low half of its first byte above its second (R96). -/
theorem refDisp_token (hi lo : Byte) :
    refDisp ((u16be hi lo).extractLsb' 0 12) = ((hi.toNat &&& 0xF) <<< 8) ||| lo.toNat := by
  rw [refDisp, BitVec.extractLsb'_toNat, Nat.shiftRight_zero, u16be, BitVec.toNat_append, Nat.or_comm,
    shiftLeft_or_eq_add lo.isLt, Nat.or_comm, shiftLeft_or_eq_add lo.isLt, show 0xF = 2 ^ 4 - 1 from rfl,
    Nat.and_two_pow_sub_one_eq_mod]
  omega

theorem refDisp_le (d : BitVec 12) : refDisp d ≤ 4095 := by unfold refDisp; omega

theorem copyCount_control {c : Byte} (h : c.toNat < 128) : copyCount (c.extractLsb' 0 7) = c.toNat + 1 := by
  rw [copyCount, BitVec.extractLsb'_toNat, Nat.shiftRight_zero, Nat.mod_eq_of_lt h]

/-- The top bit of a control byte below 128 says that it is a literal run's (R104). -/
theorem getLsbD_seven_of_lt {c : Byte} (h : c.toNat < 128) : c.getLsbD 7 = false :=
  Nat.testBit_lt_two_pow h

/-- Settles O5: the token's two fields, and the control byte by its top bit. -/
theorem symbolFieldsAreExact : Obligations.SymbolFieldsAreExact := by
  refine ⟨fun hi lo rest => ?token, fun c v rest => ?control⟩
  case token =>
    exact ⟨_, _, rfl, refLength_token hi lo, Nat.le_add_left 3 _, refLength_le _, refDisp_token hi lo, refDisp_le _⟩
  case control =>
    split
    next h =>
      refine ⟨c.extractLsb' 0 7, ?_, copyCount_control h, copyCount_le _⟩
      simp only [decode, getLsbD_seven_of_lt h, Bool.false_eq_true, if_false]
    next h =>
      refine ⟨c.extractLsb' 0 7, ?_, runCount_control c, Nat.le_add_left 3 _, runCount_le _⟩
      simp only [decode, getLsbD_seven_of_le (Nat.not_lt.1 h), if_true]

/-! ## Words of the spec (R91 to R117) -/

/-- Settles O3: each word is read by the decoder. -/
theorem wordsOfTheSpecDecode : Obligations.WordsOfTheSpecDecode :=
  ⟨rfl, rfl, rfl, rfl, rfl, rfl, rfl, rfl, rfl, rfl, rfl, rfl, rfl, rfl, rfl, rfl, rfl, rfl, rfl, rfl, rfl⟩

end Sys2Proof.Machine
end

section
/-! SUPPORT. The commands with no unit of their own and the entries of the others (40_commands_header.md R130 to R134;
41_dispatcher.md R150; 46_xpck.md R247, R260). -/

namespace Sys2Proof.Machine

/-- With no command running and the input inside `IN`, a command that is no reserved code runs its body after the
prologue (R130). -/
theorem exec_of_ready {i : Instr} {s : State} (h : Ready s) (hf : fmtOf .big i = .cmd) (hres : i ∉ reservedInstrs) :
    exec i s = commandBody i (prologue s) := by
  obtain ⟨hidle, hcap⟩ := h
  rcases exec_command hf with ⟨hmem, _⟩ | ⟨_, he⟩
  · exact absurd hmem hres
  · rw [he, startCommand_idle hidle hcap]

/-- `STATUS` of a command that has ended with no failure and no report (R27, R130). -/
theorem statusWord_endCommand {s : State} (herr : s.host.err = false) (hrpt : s.host.rptFlag = false) :
    statusWord (endCommand s).host = 0b0010#32 := by
  rw [statusWord_eq, endCommand_host_busy, endCommand_host_done, endCommand_host_err, endCommand_host_rptFlag, herr,
    hrpt]
  rfl

/-- `STATUS` of a command that has failed with no report (R27, R300). -/
theorem statusWord_raise {f : Failure} {n : Nat} {s : State} (hrpt : s.host.rptFlag = false) :
    statusWord (raise f n s).host = 0b0110#32 := by
  rw [statusWord_eq, raise_host_busy, raise_host_done, raise_host_err, raise_host_rptFlag, hrpt]
  rfl

/-! ## DEC_HDR (R132) -/

theorem decHdrBody_short {p : State} (h : p.host.inLen.toNat < 4) :
    decHdrBody p = .next (raise .malformedHeader p.host.inLen.toNat p) := if_pos h

theorem decHdrBody_fields {p : State} (h : 4 ≤ p.host.inLen.toNat) :
    decHdrBody p =
      let w := u32le (p.inp.read 0) (p.inp.read 1) (p.inp.read 2) (p.inp.read 3)
      .next (endCommand { p with
        host := { p.host with res0 := (headerMethod w).setWidth 32, res1 := (headerSize w).setWidth 32 } }) :=
  if_neg (Nat.not_lt.2 h)

/-- Settles O10: `DEC_HDR` by its two cases; the results are the header's two fields, each inside 32 bits. -/
theorem decHdrReturnsTheFields : Obligations.DecHdrReturnsTheFields := by
  intro s hready
  have hexec : exec .decHdr s = decHdrBody (prologue s) := exec_of_ready hready rfl (by decide)
  refine ⟨fun hlen => hexec.trans (decHdrBody_short hlen), fun hlen => ?_⟩
  have hnext := hexec.trans (decHdrBody_fields hlen)
  refine ⟨_, hnext, ?_, ?_, statusWord_endCommand rfl rfl, rfl, rfl, (exec_kept .decHdr s).of_eq hnext,
    ⟨rfl, rfl, rfl, rfl⟩⟩
  · exact (BitVec.toNat_setWidth_of_le (by decide)).trans (headerMethod_u32le ..)
  · exact (BitVec.toNat_setWidth_of_le (by decide)).trans (headerSize_u32le ..)

/-! ## ENC_HDR (R133) -/

section
variable {p : State}

theorem encHdrBody_badMethod (hm : 5 < p.host.arg0.toNat) :
    encHdrBody p = .next (raise .badArgument p.host.arg0.toNat p) := if_pos hm

theorem encHdrBody_badSize (hm : p.host.arg0.toNat ≤ 5) (hn : 0x1FFFFFFF < p.host.arg1.toNat) :
    encHdrBody p = .next (raise .badArgument p.host.arg1.toNat p) :=
  (if_neg (Nat.not_lt.2 hm)).trans (if_pos hn)

theorem encHdrBody_noRoom (hm : p.host.arg0.toNat ≤ 5) (hn : p.host.arg1.toNat ≤ 0x1FFFFFFF)
    (hroom : p.cfg.outCap.toNat < 4) : encHdrBody p = .next (raise .badArgument 4 p) :=
  (if_neg (Nat.not_lt.2 hm)).trans ((if_neg (Nat.not_lt.2 hn)).trans (if_pos hroom))

theorem encHdrBody_writes (hm : p.host.arg0.toNat ≤ 5) (hn : p.host.arg1.toNat ≤ 0x1FFFFFFF)
    (hroom : 4 ≤ p.cfg.outCap.toNat) :
    encHdrBody p = .next (endCommand { p with
      out := p.out.writeN 0 (le32 ((p.host.arg1 <<< 3) ||| p.host.arg0)), str := { p.str with op := 4 } }) :=
  (if_neg (Nat.not_lt.2 hm)).trans ((if_neg (Nat.not_lt.2 hn)).trans (if_neg (Nat.not_lt.2 hroom)))

end

/-- The header that `ENC_HDR` writes, by its number (R133). -/
theorem shiftedHeader_eq_ofNat {m n : Word} (hm : m.toNat ≤ 5) (hn : n.toNat ≤ 0x1FFFFFFF) :
    (n <<< 3) ||| m = BitVec.ofNat 32 (8 * n.toNat + m.toNat) := by
  rw [← shiftedHeader_toNat hm hn, BitVec.ofNat_toNat, BitVec.setWidth_eq]

/-- A write to `OUT` from address 0 on changes those bytes and no other (R10). -/
theorem wroteOut_of_writeN {s t : State} {bs : List Byte} (hout : t.out = s.out.writeN 0 bs) (hinp : t.inp = s.inp)
    (htbl : t.tbl = s.tbl) (hscr : t.scr = s.scr) : WroteOut s t bs := by
  refine ⟨?_, fun x hx => ?_, hinp, htbl, hscr⟩
  · rw [hout, Memory.readN_writeN_same]
  · rw [hout, Memory.read_writeN, if_neg (by omega)]

/-- Settles O11: each check is one case of the body; the header written is the number `8 * ARG1 + ARG0`. -/
theorem encHdrWritesTheHeader : Obligations.EncHdrWritesTheHeader := by
  intro s hready _
  have hexec : exec .encHdr s = encHdrBody (prologue s) := exec_of_ready hready rfl (by decide)
  refine ⟨fun hm => hexec.trans (encHdrBody_badMethod hm), fun hm hn => hexec.trans (encHdrBody_badSize hm hn),
    fun hm hn hroom => hexec.trans (encHdrBody_noRoom hm hn hroom), fun hm hn hroom => ?_⟩
  refine ⟨_, hexec.trans (encHdrBody_writes hm hn hroom), ?_, rfl, rfl⟩
  rw [← shiftedHeader_eq_ofNat hm hn]
  exact wroteOut_of_writeN rfl rfl rfl rfl

/-! ## NOP, the reserved codes and the entries of units (R131, R134, R150, R247, R260) -/

/-- Settles O7: the prologue clears the registers, and the end of the command sets `DONE`. -/
theorem nopClearsTheFailure : Obligations.NopClearsTheFailure := by
  intro s hready
  have hnext : exec .nop s = .next (endCommand (prologue s)) := exec_of_ready hready rfl (by decide)
  exact ⟨_, hnext, statusWord_endCommand rfl rfl, rfl, rfl, rfl, rfl, rfl, rfl, rfl,
    (exec_kept .nop s).of_eq hnext, rfl, rfl, rfl, rfl⟩

/-- A value with a bit above bit 3 set is no command (R91). -/
theorem commandOf_eq_none {v : Word} (h : 15 < v.toNat) : commandOf v = none := by
  unfold commandOf
  split
  case h_17 => rfl
  all_goals omega

theorem decode_cmd_reserved {v : Word} (h : 15 < v.toNat) : decode .cmd (le32 v) = .error (.reservedCommand v) := by
  simp only [le32, decode, u32le_le32, commandOf_eq_none h]

/-- A write to `CMD` runs the command of the value; a value that is no command is refused (R91, R130, R134). -/
theorem hostWriteReg_cmd_eq (v : Word) (s : State) :
    hostWriteReg 0 v s = runDecoded .cmd (le32 v) s (.next (reservedCommand v s)) := by
  unfold hostWriteReg runDecoded
  cases decode .cmd (le32 v) <;> rfl

/-- A write to `CMD` of a value from 11 up is a reserved command, whether or not the code has a row (R134). -/
theorem hostWriteReg_reserved {v : Word} (h : 11 ≤ v.toNat) (s : State) :
    (hostWriteReg 0 v s).outcome = .next (reservedCommand v s) := by
  have hcode : (v = 11#32 ∨ v = 12#32 ∨ v = 13#32 ∨ v = 14#32 ∨ v = 15#32) ∨ 15 < v.toNat := by bv_omega
  rcases hcode with hrow | hv
  · rcases hrow with rfl | rfl | rfl | rfl | rfl <;> rfl
  · rw [hostWriteReg_cmd_eq, runDecoded_error (decode_cmd_reserved hv)]; rfl

/-- Settles O8: a value from 11 up is a reserved command, and with no command running that raises its value. -/
theorem reservedCommandsRaise : Obligations.ReservedCommandsRaise := by
  refine ⟨fun s v hidle hv => ?_, fun s hidle => ?_⟩
  · refine ⟨_, ?_, rfl, statusWord_raise rfl, rfl, ?_, rfl, rfl, rfl, rfl⟩
    · rw [step_writeReg rfl, hostWriteReg_reserved hv]
      exact congrArg _ (reservedCommand_idle hidle)
    · rw [raise_host_errInfo, BitVec.ofNat_toNat, BitVec.setWidth_eq]
  · have hraise (v : Word) : Host.Outcome.next (reservedCommand v s) =
        (.next (raise .badArgument v.toNat (prologue s)) : Outcome) := congrArg _ (reservedCommand_idle hidle)
    exact ⟨hraise 11, hraise 12, hraise 13, hraise 14, hraise 15⟩

/-- Settles O13: each of the three bodies only names the unit's first action. -/
theorem archiveAndDispatchCommandsEnter : Obligations.ArchiveAndDispatchCommandsEnter := fun _ hready =>
  ⟨exec_of_ready hready rfl (by decide), exec_of_ready hready rfl (by decide), exec_of_ready hready rfl (by decide)⟩

end Sys2Proof.Machine
end

section
/-! SUPPORT. Which instruction a step runs: each unit's fetch where its bytes are there and decode. -/

namespace Sys2Proof.Machine

section
variable {s : State} {i : Instr} {rest : List Byte}

/-- Bytes at `IP` that can be fetched and decode, with what the format reads before them, are run. -/
theorem peek_runDecoded {n : Nat} {f : Fmt} (g : List Byte → List Byte) {o : Outcome} (h : CanFetch n s)
    (hdec : decode f (g (s.inp.readN s.str.ip n)) = .ok (i, rest)) :
    peek n s (fun bs => runDecoded f (g bs) s o) = .run i s := by
  obtain ⟨hlimit, hcap⟩ := h
  rw [peek_eq hlimit (hlimit.trans hcap)]
  exact runDecoded_ok hdec

theorem fetchHeader_run (hlen : s.str.base + 4 ≤ s.str.limit) (h : CanFetch 4 s)
    (hdec : decode .hdr (s.inp.readN s.str.ip 4) = .ok (i, rest)) : fetchHeader s = .run i s := by
  rw [fetchHeader, if_neg (by omega)]
  exact peek_runDecoded id h hdec

theorem fetchZlibMagic_run (h : CanFetch 1 s) (hdec : decode .zlibMagic (s.inp.readN s.str.ip 1) = .ok (i, rest)) :
    fetchZlibMagic s = .run i s := by
  have hip : s.str.ip + 1 ≤ s.str.limit := h.1
  rw [fetchZlibMagic, if_neg (by omega)]
  exact peek_runDecoded id h hdec

theorem fetchSymbol_token (h : CanFetch 2 s)
    (hdec : decode .lzg (1#8 :: s.inp.readN s.str.ip 2) = .ok (i, rest)) : fetchSymbol true s = .run i s :=
  peek_runDecoded (1#8 :: ·) h hdec

theorem fetchSymbol_literal (h : CanFetch 1 s)
    (hdec : decode .lzg (0#8 :: s.inp.readN s.str.ip 1) = .ok (i, rest)) : fetchSymbol false s = .run i s :=
  peek_runDecoded (0#8 :: ·) h hdec

theorem fetchRle_copy (hop : s.str.op < s.str.size) (hc : (s.inp.read s.str.ip).toNat < 128) (h : CanFetch 1 s)
    (hdec : decode .rlc (s.inp.readN s.str.ip 1) = .ok (i, rest)) : fetchRle s = .run i s := by
  obtain ⟨hlimit, hcap⟩ := h
  have hbit : ((bytesAtIp 1 s).headD 0#8).getLsbD 7 = false := getLsbD_seven_of_lt hc
  rw [fetchRle, if_pos hop, peek_eq hlimit (hlimit.trans hcap)]
  simp only [hbit, Bool.false_eq_true, if_false]
  exact runDecoded_ok hdec

theorem fetchRle_run (hop : s.str.op < s.str.size) (hc : 128 ≤ (s.inp.read s.str.ip).toNat) (h : CanFetch 2 s)
    (hdec : decode .rlc (s.inp.readN s.str.ip 2) = .ok (i, rest)) : fetchRle s = .run i s := by
  obtain ⟨hlimit, hcap⟩ := h
  have hbit : ((bytesAtIp 1 s).headD 0#8).getLsbD 7 = true := getLsbD_seven_of_le hc
  rw [fetchRle, if_pos hop, peek_eq (by omega) (by omega)]
  simp only [hbit, if_true]
  refine (peek_eq (n := 1) hlimit (hlimit.trans hcap)).trans ?_
  exact runDecoded_ok hdec

theorem fetchHufBit_word (hneed : 0 < s.huf.need) (hbits : s.huf.bitCnt = 0) (h : CanFetch 4 s)
    (hdec : decode (.hufWord s.cfg.hufWordOrder) (s.inp.readN s.str.ip 4) = .ok (i, rest)) :
    fetchHufBit s = .run i s := by
  rw [fetchHufBit, if_neg hneed.ne', if_pos hbits]
  exact peek_runDecoded id h hdec

theorem fetchHufBit_bit (hneed : 0 < s.huf.need) (hbits : 0 < s.huf.bitCnt)
    (hdec : decode .hufBit [if s.huf.code.getLsbD 31 then 1#8 else 0#8] = .ok (i, rest)) :
    fetchHufBit s = .run i s := by
  rw [fetchHufBit, if_neg hneed.ne', if_neg hbits.ne']
  exact runDecoded_ok hdec

theorem fetchHufChild_run {idx : Nat} {leaf : Bool}
    (hdec : decode (if leaf then (if s.huf.depth = 4 then .hufLeaf4 else .hufLeaf8) else .hufNode)
      (s.tbl.readN idx 1) = .ok (i, rest)) : fetchHufChild idx leaf s = .run i s := by
  unfold fetchHufChild
  split_ifs at hdec ⊢ <;> exact runDecoded_ok hdec

theorem fetchXpckMagic_run (hlen : 4 ≤ s.host.inLen.toNat) (hcap : s.host.inLen.toNat ≤ s.cfg.inCap.toNat)
    (hdec : decode .xpckMagic (s.inp.readN 0 4) = .ok (i, rest)) : fetchXpckMagic s = .run i s := by
  rw [fetchXpckMagic, if_neg (by omega), if_neg (by omega)]
  exact runDecoded_ok hdec

theorem fetchCountField_run (hdec : decode .countField (s.inp.readN 4 2) = .ok (i, rest)) :
    fetchCountField s = .run i s := runDecoded_ok hdec

theorem fetchReport_run {e : RptEntry}
    (hdec : decode .rpt (le32 e.code ++ le32 e.crc ++ le32 e.off ++ le32 e.len) = .ok (i, rest)) :
    fetchReport e s = .run i s := runDecoded_ok hdec

theorem fetchRecord_run (hrec : s.xp.recIdx < s.xp.cnt) {u : State}
    (hu : u = { s with str := { s.str with ip := s.xp.infoOff + 12 * s.xp.recIdx } }) (h : CanFetch 12 u)
    (hdec : decode .xpr (u.inp.readN u.str.ip 12) = .ok (i, rest)) : fetchRecord s = .run i u := by
  subst hu
  rw [fetchRecord, if_pos hrec]
  exact peek_runDecoded id h hdec

/-- The whole input is a file list: the cursor is past it (R260). -/
theorem fetchFls_run (hcap : s.host.inLen.toNat ≤ s.cfg.inCap.toNat)
    (hdec : decode .fls (s.inp.readN 0 s.host.inLen.toNat) = .ok (i, [])) :
    fetchFls s = .run i { s with str := { s.str with ip := s.host.inLen.toNat } } := by
  rw [fetchFls_eq, if_neg (Nat.not_lt.2 hcap), hdec]
  rfl

end

/-- Settles O49: a write of `CMD` by its decoder, and each control point by the fetch of its unit. -/
theorem stepRunsTheDecodedInstruction : Obligations.StepRunsTheDecodedInstruction := by
  refine ⟨fun s v rest i hbus hdec => ?_, fun s i hbus hbusy => ?_⟩
  · rw [step_writeReg hbus, hostWriteReg_cmd_eq, runDecoded_ok hdec]; rfl
  have hrun {p : Phase} {u : State} (hp : s.phase = p) (hf : fetchAt p s = .run i u) : step s = exec i u := by
    rw [step_eq_fetchAt hbus hbusy hp, hf]; rfl
  refine ⟨fun hp hlen h hdec => hrun hp (fetchHeader_run hlen h hdec),
    fun hp h hdec => hrun hp (fetchZlibMagic_run h hdec), fun hp hop hflag => ?symbol, fun hp hop => ?chunk,
    fun hp h hdec => hrun hp (peek_runDecoded id h hdec),
    fun hp hneed hbits h hdec => hrun hp (fetchHufBit_word hneed hbits h hdec),
    fun hp hneed hbits hdec => hrun hp (fetchHufBit_bit hneed hbits hdec),
    fun idx leaf hp hdec => hrun hp (fetchHufChild_run hdec),
    fun hp hlen hcap hdec => hrun hp (fetchXpckMagic_run hlen hcap hdec),
    fun hp h hdec => hrun hp (peek_runDecoded (s.inp.readN 0 4 ++ ·) h hdec),
    fun hp hdec => hrun hp (fetchCountField_run hdec), fun hp hrec => ?record,
    fun e hp hdec => hrun hp (fetchReport_run hdec), fun hp hcap hdec => hrun hp (fetchFls_run hcap hdec)⟩
  case symbol =>
    intro flags u
    have hfetch {n : Nat} (h : CanFetch n u) : fetchLz s = fetchSymbol (flags.getLsbD 7) u := by
      have hu : takeFlag (loadFlags s) = u := takeFlag_loadFlags_eq s
      rw [← hu]
      exact fetchLz_symbol hop h.2 fun h0 => (hflag h0).1
    split
    next hbit => exact fun h hdec => hrun hp ((hfetch h).trans (hbit ▸ fetchSymbol_token h hdec))
    next hbit =>
      rw [Bool.not_eq_true] at hbit
      exact fun h hdec => hrun hp ((hfetch h).trans (hbit ▸ fetchSymbol_literal h hdec))
  case chunk =>
    split
    next hc => exact fun h hdec => hrun hp (fetchRle_copy hop hc h hdec)
    next hc => exact fun h hdec => hrun hp (fetchRle_run hop (Nat.not_lt.1 hc) h hdec)
  case record => exact fun h hdec => hrun hp (fetchRecord_run hrec rfl h hdec)

end Sys2Proof.Machine
end

section
/-! SUPPORT. The dispatcher's methods (41_dispatcher.md R150 to R158): the payload of STORE and ZLIB, the entries of the
decoders with room and without, and the failures at a magic or a header. -/

namespace Sys2Proof.Machine

/-! ## The payload of STORE and ZLIB (R151, R156) -/

/-- The frame of a payload: it stands in the destination from address 0 on, and no other byte changes. -/
theorem emitted_payloadOut (bs : List Byte) (s : State) : Emitted s (payloadOut bs s) 0 bs :=
  emitted_emitAll bs { s with str := { s.str with op := 0 } }

/-- A payload writes `IP`, `OP` and no space but the destination. -/
theorem payloadOut_frame (bs : List Byte) (s : State) :
    payloadOut bs s = { s with
      str := { s.str with ip := s.str.limit, op := bs.length }
      out := (payloadOut bs s).out, scr := (payloadOut bs s).scr, phase := .finish } := by
  rw [payloadOut_eq]

section
variable {n : Nat} {s : State}

theorem sizeMismatch_of_strict (hc : s.cfg.storeSizeCheck = .strict) (hn : n ≠ s.str.size) :
    sizeMismatch n s = true := by
  simp [sizeMismatch, hc, hn]

theorem sizeMismatch_of_accepted (h : s.cfg.storeSizeCheck = .unchecked ∨ n = s.str.size) :
    sizeMismatch n s = false := by
  rcases h with hc | hn
  · simp [sizeMismatch, hc]
  · simp [sizeMismatch, hn]

end

section
variable {s : State}

theorem storePayload_mismatch (h : sizeMismatch (s.str.limit - s.str.ip) s = true) :
    storePayload s = .next (raise .malformedHeader s.str.ip s) := if_pos h

theorem storePayload_noRoom (h : sizeMismatch (s.str.limit - s.str.ip) s = false)
    (hroom : capacity s < s.str.limit - s.str.ip) :
    storePayload s = .next (raise .badArgument (s.str.limit - s.str.ip) s) := by
  simp only [storePayload, h, Bool.false_eq_true, if_false, if_pos hroom]

theorem storePayload_fits (h : sizeMismatch (s.str.limit - s.str.ip) s = false)
    (hroom : s.str.limit - s.str.ip ≤ capacity s) (hin : CanFetch (s.str.limit - s.str.ip) s) :
    storePayload s = .next (payloadOut (bytesAtIp (s.str.limit - s.str.ip) s) s) := by
  obtain ⟨hlimit, hcap⟩ := hin
  simp only [storePayload, h, Bool.false_eq_true, if_false, if_neg (Nat.not_lt.2 hroom),
    if_neg (Nat.not_lt.2 (hlimit.trans hcap))]

/-- The bytes up to `LIMIT` can be fetched wherever some can. -/
theorem CanFetch.rest {n : Nat} (h : CanFetch n s) : CanFetch (s.str.limit - s.str.ip) s := by
  obtain ⟨hlimit, hcap⟩ := h
  exact ⟨by omega, hcap⟩

theorem CanFetch.beginMethod {m : BitVec 3} {size : BitVec 29} (h : CanFetch 4 s) :
    CanFetch 0 (beginMethod m size s) := h

end

/-- Settles O20: the three outcomes of `Store` after the header is taken. -/
theorem storeCopiesThePayload : Obligations.StoreCopiesThePayload := by
  intro size s hfetch _ n u
  have hexec : exec (.store size) s = storePayload u := rfl
  have hrest : CanFetch n u := hfetch.beginMethod.rest
  refine ⟨fun hc hn => ?mismatch, fun hok hroom => ?noRoom, fun hok hroom => ?fits⟩
  case mismatch => exact hexec.trans (storePayload_mismatch (sizeMismatch_of_strict hc hn))
  case noRoom => exact hexec.trans (storePayload_noRoom (sizeMismatch_of_accepted hok) hroom)
  case fits =>
    refine ⟨_, hexec.trans (storePayload_fits (sizeMismatch_of_accepted hok) hroom hrest),
      emitted_payloadOut _ u, ?_⟩
    rw [payloadOut_frame, bytesAtIp_length]

/-! ## ZLIB (R156, R158) -/

/-- The engine is given the whole payload where it lies inside `IN`. -/
theorem execZlibMagic_eq {n : Nat} {s : State} (h : CanFetch n s) :
    execZlibMagic s =
      .next (zlibAnswer (Config.inflate (s.inp.readN s.str.ip (s.str.limit - s.str.ip))) s) := by
  obtain ⟨hlimit, hcap⟩ := h.rest
  exact if_neg (Nat.not_lt.2 (hlimit.trans hcap))

section
variable {r : List Byte} {s : State}

theorem zlibAnswer_mismatch (h : sizeMismatch r.length s = true) :
    zlibAnswer (some r) s = raise .malformedHeader s.str.ip s := if_pos h

theorem zlibAnswer_noRoom (h : sizeMismatch r.length s = false) (hroom : capacity s < r.length) :
    zlibAnswer (some r) s = raiseLength .badArgument r.length s := by
  simp only [zlibAnswer, h, Bool.false_eq_true, if_false, if_pos hroom]

theorem zlibAnswer_fits (h : sizeMismatch r.length s = false) (hroom : r.length ≤ capacity s) :
    zlibAnswer (some r) s = payloadOut r s := by
  simp only [zlibAnswer, h, Bool.false_eq_true, if_false, if_neg (Nat.not_lt.2 hroom)]

end

/-- A failure writes no space (R300, R302). -/
theorem spacesKept_raise (f : Failure) (v : Nat) (s : State) : SpacesKept s (raise f v s) := ⟨rfl, rfl, rfl, rfl⟩

/-- Settles O24: the header's update, and the engine's answer by its four outcomes. -/
theorem zlibHandsThePayloadOver : Obligations.ZlibHandsThePayloadOver := by
  refine ⟨fun _ _ => rfl, fun s hfetch _ => ⟨_, execZlibMagic_eq hfetch, fun hfail => ?fails, fun r hr => ?_⟩⟩
  case fails => rw [hfail]; rfl
  rw [hr]
  refine ⟨fun hc hn => zlibAnswer_mismatch (sizeMismatch_of_strict hc hn), fun hok hroom => ?noRoom,
    fun hok hroom => ?fits⟩
  case noRoom =>
    rw [zlibAnswer_noRoom (sizeMismatch_of_accepted hok) hroom]
    rcases raiseLength_cases .badArgument r.length s with ⟨_, he⟩ | ⟨hlarge, v, he⟩ <;> rw [he]
    · exact ⟨rfl, rfl, spacesKept_raise _ _ s, fun _ => rfl⟩
    · exact ⟨rfl, rfl, spacesKept_raise _ _ s, fun hlt => absurd hlt (Nat.not_lt.2 hlarge)⟩
  case fits =>
    rw [zlibAnswer_fits (sizeMismatch_of_accepted hok) hroom]
    exact ⟨emitted_payloadOut r s, payloadOut_frame r s⟩

/-! ## LZ, HUF4 and HUF8 (R152 to R154) -/

section
variable {s : State}

theorem lzEnter_fits (h : s.str.size ≤ capacity s) :
    lzEnter s = { s with str := { s.str with op := 0 }, lz := { s.lz with fcnt := 0 }, phase := .lz } :=
  if_neg (Nat.not_lt.2 h)

theorem lzEnter_noRoom (h : capacity s < s.str.size) : lzEnter s = raise .badArgument s.str.size s := if_pos h

theorem hufMethod_fits (d : Nat) (h : s.str.size ≤ capacity s) :
    hufMethod d s = { s with huf := { s.huf with depth := d }, phase := .hufTable } := if_neg (Nat.not_lt.2 h)

theorem hufMethod_noRoom (d : Nat) (h : capacity s < s.str.size) :
    hufMethod d s = raise .badArgument s.str.size { s with huf := { s.huf with depth := d } } := if_pos h

end

/-- Settles O21: the entries of the two decoders, after the header is taken. -/
theorem codecMethodsEnter : Obligations.CodecMethodsEnter := by
  intro size s u
  refine ⟨fun hfits => ⟨?_, ?_, ?_⟩, fun hroom => ⟨?_, ?_, ?_⟩⟩
  · exact congrArg Host.Outcome.next (lzEnter_fits (s := u 1#3) hfits)
  · exact congrArg Host.Outcome.next (hufMethod_fits (s := u 2#3) 4 hfits)
  · exact congrArg Host.Outcome.next (hufMethod_fits (s := u 3#3) 8 hfits)
  · exact congrArg Host.Outcome.next (lzEnter_noRoom (s := u 1#3) hroom)
  · exact congrArg Host.Outcome.next (hufMethod_noRoom (s := u 2#3) 4 hroom)
  · exact congrArg Host.Outcome.next (hufMethod_noRoom (s := u 3#3) 8 hroom)

/-! ## RLE (R155, R220) -/

/-- The four bytes that the header decoder reads are those of the header's word (R92). -/
theorem bytes_of_decode_rle {bs : List Byte} {size : BitVec 29} (h : decode .hdr bs = .ok (.rle size, [])) :
    bs = le32 (headerWord 4#3 size) := by
  obtain ⟨_, _, _, he⟩ := decode_hdr_encoded h
  exact he.symm

section
variable {size : BitVec 29} {s : State}

/-- The unit takes the header at `BASE` again, wherever `IP` stands. -/
theorem rleStream_of_header {h : Word} (hlen : s.str.base + 4 ≤ s.str.limit) (hcap : s.str.limit ≤ s.cfg.inCap.toNat)
    (hbytes : s.inp.readN s.str.base 4 = le32 h) :
    rleStream s = .next (rleHeader h { s with str := { s.str with ip := s.str.base + 4 } }) := by
  rw [rleStream, if_neg (by show ¬s.str.limit - s.str.base < 4; omega)]
  refine (fetch_eq hlen (hlen.trans hcap)).trans ?_
  rw [bytesAtIp, hbytes]
  exact congrArg (fun v => Host.Outcome.next (rleHeader v _)) (u32le_le32 h)

theorem rleHeader_fits (h : size.toNat ≤ capacity s) :
    rleHeader (headerWord 4#3 size) s = { s with
      str := { s.str with op := 0, method := 4#3, size := size.toNat }, phase := .rle } := by
  simp only [rleHeader, headerMethod_headerWord, headerSize_headerWord, ne_eq, not_true, if_false]
  exact if_neg (Nat.not_lt.2 h)

theorem rleHeader_noRoom (h : capacity s < size.toNat) :
    rleHeader (headerWord 4#3 size) s =
      raise .badArgument size.toNat { s with str := { s.str with method := 4#3, size := size.toNat } } := by
  simp only [rleHeader, headerMethod_headerWord, headerSize_headerWord, ne_eq, not_true, if_false]
  exact if_pos h

end

/-- Settles O22: the header read again has method 4 and the same size, so that only the capacity is left to check. -/
theorem rleMethodReadsTheHeaderAgain : Obligations.RleMethodReadsTheHeaderAgain := by
  intro size s hlen hcap hdec u
  have hexec : exec (.rle size) s = .next (rleHeader (headerWord 4#3 size) u) :=
    rleStream_of_header (s := beginMethod 4#3 size s) hlen hcap (bytes_of_decode_rle hdec)
  exact ⟨fun hfits => hexec.trans (congrArg Host.Outcome.next (rleHeader_fits (s := u) hfits)),
    fun hroom => hexec.trans (congrArg Host.Outcome.next (rleHeader_noRoom (s := u) hroom))⟩

/-! ## Methods 6 and 7 (R157) -/

/-- Settles O23: both methods raise right after the header is taken. -/
theorem unknownMethodsRaise : Obligations.UnknownMethodsRaise := fun _ _ =>
  ⟨_, _, rfl, rfl, rfl, rfl, rfl, rfl, rfl, rfl, spacesKept_raise _ _ _, spacesKept_raise _ _ _⟩

/-! ## Missing magics and headers (R150, R156, R247) -/

theorem runDecoded_not_ok {f : Fmt} {bs : List Byte} {s : State} {o : Outcome}
    (h : ∀ i rest, decode f bs ≠ .ok (i, rest)) : runDecoded f bs s o = .stop o := by
  cases hdec : decode f bs with
  | ok r => exact absurd hdec (h r.1 r.2)
  | error e => exact runDecoded_error hdec

section
variable {s : State}

theorem fetchHeader_short (h : s.str.limit - s.str.base < 4) :
    fetchHeader s = .stop (.next (raise .malformedHeader s.str.base s)) := if_pos h

/-- The byte a zlib magic was read from is 0x78 (R116). -/
theorem head_of_decode_zlibMagic {b : Byte} {bs rest : List Byte} {i : Instr}
    (h : decode .zlibMagic (b :: bs) = .ok (i, rest)) : b = 0x78#8 := by
  obtain ⟨_, _, _, he⟩ := decode_zlibMagic_encoded h
  cases decode_zlibMagic h
  exact (List.cons.inj he).1.symm

/-- The four bytes an archive's magic was read from are "XPCK" (R105). -/
theorem bytes_of_decode_xpckMagic {bs rest : List Byte} {i : Instr} (hlen : bs.length = 4)
    (h : decode .xpckMagic bs = .ok (i, rest)) : bs = xpckMagicBytes := by
  obtain ⟨_, _, _, he⟩ := decode_xpckMagic_encoded h
  cases decode_xpckMagic h
  have hbs : xpckMagicBytes ++ rest = bs := he
  rw [← hbs, List.length_append] at hlen
  have hrest : rest = [] := List.eq_nil_of_length_eq_zero (Nat.add_left_cancel hlen)
  rw [← hbs, hrest, List.append_nil]

theorem fetchZlibMagic_missing (hcap : s.str.limit ≤ s.cfg.inCap.toNat)
    (h : s.str.limit ≤ s.str.ip ∨ s.inp.read s.str.ip ≠ 0x78#8) :
    fetchZlibMagic s = .stop (.next (raise .badMagic s.str.ip s)) := by
  unfold fetchZlibMagic
  split
  next => rfl
  next hip =>
    have hbyte := h.resolve_left hip
    rw [peek_eq (by omega) (by omega)]
    exact runDecoded_not_ok fun _ _ hdec => hbyte (head_of_decode_zlibMagic hdec)

theorem fetchXpckMagic_missing (hcap : s.host.inLen.toNat ≤ s.cfg.inCap.toNat)
    (h : s.host.inLen.toNat < 4 ∨ s.inp.readN 0 4 ≠ xpckMagicBytes) :
    fetchXpckMagic s = .stop (.next (raise .badMagic 0 s)) := by
  unfold fetchXpckMagic
  split
  next => rfl
  next hlen =>
    have hbytes := h.resolve_left hlen
    rw [if_neg (by omega)]
    exact runDecoded_not_ok fun _ _ hdec => hbytes (bytes_of_decode_xpckMagic (Memory.readN_length _ _ _) hdec)

end

/-- Settles O25: each of the three control points stops at its fetch. -/
theorem missingMagicRaises : Obligations.MissingMagicRaises := by
  intro s hbus hbusy hcap hinCap
  have hstop {p : Phase} {o : Outcome} (hp : s.phase = p) (hf : fetchAt p s = .stop o) : step s = o := by
    rw [step_eq_fetchAt hbus hbusy hp, hf]; rfl
  exact ⟨fun hp h => hstop hp (fetchHeader_short h), fun hp h => hstop hp (fetchZlibMagic_missing hcap h),
    fun hp h => hstop hp (fetchXpckMagic_missing hinCap h)⟩

end Sys2Proof.Machine
end

section
/-! SUPPORT. The ends of units and of the record loop (42_lz.md R174; 43_huffman.md R205; 44_rle.md R224; 46_xpck.md
R250, R251), and the start of `LZ_DEC` (42_lz.md R170, R171). -/

namespace Sys2Proof.Machine

section
variable {s : State}

/-! ## Ends -/

/-- While no command runs the core leaves the state as it is (R311). -/
theorem step_idle (hbus : s.bus = []) (hidle : s.host.busy = false) : step s = .next s := by
  rw [step_eq_coreStep hbus, coreStep, fetchCore_eq, hidle, if_neg Bool.false_ne_true]
  rfl

theorem unitDone_of_dst (h : s.str.dst = true) :
    unitDone s = { s with
      xp := { s.xp with ntLen := s.str.op }
      str := { s.str with base := 0, limit := s.host.inLen.toNat, dst := false }
      phase := .lookup 0 } := if_pos h

/-- The control points at which the active unit has nothing more to fetch. -/
def UnitAtEnd (s : State) : Prop :=
  (s.phase = .lz ∧ s.str.size ≤ s.str.op) ∨ (s.phase = .rle ∧ s.str.size ≤ s.str.op) ∨
    (s.phase = .hufBit ∧ s.huf.need = 0) ∨ s.phase = .finish

/-- At its end each unit returns to its caller. -/
theorem fetchAt_of_unitAtEnd (h : UnitAtEnd s) : fetchAt s.phase s = .stop (.next (unitDone s)) := by
  rcases h with ⟨hp, hop⟩ | ⟨hp, hop⟩ | ⟨hp, hneed⟩ | hp <;> rw [hp]
  · exact if_neg (Nat.not_lt.2 hop)
  · exact if_neg (Nat.not_lt.2 hop)
  · exact if_pos hneed
  · rfl

theorem step_of_unitAtEnd (hbus : s.bus = []) (hbusy : s.host.busy = true) (h : UnitAtEnd s) :
    step s = .next (unitDone s) := by
  rw [step_eq_fetchAt hbus hbusy rfl, fetchAt_of_unitAtEnd h]
  rfl

/-! ## The name table's bounds after the last record (R251, R293, R296) -/

theorem step_of_recordsDone (hbus : s.bus = []) (hbusy : s.host.busy = true) (hp : s.phase = .records)
    (h : s.xp.cnt ≤ s.xp.recIdx) : step s = .next (readNames s) := by
  have hfetch : fetchAt .records s = .stop (.next (readNames s)) := if_neg (Nat.not_lt.2 h)
  rw [step_eq_fetchAt hbus hbusy hp, hfetch]
  rfl

theorem readNames_inverted (h : s.xp.dataOff < s.xp.nameOff) :
    readNames s = raise .invalidStream s.xp.nameOff s := if_pos h

theorem readNames_truncated (h : s.xp.nameOff ≤ s.xp.dataOff) (hlen : s.host.inLen.toNat < s.xp.dataOff) :
    readNames s = raise .truncatedStream s.xp.dataOff s :=
  (if_neg (Nat.not_lt.2 h)).trans (if_pos hlen)

theorem readNames_enters (h : s.xp.nameOff ≤ s.xp.dataOff) (hlen : s.xp.dataOff ≤ s.host.inLen.toNat) :
    readNames s = { s with
      str := { s.str with ip := s.xp.nameOff, base := s.xp.nameOff, limit := s.xp.dataOff, dst := true }
      phase := .header } :=
  (if_neg (Nat.not_lt.2 h)).trans (if_neg (Nat.not_lt.2 hlen))

end

/-- Settles O50: each unit's end is the return to its caller, and the record loop's is the check of the name table. -/
theorem unitsEndWhereTheirRulesSay : Obligations.UnitsEndWhereTheirRulesSay := by
  refine ⟨fun _ => rfl, fun _ => step_idle, fun s hbus hbusy hend => ?unit, fun s hbus hbusy hp hrec => ?records⟩
  case unit =>
    rw [step_of_unitAtEnd hbus hbusy hend]
    exact ⟨fun hdst => congrArg Host.Outcome.next (unitDone_of_not_dst hdst),
      fun hdst => congrArg Host.Outcome.next (unitDone_of_dst hdst)⟩
  case records =>
    rw [step_of_recordsDone hbus hbusy hp hrec]
    exact ⟨fun h => congrArg Host.Outcome.next (readNames_inverted h),
      fun h hlen => congrArg Host.Outcome.next (readNames_truncated h hlen),
      fun h hlen => congrArg Host.Outcome.next (readNames_enters h hlen)⟩

/-! ## LZ_DEC (R170, R171) -/

section
variable {p : State}

theorem lzDecBody_badSize (h : 0x1FFFFFFF < p.host.arg1.toNat) :
    lzDecBody p = .next (raise .badArgument p.host.arg1.toNat p) := if_pos h

theorem lzDecBody_enters (h : p.host.arg1.toNat ≤ 0x1FFFFFFF) :
    lzDecBody p = .next (lzEnter { p with str := { p.str with size := p.host.arg1.toNat, ip := 0 } }) :=
  if_neg (Nat.not_lt.2 h)

end

/-- Settles O14: the check of `ARG1`, then the two cases of the decoder's entry; `IP`, `OP` and `FCNT` are 0 already
after the prologue. -/
theorem lzDecStarts : Obligations.LzDecStarts := by
  intro s hready
  have hexec : exec .lzDec s = lzDecBody (prologue s) := exec_of_ready hready rfl (by decide)
  have henter (hn : s.host.arg1.toNat ≤ 0x1FFFFFFF) := hexec.trans (lzDecBody_enters (p := prologue s) hn)
  exact ⟨fun hn => hexec.trans (lzDecBody_badSize (p := prologue s) hn),
    fun hn hroom => (henter hn).trans (congrArg Host.Outcome.next (lzEnter_noRoom hroom)),
    fun hn hfits => (henter hn).trans (congrArg Host.Outcome.next (lzEnter_fits hfits))⟩

end Sys2Proof.Machine
end

section
/-! SUPPORT. The LZ symbols LIT and REF (42_lz.md R172, R173): the bytes they emit, their frames and their failures. -/

namespace Sys2Proof.Machine

/-- `Emit` of several bytes writes no register but `OP` and no space but the destination. -/
theorem emitAll_frame (bs : List Byte) (s : State) :
    emitAll bs s = { s with
      str := { s.str with op := s.str.op + bs.length }, out := (emitAll bs s).out, scr := (emitAll bs s).scr } := by
  rw [emitAll_eq]

/-! ## LIT (R172) -/

theorem execLit_fits {b : Byte} {s : State} (h : s.str.op < capacity s) :
    exec (.lit b) s = .next (emit b (advanceIp 1 s)) := withRoom_eq h

/-- Settles O26: the literal is one `Emit`. -/
theorem litEmitsItsByte : Obligations.LitEmitsItsByte := fun b s _ hroom =>
  ⟨_, execLit_fits hroom, emitted_emitAll [b] (advanceIp 1 s), emit_frame b (advanceIp 1 s)⟩

/-! ## The copied bytes (R64, R173, R335) -/

/-- The first `n` bytes of what repeats the `d + 1` bytes before address `op` of a space. -/
def periodicBytes (m : Memory) (op d n : Nat) : List Byte :=
  (List.range n).map fun k => m.read (op - d - 1 + k % (d + 1))

@[simp] theorem periodicBytes_length (m : Memory) (op d n : Nat) : (periodicBytes m op d n).length = n := by
  simp [periodicBytes]

/-- Counting on by one either moves to the next of the `d + 1` bytes or starts over with the first. -/
theorem succ_mod_period (k d : Nat) :
    (k % (d + 1) = d ∧ (k + 1) % (d + 1) = 0) ∨ (k % (d + 1) < d ∧ (k + 1) % (d + 1) = k % (d + 1) + 1) := by
  have hlt : k % (d + 1) < d + 1 := Nat.mod_lt k d.succ_pos
  rw [← Nat.mod_add_mod k (d + 1) 1]
  rcases Nat.lt_succ_iff_lt_or_eq.1 hlt with h | h
  · exact .inr ⟨h, Nat.mod_eq_of_lt (Nat.succ_lt_succ h)⟩
  · exact .inl ⟨h, by rw [h, Nat.mod_self]⟩

/-- Once the first copied byte stands at `op`, the copy goes on from there as before: the byte written is the one the
period starts over with. -/
theorem periodicBytes_succ (m : Memory) {op d : Nat} (n : Nat) (hd : d < op) :
    periodicBytes m op d (n + 1) =
      m.read (op - d - 1) :: periodicBytes (m.write op (m.read (op - d - 1))) (op + 1) d n := by
  rw [periodicBytes, List.range_succ_eq_map, List.map_cons, List.map_map, Nat.zero_mod, Nat.add_zero]
  refine congrArg _ (List.map_congr_left fun k _ => ?_)
  rw [Function.comp_apply, Memory.read_write]
  rcases succ_mod_period k d with ⟨hk, hnext⟩ | ⟨hk, hnext⟩
  · rw [if_pos (by omega), Nat.succ_eq_add_one, hnext, Nat.add_zero]
  · rw [if_neg (by omega), Nat.succ_eq_add_one, hnext]
    exact congrArg m.read (by omega)

/-- A copy from inside the output emits the bytes before `OP` over and over. -/
theorem copyBack_eq_periodic {d : Nat} (n : Nat) {s : State} (hd : d < s.str.op) :
    copyBack d n s = emitAll (periodicBytes (dstSpace s) s.str.op d n) s := by
  induction n generalizing s with
  | zero => rfl
  | succ n ih =>
    rw [copyBack, ih (by rw [emit_str_op]; omega), periodicBytes_succ _ n hd, emitAll, emit_dst, emit_str_op]
    rfl

/-! ## REF (R173) -/

section
variable {p : OverrunPolicy} {op n size : Nat}

theorem acceptedCount_fits (h : op + n ≤ size) : acceptedCount p op n size = some n := if_neg (Nat.not_lt.2 h)

theorem acceptedCount_raises (h : size < op + n) (hp : p = .raises) : acceptedCount p op n size = none := by
  subst hp
  exact if_pos h

theorem acceptedCount_clipped (h : size < op + n) (hp : p = .clip) :
    acceptedCount p op n size = some (size - op) := by
  subst hp
  exact if_pos h

end

section
variable {l : BitVec 4} {d : BitVec 12} {s : State}

/-- The token is taken: `IP` past it, `L` and `D` set. -/
def refTaken (n : Nat) (d : BitVec 12) (s : State) : State :=
  advanceIp 2 { s with lz := { s.lz with len := n, disp := refDisp d } }

theorem execRef_beforeStart (hd : s.str.op ≤ refDisp d) :
    exec (.ref l d) s = .next (raise .invalidStream s.str.ip (refTaken (refLength l) d s)) :=
  (execRef_eq l d s).trans (if_pos hd)

theorem execRef_inside (hd : refDisp d < s.str.op) :
    exec (.ref l d) s =
      onAccepted (acceptedCount s.cfg.overrunPolicy s.str.op (refLength l) s.str.size)
        (raise .malformedHeader s.str.ip (refTaken (refLength l) d s))
        fun n => withRoom n s (copyBack (refDisp d) n (refTaken n d s)) :=
  (execRef_eq l d s).trans (if_neg (Nat.not_le.2 hd))

theorem execRef_overrun (hd : refDisp d < s.str.op) (hsize : s.str.size < s.str.op + refLength l)
    (hpolicy : s.cfg.overrunPolicy = .raises) :
    exec (.ref l d) s = .next (raise .malformedHeader s.str.ip (refTaken (refLength l) d s)) := by
  rw [execRef_inside hd, acceptedCount_raises hsize hpolicy]
  rfl

/-- A copy of which `n` bytes are accepted emits the `n` bytes that repeat the `D + 1` bytes before `OP`. -/
theorem execRef_copies {n : Nat} (hd : refDisp d < s.str.op)
    (hacc : acceptedCount s.cfg.overrunPolicy s.str.op (refLength l) s.str.size = some n)
    (hroom : s.str.op + n ≤ capacity s) :
    exec (.ref l d) s = .next (emitAll (periodicBytes (dstSpace s) s.str.op (refDisp d) n) (refTaken n d s)) := by
  have hcopy := copyBack_eq_periodic (s := refTaken n d s) n hd
  rw [execRef_inside hd, hacc]
  exact (withRoom_eq hroom).trans (congrArg Host.Outcome.next hcopy)

/-- The frame of the copy: its bytes stand at `OP` on, and only `IP`, `OP`, `L` and `D` change beside them. -/
theorem emitted_refTaken (bs : List Byte) (n : Nat) (d : BitVec 12) (s : State) :
    Emitted s (emitAll bs (refTaken n d s)) s.str.op bs := emitted_emitAll bs (refTaken n d s)

theorem emitAll_refTaken_frame (n : Nat) (d : BitVec 12) (s : State) {bs : List Byte} (hlen : bs.length = n) :
    emitAll bs (refTaken n d s) = { s with
      str := { s.str with ip := s.str.ip + 2, op := s.str.op + n }
      lz := { s.lz with len := n, disp := refDisp d }
      out := (emitAll bs (refTaken n d s)).out, scr := (emitAll bs (refTaken n d s)).scr } := by
  subst hlen
  exact emitAll_frame bs _

end

/-- Settles O27: the whole copy is accepted. -/
theorem refCopiesPeriodically : Obligations.RefCopiesPeriodically := by
  intro l d s _ hd hfits hcap
  exact ⟨_, execRef_copies hd (acceptedCount_fits hfits) (hfits.trans hcap), emitted_refTaken _ _ d s,
    emitAll_refTaken_frame _ d s (periodicBytes_length _ _ _ _)⟩

/-- Settles O28: the checks in order, and the clipped copy, of which the bytes up to `SIZE` are accepted. -/
theorem refFailsInOrder : Obligations.RefFailsInOrder := by
  intro l d s _ u
  refine ⟨execRef_beforeStart, execRef_overrun, fun hd hsize hpolicy hop hcap => ?_⟩
  have hend : s.str.op + (s.str.size - s.str.op) = s.str.size := Nat.add_sub_cancel' hop
  refine ⟨_, execRef_copies hd (acceptedCount_clipped hsize hpolicy) (hend.le.trans hcap), emitted_refTaken _ _ d s, ?_⟩
  have hframe := emitAll_refTaken_frame (s.str.size - s.str.op) d s
    (periodicBytes_length (dstSpace s) s.str.op (refDisp d) _)
  rwa [hend] at hframe

end Sys2Proof.Machine
end

section
/-! SUPPORT. The match search of the LZ compressor (42_lz.md R181): what `findStart`, `longestMatch` and `findMatch`
answer. -/

namespace Sys2Proof.Machine

/-! ## Induction on a structural recursion

`longestMatch` cannot be unfolded by its equations: checking them evaluates `findStart`, and with it the start of the
window, `pos - 4096`, one predecessor at a time. The recursion itself is analysed instead. -/

section
variable {α : Type} {P : Nat → α → Prop}

/-- `P` holds of the value that a step of a recursion on `n` finds for the number before. -/
def BelowHolds (P : Nat → α → Prop) : (n : Nat) → Nat.below (motive := fun _ => α) n → Prop
  | 0, _ => True
  | n + 1, below => P n below.1

/-- What each step of a recursion keeps holds of its value at every number. -/
theorem brecOn_induction {F : (n : Nat) → Nat.below (motive := fun _ => α) n → α}
    (h : ∀ n below, BelowHolds P n below → P n (F n below)) (n : Nat) : P n (Nat.brecOn n F) := by
  have hgo : P n (Nat.brecOn.go n F).1 ∧ BelowHolds P n (Nat.brecOn.go n F).2 := by
    induction n with
    | zero => exact ⟨h 0 _ trivial, trivial⟩
    | succ n ih => exact ⟨h (n + 1) _ ih.1, ih.1⟩
  exact hgo.1

end

section
variable {data : List Byte} {pos len : Nat}

/-! ## Starts -/

/-- The `len` bytes at `pos` stand at `j` too, wholly inside the window. -/
def MatchAt (data : List Byte) (pos len j : Nat) : Prop :=
  windowStart pos ≤ j ∧ j + len ≤ pos ∧ (data.drop j).take len = (data.drop pos).take len

theorem occursAt_iff {j : Nat} :
    occursAt data pos len j = true ↔ (data.drop j).take len = (data.drop pos).take len := beq_iff_eq

theorem findStart_eq (data : List Byte) (pos len : Nat) :
    findStart data pos len =
      ((List.range (pos + 1 - len - windowStart pos)).find? fun k => occursAt data pos len (windowStart pos + k)).map
        fun k => windowStart pos + k := List.find?_map ..

/-- The start that is found is a match, and the first one. -/
theorem matchAt_of_findStart {j : Nat} (h : findStart data pos len = some j) :
    MatchAt data pos len j ∧ ∀ j', MatchAt data pos len j' → j ≤ j' := by
  rw [findStart_eq, Option.map_eq_some_iff] at h
  obtain ⟨k, hk, rfl⟩ := h
  obtain ⟨hoccurs, hmem, hfirst⟩ := List.find?_range_eq_some.1 hk
  have hlt := List.mem_range.1 hmem
  refine ⟨⟨Nat.le_add_right _ k, by omega, occursAt_iff.1 hoccurs⟩, fun j' ⟨hwindow, _, heq⟩ => ?_⟩
  by_contra hlt'
  have hnot := hfirst (j' - windowStart pos) (by omega)
  rw [Nat.add_sub_cancel' hwindow, occursAt_iff.2 heq] at hnot
  cases hnot

theorem not_matchAt_of_findStart (h : findStart data pos len = none) (j : Nat) : ¬MatchAt data pos len j := by
  rintro ⟨hwindow, hfits, heq⟩
  rw [findStart_eq, Option.map_eq_none_iff, List.find?_range_eq_none] at h
  have hnot := h (j - windowStart pos) (by omega)
  rw [Nat.add_sub_cancel' hwindow, occursAt_iff.2 heq] at hnot
  cases hnot

/-! ## Lengths -/

/-- What the answer of a search of the lengths up to `n` says: the longest length that occurs, at its first start, or
that no length from 3 up occurs. -/
def LongestUpTo (data : List Byte) (pos n : Nat) : Option (Nat × Nat) → Prop
  | some (len, dist) =>
    3 ≤ len ∧ len ≤ n ∧ (∃ j, findStart data pos len = some j ∧ dist = pos - j) ∧
      ∀ len', len < len' → len' ≤ n → findStart data pos len' = none
  | none => ∀ len, 3 ≤ len → len ≤ n → findStart data pos len = none

theorem longestUpTo_short {n : Nat} (h : n < 3) : LongestUpTo data pos n none := fun _ hmin hle =>
  absurd (hmin.trans hle) (Nat.not_le.2 h)

/-- The length `n + 1` is tried first. -/
theorem longestUpTo_found {n j : Nat} (h : 3 ≤ n + 1) (hstart : findStart data pos (n + 1) = some j) :
    LongestUpTo data pos (n + 1) (some (n + 1, pos - j)) :=
  ⟨h, le_refl _, ⟨j, hstart, rfl⟩, fun _ hgt hle => absurd hle (Nat.not_le.2 hgt)⟩

/-- Where the length `n + 1` does not occur, the answer for the lengths up to `n` stands. -/
theorem LongestUpTo.succ {n : Nat} {o : Option (Nat × Nat)} (h : LongestUpTo data pos n o)
    (hstart : findStart data pos (n + 1) = none) : LongestUpTo data pos (n + 1) o := by
  cases o with
  | none =>
    intro len hmin hle
    rcases Nat.le_succ_iff.1 hle with hle | rfl
    · exact h len hmin hle
    · exact hstart
  | some m =>
    obtain ⟨hmin, hle, hfound, hlonger⟩ := h
    refine ⟨hmin, Nat.le_succ_of_le hle, hfound, fun len' hgt hle' => ?_⟩
    rcases Nat.le_succ_iff.1 hle' with hle' | rfl
    · exact hlonger len' hgt hle'
    · exact hstart

/-- The lengths up to `n` are tried from the longest down. -/
theorem longestUpTo_longestMatch (data : List Byte) (pos n : Nat) :
    LongestUpTo data pos n (longestMatch data pos n) := by
  delta longestMatch
  refine brecOn_induction (P := LongestUpTo data pos) (fun x below ih => ?_) n
  unfold longestMatch._f
  split
  next => exact longestUpTo_short (by decide)
  next len _ =>
    split
    next h => exact longestUpTo_short h
    next h =>
      split
      next j hstart => exact longestUpTo_found (Nat.not_lt.1 h) hstart
      next hstart => exact LongestUpTo.succ ih hstart

/-- The lengths R181 allows at `pos`. -/
def AllowedLength (data : List Byte) (pos len : Nat) : Prop := 3 ≤ len ∧ len ≤ min 18 (data.length - pos)

/-- The match that is found: its length, its distance and its occurrence. -/
theorem findMatch_spec {dist : Nat} (h : findMatch data pos = some (len, dist)) :
    AllowedLength data pos len ∧ len ≤ dist ∧ dist ≤ 4096 ∧ dist ≤ pos ∧ MatchAt data pos len (pos - dist) ∧
      (∀ j, MatchAt data pos len j → pos - dist ≤ j) ∧
      ∀ len' j, AllowedLength data pos len' → len < len' → ¬MatchAt data pos len' j := by
  have hlongest := longestUpTo_longestMatch data pos (min Config.maxMatch (data.length - pos))
  rw [← findMatch, h] at hlongest
  obtain ⟨hmin, hmax, ⟨j, hstart, rfl⟩, hlonger⟩ := hlongest
  obtain ⟨hmatch, hfirst⟩ := matchAt_of_findStart hstart
  have hwindow : pos - 4096 ≤ j := hmatch.1
  have hfits : j + len ≤ pos := hmatch.2.1
  rw [Nat.sub_sub_self ((Nat.le_add_right j len).trans hfits)]
  exact ⟨⟨hmin, hmax⟩, by omega, by omega, Nat.sub_le pos j, hmatch, hfirst,
    fun len' j' hallowed hgt => not_matchAt_of_findStart (hlonger len' hgt hallowed.2) j'⟩

theorem not_matchAt_of_findMatch_none (h : findMatch data pos = none) {j : Nat}
    (hallowed : AllowedLength data pos len) : ¬MatchAt data pos len j := by
  have hlongest := longestUpTo_longestMatch data pos (min Config.maxMatch (data.length - pos))
  rw [← findMatch, h] at hlongest
  exact not_matchAt_of_findStart (hlongest len hallowed.1 hallowed.2) j

end

/-- Settles O18: the search tries the lengths from the longest down and, for each, the starts of the window in order. -/
theorem lzMatchIsLongestThenFirst : Obligations.LzMatchIsLongestThenFirst := fun _ _ _ =>
  ⟨fun _ _ => findMatch_spec, fun h _ _ => not_matchAt_of_findMatch_none h⟩

end Sys2Proof.Machine
end

section
/-! SUPPORT. The LZ compressor's parse and groups (42_lz.md R180, R182, R183): which symbols the parse emits, the flag
byte and the bytes of a group, and the length of the stream. -/

namespace Sys2Proof.Machine

/-! ## The greedy parse (R182) -/

/-- How many bytes of the data a symbol stands for (R172, R173). -/
def symbolWidth : Instr → Nat
  | .ref l _ => refLength l
  | _ => 1

@[simp] theorem symbolWidth_lit (b : Byte) : symbolWidth (.lit b) = 1 := rfl
@[simp] theorem symbolWidth_ref (l : BitVec 4) (d : BitVec 12) : symbolWidth (.ref l d) = refLength l := rfl

/-- The symbols are those of a greedy parse of the data from a position to its end: a reference wherever a match is
found, else a literal. -/
inductive GreedyParse (data : List Byte) : Nat → List Instr → Prop
  | done : GreedyParse data data.length []
  | ref {pos len dist : Nat} {syms : List Instr} (hmatch : findMatch data pos = some (len, dist))
      (hrest : GreedyParse data (pos + len) syms) : GreedyParse data pos (refSymbol len dist :: syms)
  | lit {pos : Nat} {syms : List Instr} (hpos : pos < data.length) (hnone : findMatch data pos = none)
      (hrest : GreedyParse data (pos + 1) syms) : GreedyParse data pos (.lit data[pos] :: syms)

section
variable {data : List Byte} {pos len dist : Nat}

/-- A match ends inside the data. -/
theorem add_le_length_of_findMatch (h : findMatch data pos = some (len, dist)) : pos + len ≤ data.length := by
  obtain ⟨⟨hmin, hmax⟩, -⟩ := findMatch_spec h
  omega

/-- The length field of a match's symbol stands for its length (R96, R97). -/
theorem refLength_of_findMatch (h : findMatch data pos = some (len, dist)) :
    refLength (BitVec.ofNat 4 (len - 3)) = len := by
  obtain ⟨⟨hmin, hmax⟩, -⟩ := findMatch_spec h
  rw [refLength, BitVec.toNat_ofNat, Nat.mod_eq_of_lt (by omega)]
  omega

/-- The displacement field of a match's symbol stands for its distance less 1 (R96, R97). -/
theorem refDisp_of_findMatch (h : findMatch data pos = some (len, dist)) :
    refDisp (BitVec.ofNat 12 (dist - 1)) + 1 = dist := by
  obtain ⟨⟨hmin, -⟩, hle, hwindow, -⟩ := findMatch_spec h
  rw [refDisp, BitVec.toNat_ofNat, Nat.mod_eq_of_lt (by omega)]
  omega

/-- With a symbol allowed for each byte that is left, the parse reaches the end. -/
theorem greedyParse_lzParseFrom {fuel : Nat} (hfuel : data.length - pos ≤ fuel) (hpos : pos ≤ data.length) :
    GreedyParse data pos (lzParseFrom data fuel pos) := by
  induction fuel generalizing pos with
  | zero =>
    obtain rfl : pos = data.length := by omega
    exact .done
  | succ fuel ih =>
    rw [lzParseFrom]
    split
    next hlt =>
      split
      next len dist hmatch =>
        obtain ⟨⟨hmin, -⟩, -⟩ := findMatch_spec hmatch
        exact .ref hmatch (ih (by omega) (add_le_length_of_findMatch hmatch))
      next hnone =>
        rw [List.getD_eq_getElem data 0#8 hlt]
        exact .lit hlt hnone (ih (by omega) hlt)
    next hge =>
      obtain rfl : pos = data.length := by omega
      exact .done

theorem greedyParse_lzParse (data : List Byte) : GreedyParse data 0 (lzParse data) :=
  greedyParse_lzParseFrom (Nat.sub_le _ _) (Nat.zero_le _)

section
variable {syms : List Instr}

/-- The first symbol of a parse is the reference of the match found, or the literal of the byte there. -/
theorem GreedyParse.cons_cases {i : Instr} (h : GreedyParse data pos (i :: syms)) :
    (∃ len dist, findMatch data pos = some (len, dist) ∧ i = refSymbol len dist ∧ GreedyParse data (pos + len) syms) ∨
      ∃ hpos : pos < data.length, i = .lit data[pos] ∧ GreedyParse data (pos + 1) syms := by
  cases h with
  | ref hmatch hrest => exact .inl ⟨_, _, hmatch, rfl, hrest⟩
  | lit hpos _ hrest => exact .inr ⟨hpos, rfl, hrest⟩

/-- The parse is over at the end of the data only. -/
theorem GreedyParse.eq_length_of_nil (h : GreedyParse data pos []) : pos = data.length := by
  cases h
  rfl

/-- The symbols stand for all bytes from the position to the end. -/
theorem GreedyParse.add_width_eq (h : GreedyParse data pos syms) :
    pos + (syms.map symbolWidth).sum = data.length := by
  induction h with
  | done => rfl
  | ref hmatch _ ih =>
    rw [List.map_cons, List.sum_cons, refSymbol, symbolWidth_ref, refLength_of_findMatch hmatch, ← Nat.add_assoc, ih]
  | lit _ _ _ ih => rw [List.map_cons, List.sum_cons, symbolWidth_lit, ← Nat.add_assoc, ih]

/-- What the search at a position says the symbol there is. -/
def SymbolAt (data : List Byte) (pos : Nat) (i : Instr) : Prop :=
  (∀ len dist, findMatch data pos = some (len, dist) → i = refSymbol len dist) ∧
    (findMatch data pos = none → ∃ b, data[pos]? = some b ∧ i = .lit b)

/-- Each symbol is the one the search gives at the position where the symbols before it end. -/
theorem GreedyParse.symbolAt (h : GreedyParse data pos syms) {k : Nat} {i : Instr} (hk : syms[k]? = some i) :
    SymbolAt data (pos + ((syms.take k).map symbolWidth).sum) i := by
  induction h generalizing k with
  | done => cases hk
  | ref hmatch _ ih =>
    cases k with
    | zero =>
      cases hk
      refine ⟨fun len dist h => ?_, fun h => ?_⟩ <;> cases hmatch.symm.trans h
      rfl
    | succ k =>
      have hnext := ih hk
      rwa [Nat.add_assoc, ← refLength_of_findMatch hmatch] at hnext
  | lit hpos hnone _ ih =>
    cases k with
    | zero =>
      cases hk
      refine ⟨fun len dist h => ?_, fun _ => ⟨_, List.getElem?_eq_getElem hpos, rfl⟩⟩
      cases hnone.symm.trans h
    | succ k =>
      have hnext := ih hk
      rwa [Nat.add_assoc] at hnext

end
end

/-! ## Groups (R183) -/

/-- A back-reference, as its flag bit says. -/
def isRef : Instr → Bool
  | .ref _ _ => true
  | _ => false

@[simp] theorem isRef_lit (b : Byte) : isRef (.lit b) = false := rfl
@[simp] theorem isRef_ref (l : BitVec 4) (d : BitVec 12) : isRef (.ref l d) = true := rfl

theorem isRef_iff {i : Instr} : isRef i = true ↔ ∃ l d, i = .ref l d := by
  cases i with
  | ref l d => exact ⟨fun _ => ⟨l, d, rfl⟩, fun _ => rfl⟩
  | _ => exact ⟨nofun, nofun⟩

theorem groupFlags_cons (k : Nat) (i : Instr) (grp : List Instr) :
    groupFlags k (i :: grp) = (if isRef i then 1#8 <<< (7 - k) else 0#8) ||| groupFlags (k + 1) grp := by
  cases i with
  | ref l d => rfl
  | _ => exact BitVec.zero_or.symm

/-- The flag bit that a symbol at `k` of its group adds is bit `7 - k`. -/
theorem getLsbD_flagBit (i : Instr) {j k : Nat} (hj : j < 8) (hk : k < 8) :
    (if isRef i then 1#8 <<< (7 - k) else 0#8).getLsbD (7 - j) = (isRef i && decide (j = k)) := by
  cases isRef i with
  | false => exact BitVec.getLsbD_zero
  | true =>
    rw [if_pos rfl, BitVec.getLsbD_shiftLeft, BitVec.getLsbD_one, Bool.eq_iff_iff]
    simp only [Bool.and_eq_true, Bool.not_eq_true', decide_eq_true_eq, decide_eq_false_iff_not, true_and]
    omega

/-- The flags of symbols that stand at `k` on in their group: bit `7 - j` is set exactly where symbol `j` of the group
is a reference. -/
theorem getLsbD_groupFlags {j k : Nat} {grp : List Instr} (hj : j < 8) (hlen : k + grp.length ≤ 8) :
    (groupFlags k grp).getLsbD (7 - j) = true ↔ k ≤ j ∧ ∃ l d, grp[j - k]? = some (.ref l d) := by
  induction grp generalizing k with
  | nil => simp [groupFlags]
  | cons i grp ih =>
    rw [List.length_cons] at hlen
    rw [groupFlags_cons, BitVec.getLsbD_or, getLsbD_flagBit i hj (by omega), Bool.or_eq_true, ih (by omega)]
    rcases Nat.lt_trichotomy j k with hlt | rfl | hgt
    · simp [hlt.ne, show ¬k + 1 ≤ j by omega, show ¬k ≤ j by omega]
    · simp [isRef_iff]
    · rw [show j - k = j - (k + 1) + 1 by omega, List.getElem?_cons_succ]
      simp [hgt.ne', show k + 1 ≤ j from hgt, hgt.le]

theorem lzGroupsFrom_nil (fuel : Nat) : lzGroupsFrom fuel [] = [] := by
  cases fuel <;> rfl

theorem lzGroupsFrom_succ (fuel : Nat) {syms : List Instr} (h : syms ≠ []) :
    lzGroupsFrom (fuel + 1) syms =
      groupFlags 0 (syms.take 8) :: (groupBytes (syms.take 8) ++ lzGroupsFrom fuel (syms.drop 8)) := if_neg h

/-- A group for each symbol is enough, and allowing more adds nothing. -/
theorem lzGroupsFrom_eq_of_length_le {n m : Nat} {syms : List Instr} (hn : syms.length ≤ n) (hm : syms.length ≤ m) :
    lzGroupsFrom n syms = lzGroupsFrom m syms := by
  induction n generalizing m syms with
  | zero => rw [List.eq_nil_of_length_eq_zero (Nat.le_zero.1 hn), lzGroupsFrom_nil, lzGroupsFrom_nil]
  | succ n ih =>
    by_cases h : syms = []
    · rw [h, lzGroupsFrom_nil, lzGroupsFrom_nil]
    · have hpos : 0 < syms.length := List.length_pos_iff.2 h
      obtain ⟨m, rfl⟩ := Nat.exists_eq_succ_of_ne_zero (show m ≠ 0 by omega)
      rw [lzGroupsFrom_succ n h, lzGroupsFrom_succ m h, ih (m := m) (by simp; omega) (by simp; omega)]

@[simp] theorem lzGroups_nil : lzGroups [] = [] := rfl

/-- A group is its flag byte, the bytes of up to 8 symbols, and the groups of the other symbols. -/
theorem lzGroups_eq {syms : List Instr} (h : syms ≠ []) :
    lzGroups syms = groupFlags 0 (syms.take 8) :: (groupBytes (syms.take 8) ++ lzGroups (syms.drop 8)) := by
  have hpos : 0 < syms.length := List.length_pos_iff.2 h
  obtain ⟨n, hn⟩ := Nat.exists_eq_succ_of_ne_zero hpos.ne'
  rw [lzGroups, hn, lzGroupsFrom_succ n h, lzGroups,
    lzGroupsFrom_eq_of_length_le (m := (syms.drop 8).length) (by simp; omega) le_rfl]

/-! ## Bytes of a group (R96, R183) -/

@[simp] theorem groupBytes_nil : groupBytes [] = [] := rfl

@[simp] theorem groupBytes_lit (b : Byte) (grp : List Instr) : groupBytes (.lit b :: grp) = b :: groupBytes grp := rfl

@[simp] theorem groupBytes_ref (l : BitVec 4) (d : BitVec 12) (grp : List Instr) :
    groupBytes (.ref l d :: grp) = be16 (lzToken l d) ++ groupBytes grp := rfl

theorem groupBytes_append (grp grp' : List Instr) : groupBytes (grp ++ grp') = groupBytes grp ++ groupBytes grp' :=
  List.flatMap_append ..

/-- One flag byte for each 8 symbols or part of them, and the symbols' bytes. -/
theorem length_lzGroupsFrom {fuel : Nat} {syms : List Instr} (h : syms.length ≤ fuel) :
    (lzGroupsFrom fuel syms).length = (syms.length + 7) / 8 + (groupBytes syms).length := by
  induction fuel generalizing syms with
  | zero => rw [List.eq_nil_of_length_eq_zero (Nat.le_zero.1 h)]; rfl
  | succ n ih =>
    by_cases hnil : syms = []
    · rw [hnil, lzGroupsFrom_nil]; rfl
    · have hpos : 0 < syms.length := List.length_pos_iff.2 hnil
      have hbytes :
          (groupBytes syms).length = (groupBytes (syms.take 8)).length + (groupBytes (syms.drop 8)).length := by
        rw [← List.length_append, ← groupBytes_append, List.take_append_drop]
      rw [lzGroupsFrom_succ n hnil, List.length_cons, List.length_append, ih (by simp; omega), hbytes, List.length_drop]
      omega

/-- A symbol has no more bytes than it stands for. -/
theorem GreedyParse.groupBytes_le {data : List Byte} {pos : Nat} {syms : List Instr} (h : GreedyParse data pos syms) :
    pos + syms.length ≤ data.length ∧ pos + (groupBytes syms).length ≤ data.length := by
  induction h with
  | done => exact ⟨le_rfl, le_rfl⟩
  | ref hmatch _ ih =>
    obtain ⟨⟨hmin, -⟩, -⟩ := findMatch_spec hmatch
    rw [refSymbol, groupBytes_ref, List.length_cons, List.length_append, be16, List.length_cons, List.length_singleton]
    omega
  | lit _ _ _ ih =>
    rw [groupBytes_lit, List.length_cons, List.length_cons]
    omega

/-- The two bytes of a reference by its fields (R96). -/
theorem be16_lzToken (l : BitVec 4) (d : BitVec 12) :
    be16 (lzToken l d) =
      [BitVec.ofNat 8 ((l.toNat <<< 4) ||| (d.toNat >>> 8)), BitVec.ofNat 8 (d.toNat &&& 0xFF)] := by
  have htoken : (lzToken l d).toNat = d.toNat + 2 ^ 12 * l.toNat := by
    rw [lzToken, BitVec.toNat_append, Nat.or_comm, shiftLeft_or_eq_add d.isLt]
  have hhi : (l.toNat <<< 4) ||| (d.toNat >>> 8) = d.toNat / 2 ^ 8 + 2 ^ 4 * l.toNat := by
    rw [Nat.shiftRight_eq_div_pow, Nat.or_comm, shiftLeft_or_eq_add (by omega)]
  rw [be16, hhi, show 0xFF = 2 ^ 8 - 1 from rfl, Nat.and_two_pow_sub_one_eq_mod]
  refine congrArg₂ (fun x y => [x, y]) (BitVec.eq_of_toNat_eq ?_) (BitVec.eq_of_toNat_eq ?_)
  · rw [BitVec.extractLsb'_toNat, htoken, BitVec.toNat_ofNat, Nat.shiftRight_eq_div_pow]
    omega
  · rw [BitVec.extractLsb'_toNat, htoken, BitVec.toNat_ofNat, Nat.shiftRight_zero]
    omega

/-! ## The stream (R92, R180) -/

/-- The header's word by the number of its two fields, for every length (R92). -/
theorem headerWord_ofNat (n : Nat) :
    headerWord 1#3 (BitVec.ofNat 29 n) = BitVec.ofNat 32 ((n <<< 3) ||| 1) := by
  refine BitVec.eq_of_toNat_eq ?_
  rw [headerWord, BitVec.toNat_append, BitVec.toNat_ofNat, BitVec.toNat_ofNat, Nat.or_comm,
    shiftLeft_or_eq_add (by decide), Nat.or_comm, shiftLeft_or_eq_add (by decide), BitVec.toNat_ofNat]
  omega

theorem length_lzStream (data : List Byte) :
    (lzStream data).length = 4 + (lzGroups (lzParse data)).length := by
  rw [lzStream, List.length_append]
  rfl

theorem length_lzStream_le (data : List Byte) :
    (lzStream data).length ≤ 4 + data.length + (data.length + 7) / 8 := by
  obtain ⟨hsyms, hbytes⟩ := (greedyParse_lzParse data).groupBytes_le
  rw [length_lzStream, lzGroups, length_lzGroupsFrom le_rfl]
  omega

end Sys2Proof.Machine
end

section
/-! SUPPORT. LZ_ENC (42_lz.md R180; 20_memory.md R75): the size check, the stream written where it fits, and the failure
where it does not. -/

namespace Sys2Proof.Machine

section
variable {p : State}

theorem lzEncBody_badSize (h : 0x1FFFFFFF < p.host.inLen.toNat) :
    lzEncBody p = .next (raise .badArgument p.host.inLen.toNat p) := if_pos h

theorem lzEncBody_encodes (h : p.host.inLen.toNat ≤ 0x1FFFFFFF) :
    lzEncBody p = .next (encoderOut (lzStream (p.inp.readN 0 p.host.inLen.toNat)) p endCommand) :=
  if_neg (Nat.not_lt.2 h)

end

section
variable {bs : List Byte} {s : State} {k : State → State}

theorem encoderOut_fits (h : bs.length ≤ s.cfg.outCap.toNat) :
    encoderOut bs s k = k { s with out := s.out.writeN 0 bs, str := { s.str with op := bs.length } } := by
  rcases encoderOut_cases bs s k with ⟨_, he⟩ | ⟨hlt, _⟩
  · exact he
  · exact absurd h (Nat.not_le.2 hlt)

theorem encoderOut_noRoom (h : s.cfg.outCap.toNat < bs.length) :
    encoderOut bs s k = raise .badArgument s.cfg.outCap.toNat { s with
      out := s.out.writeN 0 (bs.take s.cfg.outCap.toNat), str := { s.str with op := s.cfg.outCap.toNat } } := by
  rcases encoderOut_cases bs s k with ⟨hle, _⟩ | ⟨_, he⟩
  · exact absurd h (Nat.not_lt.2 hle)
  · exact he

end

/-- The bytes of a literal and of a reference by their fields (R95, R96). -/
def symbolBytes : Instr → List Byte
  | .lit b => [b]
  | .ref l d => [BitVec.ofNat 8 ((l.toNat <<< 4) ||| (d.toNat >>> 8)), BitVec.ofNat 8 (d.toNat &&& 0xFF)]
  | _ => []

/-- They are the bytes of its encoding without the flag bit. -/
theorem drop_flag_encode {i : Instr} (h : (∃ b, i = .lit b) ∨ ∃ l d, i = .ref l d) :
    (encode i).drop 1 = symbolBytes i := by
  rcases h with ⟨b, rfl⟩ | ⟨l, d, rfl⟩
  · rfl
  · exact be16_lzToken l d

theorem getLsbD_groupFlags_take {syms : List Instr} {k : Nat} (hk : k < 8) :
    (groupFlags 0 (syms.take 8)).getLsbD (7 - k) = true ↔ ∃ l d, syms[k]? = some (.ref l d) := by
  rw [getLsbD_groupFlags hk (by simp), Nat.sub_zero, List.getElem?_take_of_lt hk]
  exact and_iff_right (Nat.zero_le k)

/-- Settles O17: the outcomes of `LZ_ENC`, the parse of the data from position 0, and one group. -/
theorem lzEncWritesTheStream : Obligations.LzEncWritesTheStream := by
  refine ⟨fun s hready _ => ?outcomes, fun data => ?stream, lzGroups_nil, fun syms hne hsyms => ?group⟩
  case outcomes =>
    intro data
    have hexec : exec .lzEnc s = lzEncBody (prologue s) := exec_of_ready hready rfl (by decide)
    have hencode (h : s.host.inLen.toNat ≤ 0x1FFFFFFF) := hexec.trans (lzEncBody_encodes (p := prologue s) h)
    refine ⟨fun h => hexec.trans (lzEncBody_badSize (p := prologue s) h), fun h hfits => ?_, fun h hroom => ?_⟩
    · refine ⟨_, (hencode h).trans (congrArg Host.Outcome.next (encoderOut_fits hfits)),
        wroteOut_of_writeN rfl rfl rfl rfl, ?_, rfl⟩
      rw [endCommand_host_outLen, BitVec.toNat_ofNat]
      exact Nat.mod_eq_of_lt (lt_of_le_of_lt hfits s.cfg.outCap.isLt)
    · have hnext := (hencode h).trans (congrArg Host.Outcome.next (encoderOut_noRoom hroom))
      refine ⟨_, hnext, rfl, rfl, ?_, (exec_kept .lzEnc s).of_eq hnext⟩
      rw [raise_host_errInfo, BitVec.ofNat_toNat, BitVec.setWidth_eq]
      rfl
  case stream =>
    have hparse := greedyParse_lzParse data
    refine ⟨by rw [lzStream, headerWord_ofNat], length_lzStream_le data, ?_, fun k i hk => ?_⟩
    · have hend := hparse.add_width_eq
      rw [Nat.zero_add, ← List.take_length (l := lzParse data)] at hend
      exact hend
    · have hsymbol := hparse.symbolAt hk
      rw [Nat.zero_add] at hsymbol
      exact hsymbol
  case group =>
    refine ⟨groupFlags 0 (syms.take 8), ?_, fun k hk => getLsbD_groupFlags_take hk⟩
    rw [lzGroups_eq hne, groupBytes]
    refine congrArg (fun bs => _ :: (bs ++ _)) (List.flatMap_congr fun i hi => ?_)
    exact drop_flag_encode (hsyms i (List.mem_of_mem_take hi))

end Sys2Proof.Machine
end

section
/-! SUPPORT. Runs of the core (R130), what is left of the input, and reads of several bytes (00_scope.md R10). -/

namespace Sys2Proof.Machine

theorem Reaches.refl (s : State) : Reaches s s := ⟨0, rfl⟩

/-- A step, and what is reached from there. -/
theorem Reaches.head {s t u : State} (h : step s = .next t) (hrest : Reaches t u) : Reaches s u := by
  obtain ⟨n, hn⟩ := hrest
  exact ⟨n + 1, by rw [runSteps, h, ← hn]⟩

/-- A read of several bytes is a read of the first of them and one of the others. -/
theorem Memory.readN_add (m : Memory) (a n k : Nat) : m.readN a (n + k) = m.readN a n ++ m.readN (a + n) k := by
  rw [readN_eq_map_range, readN_eq_map_range, readN_eq_map_range, List.range_add, List.map_append, List.map_map]
  exact congrArg _ (List.map_congr_left fun x _ => congrArg m.read (Nat.add_assoc a n x).symm)

/-- Part of the bytes read from address 0 on, read alone. -/
theorem Memory.readN_eq_of_readN_zero {m : Memory} {data : List Byte} {a k n : Nat}
    (h : m.readN 0 n = data.take n) (hle : a + k ≤ n) : m.readN a k = (data.drop a).take k := by
  obtain ⟨r, rfl⟩ := Nat.exists_eq_add_of_le hle
  have hleft : ((m.readN 0 (a + k + r)).drop a).take k = m.readN a k := by
    rw [Nat.add_assoc, readN_add, readN_add, Nat.zero_add, List.drop_left' (readN_length m 0 a),
      List.take_left' (readN_length m a k)]
  rw [← hleft, h, List.drop_take, List.take_take, Nat.min_eq_left (by omega)]

/-- The bytes of the stream from `IP` on. -/
def inputLeft (s : State) : List Byte := s.inp.readN s.str.ip (s.str.limit - s.str.ip)

/-- The next bytes of the stream, where there are some, can be fetched, and the others are left after them. -/
theorem inputLeft_append {bs more : List Byte} {s : State} (hne : 0 < bs.length)
    (hcap : s.str.limit ≤ s.cfg.inCap.toNat) (h : inputLeft s = bs ++ more) :
    CanFetch bs.length s ∧ s.inp.readN s.str.ip bs.length = bs ∧ inputLeft (advanceIp bs.length s) = more := by
  have hlen := congrArg List.length h
  rw [inputLeft, Memory.readN_length, List.length_append] at hlen
  have hrest : s.str.limit - (s.str.ip + bs.length) = more.length := by omega
  rw [inputLeft, hlen, Memory.readN_add] at h
  obtain ⟨hbs, hmore⟩ := List.append_inj h (Memory.readN_length _ _ _)
  refine ⟨⟨by omega, hcap⟩, hbs, ?_⟩
  rw [inputLeft, advanceIp_str_limit, advanceIp_str_ip, hrest]
  exact hmore

end Sys2Proof.Machine
end

section
/-! SUPPORT. The round trip of the LZ compressor and decompressor (42_lz.md R184): what holds between two symbols while
`DECOMPRESS` runs on a stream of `LZ_ENC`, and the steps that keep it. -/

namespace Sys2Proof.Machine

/-- `DECOMPRESS` is inside the stream of the data, at a symbol's start: the data is out up to `OP`, the symbols left are
a greedy parse of the other bytes, `grp` are those of them that the flags left in `FLAGS` are for, and the input left is
theirs. -/
structure Decoding (data : List Byte) (grp tail : List Instr) (s : State) : Prop where
  bus : s.bus = []
  busy : s.host.busy = true
  err : s.host.err = false
  phase : s.phase = .lz
  dst : s.str.dst = false
  size : s.str.size = data.length
  room : data.length ≤ s.cfg.outCap.toNat
  limit : s.str.limit ≤ s.cfg.inCap.toNat
  output : s.out.readN 0 s.str.op = data.take s.str.op
  parse : GreedyParse data s.str.op (grp ++ tail)
  count : grp.length ≤ s.lz.fcnt
  countLe : s.lz.fcnt ≤ 8
  full : tail ≠ [] → grp.length = s.lz.fcnt
  flags : ∀ k i, grp[k]? = some i → s.lz.flags.getLsbD (7 - k) = isRef i
  input : inputLeft s = groupBytes grp ++ lzGroups tail

section
variable {data : List Byte} {grp tail : List Instr} {s : State}

/-! ## The flag byte (R171) -/

/-- The flag of each symbol of a group says whether it is a reference. -/
theorem getLsbD_groupFlags_eq {grp : List Instr} (hlen : grp.length ≤ 8) {k : Nat} {i : Instr} (hk : grp[k]? = some i) :
    (groupFlags 0 grp).getLsbD (7 - k) = isRef i := by
  have hlt : k < grp.length := (List.getElem?_eq_some_iff.1 hk).1
  rw [Bool.eq_iff_iff, getLsbD_groupFlags (hlt.trans_le hlen) (by omega), Nat.sub_zero, hk, isRef_iff]
  simp

/-- With a flag taken, the next one stands where it stood. -/
theorem getLsbD_shiftLeft_one (flags : Byte) {k : Nat} (hk : k < 7) :
    (flags <<< 1).getLsbD (7 - k) = flags.getLsbD (7 - (k + 1)) := by
  rw [BitVec.getLsbD_shiftLeft, decide_eq_true (by omega : 7 - k < 8), decide_eq_false (by omega : ¬7 - k < 1)]
  rfl

/-- Where no flag is left and symbols are, their group's flag byte is there; once it is taken, its symbols are the
group. -/
theorem Decoding.loadFlags (h : Decoding data [] tail s) (hne : tail ≠ []) :
    s.str.ip + 1 ≤ s.str.limit ∧ Decoding data (tail.take 8) (tail.drop 8) (loadFlags s) := by
  have hfcnt : s.lz.fcnt = 0 := (h.full hne).symm
  have hinput := h.input
  rw [groupBytes_nil, List.nil_append, lzGroups_eq hne] at hinput
  obtain ⟨hfetch, hflag, hleft⟩ := inputLeft_append (bs := [groupFlags 0 (tail.take 8)]) Nat.one_pos h.limit hinput
  have hread : s.inp.read s.str.ip = groupFlags 0 (tail.take 8) := (List.cons.inj hflag).1
  refine ⟨hfetch.1, ?_⟩
  rw [Machine.loadFlags, if_pos hfcnt, hread]
  exact {
    h with
    parse := by simpa using h.parse
    count := List.length_take_le 8 tail
    countLe := le_rfl
    full := fun hdrop => List.length_take_of_le (Nat.le_of_lt (List.length_lt_of_drop_ne_nil hdrop))
    flags := fun k i hk => getLsbD_groupFlags_eq (List.length_take_le 8 tail) hk
    input := hleft }

/-! ## The symbols (R172, R173) -/

/-- A symbol's flag is taken, `IP` is past its `n` bytes, and `L` and `D` are as it sets them. -/
def symbolTaken (n len disp : Nat) (s : State) : State :=
  advanceIp n { takeFlag s with lz := { (takeFlag s).lz with len := len, disp := disp } }

/-- The bytes emitted stand after those that were out before. -/
theorem output_emitAll {bs : List Byte} {s : State} (hdst : s.str.dst = false)
    (hout : s.out.readN 0 s.str.op = data.take s.str.op) (hbs : bs = (data.drop s.str.op).take bs.length) :
    (emitAll bs s).out.readN 0 (s.str.op + bs.length) = data.take (s.str.op + bs.length) := by
  have hbefore : (s.out.writeN s.str.op bs).readN 0 s.str.op = s.out.readN 0 s.str.op :=
    Memory.readN_congr fun x _ hx => by rw [Memory.read_writeN, if_neg (by omega)]
  rw [emitAll_out, hdst, if_neg Bool.false_ne_true, Memory.readN_add, Nat.zero_add, hbefore, hout,
    Memory.readN_writeN_same, List.take_add, ← hbs]

/-- A symbol of `n` bytes that emits the next bytes of the data leaves the others to be decoded. -/
theorem Decoding.emitted {i : Instr} (h : Decoding data (i :: grp) tail s) {bs : List Byte} (n len disp : Nat)
    (hbs : bs = (data.drop s.str.op).take bs.length) (hparse : GreedyParse data (s.str.op + bs.length) (grp ++ tail))
    (hinput : inputLeft (advanceIp n s) = groupBytes grp ++ lzGroups tail) :
    Decoding data grp tail (emitAll bs (symbolTaken n len disp s)) := by
  have hcount : grp.length + 1 ≤ s.lz.fcnt := h.count
  have hcountLe := h.countLe
  have hop : (emitAll bs (symbolTaken n len disp s)).str.op = s.str.op + bs.length := by
    rw [emitAll_str_op]; rfl
  have hlz : (emitAll bs (symbolTaken n len disp s)).lz = (symbolTaken n len disp s).lz := emitAll_lz _ _
  constructor
  case bus => rw [emitAll_bus]; exact h.bus
  case busy => rw [emitAll_host]; exact h.busy
  case err => rw [emitAll_host]; exact h.err
  case phase => rw [emitAll_phase]; exact h.phase
  case dst => rw [emitAll_str_dst]; exact h.dst
  case size => rw [emitAll_str_size]; exact h.size
  case room => rw [emitAll_cfg]; exact h.room
  case limit => rw [emitAll_str_limit, emitAll_cfg]; exact h.limit
  case output => rw [hop]; exact output_emitAll (s := symbolTaken n len disp s) h.dst h.output hbs
  case parse => rw [hop]; exact hparse
  case count => rw [hlz]; exact Nat.le_sub_one_of_lt hcount
  case countLe => rw [hlz]; exact (Nat.sub_le _ 1).trans hcountLe
  case full => rw [hlz]; exact fun hne => Nat.eq_sub_of_add_eq (h.full hne)
  case flags =>
    intro k i hk
    have hlt : k < grp.length := (List.getElem?_eq_some_iff.1 hk).1
    rw [hlz]
    exact (getLsbD_shiftLeft_one _ (by omega)).trans (h.flags (k + 1) i hk)
  case input =>
    rw [inputLeft, emitAll_inp, emitAll_str_ip, emitAll_str_limit]
    exact hinput

/-- A match's bytes, copied from the output so far, are the data's next ones: the match lies wholly before `OP`, so that
the copy never comes to a byte it has written itself. -/
theorem periodicBytes_of_findMatch {m : Memory} {op d len : Nat} (hout : m.readN 0 op = data.take op)
    (hmatch : findMatch data op = some (len, d + 1)) : periodicBytes m op d len = (data.drop op).take len := by
  obtain ⟨-, hle, -, hpos, ⟨-, hfits, heq⟩, -⟩ := findMatch_spec hmatch
  rw [← heq, ← Memory.readN_eq_of_readN_zero hout hfits, periodicBytes, Memory.readN_eq_map_range]
  refine List.map_congr_left fun k hk => ?_
  rw [Nat.mod_eq_of_lt ((List.mem_range.1 hk).trans_le hle)]
  rfl

theorem Decoding.nextFlag {i : Instr} (h : Decoding data (i :: grp) tail s) : Machine.nextFlag s = isRef i :=
  h.flags 0 i rfl

/-- The data fits the destination, which is `OUT`. -/
theorem Decoding.length_le_capacity (h : Decoding data grp tail s) : data.length ≤ capacity s := by
  rw [capacity, h.dst, if_neg Bool.false_ne_true]
  exact h.room

/-- What the symbol after a taken flag leads to. -/
def symbolOutcome (s : State) : Outcome := (fetchSymbol (Machine.nextFlag s) (takeFlag s)).outcome

theorem symbolOutcome_lit {b : Byte} (hflag : Machine.nextFlag s = false) (hfetch : CanFetch 1 s)
    (hread : s.inp.readN s.str.ip 1 = [b]) : symbolOutcome s = exec (.lit b) (takeFlag s) := by
  have hdec : decode .lzg (0#8 :: s.inp.readN s.str.ip 1) = .ok (.lit b, []) := by rw [hread]; rfl
  rw [symbolOutcome, hflag, fetchSymbol_literal (s := takeFlag s) hfetch hdec]
  rfl

theorem symbolOutcome_ref {l : BitVec 4} {d : BitVec 12} (hflag : Machine.nextFlag s = true) (hfetch : CanFetch 2 s)
    (hread : s.inp.readN s.str.ip 2 = be16 (lzToken l d)) : symbolOutcome s = exec (.ref l d) (takeFlag s) := by
  have hdec : decode .lzg (1#8 :: s.inp.readN s.str.ip 2) = .ok (.ref l d, []) := by
    rw [hread]; exact decode_lzg_token [] l d
  rw [symbolOutcome, hflag, fetchSymbol_token (s := takeFlag s) hfetch hdec]
  rfl

/-- A literal's byte is fetched and emitted. -/
theorem Decoding.literal (hop : s.str.op < data.length)
    (h : Decoding data (.lit data[s.str.op] :: grp) tail s) (hrest : GreedyParse data (s.str.op + 1) (grp ++ tail)) :
    ∃ t, symbolOutcome s = .next t ∧ Decoding data grp tail t := by
  obtain ⟨hfetch, hread, hleft⟩ := inputLeft_append (bs := [data[s.str.op]]) Nat.one_pos h.limit h.input
  have hbyte : [data[s.str.op]] = (data.drop s.str.op).take 1 := (List.take_one_drop_eq_of_lt_length hop).symm
  have hemit : exec (.lit data[s.str.op]) (takeFlag s) =
      .next (emitAll [data[s.str.op]] (symbolTaken 1 s.lz.len s.lz.disp s)) :=
    execLit_fits (s := takeFlag s) (hop.trans_le h.length_le_capacity)
  exact ⟨_, (symbolOutcome_lit h.nextFlag hfetch hread).trans hemit, h.emitted 1 _ _ hbyte hrest hleft⟩

/-- A reference's token is fetched and its copy emitted. -/
theorem Decoding.reference {l : BitVec 4} {d : BitVec 12}
    (hmatch : findMatch data s.str.op = some (refLength l, refDisp d + 1))
    (h : Decoding data (.ref l d :: grp) tail s) (hrest : GreedyParse data (s.str.op + refLength l) (grp ++ tail)) :
    ∃ t, symbolOutcome s = .next t ∧ Decoding data grp tail t := by
  have hend : s.str.op + refLength l ≤ data.length := add_le_length_of_findMatch hmatch
  obtain ⟨-, -, -, hbefore, -⟩ := findMatch_spec hmatch
  have hinput : inputLeft s = be16 (lzToken l d) ++ (groupBytes grp ++ lzGroups tail) := by
    rw [h.input, groupBytes_ref, List.append_assoc]
  obtain ⟨hfetch, hread, hleft⟩ := inputLeft_append (bs := be16 (lzToken l d)) Nat.two_pos h.limit hinput
  have hdst : dstSpace (takeFlag s) = s.out := by rw [dstSpace, takeFlag_str, h.dst]; rfl
  have hcopy := execRef_copies (s := takeFlag s) hbefore (acceptedCount_fits (hend.trans_eq h.size.symm))
    (hend.trans h.length_le_capacity)
  rw [hdst, takeFlag_str] at hcopy
  have hbytes := periodicBytes_of_findMatch h.output hmatch
  exact ⟨_, (symbolOutcome_ref h.nextFlag hfetch hread).trans hcopy,
    h.emitted 2 _ _ (by rw [periodicBytes_length]; exact hbytes) (by rw [periodicBytes_length]; exact hrest) hleft⟩

/-- The next symbol of the group is decoded. -/
theorem Decoding.symbol {i : Instr} (h : Decoding data (i :: grp) tail s) :
    ∃ t, symbolOutcome s = .next t ∧ Decoding data grp tail t := by
  rcases h.parse.cons_cases with ⟨len, dist, hmatch, rfl, hrest⟩ | ⟨hop, rfl, hrest⟩
  · have hlen := refLength_of_findMatch hmatch
    refine h.reference ?_ (by rwa [hlen])
    rw [hlen, refDisp_of_findMatch hmatch, hmatch]
  · exact h.literal hop hrest

/-! ## The loop (R171, R174) -/

/-- While symbols are left the declared size is not reached. -/
theorem Decoding.op_lt_size (h : Decoding data grp tail s) (hne : grp ++ tail ≠ []) : s.str.op < s.str.size := by
  obtain ⟨i, syms, hsyms⟩ := List.exists_cons_of_ne_nil hne
  have hparse := h.parse
  rw [hsyms] at hparse
  have hlen := hparse.groupBytes_le.1
  rw [List.length_cons] at hlen
  rw [h.size]
  omega

/-- While symbols are left, a step decodes the next one, whose flag is the first of a group or one that is left. -/
theorem Decoding.step {i : Instr} {syms : List Instr} (h : Decoding data grp tail s) (hsyms : grp ++ tail = i :: syms) :
    ∃ t grp' tail', Machine.step s = .next t ∧ Decoding data grp' tail' t ∧ grp' ++ tail' = syms := by
  have hop : s.str.op < s.str.size := h.op_lt_size (hsyms ▸ List.cons_ne_nil i syms)
  have hstep (hflag : s.lz.fcnt = 0 → s.str.ip + 1 ≤ s.str.limit) :
      Machine.step s = symbolOutcome (Machine.loadFlags s) := by
    rw [step_eq_fetchAt h.bus h.busy h.phase, symbolOutcome, nextFlag_loadFlags]
    exact congrArg Fetched.outcome (fetchLz_symbol hop h.limit hflag)
  cases grp with
  | nil =>
    obtain rfl : tail = i :: syms := hsyms
    obtain ⟨hflag, hload⟩ := h.loadFlags (List.cons_ne_nil i syms)
    obtain ⟨t, ht, hnext⟩ := hload.symbol
    exact ⟨t, _, _, (hstep fun _ => hflag).trans ht, hnext, List.take_append_drop 7 syms⟩
  | cons j grp =>
    have hload : Machine.loadFlags s = s := if_neg (Nat.ne_of_gt (Nat.zero_lt_of_lt h.count))
    obtain ⟨t, ht, hnext⟩ := h.symbol
    rw [← hload] at ht
    exact ⟨t, _, _, (hstep fun h0 => absurd h0 (Nat.ne_of_gt (Nat.zero_lt_of_lt h.count))).trans ht, hnext,
      (List.cons.inj hsyms).2⟩

/-- The result the command ends with. -/
def Restored (data : List Byte) (t : State) : Prop :=
  t.host.busy = false ∧ t.host.done = true ∧ t.host.err = false ∧ t.host.outLen.toNat = data.length ∧
    t.out.readN 0 data.length = data

/-- With no symbol left the command ends, and all the data is out. -/
theorem Decoding.ends (h : Decoding data [] [] s) : ∃ t, Machine.step s = .next t ∧ Restored data t := by
  have hop : s.str.op = data.length := h.parse.eq_length_of_nil
  have hlt : data.length < 2 ^ 32 := h.room.trans_lt s.cfg.outCap.isLt
  have hend : UnitAtEnd s := .inl ⟨h.phase, (h.size.trans hop.symm).le⟩
  have hstep := (step_of_unitAtEnd h.bus h.busy hend).trans (congrArg _ (unitDone_of_not_dst h.dst))
  refine ⟨_, hstep, rfl, rfl, h.err, ?_, ?_⟩
  · rw [endCommand_host_outLen, hop, BitVec.toNat_ofNat, Nat.mod_eq_of_lt hlt]
  · have hout := h.output
    rwa [hop, List.take_length] at hout

/-- From between two symbols the run ends with the data restored. -/
theorem Decoding.restores {syms : List Instr} (h : Decoding data grp tail s) (hsyms : grp ++ tail = syms) :
    ∃ t, Reaches s t ∧ Restored data t := by
  induction syms generalizing grp tail s with
  | nil =>
    obtain ⟨rfl, rfl⟩ := List.append_eq_nil_iff.1 hsyms
    obtain ⟨t, ht, hdone⟩ := h.ends
    exact ⟨t, .head ht (.refl t), hdone⟩
  | cons i syms ih =>
    obtain ⟨t, _, _, ht, hnext, hleft⟩ := h.step hsyms
    obtain ⟨u, hreach, hdone⟩ := ih hnext hleft
    exact ⟨u, .head ht hreach, hdone⟩

end

/-! ## The start (R150, R152, R171) -/

/-- The write of `CMD` begins `DECOMPRESS` at the header. -/
theorem step_withCommand_decompress {s : State} (hready : Ready s) :
    step (withCommand 3#32 s) = .next { prologue { s with bus := [] } with phase := .header } :=
  (stepRunsTheDecodedInstruction.1 (withCommand 3#32 s) 3#32 [] .decompress rfl rfl).trans
    (exec_of_ready (s := { s with bus := [] }) hready rfl (by decide))

section
variable {data : List Byte} {s : State}

/-- The header holds the length of data of at most `2^29 - 1` bytes. -/
theorem exists_size_lzStream (hdata : data.length ≤ 0x1FFFFFFF) :
    ∃ size : BitVec 29, size.toNat = data.length ∧
      lzStream data = le32 (headerWord 1#3 size) ++ lzGroups (lzParse data) :=
  ⟨BitVec.ofNat 29 data.length, by rw [BitVec.toNat_ofNat, Nat.mod_eq_of_lt (Nat.lt_succ_of_le hdata)], rfl⟩

/-- At a stream's header with the stream before it, the LZ decoder is entered with nothing decoded yet. -/
theorem step_header_lzStream (hbus : s.bus = []) (hbusy : s.host.busy = true) (herr : s.host.err = false)
    (hphase : s.phase = .header) (hdst : s.str.dst = false) (hip : s.str.ip = s.str.base)
    (hcap : s.str.limit ≤ s.cfg.inCap.toNat) (hdata : data.length ≤ 0x1FFFFFFF)
    (hroom : data.length ≤ s.cfg.outCap.toNat) (hinput : inputLeft s = lzStream data) :
    ∃ t, step s = .next t ∧ Decoding data [] (lzParse data) t := by
  obtain ⟨size, hsize, hstream⟩ := exists_size_lzStream hdata
  obtain ⟨hfetch, hread, hleft⟩ :=
    inputLeft_append (bs := le32 (headerWord 1#3 size)) (Nat.succ_pos 3) hcap (hinput.trans hstream)
  have hdec : decode .hdr (s.inp.readN s.str.ip 4) = .ok (.lz size, []) := by
    rw [show s.inp.readN s.str.ip 4 = le32 (headerWord 1#3 size) from hread]
    exact decode_hdr_headerWord [] 1#3 size
  have hrun : fetchHeader s = .run (.lz size) s := fetchHeader_run (hip ▸ hfetch.1) hfetch hdec
  have hfits : size.toNat ≤ capacity s := by rw [hsize, capacity, hdst, if_neg Bool.false_ne_true]; exact hroom
  have hstep : step s = .next (lzEnter (beginMethod 1#3 size s)) := by
    rw [step_eq_fetchAt hbus hbusy hphase, fetchAt, hrun]
    rfl
  rw [lzEnter_fits (s := beginMethod 1#3 size s) hfits] at hstep
  exact ⟨_, hstep, {
    bus := hbus, busy := hbusy, err := herr, phase := rfl, dst := hdst, size := hsize, room := hroom, limit := hcap
    output := rfl, parse := greedyParse_lzParse data, count := le_rfl, countLe := Nat.zero_le 8
    full := fun _ => rfl, flags := nofun, input := hleft }⟩

end

/-- Settles O19: the command's start, the header, and the symbols one by one. -/
theorem lzRoundTrip : Obligations.LzRoundTrip := by
  intro s data hready _ hdata hroom _ hinput
  have hstart := step_withCommand_decompress hready
  obtain ⟨t, ht, hdec⟩ := step_header_lzStream (s := { prologue { s with bus := [] } with phase := .header })
    rfl rfl rfl rfl rfl rfl hready.2 hdata hroom hinput
  obtain ⟨u, hreach, hdone⟩ := hdec.restores rfl
  exact ⟨u, .head hstart (.head ht hreach), hdone⟩

end Sys2Proof.Machine
end

section
/-! SUPPORT. The Huffman decoder (43_huffman.md R200 to R204): the start of `HUF_DEC`, the table load, the two steps of
the walk, and the two kinds of leaf. -/

namespace Sys2Proof.Machine

/-! ## HUF_DEC (R200) -/

section
variable {s p : State}

theorem hufEnter_fits (h : s.str.size ≤ capacity s) : hufEnter s = { s with phase := .hufTable } :=
  if_neg (Nat.not_lt.2 h)

theorem hufEnter_noRoom (h : capacity s < s.str.size) : hufEnter s = raise .badArgument s.str.size s := if_pos h

theorem hufDecBody_badDepth (h : p.host.arg0.toNat ≠ 4 ∧ p.host.arg0.toNat ≠ 8) :
    hufDecBody p = .next (raise .badArgument p.host.arg0.toNat p) := if_pos h

theorem hufDecBody_badSize (hdepth : p.host.arg0.toNat = 4 ∨ p.host.arg0.toNat = 8)
    (h : 0x1FFFFFFF < p.host.arg1.toNat) : hufDecBody p = .next (raise .badArgument p.host.arg1.toNat p) :=
  (if_neg (by omega)).trans (if_pos h)

theorem hufDecBody_enters (hdepth : p.host.arg0.toNat = 4 ∨ p.host.arg0.toNat = 8)
    (h : p.host.arg1.toNat ≤ 0x1FFFFFFF) :
    hufDecBody p = .next (hufEnter { p with
      huf := { p.huf with depth := p.host.arg0.toNat }, str := { p.str with size := p.host.arg1.toNat, ip := 0 } }) :=
  (if_neg (by omega)).trans (if_neg (Nat.not_lt.2 h))

end

/-- Settles O15: the checks of `ARG0` and `ARG1`, then the two cases of the decoder's entry; `IP` is 0 already after the
prologue. -/
theorem hufDecStarts : Obligations.HufDecStarts := by
  intro s hready u
  have hexec : exec .hufDec s = hufDecBody (prologue s) := exec_of_ready hready rfl (by decide)
  have henter (hdepth : s.host.arg0.toNat = 4 ∨ s.host.arg0.toNat = 8) (hn : s.host.arg1.toNat ≤ 0x1FFFFFFF) :
      exec .hufDec s = .next (hufEnter u) := hexec.trans (hufDecBody_enters (p := prologue s) hdepth hn)
  exact ⟨fun hdepth => hexec.trans (hufDecBody_badDepth (p := prologue s) hdepth),
    fun hdepth hn => hexec.trans (hufDecBody_badSize (p := prologue s) hdepth hn),
    fun hdepth hn hroom => (henter hdepth hn).trans (congrArg Host.Outcome.next (hufEnter_noRoom hroom)),
    fun hdepth hn hfits => (henter hdepth hn).trans (congrArg Host.Outcome.next (hufEnter_fits hfits))⟩

/-! ## HUF_TABLE (R200) -/

theorem Memory.readN_writeN_of_length (m : Memory) (a : Nat) {n : Nat} {bs : List Byte} (h : bs.length = n) :
    (m.writeN a bs).readN a n = bs := h ▸ Memory.readN_writeN_same m a bs

theorem Memory.read_writeN_past (m : Memory) {a x : Nat} {bs : List Byte} (h : a + bs.length ≤ x) :
    (m.writeN a bs).read x = m.read x := by
  rw [Memory.read_writeN, if_neg (by omega)]

/-- The table header is taken: `IP` past it, `TSIZE` and `ROOT` set. -/
def tableHeaderTaken (tsize root : Byte) (s : State) : State :=
  advanceIp 2 { s with huf := { s.huf with tsize := tsize, root := root } }

section
variable {tsize root : Byte} {s : State}

theorem execHufTable_loads (hlimit : s.str.ip + 2 + 2 * tsize.toNat ≤ s.str.limit)
    (hcap : s.str.limit ≤ s.cfg.inCap.toNat) :
    exec (.hufTable tsize root) s =
      hufLoad (s.inp.readN (s.str.ip + 2) (2 * tsize.toNat))
        (advanceIp (2 * tsize.toNat) (tableHeaderTaken tsize root s)) :=
  fetch_eq (s := tableHeaderTaken tsize root s) hlimit (hlimit.trans hcap)

theorem execHufTable_truncated (h : s.str.limit < s.str.ip + 2 + 2 * tsize.toNat) :
    exec (.hufTable tsize root) s =
      .next (raise .truncatedStream (s.str.ip + 2) (tableHeaderTaken tsize root s)) :=
  fetch_truncated (s := tableHeaderTaken tsize root s) h

end

/-- Settles O31: the table is one write of the fetched bytes from address 0 of `TBL` on. -/
theorem hufTableLoads : Obligations.HufTableLoads := by
  intro tsize root s _ ⟨_, hcap⟩
  have hlen := Memory.readN_length s.inp (s.str.ip + 2) (2 * tsize.toNat)
  exact ⟨fun hlimit => ⟨_, execHufTable_loads hlimit hcap, Memory.readN_writeN_of_length s.tbl 0 hlen,
    fun x hx => Memory.read_writeN_past s.tbl (a := 0) (by omega), rfl⟩, execHufTable_truncated⟩

/-! ## The walk (R99, R201, R202) -/

theorem nodeOffset_toNat (b : Byte) : (nodeOffset b).toNat = b.toNat &&& 0x3F := by
  rw [nodeOffset, BitVec.extractLsb'_toNat, Nat.shiftRight_zero, show 0x3F = 2 ^ 6 - 1 from rfl,
    Nat.and_two_pow_sub_one_eq_mod]

theorem nodeByte_toNat (leaf0 leaf1 : Bool) (offset : BitVec 6) :
    (nodeByte leaf0 leaf1 offset).toNat = 128 * leaf0.toNat + 64 * leaf1.toNat + offset.toNat := by
  simp only [nodeByte, BitVec.toNat_append, BitVec.toNat_ofBool]
  rw [Nat.or_comm, shiftLeft_or_eq_add offset.isLt, Nat.or_comm, shiftLeft_or_eq_add leaf1.toNat_lt]
  omega

theorem childNext_eq (next : Nat) (cur : Byte) : childNext next cur = next + 2 * (cur.toNat &&& 0x3F) + 2 := by
  rw [childNext, nodeOffset_toNat]

theorem childLeaf_eq (cur : Byte) (bit : Bool) : childLeaf cur bit = cur.getLsbD (if bit then 6 else 7) := by
  cases bit <;> rfl

/-- The input bit is taken: `CODE` shifted, one bit fewer, `NEXT` past the child pair. -/
def codeBitTaken (s : State) : State :=
  { s with huf := { s.huf with
      code := s.huf.code <<< 1, bitCnt := s.huf.bitCnt - 1, next := childNext s.huf.next s.huf.cur } }

theorem exec_hufStep (bit : Bool) (s : State) :
    exec (if bit then .hufStep1 else .hufStep0) s = .next (hufStep bit s) := by
  cases bit <;> rfl

section
variable {bit : Bool} {s : State}

theorem hufStep_outside (h : 2 * s.huf.tsize.toNat ≤ childIndex (childNext s.huf.next s.huf.cur) bit) :
    hufStep bit s = raise .invalidStream s.str.ip (codeBitTaken s) := if_pos h

theorem hufStep_inside (h : childIndex (childNext s.huf.next s.huf.cur) bit < 2 * s.huf.tsize.toNat) :
    hufStep bit s = { codeBitTaken s with
      phase := .hufChild (childIndex (childNext s.huf.next s.huf.cur) bit) (childLeaf s.huf.cur bit) } :=
  if_neg (Nat.not_le.2 h)

end

/-- Settles O33: the two sides of the bounds check of a step, with `NEXT` and the leaf flag read off the node byte. -/
theorem hufStepTakesTheChild : Obligations.HufStepTakesTheChild := by
  refine ⟨fun bit s => ?step, fun s => ⟨fun _ => rfl, fun leaf0 leaf1 offset =>
    ⟨_, rfl, nodeByte_toNat leaf0 leaf1 offset, rfl⟩⟩⟩
  rw [← childNext_eq, ← childLeaf_eq, exec_hufStep]
  exact ⟨fun h => congrArg Host.Outcome.next (hufStep_outside h), fun h => congrArg Host.Outcome.next (hufStep_inside h)⟩

/-! ## The leaves (R203, R204) -/

/-- After a leaf's byte: the byte is emitted, and the walk restarts from the Huffman registers `r`. -/
theorem hufRestart_emit_frame (b : Byte) (r : HufRegs) (s : State) :
    hufRestart { emit b s with huf := r } = { s with
      str := { s.str with op := s.str.op + 1 }
      huf := { r with need := r.need - 1, cur := r.root, next := 0 }
      out := (emit b s).out, scr := (emit b s).scr, phase := .hufBit } :=
  congrArg (fun t => hufRestart { t with huf := r }) (emit_frame b s)

theorem execHufLeaf8_fits {x : Byte} {s : State} (h : s.str.op < capacity s) :
    exec (.hufLeaf8 x) s = .next (hufRestart (emit x s)) := withRoom_eq h

/-- Settles O34: the leaf is one `Emit` and the return to the root. -/
theorem hufLeaf8EmitsItsSymbol : Obligations.HufLeaf8EmitsItsSymbol := fun x s _ hroom =>
  ⟨_, execHufLeaf8_fits hroom, emitted_emitAll [x] s, congrArg hufRestart (emit_frame x s)⟩

section
variable {x : BitVec 4} {s : State}

theorem execHufLeaf4_first (h : s.huf.nibv = false) :
    exec (.hufLeaf4 x) s = .next (hufRestart { s with huf := { s.huf with nib := x, nibv := true } }) :=
  if_neg (by simp [h])

theorem execHufLeaf4_second (h : s.huf.nibv = true) (hroom : s.str.op < capacity s) :
    exec (.hufLeaf4 x) s =
      .next (hufRestart { emit (x ++ s.huf.nib) s with huf := { s.huf with nibv := false } }) :=
  (if_pos h).trans (withRoom_eq hroom)

end

/-- Two nibbles as a byte, the low one first (R204). -/
theorem nibblePair_eq_ofNat (hi lo : BitVec 4) : (hi ++ lo : Byte) = BitVec.ofNat 8 (lo.toNat + 16 * hi.toNat) := by
  refine BitVec.eq_of_toNat_eq ?_
  rw [BitVec.toNat_append, BitVec.toNat_ofNat, Nat.or_comm, shiftLeft_or_eq_add lo.isLt]
  omega

theorem decode_hufLeaf4_notANibble {b : Byte} (rest : List Byte) (h : 15 < b.toNat) :
    decode .hufLeaf4 (b :: rest) = .error (.notANibble b) := by
  refine if_neg fun hhi => ?_
  have hzero : b.toNat >>> 4 % 2 ^ 4 = 0 := by rw [← BitVec.extractLsb'_toNat, hhi]; rfl
  omega

theorem fetchHufChild_notANibble {s : State} {idx : Nat} (hdepth : s.huf.depth = 4) (h : 15 < (s.tbl.read idx).toNat) :
    fetchHufChild idx true s =
      .stop (.next (raise .invalidStream s.str.ip { s with huf := { s.huf with cur := s.tbl.read idx } })) := by
  rw [fetchHufChild, if_pos rfl, if_pos hdepth]
  exact runDecoded_error (decode_hufLeaf4_notANibble [] h)

/-- Settles O35: the leaf by whether a nibble is pending, and the table byte that is no nibble at its fetch. -/
theorem hufLeaf4PacksNibbles : Obligations.HufLeaf4PacksNibbles := by
  refine ⟨fun x s => ⟨execHufLeaf4_first, fun hnib _ hroom => ?second⟩, fun s idx hbus hbusy hp hdepth h => ?invalid⟩
  case second =>
    rw [← nibblePair_eq_ofNat]
    exact ⟨_, execHufLeaf4_second hnib hroom, emitted_emitAll [x ++ s.huf.nib] s, hufRestart_emit_frame _ _ s⟩
  case invalid =>
    rw [step_eq_fetchAt hbus hbusy hp, fetchAt, fetchHufChild_notANibble hdepth h]
    rfl

end Sys2Proof.Machine
end

section
/-! SUPPORT. The RLE expander (44_rle.md R220 to R223): the start of `RLE_DEC`, the run and the literal run. -/

namespace Sys2Proof.Machine

/-! ## RLE_DEC (R220) -/

/-- The header's two fields are in `METHOD` and `SIZE`. -/
def rleFieldsTaken (h : Word) (s : State) : State :=
  { s with str := { s.str with method := headerMethod h, size := (headerSize h).toNat } }

section
variable {h : Word} {s : State}

theorem rleHeader_otherMethod (hmethod : headerMethod h ≠ 4#3) :
    rleHeader h s = raise .malformedHeader s.str.base (rleFieldsTaken h s) := if_pos hmethod

theorem rleHeader_tooLarge (hmethod : headerMethod h = 4#3) (hroom : capacity s < (headerSize h).toNat) :
    rleHeader h s = raise .badArgument (headerSize h).toNat (rleFieldsTaken h s) :=
  (if_neg (not_not_intro hmethod)).trans (if_pos hroom)

theorem rleHeader_enters (hmethod : headerMethod h = 4#3) (hfits : (headerSize h).toNat ≤ capacity s) :
    rleHeader h s =
      { rleFieldsTaken h s with str := { (rleFieldsTaken h s).str with op := 0 }, phase := .rle } :=
  (if_neg (not_not_intro hmethod)).trans (if_neg (Nat.not_lt.2 hfits))

theorem rleStream_short (hlen : s.str.limit - s.str.base < 4) :
    rleStream s = .next (raise .malformedHeader s.str.base { s with str := { s.str with ip := s.str.base } }) :=
  if_pos hlen

end

/-- Settles O16: after the prologue the stream is all of the input, at address 0; then the length check, and the three
outcomes of the header. -/
theorem rleDecStarts : Obligations.RleDecStarts := by
  intro s hready h u
  have hexec : exec .rleDec s = rleStream (prologue s) := exec_of_ready hready rfl (by decide)
  have hheader (hlen : 4 ≤ s.host.inLen.toNat) : exec .rleDec s = .next (rleHeader h (advanceIp 4 (prologue s))) := by
    have hlimit : 0 + 4 ≤ s.host.inLen.toNat := hlen
    exact hexec.trans (rleStream_of_header (s := prologue s) hlimit hready.2 (le32_u32le _ _ _ _).symm)
  exact ⟨fun hlen => hexec.trans (rleStream_short (s := prologue s) hlen),
    fun hlen hmethod => (hheader hlen).trans (congrArg Host.Outcome.next (rleHeader_otherMethod hmethod)),
    fun hlen hmethod hroom => (hheader hlen).trans (congrArg Host.Outcome.next (rleHeader_tooLarge hmethod hroom)),
    fun hlen hmethod hfits => (hheader hlen).trans (congrArg Host.Outcome.next (rleHeader_enters hmethod hfits))⟩

/-! ## RUN (R222) -/

/-- The run's two bytes are taken: `IP` past them, `CTL` and `N` set. -/
def runTaken (n3 : BitVec 7) (n : Nat) (s : State) : State :=
  advanceIp 2 { s with rle := { ctl := runControl n3, count := n } }

section
variable {n3 : BitVec 7} {v : Byte} {s : State}

theorem execRun_overrun (hsize : s.str.size < s.str.op + runCount n3) (hpolicy : s.cfg.overrunPolicy = .raises) :
    exec (.run n3 v) s = .next (raise .malformedHeader s.str.ip (runTaken n3 (runCount n3) s)) := by
  refine (execRun_eq n3 v s).trans ?_
  rw [acceptedCount_raises hsize hpolicy]
  rfl

/-- A run of which `n` bytes are accepted emits its byte `n` times. -/
theorem execRun_emits {n : Nat}
    (hacc : acceptedCount s.cfg.overrunPolicy s.str.op (runCount n3) s.str.size = some n)
    (hroom : s.str.op + n ≤ capacity s) :
    exec (.run n3 v) s = .next (emitAll (List.replicate n v) (runTaken n3 n s)) := by
  refine (execRun_eq n3 v s).trans ?_
  rw [hacc]
  exact withRoom_eq hroom

end

theorem emitted_runTaken (bs : List Byte) (n3 : BitVec 7) (n : Nat) (s : State) :
    Emitted s (emitAll bs (runTaken n3 n s)) s.str.op bs := emitted_emitAll bs (runTaken n3 n s)

/-- Beside its bytes, a run changes `IP`, `OP`, `CTL` and `N` only. -/
theorem emitAll_runTaken_frame (n3 : BitVec 7) (n : Nat) (v : Byte) (s : State) :
    emitAll (List.replicate n v) (runTaken n3 n s) = { s with
      str := { s.str with ip := s.str.ip + 2, op := s.str.op + n }
      rle := { ctl := runControl n3, count := n }
      out := (emitAll (List.replicate n v) (runTaken n3 n s)).out
      scr := (emitAll (List.replicate n v) (runTaken n3 n s)).scr } := by
  have hframe := emitAll_frame (List.replicate n v) (runTaken n3 n s)
  rwa [List.length_replicate] at hframe

/-- Settles O29: the outcomes of the overrun check; of a clipped run the bytes up to `SIZE` are accepted. -/
theorem runRepeatsItsByte : Obligations.RunRepeatsItsByte := by
  intro n3 v s _ hop hcap u
  refine ⟨fun hfits => ?whole, execRun_overrun, fun hsize hpolicy => ?clipped⟩
  case whole =>
    exact ⟨_, execRun_emits (acceptedCount_fits hfits) (hfits.trans hcap), emitted_runTaken _ n3 _ s,
      emitAll_runTaken_frame n3 _ v s⟩
  case clipped =>
    have hend : s.str.op + (s.str.size - s.str.op) = s.str.size := Nat.add_sub_cancel' hop
    have hframe := emitAll_runTaken_frame n3 (s.str.size - s.str.op) v s
    rw [hend] at hframe
    exact ⟨_, execRun_emits (acceptedCount_clipped hsize hpolicy) (hend.le.trans hcap), emitted_runTaken _ n3 _ s,
      hframe⟩

/-! ## COPY (R223) -/

/-- Where the overrun check does not fail, it accepts as many bytes as fit the declared size. -/
theorem acceptedCount_min {p : OverrunPolicy} {op n size : Nat} (h : op + n ≤ size ∨ p = .clip) :
    acceptedCount p op n size = some (min n (size - op)) := by
  rcases acceptedCount_cases p op n size with ⟨hfits, hacc⟩ | ⟨hsize, hraises, -⟩ | ⟨hsize, -, hacc⟩
  · rw [hacc, Nat.min_eq_left (by omega)]
  · rcases h with hfits | hclip
    · omega
    · cases hraises.symm.trans hclip
  · rw [hacc, Nat.min_eq_right (by omega)]

/-- The literal run's control byte is taken: `IP` past it, `CTL` and `N` set. -/
def copyTaken (n1 : BitVec 7) (n : Nat) (s : State) : State :=
  advanceIp 1 { s with rle := { ctl := copyControl n1, count := n } }

section
variable {n1 : BitVec 7} {n : Nat} {s : State}

theorem execCopy_overrun (hsize : s.str.size < s.str.op + copyCount n1) (hpolicy : s.cfg.overrunPolicy = .raises) :
    exec (.copy n1) s = .next (raise .malformedHeader s.str.ip (copyTaken n1 (copyCount n1) s)) := by
  refine (execCopy_eq n1 s).trans ?_
  rw [acceptedCount_raises hsize hpolicy]
  rfl

/-- A literal run of which `n` bytes are accepted fetches those `n` and no more. -/
theorem execCopy_accepted (hacc : acceptedCount s.cfg.overrunPolicy s.str.op (copyCount n1) s.str.size = some n) :
    exec (.copy n1) s = fetch n (copyTaken n1 n s) fun bs u => withRoom n u (emitAll bs u) := by
  refine (execCopy_eq n1 s).trans ?_
  rw [hacc]
  rfl

theorem execCopy_truncated (hacc : acceptedCount s.cfg.overrunPolicy s.str.op (copyCount n1) s.str.size = some n)
    (hlimit : s.str.limit < s.str.ip + 1 + n) :
    exec (.copy n1) s = .next (raise .truncatedStream (s.str.ip + 1) (copyTaken n1 n s)) :=
  (execCopy_accepted hacc).trans (fetch_truncated (s := copyTaken n1 n s) hlimit)

theorem execCopy_emits (hacc : acceptedCount s.cfg.overrunPolicy s.str.op (copyCount n1) s.str.size = some n)
    (hlimit : s.str.ip + 1 + n ≤ s.str.limit) (hcap : s.str.limit ≤ s.cfg.inCap.toNat)
    (hroom : s.str.op + n ≤ capacity s) :
    exec (.copy n1) s =
      .next (emitAll (s.inp.readN (s.str.ip + 1) n) (advanceIp n (copyTaken n1 n s))) :=
  ((execCopy_accepted hacc).trans (fetch_eq (s := copyTaken n1 n s) hlimit (hlimit.trans hcap))).trans
    (withRoom_eq hroom)

end

/-- Settles O30: the overrun check, then the fetch of the accepted bytes, then their `Emit`. -/
theorem copyCopiesItsBytes : Obligations.CopyCopiesItsBytes := by
  intro n1 s _ hop hcap hin n u
  refine ⟨execCopy_overrun, fun hacc => execCopy_truncated (acceptedCount_min hacc), fun hacc hlimit => ?_⟩
  have hroom : s.str.op + n ≤ capacity s := by omega
  have hframe := emitAll_frame (s.inp.readN (s.str.ip + 1) n) (advanceIp n (copyTaken n1 n s))
  rw [Memory.readN_length] at hframe
  exact ⟨_, execCopy_emits (acceptedCount_min hacc) hlimit hin hroom,
    emitted_emitAll _ (advanceIp n (copyTaken n1 n s)), hframe⟩

end Sys2Proof.Machine
end

section
/-! SUPPORT. The CRC32 command and the recurrence of its checksum (45_crc32.md R235, R236). -/

namespace Sys2Proof.Machine

/-- The `n` shift steps of a byte iterate the one step of the recurrence (R236). -/
theorem crcShift_eq_iterate (poly : Word) (n : Nat) (acc : Word) :
    crcShift poly n acc = (fun a : Word => if a.getLsbD 0 then (a >>> 1) ^^^ poly else a >>> 1)^[n] acc := by
  induction n generalizing acc with
  | zero => rfl
  | succ n ih => rw [crcShift, ih, Function.iterate_succ_apply]

@[simp] theorem crcRun_nil (c : Config) : crcRun c [] = c.crcInit := rfl

/-- A further byte continues the remainder of the bytes before it (R236). -/
theorem crcRun_concat (c : Config) (bs : List Byte) (x : Byte) :
    crcRun c (bs ++ [x]) = crcByte c.crcPoly (crcRun c bs) x :=
  List.foldl_concat ..

/-- With no command running and the input inside `IN`, `CRC32` ends at once (R235). -/
theorem exec_crc32_of_ready {s : State} (h : Ready s) :
    exec .crc32 s = .next (endCommand { prologue s with
      crcAcc := crcRun s.cfg (s.inp.readN 0 s.host.inLen.toNat)
      host := { (prologue s).host with res0 := crc32 s.cfg (s.inp.readN 0 s.host.inLen.toNat) } }) :=
  exec_of_ready h rfl (by decide)

/-- Settles O12: the command by its body, which writes no space; the recurrence by the fold over the bytes and the
iterated shift step of each. -/
theorem crc32ReturnsTheChecksum : Obligations.Crc32ReturnsTheChecksum := by
  refine ⟨fun s hready => ?command, fun c bs x => ⟨crcRun_nil c, ?recurrence, rfl⟩⟩
  case command =>
    have hnext := exec_crc32_of_ready hready
    exact ⟨_, hnext, rfl, rfl, rfl, (exec_kept .crc32 s).of_eq hnext, rfl, rfl, rfl, rfl⟩
  case recurrence => rw [crcRun_concat, crcByte, crcShift_eq_iterate]

end Sys2Proof.Machine
end

section
/-! SUPPORT. The file-count field (46_xpck.md R249, R266) and the archive header, count field and record as `XPCK_OPEN`
reads them (R247 to R250). -/

namespace Sys2Proof.Machine

/-! ## The file-count field (R249, R266) -/

/-- A byte placed above another one counts 256 times (R9). -/
theorem or_shiftLeft_byte {a b : Nat} (h : b < 256) : b ||| (a <<< 8) = b + 256 * a := shiftLeft_or_eq_add (k := 8) h

theorem u16le_toNat (b0 b1 : Byte) : (u16le b0 b1).toNat = b0.toNat + 256 * b1.toNat := by
  rw [u16le, BitVec.toNat_append, Nat.or_comm, or_shiftLeft_byte b0.isLt]

/-- The count by the low and the high byte of its field (R249). -/
theorem countDecode_eq (mode : CountMode) (cf : BitVec 16) :
    countDecode mode cf =
      if mode = .branchAware ∧ 1 ≤ cf.toNat % 256 ∧ cf.toNat % 256 ≤ 15 ∧
          cf.toNat / 256 = 2 ^ Nat.log2 (cf.toNat % 256)
      then cf.toNat % 256 else cf.toNat % 4096 := by
  have hlo : (cf.extractLsb' 0 8).toNat = cf.toNat % 256 := by
    rw [BitVec.extractLsb'_toNat, Nat.shiftRight_zero]
  have hhi : (cf.extractLsb' 8 8).toNat = cf.toNat / 256 := by
    rw [BitVec.extractLsb'_toNat, Nat.shiftRight_eq_div_pow]
    omega
  simp only [countDecode, hlo, hhi]

/-- The count of a field given by its two bytes. -/
theorem countDecode_u16le (mode : CountMode) (f1 f2 : Byte) :
    countDecode mode (u16le f1 f2) =
      if mode = .branchAware ∧ 1 ≤ f1.toNat ∧ f1.toNat ≤ 15 ∧ f2.toNat = 2 ^ Nat.log2 f1.toNat then f1.toNat
      else (f1.toNat + 256 * f2.toNat) % 4096 := by
  have hlo : (f1.toNat + 256 * f2.toNat) % 256 = f1.toNat := by omega
  have hhi : (f1.toNat + 256 * f2.toNat) / 256 = f2.toNat := by omega
  rw [countDecode_eq, u16le_toNat, hlo, hhi]

/-- Below 256 the field is the count under its highest power of two (R266). -/
theorem countFieldOf_small_toNat {c : Nat} (hpos : 1 ≤ c) (hc : c < 256) :
    (countFieldOf c).toNat = c + 256 * 2 ^ Nat.log2 c := by
  have hpow : 2 ^ Nat.log2 c ≤ c := Nat.log2_self_le (Nat.ne_of_gt hpos)
  rw [countFieldOf, if_pos hc, BitVec.toNat_append, Nat.or_comm, or_shiftLeft_byte (BitVec.isLt _),
    BitVec.toNat_ofNat, BitVec.toNat_ofNat, Nat.mod_eq_of_lt hc, Nat.mod_eq_of_lt (by omega)]

/-- From 256 on the field is the count (R266). -/
theorem countFieldOf_large_toNat {c : Nat} (hlow : 256 ≤ c) (hc : c ≤ 4095) : (countFieldOf c).toNat = c := by
  rw [countFieldOf, if_neg (Nat.not_lt.2 hlow), BitVec.toNat_append, Nat.or_comm, or_shiftLeft_byte (BitVec.isLt _),
    BitVec.toNat_ofNat, BitVec.toNat_ofNat]
  omega

/-- A power of two times 256 is a multiple of 4096 from 16 on. -/
theorem powerOfLog_mod {c : Nat} (h : 16 ≤ c) : 256 * 2 ^ Nat.log2 c % 4096 = 0 := by
  have hlog : 4 ≤ Nat.log2 c := (Nat.le_log2 (by omega)).2 h
  obtain ⟨k, hk⟩ := Nat.exists_eq_add_of_le hlog
  rw [hk, Nat.pow_add]
  omega

/-- A count from 16 on is read back by its low 12 bits. -/
theorem countFieldOf_mod {c : Nat} (hlow : 16 ≤ c) (hc : c ≤ 4095) : (countFieldOf c).toNat % 4096 = c := by
  rcases Nat.lt_or_ge c 256 with h | h
  · have := powerOfLog_mod hlow
    rw [countFieldOf_small_toNat (by omega) h]
    omega
  · rw [countFieldOf_large_toNat h hc]
    omega

/-- A count from 256 on whose field reads as one below 16 is one of the fifteen. -/
theorem mem_ambiguousCounts {c : Nat} (hpos : 1 ≤ c % 256) (hle : c % 256 ≤ 15)
    (hhi : c / 256 = 2 ^ Nat.log2 (c % 256)) : c ∈ ambiguousCounts := by
  have hsmall : ∀ f ≤ 15, 1 ≤ f → f + 256 * 2 ^ Nat.log2 f ∈ ambiguousCounts := by decide
  have hsum := hsmall _ hle hpos
  rwa [← hhi, Nat.mod_add_div] at hsum

theorem countDecode_countFieldOf_branchAware {c : Nat} (hpos : 1 ≤ c) (hc : c ≤ 4095) (hamb : c ∉ ambiguousCounts) :
    countDecode .branchAware (countFieldOf c) = c := by
  rw [countDecode_eq]
  rcases Nat.lt_or_ge c 16 with h16 | h16
  · have hf := countFieldOf_small_toNat hpos (by omega)
    have hlo : (countFieldOf c).toNat % 256 = c := by omega
    have hhi : (countFieldOf c).toNat / 256 = 2 ^ Nat.log2 c := by omega
    rw [hlo, hhi, if_pos ⟨rfl, hpos, by omega, rfl⟩]
  · refine (if_neg ?_).trans (countFieldOf_mod h16 hc)
    rintro ⟨-, hlo, hle, hhi⟩
    rcases Nat.lt_or_ge c 256 with h | h
    · have hf := countFieldOf_small_toNat hpos h
      omega
    · rw [countFieldOf_large_toNat h hc] at hlo hle hhi
      exact hamb (mem_ambiguousCounts hlo hle hhi)

theorem countDecode_countFieldOf_mask12 {c : Nat} (hlow : 16 ≤ c) (hc : c ≤ 4095) :
    countDecode .mask12 (countFieldOf c) = c := by
  rw [countDecode_eq, if_neg (by simp)]
  exact countFieldOf_mod hlow hc

/-- Settles O37: the field and the count by their bytes, and the round trip by the size of the count. -/
theorem countFieldRoundTrip : Obligations.CountFieldRoundTrip := by
  have hmask (a k : Nat) : a &&& (2 ^ k - 1) = a % 2 ^ k := Nat.and_two_pow_sub_one_eq_mod a k
  refine ⟨fun mode cf => ?decode, fun c hc => ⟨fun hpos hlt => ?small, fun hlow => ?large,
    fun hpos hamb => countDecode_countFieldOf_branchAware hpos hc hamb,
    fun hlow => countDecode_countFieldOf_mask12 hlow hc⟩⟩
  case decode =>
    intro f1 f2
    have hf1 : f1 = cf.toNat % 256 := hmask cf.toNat 8
    have hf2 : f2 = cf.toNat / 256 := Nat.shiftRight_eq_div_pow cf.toNat 8
    rw [countDecode_eq, hf1, hf2, show cf.toNat &&& 0xFFF = cf.toNat % 4096 from hmask cf.toNat 12]
  case small =>
    rw [countFieldOf_small_toNat hpos hlt, Nat.or_comm, or_shiftLeft_byte hlt]
  case large =>
    rw [countFieldOf_large_toNat hlow hc, show c &&& 0xFF = c % 256 from hmask c 8, Nat.or_comm,
      or_shiftLeft_byte (Nat.mod_lt c (by decide)), Nat.shiftRight_eq_div_pow]
    omega

/-! ## The header and the count field (R247 to R249) -/

/-- Settles O36: the magic and the header set their fields; the count field is decoded from its two bytes. -/
theorem archiveHeaderIsRead : Obligations.ArchiveHeaderIsRead := by
  refine fun s => ⟨rfl, fun _ _ _ _ _ _ _ => rfl, fun f1 f2 => ?_⟩
  rw [← countDecode_u16le]
  rfl

/-! ## The record (R250, R108) -/

theorem recordOff4_eq (lo : BitVec 16) (hi : Byte) : recordOff4 lo hi = lo.toNat ||| (hi.toNat <<< 16) := by
  rw [recordOff4, BitVec.toNat_append, Nat.or_comm]

theorem recordSize_eq (lo : BitVec 16) (hi : Byte) : recordSize lo hi = lo.toNat ||| (hi.toNat <<< 16) := by
  rw [recordSize, BitVec.toNat_append, Nat.or_comm]

section
variable {crc : Word} {nameOff offLo sizeLo : BitVec 16} {offHi sizeHi : Byte} {s : State}

theorem exec_xpr_outside (h : s.host.inLen.toNat < recordAddr s.xp.dataOff offLo offHi + recordSize sizeLo sizeHi) :
    exec (.xpr crc nameOff offLo sizeLo offHi sizeHi) s = .next (raise .truncatedStream s.str.ip (advanceIp 12 s)) :=
  if_pos h

theorem exec_xpr_inside (h : recordAddr s.xp.dataOff offLo offHi + recordSize sizeLo sizeHi ≤ s.host.inLen.toNat) :
    exec (.xpr crc nameOff offLo sizeLo offHi sizeHi) s = .next { advanceIp 12 s with
      lut := lutInsert
        { key := crc, addr := recordAddr s.xp.dataOff offLo offHi, size := recordSize sizeLo sizeHi } s.lut
      xp := { s.xp with recIdx := s.xp.recIdx + 1 }
      phase := .records } :=
  if_neg (Nat.not_lt.2 h)

end

/-- The entry found under a key has the key. -/
theorem lutFind_key {k : Word} {lut : List LutEntry} {e : LutEntry} (h : lutFind k lut = some e) : e.key = k :=
  of_decide_eq_true (List.find?_some (p := fun x : LutEntry => decide (x.key = k)) h)

theorem lutFind_eq_none {k : Word} {lut : List LutEntry} (h : lutFind k lut = none) (e : LutEntry) (he : e ∈ lut) :
    e.key ≠ k := fun hk => List.find?_eq_none.1 h e he (decide_eq_true hk)

/-- Settles O38: the two cases of the record, and the entry found after an insertion. -/
theorem recordIsInserted : Obligations.RecordIsInserted := by
  refine ⟨fun key lut => ⟨fun e he => ⟨lutFind_mem he, lutFind_key he⟩, lutFind_eq_none⟩,
    fun crc nameOff offLo sizeLo offHi sizeHi s => ?_⟩
  rw [← recordOff4_eq, ← recordSize_eq]
  refine ⟨exec_xpr_outside, fun h => ⟨_, exec_xpr_inside h, ?_, fun k hk => ?_, rfl⟩⟩
  · exact (lutFind_lutInsert _ _ _).trans (if_pos rfl)
  · exact (lutFind_lutInsert _ _ _).trans (if_neg hk)

end Sys2Proof.Machine
end

section
/-! SUPPORT. The names of `XPCK_OPEN` (46_xpck.md R252, R253) and its result (R254). -/

namespace Sys2Proof.Machine

/-! ## A name's end (R252) -/

theorem nameLength_le (bs : List Byte) : nameLength bs ≤ bs.length := by
  induction bs with
  | nil => exact le_rfl
  | cons b bs ih =>
    rw [nameLength, List.length_cons]
    split
    · exact Nat.zero_le _
    · exact Nat.succ_le_succ ih

/-- No byte before a name's end is zero. -/
theorem getElem?_of_lt_nameLength {bs : List Byte} {x : Nat} (hx : x < nameLength bs) : bs[x]? ≠ some 0#8 := by
  induction bs generalizing x with
  | nil => nofun
  | cons b bs ih =>
    rw [nameLength] at hx
    split at hx
    next => exact absurd hx (Nat.not_lt_zero x)
    next hb =>
      cases x with
      | zero => exact fun h => hb (Option.some.inj h)
      | succ x => exact ih (Nat.lt_of_succ_lt_succ hx)

/-- A name ends at a zero byte or with the bytes. -/
theorem nameLength_end (bs : List Byte) : nameLength bs = bs.length ∨ bs[nameLength bs]? = some 0#8 := by
  induction bs with
  | nil => exact .inl rfl
  | cons b bs ih =>
    rw [nameLength]
    split
    next hb => exact .inr (by rw [hb]; rfl)
    next => exact ih.imp (congrArg (· + 1)) id

/-- A name with a zero byte after it ends there. -/
theorem nameLength_append {name : List Byte} (h : 0#8 ∉ name) (more : List Byte) :
    nameLength (name ++ 0#8 :: more) = name.length := by
  induction name with
  | nil => rfl
  | cons b bs ih =>
    obtain ⟨hb, hbs⟩ := not_or.1 (mt List.mem_cons.2 h)
    rw [List.cons_append, nameLength, if_neg (Ne.symm hb), ih hbs, List.length_cons]

/-! ## The lookup (R252) -/

/-- The first bytes of a read are a shorter read. -/
theorem Memory.take_readN (m : Memory) (a : Nat) {n k : Nat} (h : n ≤ k) : (m.readN a k).take n = m.readN a n := by
  obtain ⟨r, rfl⟩ := Nat.exists_eq_add_of_le h
  rw [readN_add, List.take_left' (readN_length m a n)]

/-- The name at `p` by its length `n` (R252): its bytes, none of which is zero, and what ends it. -/
theorem nameAt_spec {s : State} {p : Nat} (hp : p < s.xp.ntLen) :
    ∃ n, p + n ≤ s.xp.ntLen ∧ nameAt p s = s.scr.readN p n ∧ (∀ x, x < n → s.scr.read (p + x) ≠ 0#8) ∧
      (p + n = s.xp.ntLen ∨ s.scr.read (p + n) = 0#8) := by
  have hlen : (s.scr.readN p (s.xp.ntLen - p)).length = s.xp.ntLen - p := Memory.readN_length _ _ _
  have hle := nameLength_le (s.scr.readN p (s.xp.ntLen - p))
  rw [hlen] at hle
  have hread {x : Nat} (hx : x < s.xp.ntLen - p) :
      (s.scr.readN p (s.xp.ntLen - p))[x]? = some (s.scr.read (p + x)) := by
    rw [Memory.getElem?_readN, if_pos hx]
  refine ⟨nameLength (s.scr.readN p (s.xp.ntLen - p)), by omega, Memory.take_readN _ _ hle, fun x hx h => ?_, ?_⟩
  · exact getElem?_of_lt_nameLength hx (by rw [hread (hx.trans_le hle), h])
  · rcases nameLength_end (s.scr.readN p (s.xp.ntLen - p)) with h | h
    · exact .inl (by omega)
    · rcases hle.lt_or_eq with hlt | heq
      · rw [hread hlt] at h
        exact .inr (Option.some.inj h)
      · exact .inl (by omega)

theorem step_lookup {s : State} {p : Nat} (hbus : s.bus = []) (hbusy : s.host.busy = true) (hp : s.phase = .lookup p)
    (h : p < s.xp.ntLen) : step s = .next (lookupName p s) := by
  have hfetch : fetchAt (.lookup p) s = .stop (.next (lookupName p s)) := if_pos h
  rw [step_eq_fetchAt hbus hbusy hp, hfetch]
  rfl

section
variable {s : State} {p : Nat}

theorem lookupName_empty (h : nameAt p s = []) : lookupName p s = { s with phase := .lookup (p + 1) } := by
  rw [lookupName_eq, if_pos h]

theorem lookupName_nonempty (h : nameAt p s ≠ []) :
    lookupName p s =
      lookupAnswer (lutFind (crc32 s.cfg (nameAt p s)) s.lut) p (nameAt p s)
        { s with crcAcc := crcRun s.cfg (nameAt p s), xp := { s.xp with recIdx := nameRec (nameIndex s) } } := by
  rw [lookupName_eq, if_neg h]

end

/-- Settles O39: the name at the offset is skipped, found or reported. -/
theorem namesAreLookedUp : Obligations.NamesAreLookedUp := by
  intro s p hbus hbusy hphase hp rec'
  obtain ⟨n, hend, hname, hbytes, hstop⟩ := nameAt_spec hp
  have hstep := step_lookup hbus hbusy hphase hp
  have hlen : (nameAt p s).length = n := by rw [hname, Memory.readN_length]
  have hanswer (hn : 0 < n) : step s = .next _ :=
    hstep.trans (congrArg Host.Outcome.next (lookupName_nonempty (List.length_pos_iff.1 (hlen ▸ hn))))
  rw [hname] at hanswer
  refine ⟨n, hend, hbytes, hstop, fun hn => ?skipped, fun e hn he => ?found, fun hn he => ?reported⟩
  case skipped =>
    have hempty : nameAt p s = [] := List.eq_nil_of_length_eq_zero (hlen.trans hn)
    exact hstep.trans (congrArg Host.Outcome.next (lookupName_empty hempty))
  case found =>
    rw [hanswer hn, he, lookupAnswer, Memory.readN_length]
    rfl
  case reported =>
    rw [hanswer hn, he, lookupAnswer, Memory.readN_length]
    rfl

/-! ## The result (R254, R111) -/

theorem step_lookup_done {s : State} {p : Nat} (hbus : s.bus = []) (hbusy : s.host.busy = true)
    (hp : s.phase = .lookup p) (h : s.xp.ntLen ≤ p) (hcap : s.host.inLen.toNat ≤ s.cfg.inCap.toNat) :
    step s = .next (resultAnswer (longName s) (fileListBytes (resultMembers s)) s) := by
  have hfetch : fetchAt (.lookup p) s = .stop (writeResult s) := if_neg (Nat.not_lt.2 h)
  rw [step_eq_fetchAt hbus hbusy hp, hfetch, writeResult_eq, if_neg (Nat.not_lt.2 hcap)]
  rfl

/-- There is no first value above a bound exactly when no value is above it. -/
theorem findAbove_eq_none {b : Nat} {vs : List Nat} :
    vs.find? (fun v => decide (b < v)) = none ↔ ∀ v ∈ vs, v ≤ b := by
  simp only [List.find?_eq_none, decide_eq_true_eq, Nat.not_lt]

/-- The first value above a bound, by those before it. -/
theorem findAbove_eq_some {b v : Nat} {vs pre post : List Nat} (hvs : vs = pre ++ v :: post) (hpre : ∀ x ∈ pre, x ≤ b)
    (hv : b < v) : vs.find? (fun v => decide (b < v)) = some v := by
  rw [hvs, List.find?_append, findAbove_eq_none.2 hpre, List.find?_cons, decide_eq_true hv]
  rfl

section
variable {s : State}

theorem longName_eq_none (h : ∀ f ∈ s.found, f.len ≤ 65535) : longName s = none :=
  findAbove_eq_none.2 (List.forall_mem_map.2 h)

theorem longName_eq_some {pre post : List Found} {f : Found} (hs : s.found = pre ++ f :: post)
    (hpre : ∀ g ∈ pre, g.len ≤ 65535) (hf : 65535 < f.len) : longName s = some f.len :=
  findAbove_eq_some (hs ▸ List.map_append) (List.forall_mem_map.2 hpre) hf

variable {n : Nat} {bytes : List Byte}

theorem resultAnswer_fits (h : bytes.length ≤ s.cfg.outCap.toNat) :
    resultAnswer none bytes s = endCommand { s with
      out := s.out.writeN 0 bytes
      str := { s.str with op := bytes.length }
      host := { s.host with res0 := BitVec.ofNat 32 s.found.length, res1 := BitVec.ofNat 32 s.xp.cnt } } :=
  if_neg (Nat.not_lt.2 h)

theorem resultAnswer_noRoom (h : s.cfg.outCap.toNat < bytes.length) :
    resultAnswer none bytes s = raiseLength .badArgument bytes.length s := if_pos h

theorem resultAnswer_long (h : bytes.length ≤ s.cfg.outCap.toNat) :
    resultAnswer (some n) bytes s = raise .badArgument n s := if_neg (Nat.not_lt.2 h)

/-- A name that is too long raises, whether or not the list fits. -/
theorem resultAnswer_some (n : Nat) (bytes : List Byte) (s : State) :
    ∃ v, resultAnswer (some n) bytes s = raise .badArgument v s := by
  rcases Nat.lt_or_ge s.cfg.outCap.toNat bytes.length with h | h
  · exact ⟨_, if_pos h⟩
  · exact ⟨n, resultAnswer_long h⟩

end

/-- A failure that records a length raises `BadArgument` and writes no space (R298; log 8). -/
theorem raiseLength_badArgument (n : Nat) (s : State) :
    (raiseLength .badArgument n s).host.err = true ∧ (raiseLength .badArgument n s).host.errCode = 6#3 ∧
      SpacesKept s (raiseLength .badArgument n s) ∧
      (n < 2 ^ 32 → raiseLength .badArgument n s = raise .badArgument n s) := by
  rcases raiseLength_cases .badArgument n s with ⟨-, he⟩ | ⟨hlarge, v, he⟩ <;> rw [he]
  · exact ⟨rfl, rfl, spacesKept_raise _ _ s, fun _ => rfl⟩
  · exact ⟨rfl, rfl, spacesKept_raise _ _ s, fun hlt => absurd hlt (Nat.not_lt.2 hlarge)⟩

/-- Settles O41: the list is as R111 lays it out, and the result by the name that is too long, if any, and the length of
the list. -/
theorem resultIsWritten : Obligations.ResultIsWritten := by
  refine ⟨fun ms => ⟨rfl, fun _ => rfl, rfl⟩, fun s p hbus hbusy hp hdone _ hcap => ?_⟩
  intro bytes
  have hstep : step s = .next (resultAnswer (longName s) bytes s) := step_lookup_done hbus hbusy hp hdone hcap
  refine ⟨fun hshort hroom => ?written, fun hshort hroom => ?noRoom, fun pre f post hs hpre hf => ?long⟩
  case written =>
    rw [longName_eq_none hshort, resultAnswer_fits hroom] at hstep
    refine ⟨_, hstep, wroteOut_of_writeN rfl rfl rfl rfl, ?_, rfl⟩
    rw [endCommand_host_outLen, BitVec.toNat_ofNat, Nat.mod_eq_of_lt (hroom.trans_lt s.cfg.outCap.isLt)]
  case noRoom =>
    rw [longName_eq_none hshort, resultAnswer_noRoom hroom] at hstep
    exact ⟨_, hstep, raiseLength_badArgument bytes.length s⟩
  case long =>
    rw [longName_eq_some hs hpre hf] at hstep
    obtain ⟨v, hraise⟩ := resultAnswer_some f.len bytes s
    exact ⟨fun hroom => hstep.trans (congrArg Host.Outcome.next (resultAnswer_long hroom)), _,
      hstep.trans (congrArg Host.Outcome.next hraise), rfl, rfl, spacesKept_raise _ _ s⟩

end Sys2Proof.Machine
end

section
/-! SUPPORT. The orders of `XPCK_PACK` (46_xpck.md R261, R265; 00_scope.md R9): members by name, records by key, equal
keys in name order. -/

namespace Sys2Proof.Machine

/-! ## The order of byte sequences (R9) -/

/-- `x` comes before `y`: the two agree up to the end of `x` or up to a byte that is smaller in `x`. -/
def BytesBefore (x y : List Byte) : Prop :=
  ∃ p xs ys, x = p ++ xs ∧ y = p ++ ys ∧
    (xs = [] ∨ ∃ a b as bs, xs = a :: as ∧ ys = b :: bs ∧ a.toNat < b.toNat)

theorem bytesBefore_of_bytesLe {x y : List Byte} (h : bytesLe x y = true) : BytesBefore x y := by
  induction x generalizing y with
  | nil => exact ⟨[], [], y, rfl, rfl, .inl rfl⟩
  | cons a as ih =>
    cases y with
    | nil => exact absurd h Bool.false_ne_true
    | cons b bs =>
      rw [bytesLe] at h
      split at h
      next hab =>
        obtain ⟨p, xs, ys, rfl, rfl, hend⟩ := ih h
        exact ⟨a :: p, xs, ys, rfl, by rw [hab]; rfl, hend⟩
      next => exact ⟨[], a :: as, b :: bs, rfl, rfl, .inr ⟨a, b, as, bs, rfl, rfl, of_decide_eq_true h⟩⟩

theorem bytesLe_total (x y : List Byte) : bytesLe x y = true ∨ bytesLe y x = true := by
  induction x generalizing y with
  | nil => exact .inl (by cases y <;> rfl)
  | cons a as ih =>
    cases y with
    | nil => exact .inr rfl
    | cons b bs =>
      rw [bytesLe, bytesLe]
      by_cases hab : a = b
      · rw [if_pos hab, if_pos hab.symm]
        exact ih bs
      · rw [if_neg hab, if_neg (Ne.symm hab), decide_eq_true_eq, decide_eq_true_eq]
        exact Nat.lt_or_gt_of_ne (mt BitVec.eq_of_toNat_eq hab)

theorem bytesLe_trans {x y z : List Byte} (hxy : bytesLe x y = true) (hyz : bytesLe y z = true) :
    bytesLe x z = true := by
  induction x generalizing y z with
  | nil => cases z <;> rfl
  | cons a as ih =>
    cases y with
    | nil => exact absurd hxy Bool.false_ne_true
    | cons b bs =>
      cases z with
      | nil => exact absurd hyz Bool.false_ne_true
      | cons c cs =>
        rw [bytesLe] at hxy hyz ⊢
        split at hxy
        next hab =>
          rw [hab]
          split at hyz
          next hbc => rw [if_pos hbc]; exact ih hxy hyz
          next hbc => rw [if_neg hbc]; exact hyz
        next hab =>
          have hlt : a.toNat < b.toNat := of_decide_eq_true hxy
          have hle : b.toNat ≤ c.toNat := by
            split at hyz
            next hbc => rw [hbc]
            next => exact (of_decide_eq_true hyz).le
          have hac : a.toNat < c.toNat := hlt.trans_le hle
          rw [if_neg fun heq : a = c => absurd hac (by rw [heq]; exact Nat.lt_irrefl _)]
          exact decide_eq_true hac

/-! ## Members by name (R261) -/

theorem sortByName_perm (ms : List Member) : (sortByName ms).Perm ms := List.perm_insertionSort _ ms

@[simp] theorem sortByName_length (ms : List Member) : (sortByName ms).length = ms.length := (sortByName_perm ms).length_eq

theorem sortByName_pairwise (ms : List Member) : (sortByName ms).Pairwise fun x y => bytesLe x.1 y.1 = true := by
  have htotal : Std.Total fun x y : Member => bytesLe x.1 y.1 = true := ⟨fun x y => bytesLe_total x.1 y.1⟩
  have htrans : IsTrans Member fun x y => bytesLe x.1 y.1 = true := ⟨fun _ _ _ => bytesLe_trans⟩
  exact List.pairwise_insertionSort _ ms

/-! ## Records by key (R265) -/

/-- The records with their keys in ascending order of the keys. -/
def recordsByKey (c : Config) (ms : List Member) : List (Word × Instr) :=
  (keyedRecords c ms 0 0).insertionSort fun x y => x.1.toNat ≤ y.1.toNat

theorem sortedRecords_eq (c : Config) (ms : List Member) : sortedRecords c ms = (recordsByKey c ms).map Prod.snd := rfl

theorem recordsByKey_perm (c : Config) (ms : List Member) : (recordsByKey c ms).Perm (keyedRecords c ms 0 0) :=
  List.perm_insertionSort _ _

theorem recordsByKey_pairwise (c : Config) (ms : List Member) :
    (recordsByKey c ms).Pairwise fun x y => x.1.toNat ≤ y.1.toNat := by
  have htotal : Std.Total fun x y : Word × Instr => x.1.toNat ≤ y.1.toNat := ⟨fun x y => Nat.le_total _ _⟩
  have htrans : IsTrans (Word × Instr) fun x y => x.1.toNat ≤ y.1.toNat := ⟨fun _ _ _ => Nat.le_trans⟩
  exact List.pairwise_insertionSort _ _

/-- The sort is stable: the records with one key are in order already, so they stay a sublist, and there are no others
with that key. -/
theorem recordsByKey_filter (c : Config) (ms : List Member) (k : Word) :
    (recordsByKey c ms).filter (fun x => decide (x.1 = k)) =
      (keyedRecords c ms 0 0).filter fun x => decide (x.1 = k) := by
  have hkey {x : Word × Instr} (hx : x ∈ (keyedRecords c ms 0 0).filter fun x => decide (x.1 = k)) : x.1 = k :=
    of_decide_eq_true (List.mem_filter.1 hx).2
  have hordered : ((keyedRecords c ms 0 0).filter fun x => decide (x.1 = k)).Pairwise
      fun x y => x.1.toNat ≤ y.1.toNat :=
    List.pairwise_of_forall_mem_list fun x hx y hy => by rw [hkey hx, hkey hy]
  have hsub := (List.sublist_insertionSort hordered List.filter_sublist).filter fun x => decide (x.1 = k)
  simp only [List.filter_filter, Bool.and_self] at hsub
  exact (hsub.eq_of_length ((recordsByKey_perm c ms).filter _).length_eq.symm).symm

/-- Settles O45: the two sorts by the library's insertion sort, which is stable. -/
theorem packOrdersNamesAndKeys : Obligations.PackOrdersNamesAndKeys :=
  ⟨fun ms => ⟨sortByName_perm ms, (sortByName_pairwise ms).imp bytesBefore_of_bytesLe⟩,
    fun c ms => ⟨recordsByKey c ms, rfl, recordsByKey_perm c ms, recordsByKey_pairwise c ms, recordsByKey_filter c ms⟩⟩

end Sys2Proof.Machine
end

section
/-! SUPPORT. The checks of `XPCK_PACK` (46_xpck.md R260, R269): which lists they refuse, and with which value. -/

namespace Sys2Proof.Machine

/-! ## The refusals of R260 -/

/-- A member is refused for its name, given the names before it. -/
def NameRefused (seen : List (List Byte)) (m : Member) : Prop := m.1 = [] ∨ 0#8 ∈ m.1 ∨ m.1 ∈ seen

section
variable {seen : List (List Byte)} {idx : Nat} {m : Member} {ms : List Member}

theorem badName_cons_refused (h : NameRefused seen m) : badName seen idx (m :: ms) = some idx := if_pos h

theorem badName_cons_accepted (h : ¬NameRefused seen m) :
    badName seen idx (m :: ms) = badName (m.1 :: seen) (idx + 1) ms := if_neg h

theorem not_nameRefused : ¬NameRefused seen m ↔ (m.1 ≠ [] ∧ 0#8 ∉ m.1) ∧ m.1 ∉ seen := by
  rw [NameRefused, not_or, not_or, and_assoc]

/-- Names pass exactly when they are non-empty, free of zero bytes, and distinct from each other and from those seen. -/
theorem badName_eq_none :
    badName seen idx ms = none ↔
      (∀ x ∈ ms, x.1 ≠ [] ∧ 0#8 ∉ x.1) ∧ (ms.map Prod.fst).Nodup ∧ ∀ n ∈ ms.map Prod.fst, n ∉ seen := by
  induction ms generalizing seen idx with
  | nil => simp [badName]
  | cons m ms ih =>
    rw [List.forall_mem_cons, List.map_cons, List.nodup_cons, List.forall_mem_cons]
    by_cases h : NameRefused seen m
    · rw [badName_cons_refused h]
      refine iff_of_false (Option.some_ne_none idx) fun hall => ?_
      obtain ⟨⟨hm, -⟩, -, hseen, -⟩ := hall
      exact not_nameRefused.2 ⟨hm, hseen⟩ h
    · obtain ⟨hm, hseen⟩ := not_nameRefused.1 h
      have hnot : (∀ n ∈ ms.map Prod.fst, n ∉ m.1 :: seen) ↔
          m.1 ∉ ms.map Prod.fst ∧ ∀ n ∈ ms.map Prod.fst, n ∉ seen := by
        simp only [List.mem_cons, not_or, forall_and]
        exact and_congr_left fun _ => ⟨fun hne hmem => hne m.1 hmem rfl, fun hmem n hn heq => hmem (heq ▸ hn)⟩
      rw [badName_cons_accepted h, ih, hnot]
      tauto

/-- Members whose names pass are skipped. -/
theorem badName_append {pre post : List Member} (h : badName seen idx pre = none) :
    badName seen idx (pre ++ post) = badName ((pre.map Prod.fst).reverse ++ seen) (idx + pre.length) post := by
  induction pre generalizing seen idx with
  | nil => rfl
  | cons m ms ih =>
    by_cases hm : NameRefused seen m
    · rw [badName_cons_refused hm] at h
      cases h
    · rw [badName_cons_accepted hm] at h
      rw [List.cons_append, badName_cons_accepted hm, ih h, List.map_cons, List.reverse_cons, List.append_assoc,
        List.length_cons, Nat.add_assoc, Nat.add_comm 1]
      rfl

end

/-- The count is one that a count below 16 shares its field with, where that matters (R249, R260). -/
def AmbiguousCount (c : Config) (ms : List Member) : Prop :=
  c.countDecode = .branchAware ∧ ms.length ∈ ambiguousCounts

section
variable {c : Config} {ms : List Member}

theorem refusedList_count (h : ms.length = 0 ∨ 4095 < ms.length) : refusedList c ms = some ms.length := if_pos h

theorem ambiguousCounts_bounds {n : Nat} (h : n ∈ ambiguousCounts) : n ≠ 0 ∧ n ≤ 4095 := by
  have hall : ∀ n ∈ ambiguousCounts, n ≠ 0 ∧ n ≤ 4095 := by decide
  exact hall n h

theorem refusedList_ambiguous (h : AmbiguousCount c ms) : refusedList c ms = some ms.length := by
  obtain ⟨hne, hle⟩ := ambiguousCounts_bounds h.2
  exact (if_neg (not_or.2 ⟨hne, Nat.not_lt.2 hle⟩)).trans (if_pos h)

/-- With an accepted count the names decide. -/
theorem refusedList_names (hpos : ms.length ≠ 0) (hle : ms.length ≤ 4095) (hamb : ¬AmbiguousCount c ms) :
    refusedList c ms = badName [] 0 ms :=
  (if_neg (not_or.2 ⟨hpos, Nat.not_lt.2 hle⟩)).trans (if_neg hamb)

/-- The lists that pass the checks of R260. -/
theorem refusedList_eq_none :
    refusedList c ms = none ↔
      1 ≤ ms.length ∧ ms.length ≤ 4095 ∧ ¬AmbiguousCount c ms ∧ (∀ m ∈ ms, m.1 ≠ [] ∧ 0#8 ∉ m.1) ∧
        (ms.map Prod.fst).Nodup := by
  by_cases hcount : ms.length = 0 ∨ 4095 < ms.length
  · rw [refusedList_count hcount]
    exact iff_of_false (Option.some_ne_none _) fun ⟨hpos, hle, _⟩ => by omega
  by_cases hamb : AmbiguousCount c ms
  · rw [refusedList_ambiguous hamb]
    exact iff_of_false (Option.some_ne_none _) fun ⟨_, _, hnot, _⟩ => hnot hamb
  obtain ⟨hpos, hle⟩ := not_or.1 hcount
  rw [refusedList_names hpos (Nat.not_lt.1 hle) hamb, badName_eq_none]
  simp [hamb, Nat.not_lt.1 hle, Nat.one_le_iff_ne_zero, hpos]

/-- A refusal for a name records the index of the first member refused. -/
theorem refusedList_name {pre post : List Member} {m : Member} (hms : ms = pre ++ m :: post) (hle : ms.length ≤ 4095)
    (hamb : ¬AmbiguousCount c ms) (hpre : ∀ x ∈ pre, x.1 ≠ [] ∧ 0#8 ∉ x.1) (hnodup : (pre.map Prod.fst).Nodup)
    (hm : NameRefused (pre.map Prod.fst) m) : refusedList c ms = some pre.length := by
  have hpos : ms.length ≠ 0 := by rw [hms]; simp
  have hskip : badName [] 0 pre = none := badName_eq_none.2 ⟨hpre, hnodup, fun _ _ => List.not_mem_nil⟩
  rw [refusedList_names hpos hle hamb, hms, badName_append hskip, badName_cons_refused, Nat.zero_add]
  simpa [NameRefused] using hm

end

/-! ## The range checks of R269 -/

theorem firstOf_eq_none {os : List (Option Nat)} : firstOf os = none ↔ ∀ o ∈ os, o = none := by
  induction os with
  | nil => simp [firstOf]
  | cons o os ih => cases o <;> simp [firstOf, ih]

theorem above_eq_none {b v : Nat} : above b v = none ↔ v ≤ b := by simp [above]

theorem above_eq_some {b v : Nat} (h : b < v) : above b v = some v := if_pos h

/-- The header length carries R105's fields before the file-info table (log 27). -/
def HeaderLengthOk (c : Config) : Prop := 14 ≤ c.xpckHdrLen ∧ c.xpckHdrLen % 4 = 0

theorem badHeaderLength_eq_none {c : Config} : badHeaderLength c = none ↔ HeaderLengthOk c := by
  simp [badHeaderLength, HeaderLengthOk]

theorem badHeaderLength_eq_some {c : Config} (h : ¬HeaderLengthOk c) : badHeaderLength c = some c.xpckHdrLen :=
  if_pos (by unfold HeaderLengthOk at h; omega)

/-- The name table fits a size field and `SCR` (R263, R264). -/
def NameTableFits (c : Config) (ms : List Member) : Prop :=
  (nameTable ms).length ≤ 0x1FFFFFFF ∧ (nameTable ms).length ≤ c.scrCap.toNat

/-- What the range checks ask of the members themselves (R262, R263). -/
structure MembersInRange (ms : List Member) : Prop where
  offsets : ∀ v ∈ (dataOffsets 0 ms).map fun v => v / 4, v ≤ 0xFFFFFF
  sizes : ∀ v ∈ dataSizes ms, v ≤ 0xFFFFFF
  names : ∀ v ∈ nameOffsets 0 ms, v ≤ 0xFFFF

section
variable {c : Config} {ms : List Member}

/-- The lists that pass the range checks of R269. -/
theorem rangeFailure_eq_none :
    rangeFailure c ms = none ↔
      MembersInRange ms ∧ NameTableFits c ms ∧ HeaderLengthOk c ∧ packDataOff c ms / 4 ≤ 0xFFFF := by
  simp only [rangeFailure, firstOf_eq_none, List.forall_mem_cons, findAbove_eq_none, above_eq_none,
    badHeaderLength_eq_none]
  exact ⟨fun ⟨ho, hs, hn, ht, hc, hh, hd, _⟩ => ⟨⟨ho, hs, hn⟩, ⟨ht, hc⟩, hh, hd⟩,
    fun ⟨⟨ho, hs, hn⟩, ⟨ht, hc⟩, hh, hd⟩ => ⟨ho, hs, hn, ht, hc, hh, hd, nofun⟩⟩

/-- With members in range the checks of the tables decide. -/
theorem rangeFailure_of_members (h : MembersInRange ms) :
    rangeFailure c ms =
      firstOf
        [ above Config.sizeMax (nameTable ms).length, above c.scrCap.toNat (nameTable ms).length, badHeaderLength c
        , above 0xFFFF (packDataOff c ms / 4) ] := by
  rw [rangeFailure, findAbove_eq_none.2 h.offsets, findAbove_eq_none.2 h.sizes, findAbove_eq_none.2 h.names]
  rfl

theorem rangeFailure_nameTable (h : MembersInRange ms) (hnt : ¬NameTableFits c ms) :
    rangeFailure c ms = some (nameTable ms).length := by
  rw [rangeFailure_of_members h]
  rcases Nat.lt_or_ge Config.sizeMax (nameTable ms).length with hlt | hle
  · rw [above_eq_some hlt]; rfl
  · rw [above_eq_none.2 hle, above_eq_some (Nat.lt_of_not_le fun hcap => hnt ⟨hle, hcap⟩)]; rfl

/-- With the name table fitting too, the header length and the data offset decide. -/
theorem rangeFailure_of_nameTable (h : MembersInRange ms) (hnt : NameTableFits c ms) :
    rangeFailure c ms = firstOf [badHeaderLength c, above 0xFFFF (packDataOff c ms / 4)] := by
  obtain ⟨hsize, hcap⟩ := hnt
  rw [rangeFailure_of_members h, above_eq_none.2 hcap, show above Config.sizeMax _ = none from above_eq_none.2 hsize]
  rfl

end

/-- Settles O43: the refusals of R260 by count and name, the range checks of R269 one after the other. -/
theorem packAcceptsExactlyMappings : Obligations.PackAcceptsExactlyMappings := by
  refine ⟨fun c ms => ⟨refusedList_eq_none, refusedList_count, refusedList_ambiguous,
    fun pre m post hms hle hamb hpre hnodup hm => refusedList_name hms hle hamb hpre hnodup hm⟩, fun c ms => ?_⟩
  intro doff4 dsz noff ntLen doffOk dszOk noffOk ntOk hdrOk
  have hmembers (hoff : doffOk) (hsize : dszOk) (hname : noffOk) : MembersInRange ms := ⟨hoff, hsize, hname⟩
  refine ⟨rangeFailure_eq_none.trans ⟨?passes, ?passed⟩, fun hlen => ?hdrLen20, fun pre v post hvs hpre hv => ?offset,
    fun pre v post hoff hvs hpre hv => ?size, fun pre v post hoff hsize hvs hpre hv => ?nameOffset,
    fun hoff hsize hname hnt => rangeFailure_nameTable (hmembers hoff hsize hname) hnt,
    fun hoff hsize hname hnt hh => ?hdrLen, fun hoff hsize hname hnt hh hd => ?dataOff⟩
  case passes => exact fun ⟨⟨hoff, hsize, hname⟩, hnt, hh, hd⟩ => ⟨hoff, hsize, hname, hnt, hh, hd⟩
  case passed => exact fun ⟨hoff, hsize, hname, hnt, hh, hd⟩ => ⟨⟨hoff, hsize, hname⟩, hnt, hh, hd⟩
  case hdrLen20 => exact ⟨by omega, by omega⟩
  case offset =>
    rw [rangeFailure, findAbove_eq_some hvs hpre hv]
    rfl
  case size =>
    rw [rangeFailure, findAbove_eq_none.2 hoff, dataSizes, findAbove_eq_some hvs hpre hv]
    rfl
  case nameOffset =>
    rw [rangeFailure, findAbove_eq_none.2 hoff, dataSizes, findAbove_eq_none.2 hsize, findAbove_eq_some hvs hpre hv]
    rfl
  case hdrLen =>
    rw [rangeFailure_of_nameTable (hmembers hoff hsize hname) hnt, badHeaderLength_eq_some hh]
    rfl
  case dataOff =>
    rw [rangeFailure_of_nameTable (hmembers hoff hsize hname) hnt, badHeaderLength_eq_none.2 hh, above_eq_some hd]
    rfl

end Sys2Proof.Machine
end

section
/-! SUPPORT. The layout of a packed archive (46_xpck.md R262 to R267): its offsets, its sections and their lengths. -/

namespace Sys2Proof.Machine

/-! ## Padding (R9) -/

theorem pad16_length (d : List Byte) : (pad16 d).length = d.length + (16 - d.length % 16) % 16 := by
  rw [pad16, List.length_append, List.length_replicate]

theorem pad16_length_mod (d : List Byte) : (pad16 d).length % 16 = 0 := by
  rw [pad16_length]
  omega

theorem pad16_eq (d : List Byte) : ∃ k, k < 16 ∧ pad16 d = d ++ List.replicate k 0#8 :=
  ⟨_, Nat.mod_lt _ (by decide), rfl⟩

/-! ## Offsets (R262, R263) -/

/-- Where each member's part starts, the first at `start`, when the members' parts, of widths `w`, follow each other. -/
def startsFrom (w : Member → Nat) (start : Nat) (ms : List Member) : List Nat :=
  (List.range ms.length).map fun i => start + ((ms.take i).map w).sum

theorem startsFrom_cons (w : Member → Nat) (start : Nat) (m : Member) (ms : List Member) :
    startsFrom w start (m :: ms) = start :: startsFrom w (start + w m) ms := by
  simp [startsFrom, List.range_succ_eq_map, Function.comp_def, Nat.add_assoc]

theorem startsFrom_zero (w : Member → Nat) (ms : List Member) :
    startsFrom w 0 ms = (List.range ms.length).map fun i => ((ms.take i).map w).sum := by
  simp only [startsFrom, Nat.zero_add]

theorem nameOffsets_eq_startsFrom (start : Nat) (ms : List Member) :
    nameOffsets start ms = startsFrom (fun m => m.1.length + 1) start ms := by
  induction ms generalizing start with
  | nil => rfl
  | cons m ms ih => rw [nameOffsets, ih, startsFrom_cons, Nat.add_assoc]

theorem dataOffsets_eq_startsFrom (start : Nat) (ms : List Member) :
    dataOffsets start ms = startsFrom (fun m => (pad16 m.2).length) start ms := by
  induction ms generalizing start with
  | nil => rfl
  | cons m ms ih => rw [dataOffsets, ih, startsFrom_cons]

theorem dataOffsets_mod {start : Nat} (h : start % 16 = 0) (ms : List Member) :
    ∀ o ∈ dataOffsets start ms, o % 16 = 0 := by
  induction ms generalizing start with
  | nil => nofun
  | cons m ms ih =>
    have hnext : (start + (pad16 m.2).length) % 16 = 0 := by
      have := pad16_length_mod m.2
      omega
    exact List.forall_mem_cons.2 ⟨h, ih hnext⟩

theorem dataSection_length_mod (ms : List Member) : (dataSection ms).length % 16 = 0 := by
  induction ms with
  | nil => rfl
  | cons m ms ih =>
    have := pad16_length_mod m.2
    rw [dataSection] at ih ⊢
    rw [List.flatMap_cons, List.length_append]
    omega

/-! ## The name section (R264) -/

theorem nameBlob_eq (ms : List Member) :
    ∃ k, k < 16 ∧ nameBlob ms = lzStream (nameTable ms) ++ List.replicate k 0#8 :=
  ⟨_, Nat.mod_lt _ (by decide), rfl⟩

/-- The data section starts a multiple of 16 after the file-info table. -/
theorem nameBlob_length_mod (ms : List Member) : (12 * ms.length + (nameBlob ms).length) % 16 = 0 := by
  rw [nameBlob, List.length_append, List.length_replicate]
  omega

section
variable {c : Config} {ms : List Member}

theorem packNameOff_mod (h : c.xpckHdrLen % 4 = 0) : packNameOff c ms % 4 = 0 := by
  rw [packNameOff, packInfoOff]
  omega

theorem packDataOff_mod (h : c.xpckHdrLen % 4 = 0) : packDataOff c ms % 4 = 0 := by
  have := nameBlob_length_mod ms
  rw [packDataOff, packNameOff, packInfoOff]
  omega

end

/-! ## The records (R265, R107) -/

theorem encode_packRecord (c : Config) (m : Member) (noff doff : Nat) :
    encode (packRecord c m noff doff) =
      le32 (crc32 c m.1) ++ le16 (BitVec.ofNat 16 noff) ++ le16 (BitVec.ofNat 16 (doff / 4)) ++
        le16 (BitVec.ofNat 16 (pad16 m.2).length) ++
        [BitVec.ofNat 8 (doff / 4 / 65536), BitVec.ofNat 8 ((pad16 m.2).length / 65536)] := rfl

theorem keyedRecords_eq_zip (c : Config) (ms : List Member) (noff doff : Nat) :
    keyedRecords c ms noff doff =
      (ms.zip ((nameOffsets noff ms).zip (dataOffsets doff ms))).map
        fun x => (crc32 c x.1.1, packRecord c x.1 x.2.1 x.2.2) := by
  induction ms generalizing noff doff with
  | nil => rfl
  | cons m ms ih => rw [keyedRecords, ih]; rfl

/-- Every record is that of a member, at the member's offset of the data section. -/
theorem mem_keyedRecords {c : Config} {ms : List Member} {noff doff : Nat} {r : Word × Instr}
    (h : r ∈ keyedRecords c ms noff doff) :
    ∃ pre m post n, ms = pre ++ m :: post ∧
      r = (crc32 c m.1, packRecord c m n (doff + (dataSection pre).length)) := by
  induction ms generalizing noff doff with
  | nil => nomatch h
  | cons m ms ih =>
    rcases List.mem_cons.1 h with rfl | h
    · exact ⟨[], m, ms, noff, rfl, rfl⟩
    · obtain ⟨pre, m', post, n, rfl, rfl⟩ := ih h
      refine ⟨m :: pre, m', post, n, rfl, ?_⟩
      rw [dataSection, dataSection, List.flatMap_cons, List.length_append, Nat.add_assoc]

theorem keyedRecords_length (c : Config) (ms : List Member) (noff doff : Nat) :
    (keyedRecords c ms noff doff).length = ms.length := by
  induction ms generalizing noff doff with
  | nil => rfl
  | cons m ms ih => rw [keyedRecords, List.length_cons, ih, List.length_cons]

theorem recordsByKey_length (c : Config) (ms : List Member) : (recordsByKey c ms).length = ms.length :=
  (recordsByKey_perm c ms).length_eq.trans (keyedRecords_length c ms 0 0)

theorem mem_recordsByKey {c : Config} {ms : List Member} {r : Word × Instr} (h : r ∈ recordsByKey c ms) :
    ∃ pre m post n, ms = pre ++ m :: post ∧ r = (crc32 c m.1, packRecord c m n (dataSection pre).length) := by
  have hrecord := mem_keyedRecords ((recordsByKey_perm c ms).mem_iff.1 h)
  simpa only [Nat.zero_add] using hrecord

theorem length_encode_record {c : Config} {ms : List Member} {r : Word × Instr} (h : r ∈ recordsByKey c ms) :
    (encode r.2).length = 12 := by
  obtain ⟨pre, m, post, n, -, rfl⟩ := mem_recordsByKey h
  exact Laws.WordLength.xpr _ _ _ _ _ _

/-- The bytes of the file-info table. -/
def recordBytes (rs : List (Word × Instr)) : List Byte := rs.flatMap fun r => encode r.2

theorem sortedRecords_bytes (c : Config) (ms : List Member) :
    (sortedRecords c ms).flatMap encode = recordBytes (recordsByKey c ms) := by
  rw [sortedRecords_eq, List.flatMap_map, recordBytes]

theorem length_flatMap_of_forall {α β : Type} {f : α → List β} {k : Nat} {xs : List α}
    (h : ∀ x ∈ xs, (f x).length = k) : (xs.flatMap f).length = k * xs.length := by
  rw [List.length_flatMap, List.map_congr_left h, List.map_const', List.sum_replicate, smul_eq_mul, Nat.mul_comm]

theorem recordBytes_length (c : Config) (ms : List Member) :
    (recordBytes (recordsByKey c ms)).length = 12 * ms.length := by
  rw [recordBytes, length_flatMap_of_forall fun r hr => length_encode_record hr, recordsByKey_length]

/-! ## The archive (R105, R267) -/

theorem headerBytes_length (c : Config) (ms : List Member) : (headerBytes c ms).length = c.xpckHdrLen := by
  have hfields : (encode (packHeader c ms)).length = 20 := Laws.WordLength.xph _ _ _ _ _ _ _
  rw [headerBytes, List.length_append, List.length_take, hfields, List.length_map, List.length_range]
  omega

/-- What stands before the data section. -/
def archiveFront (c : Config) (ms : List Member) : List Byte :=
  headerBytes c ms ++ recordBytes (recordsByKey c ms) ++ nameBlob ms

theorem archiveFront_length (c : Config) (ms : List Member) : (archiveFront c ms).length = packDataOff c ms := by
  rw [archiveFront, List.length_append, List.length_append, headerBytes_length, recordBytes_length]
  rfl

theorem packArchive_eq (c : Config) (ms : List Member) : packArchive c ms = archiveFront c ms ++ dataSection ms := by
  rw [packArchive, sortedRecords_bytes]
  rfl

theorem packArchive_length (c : Config) (ms : List Member) :
    (packArchive c ms).length = packDataOff c ms + (dataSection ms).length := by
  rw [packArchive_eq, List.length_append, archiveFront_length]

/-- The two bytes of the count field (R266). -/
theorem le16_countFieldOf (n : Nat) :
    le16 (countFieldOf n) = [BitVec.ofNat 8 n, BitVec.ofNat 8 (if n < 256 then 2 ^ Nat.log2 n else n / 256)] := by
  unfold countFieldOf
  split <;> exact le16_u16le _ _

theorem headerBytes_twenty {c : Config} (h : c.xpckHdrLen = 20) (ms : List Member) :
    headerBytes c ms = encode (packHeader c ms) := by
  have hfields : (encode (packHeader c ms)).length = 20 := Laws.WordLength.xph _ _ _ _ _ _ _
  rw [headerBytes, h, List.take_of_length_le hfields.le]
  exact List.append_nil _

/-- Settles O44: the offsets as sums, the sections by their lengths modulo 16, the header's fields one by one. -/
theorem packLayoutIsAligned : Obligations.PackLayoutIsAligned := by
  refine ⟨fun c m noff doff => ?record, fun d => ⟨pad16_length_mod d, pad16_eq d⟩, fun c ms => ⟨?names, ?data,
    keyedRecords_eq_zip c ms 0 0, rfl, rfl, rfl, nameBlob_eq ms, ?tables,
    fun h => ⟨packNameOff_mod h, packDataOff_mod h⟩, dataOffsets_mod rfl ms, dataSection_length_mod ms, ?length,
    fun h => ?bytes⟩⟩
  case record =>
    rw [encode_packRecord]
    simp only [Nat.shiftRight_eq_div_pow]
  case names => rw [nameOffsets_eq_startsFrom, startsFrom_zero]
  case data => rw [dataOffsets_eq_startsFrom, startsFrom_zero]
  case tables =>
    have := nameBlob_length_mod ms
    rw [packDataOff, packNameOff]
    omega
  case length => rw [packArchive_length, packDataOff, packNameOff, packInfoOff]
  case bytes =>
    have hlow : BitVec.ofNat 8 (ms.length &&& 0xFF) = BitVec.ofNat 8 ms.length := by
      rw [show 0xFF = 2 ^ 8 - 1 from rfl, Nat.and_two_pow_sub_one_eq_mod]
      exact BitVec.eq_of_toNat_eq (by simp only [BitVec.toNat_ofNat, Nat.mod_mod])
    have hinfo : packInfoOff c / 4 = 5 := by rw [packInfoOff, h]
    rw [hlow, show ms.length >>> 8 = ms.length / 256 from Nat.shiftRight_eq_div_pow _ 8, ← le16_countFieldOf, packArchive,
      headerBytes_twenty h, packHeader, hinfo]
    rfl

end Sys2Proof.Machine
end

section
/-! SUPPORT. `FLS` (46_xpck.md R260, R267, R269): the archive of an accepted list, the failures of one that is not, and
bytes that are no file list (R111). -/

namespace Sys2Proof.Machine

/-! ## Lists (R260, R267, R269) -/

section
variable {ms : List Member} {s : State} {v : Nat}

theorem exec_fls (ms : List Member) (s : State) : exec (.fls ms) s = .next (flsAnswer (refusedList s.cfg ms) ms s) :=
  execFls_eq ms s

theorem exec_fls_refused (h : refusedList s.cfg ms = some v) : exec (.fls ms) s = .next (raise .badArgument v s) := by
  rw [exec_fls, h]
  rfl

theorem exec_fls_outOfRange (h : refusedList s.cfg ms = none) (hr : rangeFailure s.cfg (sortByName ms) = some v) :
    exec (.fls ms) s = .next (raiseLength .badArgument v s) := by
  rw [exec_fls, h, flsAnswer, hr]
  rfl

/-- The state with the key computation and the scratch space of an accepted list behind it (R264, R265). -/
def packPrepared (ms : List Member) (s : State) : State :=
  { s with scr := packScratch s ms, crcAcc := packCrcAcc s ms }

theorem exec_fls_accepted (h : refusedList s.cfg ms = none) (hr : rangeFailure s.cfg (sortByName ms) = none) :
    exec (.fls ms) s =
      .next (encoderOut (packArchive s.cfg (sortByName ms)) (packPrepared (sortByName ms) s)
        (packDone s.cfg (sortByName ms))) := by
  rw [exec_fls, h, flsAnswer, hr]
  rfl

/-- The archive of an accepted list is written where it fits. -/
theorem exec_fls_packs (h : refusedList s.cfg ms = none) (hr : rangeFailure s.cfg (sortByName ms) = none)
    (hfit : (packArchive s.cfg (sortByName ms)).length ≤ s.cfg.outCap.toNat) :
    exec (.fls ms) s = .next { packPrepared (sortByName ms) s with
      out := s.out.writeN 0 (packArchive s.cfg (sortByName ms))
      str := { s.str with op := (packArchive s.cfg (sortByName ms)).length }
      host :=
        { s.host with
          res0 := BitVec.ofNat 32 ms.length, res1 := BitVec.ofNat 32 (packDataOff s.cfg (sortByName ms)) }
      phase := .finish } := by
  rw [exec_fls_accepted h hr, encoderOut_fits (s := packPrepared (sortByName ms) s) hfit, packDone, sortByName_length]
  rfl

end

/-! ## Bytes that are no file list (R111, R260) -/

theorem decode_fls_error {bs : List Byte} {e : DecodeErr} (h : parseFileList bs = .error e) :
    decode .fls bs = .error e := by
  simp only [decode, h]

theorem parseFileList_short {bs : List Byte} (h : bs.length < 4) : parseFileList bs = .error (.malformedList 0) := by
  unfold parseFileList
  split
  next => exact absurd h (Nat.not_lt.2 (by simp only [List.length_cons]; omega))
  next => rfl

theorem parseFileList_le32 (n : Word) (bs : List Byte) :
    parseFileList (le32 n ++ bs) = parseEntries n.toNat 4 bs := by
  simp only [parseFileList, le32, List.cons_append, List.nil_append, u32le_le32]

theorem takeBytes_short {n : Nat} {bs : List Byte} (h : bs.length < n) : takeBytes n bs = none :=
  if_neg (Nat.not_le.2 h)

theorem takeBytes_of_le {n : Nat} {bs : List Byte} (h : n ≤ bs.length) : takeBytes n bs = some (bs.take n, bs.drop n) :=
  if_pos h

section
variable {k addr : Nat}

/-- An entry whose 6 length bytes are not all there. -/
theorem parseEntries_lengths_cut {bs : List Byte} (h : bs.length < 6) :
    parseEntries (k + 1) addr bs = .error (.malformedList addr) := by
  unfold parseEntries
  split
  next => contradiction
  next => exact absurd h (Nat.not_lt.2 (by simp only [List.length_cons]; omega))
  next => rfl

section
variable {nameLen : BitVec 16} {dataLen : Word} {rest : List Byte}

theorem parseEntries_name_cut (h : rest.length < nameLen.toNat) :
    parseEntries (k + 1) addr (le16 nameLen ++ le32 dataLen ++ rest) = .error (.malformedList (addr + 6)) := by
  simp only [le16, le32, List.cons_append, List.nil_append, parseEntries, u16le_le16, takeBytes_short h]

theorem parseEntries_data_cut (hname : nameLen.toNat ≤ rest.length)
    (hdata : rest.length < nameLen.toNat + dataLen.toNat) :
    parseEntries (k + 1) addr (le16 nameLen ++ le32 dataLen ++ rest) =
      .error (.malformedList (addr + 6 + nameLen.toNat)) := by
  have hrest : takeBytes dataLen.toNat (rest.drop nameLen.toNat) = none :=
    takeBytes_short (by rw [List.length_drop]; omega)
  simp only [le16, le32, List.cons_append, List.nil_append, parseEntries, u16le_le16, u32le_le32,
    takeBytes_of_le hname, hrest, List.length_take_of_le hname]

end

/-- Whole entries are read over, and what fails after them fails. -/
theorem parseEntries_error_after {ms : List Member} (hfit : ms.all memberFits = true) {tail : List Byte} {e : DecodeErr}
    (h : parseEntries k (addr + (ms.flatMap memberBytes).length) tail = .error e) :
    parseEntries (ms.length + k) addr (ms.flatMap memberBytes ++ tail) = .error e := by
  induction ms generalizing addr with
  | nil => rwa [List.length_nil, Nat.zero_add]
  | cons m ms ih =>
    rw [List.all_cons, Bool.and_eq_true, memberFits_iff] at hfit
    obtain ⟨⟨hname, hdata⟩, hms⟩ := hfit
    have hlen : (memberBytes m).length = 6 + m.1.length + m.2.length := by
      simp only [memberBytes, le16, le32, List.length_append, List.length_cons, List.length_nil]
    rw [List.flatMap_cons, List.length_append, hlen] at h
    have hrest := ih (addr := addr + 6 + m.1.length + m.2.length) hms (by rw [← h]; congr 1; omega)
    rw [List.flatMap_cons, List.append_assoc, memberBytes_append, List.length_cons, Nat.add_right_comm]
    simp only [le16, le32, List.cons_append, List.nil_append, parseEntries, u16le_le16, u32le_le32, hname, hdata,
      takeBytes_append, hrest]

end

/-- A failure after the count and whole entries: its address is past them. -/
theorem parseFileList_error_after {n : Word} {ms : List Member} {tail : List Byte} (hms : ms.all memberFits = true)
    (hn : ms.length < n.toNat) {e : Nat → DecodeErr}
    (h : ∀ k addr, parseEntries (k + 1) addr tail = .error (e addr)) :
    parseFileList (le32 n ++ ms.flatMap memberBytes ++ tail) = .error (e (4 + (ms.flatMap memberBytes).length)) := by
  obtain ⟨k, hk⟩ := Nat.exists_eq_add_of_lt hn
  rw [List.append_assoc, parseFileList_le32, hk, Nat.add_assoc]
  exact parseEntries_error_after hms (h k _)

theorem memberFits_of_wellFormed {ms : List Member} (h : (Instr.fls ms).wellFormed = true) :
    ms.length < 4294967296 ∧ ms.all memberFits = true := by
  simpa only [Instr.wellFormed, Bool.and_eq_true, decide_eq_true_eq] using h

/-! ## The step that reads the list (R260) -/

theorem step_fls {s : State} (hbus : s.bus = []) (hbusy : s.host.busy = true) (hp : s.phase = .fls)
    (hcap : s.host.inLen.toNat ≤ s.cfg.inCap.toNat) :
    step s = (flsFetched (decode .fls (s.inp.readN 0 s.host.inLen.toNat)) s).outcome := by
  have hfetch : fetchAt .fls s = flsFetched (decode .fls (s.inp.readN 0 s.host.inLen.toNat)) s :=
    (fetchFls_eq s).trans (if_neg (Nat.not_lt.2 hcap))
  rw [step_eq_fetchAt hbus hbusy hp, hfetch]

/-- The failure of bytes that are no file list, at address `a` (R260, R297). -/
def refusedBytes (s : State) (a : Nat) : State := raise .badArgument a { s with str := { s.str with ip := a } }

section
variable {bytes tail : List Byte} {n : Word} {ms : List Member} {s : State}

theorem flsFetched_malformed {a : Nat} (h : parseFileList bytes = .error (.malformedList a)) :
    (flsFetched (decode .fls bytes) s).outcome = .next (refusedBytes s a) := by
  rw [decode_fls_error h]
  rfl

/-- Where the bytes after `n` bytes have none wanted, the first of them is the failure's address. -/
theorem flsFetched_leftOver (hlen : s.host.inLen.toNat = bytes.length) (htail : tail ≠ [])
    (hdec : decode .fls bytes = .ok (.fls ms, tail)) :
    (flsFetched (decode .fls bytes) s).outcome = .next (refusedBytes s (bytes.length - tail.length)) := by
  rw [hdec, flsFetched, if_neg htail, hlen]
  rfl

/-- The list's own length, by the bytes after it. -/
theorem length_sub_tail (hbytes : bytes = le32 n ++ ms.flatMap memberBytes ++ tail) :
    bytes.length - tail.length = 4 + (ms.flatMap memberBytes).length := by
  rw [hbytes, List.length_append, Nat.add_sub_cancel, List.length_append]
  rfl

/-- Entries are wanted after the whole ones, and the next one breaks off at `d` of its address. -/
theorem flsFetched_after (hms : ms.all memberFits = true) (hn : ms.length < n.toNat)
    (hbytes : bytes = le32 n ++ ms.flatMap memberBytes ++ tail) {d : Nat → Nat}
    (h : ∀ k addr, parseEntries (k + 1) addr tail = .error (.malformedList (d addr))) :
    (flsFetched (decode .fls bytes) s).outcome = .next (refusedBytes s (d (bytes.length - tail.length))) := by
  rw [length_sub_tail hbytes, hbytes]
  exact flsFetched_malformed (parseFileList_error_after hms hn h)

end

/-- Settles O42: the list by the checks that refuse it and by the room for its archive, the bytes by what they break off
in. -/
theorem flsPacksAcceptedLists : Obligations.FlsPacksAcceptedLists := by
  refine ⟨fun ms s _ => ?lists, fun s hbus hbusy hp hcap => ?bytes⟩
  case lists =>
    intro sorted archive
    refine ⟨fun v => exec_fls_refused, fun v h hr => ⟨_, exec_fls_outOfRange h hr, raiseLength_badArgument v s⟩,
      fun h hr hfit => ⟨_, exec_fls_packs h hr hfit, Memory.readN_writeN_same _ _ _, fun x hx => ?past, rfl⟩,
      fun h hr hlong => ?noRoom⟩
    case past => exact Memory.read_writeN_past _ (by rwa [Nat.zero_add])
    case noRoom =>
      have hraise := encoderOut_noRoom (s := packPrepared sorted s) (k := packDone s.cfg sorted) hlong
      have hnext := (exec_fls_accepted h hr).trans (congrArg Host.Outcome.next hraise)
      refine ⟨_, hnext, rfl, rfl, rfl, rfl, ?_, rfl, rfl, (exec_kept (.fls ms) s).of_eq hnext⟩
      exact (BitVec.ofNat_toNat _ _).trans (BitVec.setWidth_eq _)
  case bytes =>
    intro bytes refusedAt
    have hstep : step s = (flsFetched (decode .fls bytes) s).outcome := step_fls hbus hbusy hp hcap
    have hlen : s.host.inLen.toNat = bytes.length := (Memory.readN_length _ _ _).symm
    refine ⟨fun hshort => hstep.trans (flsFetched_malformed (parseFileList_short hshort)), fun n ms tail hw hbytes => ?_⟩
    obtain ⟨-, hfit⟩ := memberFits_of_wellFormed hw
    have hafter (hn : ms.length < n.toNat) (d : Nat → Nat)
        (h : ∀ k addr, parseEntries (k + 1) addr tail = .error (.malformedList (d addr))) :
        step s = .next (refusedBytes s (d (bytes.length - tail.length))) :=
      hstep.trans (flsFetched_after hfit hn hbytes h)
    refine ⟨fun hn htail => ?leftOver, fun hn htail => hafter hn id fun k addr => parseEntries_lengths_cut htail,
      fun nameLen dataLen rest hn htail => ?entry⟩
    case leftOver =>
      have hdec : decode .fls bytes = .ok (.fls ms, tail) := by
        rw [hbytes, List.append_assoc]
        simp only [decode, parseFileList_le32, ← hn, parseEntries_memberBytes tail ms hfit]
      exact hstep.trans (flsFetched_leftOver hlen htail hdec)
    case entry =>
      subst htail
      exact ⟨fun hname => hafter hn (· + 6) fun k addr => parseEntries_name_cut hname, fun hname hdata =>
        hafter hn (· + 6 + nameLen.toNat) fun k addr => parseEntries_data_cut hname hdata⟩

end Sys2Proof.Machine
end

section
/-! SUPPORT. The name table through the LZ decoder (46_xpck.md R251; 42_lz.md R184): a decoder that writes `SCR` takes the
steps of one that writes `OUT` (10_state.md R26), so what `DECOMPRESS` restores is restored there too. -/

namespace Sys2Proof.Machine

theorem Reaches.trans {s t u : State} (hst : Reaches s t) (htu : Reaches t u) : Reaches s u := by
  obtain ⟨n, hn⟩ := hst
  induction n generalizing s with
  | zero =>
    cases hn
    exact htu
  | succ n ih =>
    rw [runSteps] at hn
    split at hn
    next v hv => exact .head hv (ih hn)
    next => cases hn
    next => cases hn

/-! ## A decoder that writes SCR, seen as one that writes OUT (R26) -/

/-- The machine that writes `OUT` where `s` writes `SCR`, and whose stream ends `pad` bytes earlier. -/
def asOut (pad : Nat) (s : State) : State :=
  { s with
    cfg := { s.cfg with outCap := s.cfg.scrCap }
    str := { s.str with limit := s.str.limit - pad, dst := false }
    out := s.scr
    scr := [] }

/-- From `s` to `t` only `SCR`, the stream's registers but its end and its destination, the LZ decoder's registers and the
control point change. -/
def DecoderMoved (s t : State) : Prop :=
  t.str.limit = s.str.limit ∧ t.str.dst = s.str.dst ∧
    t = { s with str := t.str, lz := t.lz, scr := t.scr, phase := t.phase }

theorem DecoderMoved.refl (s : State) : DecoderMoved s s := ⟨rfl, rfl, rfl⟩

theorem DecoderMoved.trans {s t u : State} (hst : DecoderMoved s t) (htu : DecoderMoved t u) : DecoderMoved s u := by
  obtain ⟨hlimit, hdst, ht⟩ := hst
  obtain ⟨hlimit', hdst', hu⟩ := htu
  refine ⟨hlimit'.trans hlimit, hdst'.trans hdst, ?_⟩
  rw [ht] at hu
  exact hu

/-- Where `o'` leads to a state in which the command runs on, `o` leads to a state that looks like it. -/
def Shadows (pad : Nat) (s : State) (o o' : Outcome) : Prop :=
  ∀ u, o' = .next u → u.host.busy = true → ∃ t, o = .next t ∧ asOut pad t = u ∧ DecoderMoved s t

section
variable {pad : Nat} {s : State}

theorem shadows_next {t : State} (h : DecoderMoved s t) : Shadows pad s (.next t) (.next (asOut pad t)) := by
  intro u hu _
  cases hu
  exact ⟨t, rfl, rfl, h⟩

/-- A failure ends the command, so nothing has to look like it. -/
theorem shadows_raise (o : Outcome) (f : Failure) (v : Nat) (u : State) : Shadows pad s o (.next (raise f v u)) := by
  intro w hw hbusy
  cases hw
  exact absurd hbusy Bool.false_ne_true

theorem shadows_fault (o : Outcome) (f : Fault) : Shadows pad s o (.fault f) := by
  intro u hu
  cases hu

theorem Shadows.fetched_ite {c : Prop} [Decidable c] {a b a' b' : Fetched}
    (ha : c → Shadows pad s a.outcome a'.outcome) (hb : ¬c → Shadows pad s b.outcome b'.outcome) :
    Shadows pad s (if c then a else b).outcome (if c then a' else b').outcome := by
  by_cases h : c
  · rw [if_pos h, if_pos h]; exact ha h
  · rw [if_neg h, if_neg h]; exact hb h

/-- Bytes below the earlier end are below the end. -/
theorem shadows_peek {t : State} {n : Nat} {k k' : List Byte → Fetched}
    (hk : Shadows pad s (k (bytesAtIp n t)).outcome (k' (bytesAtIp n t)).outcome) :
    Shadows pad s (peek n t k).outcome (peek n (asOut pad t) k').outcome := by
  have hstop := fetchStop_cases n (asOut pad t)
  unfold peek
  rcases hstop with ⟨-, ho⟩ | ⟨-, -, ho⟩ | ⟨hlimit, hcap, ho⟩ <;> rw [ho]
  · exact shadows_raise _ _ _ _
  · exact shadows_fault _ _
  · have hend : t.str.ip + n ≤ t.str.limit := hlimit.trans (Nat.sub_le _ _)
    rw [fetchStop_none hend hcap]
    exact hk

theorem shadows_runDecoded {t : State} {f : Fmt} {bs : List Byte} {o : Outcome} {e : Fault}
    (h : ∀ i rest, decode f bs = .ok (i, rest) → Shadows pad s (exec i t) (exec i (asOut pad t))) :
    Shadows pad s (runDecoded f bs t o).outcome (runDecoded f bs (asOut pad t) (.fault e)).outcome := by
  cases hdec : decode f bs with
  | ok r => rw [runDecoded_ok hdec, runDecoded_ok hdec]; exact h r.1 r.2 hdec
  | error e => rw [runDecoded_error (e := e) (o := .fault _) hdec]; exact shadows_fault _ _

/-! ## The symbols (R172, R173) -/

theorem capacity_asOut {t : State} (h : t.str.dst = true) : capacity (asOut pad t) = capacity t := by
  rw [capacity, capacity, h]; rfl

theorem dstSpace_asOut {t : State} (h : t.str.dst = true) : dstSpace (asOut pad t) = dstSpace t := by
  rw [dstSpace, dstSpace, h]; rfl

theorem emitAll_asOut {t : State} (h : t.str.dst = true) (bs : List Byte) :
    emitAll bs (asOut pad t) = asOut pad (emitAll bs t) := by
  simp [emitAll_eq, asOut, h]

theorem copyBack_asOut {t : State} (h : t.str.dst = true) {d : Nat} (hd : d < t.str.op) (n : Nat) :
    copyBack d n (asOut pad t) = asOut pad (copyBack d n t) := by
  rw [copyBack_eq_periodic n hd, copyBack_eq_periodic (s := asOut pad t) n hd, dstSpace_asOut h, emitAll_asOut h]
  rfl

theorem DecoderMoved.emitAll {t : State} (h : DecoderMoved s t) (hdst : t.str.dst = true) (bs : List Byte) :
    DecoderMoved s (emitAll bs t) := by
  refine h.trans ⟨emitAll_str_limit bs t, emitAll_str_dst bs t, ?_⟩
  simp [emitAll_eq, hdst]

theorem shadows_withRoom {t k : State} {n : Nat} (hdst : t.str.dst = true) (hk : DecoderMoved s k) :
    Shadows pad s (withRoom n t k) (withRoom n (asOut pad t) (asOut pad k)) := by
  rcases withRoom_cases n (asOut pad t) (asOut pad k) with ⟨hroom, ho⟩ | ⟨-, ho⟩ <;> rw [ho]
  · rw [capacity_asOut hdst] at hroom
    rw [withRoom_eq (s := t) hroom]
    exact shadows_next hk
  · exact shadows_fault _ _

theorem shadows_lit {t : State} (h : DecoderMoved s t) (hdst : t.str.dst = true) (b : Byte) :
    Shadows pad s (exec (.lit b) t) (exec (.lit b) (asOut pad t)) := by
  have hmoved : DecoderMoved s (emit b (advanceIp 1 t)) :=
    (h.trans (u := advanceIp 1 t) ⟨rfl, rfl, rfl⟩).emitAll hdst [b]
  have hemit : emit b (advanceIp 1 (asOut pad t)) = asOut pad (emit b (advanceIp 1 t)) :=
    emitAll_asOut (t := advanceIp 1 t) hdst [b]
  show Shadows pad s (withRoom 1 t _) (withRoom 1 _ _)
  rw [hemit]
  exact shadows_withRoom hdst hmoved

/-- A copy starts from inside the output, whose bytes the two machines share. -/
theorem shadows_ref {t : State} (h : DecoderMoved s t) (hdst : t.str.dst = true) (l : BitVec 4) (d : BitVec 12) :
    Shadows pad s (exec (.ref l d) t) (exec (.ref l d) (asOut pad t)) := by
  rcases Nat.lt_or_ge (refDisp d) t.str.op with hd | hd
  · rw [execRef_inside hd, execRef_inside (s := asOut pad t) hd]
    show Shadows pad s _ (onAccepted (acceptedCount t.cfg.overrunPolicy t.str.op (refLength l) t.str.size) _ _)
    cases acceptedCount t.cfg.overrunPolicy t.str.op (refLength l) t.str.size with
    | none => exact shadows_raise _ _ _ _
    | some n =>
      have hmoved : DecoderMoved s (copyBack (refDisp d) n (refTaken n d t)) := by
        rw [copyBack_eq_periodic (s := refTaken n d t) n hd]
        exact (h.trans (u := refTaken n d t) ⟨rfl, rfl, rfl⟩).emitAll hdst _
      show Shadows pad s _ (withRoom n (asOut pad t) (copyBack _ n (asOut pad (refTaken n d t))))
      rw [copyBack_asOut (t := refTaken n d t) hdst hd]
      exact shadows_withRoom hdst hmoved
  · rw [execRef_beforeStart (s := asOut pad t) hd]
    exact shadows_raise _ _ _ _

theorem shadows_fetchSymbol {t : State} (h : DecoderMoved s t) (hdst : t.str.dst = true) (flag : Bool) :
    Shadows pad s (fetchSymbol flag t).outcome (fetchSymbol flag (asOut pad t)).outcome := by
  unfold fetchSymbol
  refine .fetched_ite (fun _ => ?token) fun _ => ?literal
  case token =>
    refine shadows_peek (shadows_runDecoded fun i rest hdec => ?_)
    obtain ⟨l, d, rfl⟩ := decode_lzg_set hdec
    exact shadows_ref h hdst l d
  case literal =>
    refine shadows_peek (shadows_runDecoded fun i rest hdec => ?_)
    obtain ⟨b, rfl⟩ := decode_lzg_clear hdec
    exact shadows_lit h hdst b

/-! ## The loop (R171) -/

theorem takeFlag_loadFlags_asOut (pad : Nat) (s : State) :
    takeFlag (loadFlags (asOut pad s)) = asOut pad (takeFlag (loadFlags s)) := by
  rw [takeFlag_loadFlags_eq, takeFlag_loadFlags_eq]
  rfl

theorem decoderMoved_takeFlag_loadFlags (s : State) : DecoderMoved s (takeFlag (loadFlags s)) := by
  rw [takeFlag_loadFlags_eq]
  exact ⟨rfl, rfl, rfl⟩

/-- Inside the loop the two machines take the same step. -/
theorem shadows_fetchLz (hdst : s.str.dst = true) (hop : s.str.op < s.str.size) :
    Shadows pad s (fetchLz s).outcome (fetchLz (asOut pad s)).outcome := by
  have hmoved := decoderMoved_takeFlag_loadFlags s
  have hsymbol : Shadows pad s (fetchSymbol (nextFlag (loadFlags s)) (takeFlag (loadFlags s))).outcome
      (fetchSymbol (nextFlag (loadFlags (asOut pad s))) (takeFlag (loadFlags (asOut pad s)))).outcome := by
    rw [takeFlag_loadFlags_asOut, nextFlag_loadFlags, nextFlag_loadFlags]
    exact shadows_fetchSymbol hmoved (hmoved.2.1.trans hdst) _
  have hop' : (asOut pad s).str.op < (asOut pad s).str.size := hop
  rw [fetchLz_eq, fetchLz_eq, if_pos hop, if_pos hop']
  exact .fetched_ite (fun _ => shadows_peek hsymbol) fun _ => hsymbol

/-- The symbols of a stream are decoded into `SCR` as they are into `OUT`. -/
theorem Decoding.restoresInScr {data : List Byte} {grp tail syms : List Instr} (hdst : s.str.dst = true)
    (h : Decoding data grp tail (asOut pad s)) (hsyms : grp ++ tail = syms) :
    ∃ t, Reaches s t ∧ Decoding data [] [] (asOut pad t) ∧ DecoderMoved s t := by
  induction syms generalizing grp tail s with
  | nil =>
    obtain ⟨rfl, rfl⟩ := List.append_eq_nil_iff.1 hsyms
    exact ⟨s, .refl s, h, .refl s⟩
  | cons i syms ih =>
    have hop : s.str.op < s.str.size := h.op_lt_size (hsyms ▸ List.cons_ne_nil i syms)
    obtain ⟨u, grp', tail', hu, hnext, hleft⟩ := h.step hsyms
    rw [step_eq_fetchAt h.bus h.busy h.phase] at hu
    obtain ⟨t, ht, rfl, hmoved⟩ := shadows_fetchLz hdst hop u hu hnext.busy
    have hstep : Machine.step s = .next t := (step_eq_fetchAt (s := s) h.bus h.busy h.phase).trans ht
    obtain ⟨v, hreach, hdone, hlast⟩ := ih (hmoved.2.1.trans hdst) hnext hleft
    exact ⟨v, .head hstep hreach, hdone, hmoved.trans hlast⟩

/-! ## The name table (R251) -/

/-- The header of the name table starts the decoder, which writes `SCR`, as that of a stream does one that writes
`OUT`. -/
theorem step_header_asOut (hbus : s.bus = []) (hbusy : s.host.busy = true) (hphase : s.phase = .header)
    (hdst : s.str.dst = true) {size : BitVec 29}
    (hdec : decode .hdr (s.inp.readN s.str.ip 4) = .ok (.lz size, [])) :
    Shadows pad s (step s) (step (asOut pad s)) := by
  have hexec : Shadows pad s (exec (.lz size) s) (exec (.lz size) (asOut pad s)) := by
    show Shadows pad s (.next (lzEnter _)) (.next (lzEnter (asOut pad (beginMethod 1#3 size s))))
    rcases Nat.lt_or_ge (capacity s) size.toNat with hroom | hfits
    · rw [lzEnter_noRoom (s := asOut pad (beginMethod 1#3 size s))
        ((capacity_asOut (t := beginMethod 1#3 size s) hdst).trans_lt hroom)]
      exact shadows_raise _ _ _ _
    · rw [lzEnter_fits (s := beginMethod 1#3 size s) hfits, lzEnter_fits (s := asOut pad (beginMethod 1#3 size s))
        (hfits.trans_eq (capacity_asOut (t := beginMethod 1#3 size s) hdst).symm)]
      exact shadows_next ⟨rfl, rfl, rfl⟩
  rw [step_eq_fetchAt hbus hbusy hphase, step_eq_fetchAt (s := asOut pad s) hbus hbusy hphase]
  show Shadows pad s (fetchHeader s).outcome (fetchHeader (asOut pad s)).outcome
  have hbytes : bytesAtIp 4 s = s.inp.readN s.str.ip 4 := rfl
  rcases Nat.lt_or_ge (s.str.limit - pad - s.str.base) 4 with hshort | hlen
  · rw [fetchHeader_short (s := asOut pad s) hshort]
    exact shadows_raise _ _ _ _
  · have hlen' : ¬s.str.limit - s.str.base < 4 := by omega
    have hout : ¬(asOut pad s).str.limit - (asOut pad s).str.base < 4 := Nat.not_lt.2 hlen
    rw [fetchHeader, if_neg hlen', fetchHeader, if_neg hout]
    refine shadows_peek (shadows_runDecoded fun i rest hi => ?_)
    rw [hbytes, hdec] at hi
    cases hi
    exact hexec

/-- What is left of a stream with padding after it, without the padding. -/
theorem inputLeft_asOut {bs : List Byte} (h : inputLeft s = bs ++ List.replicate pad 0#8) :
    inputLeft (asOut pad s) = bs := by
  have hlen := congrArg List.length h
  rw [inputLeft, Memory.readN_length, List.length_append, List.length_replicate] at hlen
  have hleft : s.str.limit - pad - s.str.ip = bs.length := by omega
  show s.inp.readN s.str.ip (s.str.limit - pad - s.str.ip) = bs
  rw [hleft, ← Memory.take_readN s.inp s.str.ip (Nat.le.intro hlen.symm), ← inputLeft, h, List.take_left]

/-- The name table is restored in `SCR`, `NT_LEN` is its length, and the names are looked up next; nothing else of the
archive unit changes. -/
theorem nameTable_restored {data : List Byte} (hbus : s.bus = []) (hbusy : s.host.busy = true)
    (herr : s.host.err = false) (hphase : s.phase = .header) (hdst : s.str.dst = true) (hip : s.str.ip = s.str.base)
    (hcap : s.str.limit ≤ s.cfg.inCap.toNat) (hdata : data.length ≤ 0x1FFFFFFF)
    (hroom : data.length ≤ s.cfg.scrCap.toNat)
    (hinput : inputLeft s = lzStream data ++ List.replicate pad 0#8) :
    ∃ t, Reaches s t ∧ t.scr.readN 0 data.length = data ∧
      t = { s with
        str := t.str, lz := t.lz, scr := t.scr, xp := { s.xp with ntLen := data.length }, phase := .lookup 0 } := by
  have hstream := inputLeft_asOut hinput
  have hcapOut : (asOut pad s).str.limit ≤ (asOut pad s).cfg.inCap.toNat := (Nat.sub_le _ _).trans hcap
  obtain ⟨size, -, hheader⟩ := exists_size_lzStream hdata
  obtain ⟨-, hread, -⟩ :=
    inputLeft_append (bs := le32 (headerWord 1#3 size)) (Nat.succ_pos 3) hcapOut (hstream.trans hheader)
  have hdec : decode .hdr (s.inp.readN s.str.ip 4) = .ok (.lz size, []) := by
    rw [show s.inp.readN s.str.ip 4 = le32 (headerWord 1#3 size) from hread]
    exact decode_hdr_headerWord [] 1#3 size
  obtain ⟨u, hu, hdecoding⟩ :=
    step_header_lzStream (s := asOut pad s) hbus hbusy herr hphase rfl hip hcapOut hdata hroom hstream
  obtain ⟨t, ht, rfl, hmoved⟩ := step_header_asOut hbus hbusy hphase hdst hdec u hu hdecoding.busy
  obtain ⟨v, hreach, hdone, hlast⟩ := hdecoding.restoresInScr (hmoved.2.1.trans hdst) rfl
  obtain ⟨-, hvdst, hv⟩ := hmoved.trans hlast
  have hop : v.str.op = data.length := hdone.parse.eq_length_of_nil
  have hscr : v.scr.readN 0 v.str.op = data.take v.str.op := hdone.output
  have hend := step_of_unitAtEnd (s := v) hdone.bus hdone.busy (.inl ⟨hdone.phase, (hdone.size.trans hop.symm).le⟩)
  rw [unitDone_of_dst (hvdst.trans hdst), hop] at hend
  rw [hop, List.take_length] at hscr
  exact ⟨_, .head ht (hreach.trans (.head hend (.refl _))), hscr, by rw [hv]⟩

end

end Sys2Proof.Machine
end

section
/-! SUPPORT. What `XPCK_OPEN` finds in a packed archive (46_xpck.md R248, R250, R264 to R267): its header, its records and
the members they lead to. -/

namespace Sys2Proof.Machine

/-! ## Parts of what is read -/

/-- A part of the bytes read from address 0 on, read alone. -/
theorem Memory.readN_part {m : Memory} {n : Nat} {pre part post : List Byte}
    (h : m.readN 0 n = pre ++ part ++ post) : m.readN pre.length part.length = part := by
  have hlen := congrArg List.length h
  rw [readN_length, List.length_append, List.length_append] at hlen
  have hall : m.readN 0 n = (pre ++ part ++ post).take n := by
    rw [h, List.take_of_length_le (by rw [List.length_append, List.length_append]; omega)]
  rw [readN_eq_of_readN_zero hall (by omega), List.append_assoc, List.drop_left, List.take_left]

/-! ## Lists that pass the checks -/

/-- The sorted members `ms` make an archive that can be opened: their count is read back from its field, their names are
names of a name table, and every value fits its field. -/
structure Packable (c : Config) (ms : List Member) : Prop where
  count : countDecode c.countDecode (countFieldOf ms.length) = ms.length
  names : ∀ m ∈ ms, m.1 ≠ [] ∧ 0#8 ∉ m.1
  short : ∀ m ∈ ms, m.1.length ≤ 65535
  members : MembersInRange ms
  table : NameTableFits c ms
  header : HeaderLengthOk c
  dataOff : packDataOff c ms / 4 ≤ 0xFFFF

theorem length_name_of_memberFits {m : Member} (h : memberFits m = true) : m.1.length ≤ 65535 := by
  simp only [memberFits, Bool.and_eq_true, decide_eq_true_eq] at h
  omega

/-- A list that passes the checks of R260 and R269 is packable, under `mask12` with at least 16 members (R249). -/
theorem packable_sortByName {c : Config} {ms : List Member} (hw : (Instr.fls ms).wellFormed = true)
    (h : refusedList c ms = none) (hr : rangeFailure c (sortByName ms) = none)
    (hmask : c.countDecode = .mask12 → 16 ≤ ms.length) : Packable c (sortByName ms) := by
  obtain ⟨hpos, hle, hamb, hnames, -⟩ := refusedList_eq_none.1 h
  obtain ⟨hmembers, htable, hheader, hdataOff⟩ := rangeFailure_eq_none.1 hr
  have hmem {m : Member} (hm : m ∈ sortByName ms) : m ∈ ms := (sortByName_perm ms).mem_iff.1 hm
  refine {
    count := ?_, names := fun m hm => hnames m (hmem hm)
    short := fun m hm => length_name_of_memberFits (List.all_eq_true.1 (memberFits_of_wellFormed hw).2 m (hmem hm))
    members := hmembers, table := htable, header := hheader, dataOff := hdataOff }
  rw [sortByName_length]
  cases hmode : c.countDecode with
  | branchAware => exact countDecode_countFieldOf_branchAware hpos hle fun hmem => hamb ⟨hmode, hmem⟩
  | mask12 => exact countDecode_countFieldOf_mask12 (hmask hmode) hle

/-! ## The header (R105, R248) -/

/-- The fields of the header after its magic, as far as `XPCK_OPEN` reads them. -/
def headerFields (c : Config) (ms : List Member) : List Byte :=
  le16 (countFieldOf ms.length) ++ le16 (BitVec.ofNat 16 (packInfoOff c / 4)) ++
    le16 (BitVec.ofNat 16 (packNameOff c ms / 4)) ++ le16 (BitVec.ofNat 16 (packDataOff c ms / 4)) ++
    le16 (BitVec.ofNat 16 (12 * ms.length / 4))

theorem encode_packHeader (c : Config) (ms : List Member) :
    (encode (packHeader c ms)).take 14 = xpckMagicBytes ++ headerFields c ms := rfl

/-- An archive begins with its magic and these fields, whatever header length R105's fields fit in. -/
theorem packArchive_header {c : Config} (h : HeaderLengthOk c) (ms : List Member) :
    ∃ more, packArchive c ms = xpckMagicBytes ++ headerFields c ms ++ more := by
  have hhead := List.take_append_drop 14 ((encode (packHeader c ms)).take c.xpckHdrLen)
  rw [List.take_take, Nat.min_eq_left h.1, encode_packHeader] at hhead
  rw [packArchive, headerBytes, ← hhead]
  simp only [List.append_assoc]
  exact ⟨_, rfl⟩

/-- An offset is read back from its field, which counts 4-byte units (R248). -/
theorem four_mul_ofNat {x : Nat} (hmod : x % 4 = 0) (h : x / 4 ≤ 0xFFFF) :
    4 * (BitVec.ofNat 16 (x / 4)).toNat = x := by
  rw [BitVec.toNat_ofNat]
  omega

section
variable {c : Config} {ms : List Member}

theorem Packable.length_le (h : Packable c ms) : ms.length ≤ 4095 := by
  rw [← h.count]
  exact countDecode_le _ _

theorem Packable.infoOff (h : Packable c ms) : 4 * (BitVec.ofNat 16 (packInfoOff c / 4)).toNat = packInfoOff c := by
  have hle := h.dataOff
  rw [packDataOff, packNameOff] at hle
  exact four_mul_ofNat h.header.2 (by omega)

theorem Packable.nameOff (h : Packable c ms) :
    4 * (BitVec.ofNat 16 (packNameOff c ms / 4)).toNat = packNameOff c ms := by
  have hle := h.dataOff
  rw [packDataOff] at hle
  exact four_mul_ofNat (packNameOff_mod h.header.2) (by omega)

theorem Packable.dataOff_eq (h : Packable c ms) :
    4 * (BitVec.ofNat 16 (packDataOff c ms / 4)).toNat = packDataOff c ms :=
  four_mul_ofNat (packDataOff_mod h.header.2) h.dataOff

end

/-! ## The records (R107, R108, R250) -/

/-- A value of 24 bits is put together again from its low 16 bits and its bits 23..16 (R108). -/
theorem split24_toNat {n : Nat} (h : n ≤ 0xFFFFFF) : (BitVec.ofNat 8 (n / 65536) ++ BitVec.ofNat 16 n).toNat = n := by
  rw [BitVec.toNat_append, Nat.or_comm, shiftLeft_or_eq_add (BitVec.isLt _), BitVec.toNat_ofNat, BitVec.toNat_ofNat]
  omega

/-- The entry of `LUT` a record makes (R250), the data section at `dataOff`. -/
def recordEntry (dataOff : Nat) (r : Word × Instr) : LutEntry :=
  match r.2 with
  | .xpr _ _ offLo sizeLo offHi sizeHi =>
    { key := r.1, addr := recordAddr dataOff offLo offHi, size := recordSize sizeLo sizeHi }
  | _ => { key := r.1, addr := 0, size := 0 }

@[simp] theorem recordEntry_key (dataOff : Nat) (r : Word × Instr) : (recordEntry dataOff r).key = r.1 := by
  unfold recordEntry
  split <;> rfl

section
variable {c : Config} {ms pre post : List Member} {m : Member}

theorem dataSection_append_cons (pre post : List Member) (m : Member) :
    dataSection (pre ++ m :: post) = dataSection pre ++ pad16 m.2 ++ dataSection post := by
  rw [dataSection, List.flatMap_append, List.flatMap_cons, List.append_assoc]
  rfl

/-- A member's offset is the length of the padded data before it. -/
theorem dataSection_mem_dataOffsets (pre post : List Member) (m : Member) (start : Nat) :
    start + (dataSection pre).length ∈ dataOffsets start (pre ++ m :: post) := by
  induction pre generalizing start with
  | nil => exact List.mem_cons_self
  | cons x pre ih =>
    have hrest := ih (start + (pad16 x.2).length)
    rw [dataSection, List.flatMap_cons, List.length_append, ← Nat.add_assoc]
    exact List.mem_cons_of_mem _ hrest

/-- The record of a packed member leads to its padded data. -/
theorem recordEntry_packRecord (h : MembersInRange (pre ++ m :: post)) (dataOff n : Nat) :
    recordEntry dataOff (crc32 c m.1, packRecord c m n (dataSection pre).length) =
      { key := crc32 c m.1, addr := dataOff + (dataSection pre).length, size := (pad16 m.2).length } := by
  have hoff : (dataSection pre).length / 4 ≤ 0xFFFFFF := by
    refine h.offsets _ (List.mem_map_of_mem ?_)
    simpa only [Nat.zero_add] using dataSection_mem_dataOffsets pre post m 0
  have hsize : (pad16 m.2).length ≤ 0xFFFFFF :=
    h.sizes _ (List.mem_map_of_mem (f := fun m : Member => (pad16 m.2).length) (by simp))
  have hmod := dataSection_length_mod pre
  have haddr : (dataSection pre).length / 4 * 4 = (dataSection pre).length := by omega
  simp only [recordEntry, packRecord, recordAddr, recordOff4, recordSize, split24_toNat hoff, split24_toNat hsize, haddr,
    Nat.add_comm]

/-- The bytes before the data of a packed member. -/
theorem packArchive_split (c : Config) (pre post : List Member) (m : Member) :
    ∃ before after, packArchive c (pre ++ m :: post) = before ++ pad16 m.2 ++ after ∧
      before.length = packDataOff c (pre ++ m :: post) + (dataSection pre).length := by
  refine ⟨archiveFront c (pre ++ m :: post) ++ dataSection pre, dataSection post, ?_, ?_⟩
  · rw [packArchive_eq, dataSection_append_cons]
    simp only [List.append_assoc]
  · rw [List.length_append, archiveFront_length]

end

/-! ## The lookup table (R42, R250) -/

/-- The lookup table after these entries were inserted one after the other. -/
def lutOf (es : List LutEntry) : List LutEntry := es.foldl (fun lut e => lutInsert e lut) []

theorem lutOf_concat (es : List LutEntry) (e : LutEntry) : lutOf (es ++ [e]) = lutInsert e (lutOf es) :=
  List.foldl_concat ..

/-- A key leads to the last entry that was inserted under it. -/
theorem lutFind_lutOf (k : Word) (es : List LutEntry) :
    lutFind k (lutOf es) = (es.filter fun e => decide (e.key = k)).getLast? := by
  induction es using List.reverseRecOn with
  | nil => rfl
  | append_singleton es e ih =>
    rw [lutOf_concat, lutFind_lutInsert, List.filter_append]
    by_cases hk : k = e.key
    · simp [hk]
    · rw [if_neg hk, ih, List.filter_cons_of_neg (by simpa using Ne.symm hk), List.filter_nil, List.append_nil]

/-- What opening the archive of `ms` gives for the key `k`: the padded data of the last member whose name has it. -/
def dataOfKey (c : Config) (ms : List Member) (k : Word) : List Byte :=
  ((ms.filter fun x => decide (crc32 c x.1 = k)).map fun x => pad16 x.2).getLastD []

section
variable {c : Config} {ms : List Member} {inp : Memory} {n : Nat}

/-- The bytes of `IN` an entry stands for. -/
def entryData (inp : Memory) (e : LutEntry) : List Byte := inp.readN e.addr e.size

/-- The records of an archive in `IN` lead to the members' padded data, in name order. -/
theorem entryData_keyedRecords (h : MembersInRange ms) (hin : inp.readN 0 n = packArchive c ms) {pre suf : List Member}
    (hms : ms = pre ++ suf) (noff : Nat) :
    (keyedRecords c suf noff (dataSection pre).length).map
        (fun r => (r.1, entryData inp (recordEntry (packDataOff c ms) r))) =
      suf.map fun m => (crc32 c m.1, pad16 m.2) := by
  induction suf generalizing pre noff with
  | nil => rfl
  | cons m suf ih =>
    have hms' : ms = (pre ++ [m]) ++ suf := by rw [hms, List.append_assoc]; rfl
    have hrest := ih hms' (noff + m.1.length + 1)
    have hnext : (dataSection (pre ++ [m])).length = (dataSection pre).length + (pad16 m.2).length := by
      rw [dataSection_append_cons pre [] m, List.length_append, List.length_append]
      rfl
    rw [hnext] at hrest
    obtain ⟨before, after, harch, hbefore⟩ := packArchive_split c pre suf m
    have hdata : inp.readN (packDataOff c ms + (dataSection pre).length) (pad16 m.2).length = pad16 m.2 := by
      rw [hms, ← hbefore]
      exact Memory.readN_part ((hms ▸ hin).trans harch)
    rw [keyedRecords, List.map_cons, List.map_cons, hrest, recordEntry_packRecord (hms ▸ h), entryData, hdata]

/-- The records in key order with one key are those in name order with it. -/
theorem lutFind_records (k : Word) (dataOff : Nat) :
    lutFind k (lutOf ((recordsByKey c ms).map (recordEntry dataOff))) =
      (((keyedRecords c ms 0 0).filter fun r => decide (r.1 = k)).map (recordEntry dataOff)).getLast? := by
  rw [lutFind_lutOf, List.filter_map]
  simp only [Function.comp_def, recordEntry_key]
  rw [recordsByKey_filter]

/-- The records with one key lead to the padded data of the members with it. -/
theorem entryData_of_key (h : MembersInRange ms) (hin : inp.readN 0 n = packArchive c ms) (k : Word) :
    ((keyedRecords c ms 0 0).filter fun r => decide (r.1 = k)).map
        (fun r => entryData inp (recordEntry (packDataOff c ms) r)) =
      (ms.filter fun x => decide (crc32 c x.1 = k)).map fun x => pad16 x.2 := by
  have hkeyed : (keyedRecords c ms 0 0).map (fun r => (r.1, entryData inp (recordEntry (packDataOff c ms) r))) = _ :=
    entryData_keyedRecords h hin (pre := []) rfl 0
  have hfilter := congrArg (fun rs => (rs.filter fun x => decide (x.1 = k)).map Prod.snd) hkeyed
  simpa only [List.filter_map, List.map_map, Function.comp_def] using hfilter

/-- The name of every member leads to an entry, and that to the data of the last member with its key. -/
theorem lutFind_member (h : MembersInRange ms) (hin : inp.readN 0 n = packArchive c ms) {m : Member} (hm : m ∈ ms) :
    ∃ e, lutFind (crc32 c m.1) (lutOf ((recordsByKey c ms).map (recordEntry (packDataOff c ms)))) = some e ∧
      inp.readN e.addr e.size = dataOfKey c ms (crc32 c m.1) := by
  have hdata := entryData_of_key h hin (crc32 c m.1)
  have hmem : m ∈ ms.filter fun x => decide (crc32 c x.1 = crc32 c m.1) := List.mem_filter.2 ⟨hm, decide_eq_true rfl⟩
  rw [lutFind_records, dataOfKey, List.getLastD_eq_getLast?, ← hdata, List.getLast?_map, List.getLast?_map]
  cases hkey : ((keyedRecords c ms 0 0).filter fun r => decide (r.1 = crc32 c m.1)).getLast? with
  | some r => exact ⟨_, rfl, rfl⟩
  | none =>
    rw [List.getLast?_eq_none_iff.1 hkey] at hdata
    exact absurd (List.map_eq_nil_iff.1 hdata.symm) (List.ne_nil_of_mem hmem)

end

end Sys2Proof.Machine
end

section
/-! SUPPORT. The round trip of `XPCK_PACK` and `XPCK_OPEN` (46_xpck.md R270): the run of `XPCK_OPEN` over a packed archive,
control point by control point. -/

namespace Sys2Proof.Machine

/-- `XPCK_OPEN` runs under `c` on the archive of the sorted members `ms`, with no failure and no report so far. -/
structure Opening (c : Config) (ms : List Member) (s : State) : Prop where
  cfg : s.cfg = c
  packable : Packable s.cfg ms
  bus : s.bus = []
  busy : s.host.busy = true
  err : s.host.err = false
  rptFlag : s.host.rptFlag = false
  rptCnt : s.host.rptCnt = 0#32
  cap : s.host.inLen.toNat ≤ s.cfg.inCap.toNat
  archive : s.inp.readN 0 s.host.inLen.toNat = packArchive s.cfg ms

/-- Between two records, or before the first or after the last one: those of `done` are in `LUT`, those of `rest` are
read next. -/
structure OpeningRecords (c : Config) (ms : List Member) (done rest : List (Word × Instr)) (s : State) : Prop
    extends Opening c ms s where
  phase : s.phase = .records
  found : s.found = []
  limit : s.str.limit = s.host.inLen.toNat
  split : recordsByKey s.cfg ms = done ++ rest
  cnt : s.xp.cnt = ms.length
  infoOff : s.xp.infoOff = packInfoOff s.cfg
  nameOff : s.xp.nameOff = packNameOff s.cfg ms
  dataOff : s.xp.dataOff = packDataOff s.cfg ms
  recIdx : s.xp.recIdx = done.length
  lut : s.lut = lutOf (done.map (recordEntry (packDataOff s.cfg ms)))

/-- What opening the archive of `ms` gives for the member `m`. -/
def openedMember (c : Config) (ms : List Member) (m : Member) : Member := (m.1, dataOfKey c ms (crc32 c m.1))

/-- Between two names, or before the first or after the last one: those of `done` are in the result, those of `rest` are
looked up next. -/
structure OpeningNames (c : Config) (ms done rest : List Member) (s : State) : Prop extends Opening c ms s where
  phase : s.phase = .lookup (nameTable done).length
  split : ms = done ++ rest
  ntLen : s.xp.ntLen = (nameTable ms).length
  names : s.scr.readN 0 (nameTable ms).length = nameTable ms
  lut : s.lut = lutOf ((recordsByKey s.cfg ms).map (recordEntry (packDataOff s.cfg ms)))
  result : resultMembers s = done.map (openedMember s.cfg ms)
  lengths : ∀ f ∈ s.found, f.len ≤ 65535

section
variable {c : Config} {ms : List Member} {s : State}

/-! ## The magic, the header and the count field (R247 to R249) -/

theorem Opening.inLen (h : Opening c ms s) : s.host.inLen.toNat = (packArchive s.cfg ms).length := by
  rw [← h.archive, Memory.readN_length]

/-- The magic and the header's fields as they are read. -/
theorem Opening.readHeader (h : Opening c ms s) :
    14 ≤ s.host.inLen.toNat ∧ s.inp.readN 0 4 = xpckMagicBytes ∧ s.inp.readN 4 10 = headerFields s.cfg ms ∧
      s.inp.readN 4 2 = le16 (countFieldOf ms.length) := by
  obtain ⟨more, hmore⟩ := packArchive_header h.packable.header ms
  have hread := h.archive.trans hmore
  have hlen := congrArg List.length hread
  rw [Memory.readN_length, List.length_append] at hlen
  have hfields : s.inp.readN 4 10 = headerFields s.cfg ms := Memory.readN_part hread
  refine ⟨hlen ▸ Nat.le_add_right _ _, ?_, hfields, ?_⟩
  · rw [List.append_assoc] at hread
    exact Memory.readN_part (pre := []) hread
  · rw [← Memory.take_readN s.inp 4 (show 2 ≤ 10 by decide), hfields]
    rfl

theorem Opening.step_magic (h : Opening c ms s) (hp : s.phase = .xpckMagic) :
    step s = .next { s with str := { s.str with ip := 4 }, phase := .xph } := by
  obtain ⟨hlen, hmagic, -⟩ := h.readHeader
  have hdec : decode .xpckMagic (s.inp.readN 0 4) = .ok (.xpckMagic, []) := by
    rw [hmagic]
    exact decodeOfEncodeIsTheInstruction .big .xpckMagic [] rfl
  have hfetch : fetchAt .xpckMagic s = .run .xpckMagic s := fetchXpckMagic_run (by omega) h.cap hdec
  rw [step_eq_fetchAt h.bus h.busy hp, hfetch]
  rfl

/-- The archive registers as the header sets them (R248). -/
def headerRegs (c : Config) (ms : List Member) (x : XpckRegs) : XpckRegs :=
  { x with
    cnt := ms.length, infoOff := packInfoOff c, nameOff := packNameOff c ms, dataOff := packDataOff c ms
    f4 := 4 * (BitVec.ofNat 16 (12 * ms.length / 4)).toNat }

/-- The archive's header, as far as `XPCK_OPEN` reads it. -/
def openHeader (c : Config) (ms : List Member) : Instr :=
  .xph (countFieldOf ms.length) (BitVec.ofNat 16 (packInfoOff c / 4)) (BitVec.ofNat 16 (packNameOff c ms / 4))
    (BitVec.ofNat 16 (packDataOff c ms / 4)) (BitVec.ofNat 16 (12 * ms.length / 4)) 0#16 0#32

theorem decode_openHeader (c : Config) (ms : List Member) :
    decode .xphOpen (xpckMagicBytes ++ headerFields c ms) = .ok (openHeader c ms, []) :=
  decode_xphOpen_fields [] _ _ _ _ _

theorem exec_openHeader (h : Packable s.cfg ms) :
    exec (openHeader s.cfg ms) s =
      .next (advanceIp 10 { s with xp := headerRegs s.cfg ms s.xp, phase := .countField }) := by
  have hexec : exec (openHeader s.cfg ms) s = execXph _ _ _ _ _ 0#16 0#32 s := rfl
  rw [hexec, execXph, h.count, h.infoOff, h.nameOff, h.dataOff_eq]
  rfl

theorem Opening.step_header (h : Opening c ms s) (hp : s.phase = .xph) (hip : s.str.ip = 4)
    (hlimit : s.str.limit = s.host.inLen.toNat) :
    step s = .next (advanceIp 10 { s with xp := headerRegs s.cfg ms s.xp, phase := .countField }) := by
  obtain ⟨hlen, hmagic, hfields, -⟩ := h.readHeader
  have hfetch : CanFetch 10 s := ⟨by omega, hlimit.le.trans h.cap⟩
  have hdec : decode .xphOpen (s.inp.readN 0 4 ++ s.inp.readN s.str.ip 10) = .ok (openHeader s.cfg ms, []) := by
    rw [hip, hmagic, hfields, decode_openHeader]
  have hrun : fetchAt .xph s = .run (openHeader s.cfg ms) s := peek_runDecoded (s.inp.readN 0 4 ++ ·) hfetch hdec
  rw [step_eq_fetchAt h.bus h.busy hp, hrun]
  exact exec_openHeader h.packable

theorem Opening.step_count (h : Opening c ms s) (hp : s.phase = .countField) :
    step s = .next { s with xp := { s.xp with cnt := ms.length, recIdx := 0 }, lut := [], phase := .records } := by
  obtain ⟨-, -, -, hcount⟩ := h.readHeader
  have hdec : decode .countField (s.inp.readN 4 2) =
      .ok (.countField ((countFieldOf ms.length).extractLsb' 0 8) ((countFieldOf ms.length).extractLsb' 8 8), []) := by
    rw [hcount]
    rfl
  have hrun := fetchCountField_run (s := s) hdec
  rw [step_eq_fetchAt h.bus h.busy hp, show fetchAt .countField s = _ from hrun]
  show execCountField _ _ s = _
  rw [execCountField, u16le_le16, h.packable.count]

/-- From the magic to the first record. -/
theorem Opening.reaches_records (h : Opening c ms s) (hp : s.phase = .xpckMagic) (hfound : s.found = [])
    (hlimit : s.str.limit = s.host.inLen.toNat) :
    ∃ t, Reaches s t ∧ OpeningRecords c ms [] (recordsByKey t.cfg ms) t := by
  have hmagic : Opening c ms { s with str := { s.str with ip := 4 }, phase := .xph } := { h with }
  have hheader : Opening c ms (advanceIp 10 { s with
      str := { s.str with ip := 4 }, xp := headerRegs s.cfg ms s.xp, phase := .countField }) := { h with }
  refine ⟨_, .head (h.step_magic hp) (.head (hmagic.step_header rfl rfl hlimit) (.head (hheader.step_count rfl)
    (.refl _))), ?_⟩
  exact {
    h with
    phase := rfl, found := hfound, limit := hlimit, split := rfl, cnt := rfl, infoOff := rfl, nameOff := rfl
    dataOff := rfl, recIdx := rfl, lut := rfl }

/-! ## The records (R250) -/

theorem length_recordBytes_of_subset {rs : List (Word × Instr)} (h : ∀ r ∈ rs, r ∈ recordsByKey c ms) :
    (recordBytes rs).length = 12 * rs.length :=
  length_flatMap_of_forall fun r hr => length_encode_record (h r hr)

section
variable {done rest : List (Word × Instr)} {r : Word × Instr}

/-- The records left lie before the end of the input, and the first of them is read where `REC` says. -/
theorem OpeningRecords.readRecord (h : OpeningRecords c ms done (r :: rest) s) :
    s.xp.infoOff + 12 * s.xp.recIdx + 12 ≤ s.str.limit ∧
      s.inp.readN (s.xp.infoOff + 12 * s.xp.recIdx) 12 = encode r.2 := by
  have hmem {x : Word × Instr} (hx : x ∈ done ++ r :: rest) : x ∈ recordsByKey s.cfg ms := h.split ▸ hx
  have hr : (encode r.2).length = 12 := length_encode_record (hmem (by simp))
  have hdone := length_recordBytes_of_subset fun x hx => hmem (List.mem_append_left _ hx)
  have harch : packArchive s.cfg ms = (headerBytes s.cfg ms ++ recordBytes done) ++ encode r.2 ++
      (recordBytes rest ++ nameBlob ms ++ dataSection ms) := by
    rw [packArchive_eq, archiveFront, h.split]
    simp only [recordBytes, List.flatMap_append, List.flatMap_cons, List.append_assoc]
  have hpre : (headerBytes s.cfg ms ++ recordBytes done).length = s.xp.infoOff + 12 * s.xp.recIdx := by
    rw [List.length_append, headerBytes_length, hdone, h.infoOff, h.recIdx, packInfoOff]
  have hlen := congrArg List.length harch
  have hread := Memory.readN_part (h.archive.trans harch)
  rw [List.length_append, List.length_append, hpre, hr] at hlen
  rw [hpre, hr] at hread
  exact ⟨by rw [h.limit, h.inLen]; omega, hread⟩

/-- The data a record leads to lies inside the input. -/
theorem OpeningRecords.entry_inside (h : OpeningRecords c ms done (r :: rest) s) :
    (recordEntry s.xp.dataOff r).addr + (recordEntry s.xp.dataOff r).size ≤ s.host.inLen.toNat := by
  have hmem : r ∈ recordsByKey s.cfg ms := h.split ▸ List.mem_append_right _ List.mem_cons_self
  obtain ⟨pre, m, post, n, hms, rfl⟩ := mem_recordsByKey hmem
  rw [recordEntry_packRecord (hms ▸ h.packable.members), h.inLen, packArchive_length, h.dataOff, hms,
    dataSection_append_cons, List.length_append, List.length_append]
  show packDataOff _ _ + _ + (pad16 m.2).length ≤ _
  omega

/-- A record of an archive, executed where its data lies inside the input. -/
theorem exec_record (hr : r ∈ recordsByKey c ms)
    (h : (recordEntry s.xp.dataOff r).addr + (recordEntry s.xp.dataOff r).size ≤ s.host.inLen.toNat) :
    exec r.2 s = .next { advanceIp 12 s with
      lut := lutInsert (recordEntry s.xp.dataOff r) s.lut
      xp := { s.xp with recIdx := s.xp.recIdx + 1 }
      phase := .records } := by
  obtain ⟨pre, m, post, n, -, rfl⟩ := mem_recordsByKey hr
  exact exec_xpr_inside h

theorem OpeningRecords.step (h : OpeningRecords c ms done (r :: rest) s) :
    ∃ t, Machine.step s = .next t ∧ OpeningRecords c ms (done ++ [r]) rest t := by
  have hmem : r ∈ recordsByKey s.cfg ms := h.split ▸ List.mem_append_right _ List.mem_cons_self
  obtain ⟨hend, hread⟩ := h.readRecord
  have hrec : s.xp.recIdx < s.xp.cnt := by
    rw [h.recIdx, h.cnt, ← recordsByKey_length s.cfg ms, h.split, List.length_append, List.length_cons]
    omega
  have hdec : decode .xpr (s.inp.readN (s.xp.infoOff + 12 * s.xp.recIdx) 12) = .ok (r.2, []) := by
    obtain ⟨pre, m, post, n, -, rfl⟩ := mem_recordsByKey hmem
    rw [hread]
    exact decodeOfEncodeIsTheInstruction .big (packRecord s.cfg m n (dataSection pre).length) [] rfl
  have hlut : lutInsert (recordEntry s.xp.dataOff r) s.lut =
      lutOf ((done ++ [r]).map (recordEntry (packDataOff s.cfg ms))) := by
    rw [List.map_append, List.map_singleton, lutOf_concat, h.dataOff, h.lut]
  have hrun := fetchRecord_run (rest := []) hrec rfl ⟨hend, h.limit.le.trans h.cap⟩ hdec
  have hstep : Machine.step s = exec r.2 { s with str := { s.str with ip := s.xp.infoOff + 12 * s.xp.recIdx } } := by
    rw [step_eq_fetchAt h.bus h.busy h.phase, show fetchAt .records s = _ from hrun]
    rfl
  refine ⟨_, hstep.trans (exec_record hmem h.entry_inside), ?_⟩
  exact {
    h with
    phase := rfl
    split := by rw [List.append_assoc]; exact h.split
    recIdx := by rw [List.length_append]; exact congrArg (· + 1) h.recIdx
    lut := hlut }

end

end

end Sys2Proof.Machine
end

section
/-! SUPPORT. The round trip of `XPCK_PACK` and `XPCK_OPEN` (46_xpck.md R270): the loops over the records and the names,
and the result. -/

namespace Sys2Proof.Machine

section
variable {c : Config} {ms : List Member} {s : State}

/-! ## The record loop (R250) -/

theorem OpeningRecords.reaches_last {done rest : List (Word × Instr)} (h : OpeningRecords c ms done rest s) :
    ∃ t, Reaches s t ∧ OpeningRecords c ms (recordsByKey t.cfg ms) [] t := by
  induction rest generalizing done s with
  | nil =>
    have hall : recordsByKey s.cfg ms = done := h.split.trans (List.append_nil done)
    exact ⟨s, .refl s, hall ▸ h⟩
  | cons r rest ih =>
    obtain ⟨t, ht, hnext⟩ := h.step
    obtain ⟨u, hu, hlast⟩ := ih hnext
    exact ⟨u, .head ht hu, hlast⟩

/-! ## The name table (R251) -/

/-- The name section of the archive, read alone. -/
theorem Opening.readNameBlob (h : Opening c ms s) :
    s.inp.readN (packNameOff s.cfg ms) (packDataOff s.cfg ms - packNameOff s.cfg ms) = nameBlob ms := by
  have harch : packArchive s.cfg ms =
      (headerBytes s.cfg ms ++ recordBytes (recordsByKey s.cfg ms)) ++ nameBlob ms ++ dataSection ms :=
    packArchive_eq s.cfg ms
  have hpre : (headerBytes s.cfg ms ++ recordBytes (recordsByKey s.cfg ms)).length = packNameOff s.cfg ms := by
    rw [List.length_append, headerBytes_length, recordBytes_length]
    rfl
  rw [packDataOff, Nat.add_sub_cancel_left, ← hpre]
  exact Memory.readN_part (h.archive.trans harch)

theorem Opening.dataOff_le (h : Opening c ms s) : packDataOff s.cfg ms ≤ s.host.inLen.toNat := by
  rw [h.inLen, packArchive_length]
  exact Nat.le_add_right _ _

/-- After the last record the name table is restored into `SCR`, and its first name is looked up next. -/
theorem OpeningRecords.reaches_names (h : OpeningRecords c ms (recordsByKey s.cfg ms) [] s) :
    ∃ t, Reaches s t ∧ OpeningNames c ms [] ms t := by
  have hcount : s.xp.cnt ≤ s.xp.recIdx := by rw [h.cnt, h.recIdx, recordsByKey_length]
  have hstep := step_of_recordsDone h.bus h.busy h.phase hcount
  have horder : s.xp.nameOff ≤ s.xp.dataOff := by
    rw [h.nameOff, h.dataOff]
    exact Nat.le_add_right _ _
  have hend : s.xp.dataOff ≤ s.host.inLen.toNat := h.dataOff ▸ h.dataOff_le
  rw [readNames_enters horder hend] at hstep
  obtain ⟨pad, -, hblob⟩ := nameBlob_eq ms
  have hinput : s.inp.readN s.xp.nameOff (s.xp.dataOff - s.xp.nameOff) =
      lzStream (nameTable ms) ++ List.replicate pad 0#8 := by
    rw [h.nameOff, h.dataOff, h.readNameBlob, hblob]
  obtain ⟨hsize, hscr⟩ := h.packable.table
  obtain ⟨t, hreach, hnames, ht⟩ := nameTable_restored (s := { s with
      str := { s.str with ip := s.xp.nameOff, base := s.xp.nameOff, limit := s.xp.dataOff, dst := true }
      phase := .header }) h.bus h.busy h.err rfl rfl rfl (hend.trans h.cap) hsize hscr hinput
  refine ⟨t, .head hstep hreach, ?_⟩
  rw [ht]
  exact {
    h with
    phase := rfl, split := rfl, ntLen := rfl, names := hnames, lut := h.lut
    result := congrArg (List.map _) h.found
    lengths := h.found ▸ List.forall_mem_nil _ }

/-! ## The name loop (R252) -/

theorem nameTable_append (pre post : List Member) : nameTable (pre ++ post) = nameTable pre ++ nameTable post :=
  List.flatMap_append

theorem nameTable_cons (m : Member) (rest : List Member) : nameTable (m :: rest) = m.1 ++ 0#8 :: nameTable rest := by
  rw [nameTable, List.flatMap_cons, List.append_assoc]
  rfl

section
variable {done rest : List Member} {m : Member}

/-- The rest of the name table begins with the name that is next. -/
theorem OpeningNames.readNames (h : OpeningNames c ms done (m :: rest) s) :
    s.scr.readN (nameTable done).length (s.xp.ntLen - (nameTable done).length) = m.1 ++ 0#8 :: nameTable rest := by
  have htable : nameTable ms = nameTable done ++ nameTable (m :: rest) ++ [] := by
    rw [List.append_nil, ← nameTable_append, ← h.split]
  have hlen : s.xp.ntLen - (nameTable done).length = (nameTable (m :: rest)).length := by
    rw [h.ntLen, htable, List.append_nil, List.length_append, Nat.add_sub_cancel_left]
  rw [hlen, Memory.readN_part (h.names.trans htable), nameTable_cons]

theorem OpeningNames.mem (h : OpeningNames c ms done (m :: rest) s) : m ∈ ms :=
  h.split ▸ List.mem_append_right done List.mem_cons_self

theorem OpeningNames.nameAt_eq (h : OpeningNames c ms done (m :: rest) s) :
    nameAt (nameTable done).length s = m.1 := by
  rw [nameAt, h.readNames, nameLength_append (h.packable.names m h.mem).2, List.take_left]

/-- The name that is next lies inside the table, and is read alone too. -/
theorem OpeningNames.readName (h : OpeningNames c ms done (m :: rest) s) :
    (nameTable done).length < s.xp.ntLen ∧ s.scr.readN (nameTable done).length m.1.length = m.1 := by
  have hread := h.readNames
  have hlen := congrArg List.length hread
  rw [Memory.readN_length, List.length_append, List.length_cons] at hlen
  refine ⟨by omega, ?_⟩
  rw [← Memory.take_readN _ _ (show m.1.length ≤ s.xp.ntLen - (nameTable done).length by omega), hread, List.take_left]

/-- The next name is found, and appended to the result with the data its key leads to. -/
theorem OpeningNames.step (h : OpeningNames c ms done (m :: rest) s) :
    ∃ t, Machine.step s = .next t ∧ OpeningNames c ms (done ++ [m]) rest t := by
  obtain ⟨hlt, hname⟩ := h.readName
  obtain ⟨e, hfind, hdata⟩ := lutFind_member h.packable.members h.archive h.mem
  have hne : nameAt (nameTable done).length s ≠ [] := h.nameAt_eq ▸ (h.packable.names m h.mem).1
  have hstep := step_lookup h.bus h.busy h.phase hlt
  rw [← h.lut] at hfind
  rw [lookupName_nonempty hne, h.nameAt_eq, hfind, lookupAnswer] at hstep
  have hphase : (nameTable done).length + m.1.length + 1 = (nameTable (done ++ [m])).length := by
    rw [nameTable_append, List.length_append, nameTable_cons, List.length_append]
    rfl
  have hresult : (s.found ++ [Found.mk (nameTable done).length m.1.length e.addr e.size]).map (foundMember s) =
      (done ++ [m]).map (openedMember s.cfg ms) := by
    rw [List.map_append, List.map_append, ← h.result, List.map_singleton, List.map_singleton, foundMember, hname, hdata]
    rfl
  refine ⟨_, hstep, ?_⟩
  exact {
    h with
    phase := congrArg Phase.lookup hphase
    split := by rw [List.append_assoc]; exact h.split
    result := hresult
    lengths := List.forall_mem_append.2 ⟨h.lengths, List.forall_mem_singleton.2 (h.packable.short m h.mem)⟩ }

end

theorem OpeningNames.reaches_last {done rest : List Member} (h : OpeningNames c ms done rest s) :
    ∃ t, Reaches s t ∧ OpeningNames c ms ms [] t := by
  induction rest generalizing done s with
  | nil =>
    have hall : ms = done := h.split.trans (List.append_nil done)
    exact ⟨s, .refl s, by rw [← hall] at h; exact h⟩
  | cons m rest ih =>
    obtain ⟨t, ht, hnext⟩ := h.step
    obtain ⟨u, hu, hlast⟩ := ih hnext
    exact ⟨u, .head ht hu, hlast⟩

/-! ## The result (R254) -/

/-- `XPCK_OPEN` has ended with no failure and no report, and the file list of `members` is its output. -/
structure Opened (members : List Member) (t : State) : Prop where
  status : statusWord t.host = 0b0010#32
  rptCnt : t.host.rptCnt = 0#32
  res0 : t.host.res0.toNat = members.length
  outLen : t.host.outLen.toNat = (fileListBytes members).length
  output : t.out.readN 0 t.host.outLen.toNat = fileListBytes members

theorem OpeningNames.step_result (h : OpeningNames c ms ms [] s)
    (hroom : (fileListBytes (ms.map (openedMember s.cfg ms))).length ≤ s.cfg.outCap.toNat) :
    ∃ t, Machine.step s = .next t ∧ Opened (ms.map (openedMember s.cfg ms)) t := by
  have hstep := step_lookup_done h.bus h.busy h.phase h.ntLen.le h.cap
  rw [longName_eq_none h.lengths, h.result, resultAnswer_fits hroom] at hstep
  have hfound : s.found.length = (ms.map (openedMember s.cfg ms)).length := by
    rw [← h.result, resultMembers, List.length_map]
  have hcount : s.found.length < 2 ^ 32 := by
    have hle := h.packable.length_le
    rw [hfound, List.length_map]
    omega
  have hlen := Nat.mod_eq_of_lt (hroom.trans_lt s.cfg.outCap.isLt)
  refine ⟨_, hstep, {
    status := statusWord_endCommand h.err h.rptFlag, rptCnt := h.rptCnt
    res0 := ?count, outLen := ?outLen, output := ?output }⟩
  case count =>
    exact (BitVec.toNat_ofNat _ _).trans ((Nat.mod_eq_of_lt hcount).trans hfound)
  case outLen => exact (BitVec.toNat_ofNat _ _).trans hlen
  case output =>
    rw [endCommand_host_outLen, BitVec.toNat_ofNat, hlen]
    exact Memory.readN_writeN_same _ 0 _

/-- The whole run of `XPCK_OPEN` over a packed archive. -/
theorem Opening.opens (h : Opening c ms s) (hp : s.phase = .xpckMagic) (hfound : s.found = [])
    (hlimit : s.str.limit = s.host.inLen.toNat)
    (hroom : (fileListBytes (ms.map (openedMember s.cfg ms))).length ≤ s.cfg.outCap.toNat) :
    ∃ t, Reaches s t ∧ Opened (ms.map (openedMember s.cfg ms)) t := by
  obtain ⟨t, hst, ht⟩ := h.reaches_records hp hfound hlimit
  obtain ⟨u, htu, hu⟩ := ht.reaches_last
  obtain ⟨v, huv, hv⟩ := hu.reaches_names
  obtain ⟨w, hvw, hw⟩ := hv.reaches_last
  rw [h.cfg, ← hw.cfg] at hroom ⊢
  obtain ⟨x, hstep, hx⟩ := hw.step_result hroom
  exact ⟨x, hst.trans (htu.trans (huv.trans (hvw.trans (.head hstep (.refl x))))), hx⟩

end

end Sys2Proof.Machine
end

section
/-! SUPPORT. The round trip of `XPCK_PACK` and `XPCK_OPEN` (46_xpck.md R270): the two commands from the write of `CMD` on,
and the members when no two names share a key. -/

namespace Sys2Proof.Machine

/-! ## XPCK_PACK (R260, R267) -/

/-- The write of `CMD` begins `XPCK_PACK` at the file list. -/
theorem step_withCommand_xpckPack {s : State} (hready : Ready s) :
    step (withCommand 10#32 s) = .next { prologue { s with bus := [] } with phase := .fls } :=
  (stepRunsTheDecodedInstruction.1 (withCommand 10#32 s) 10#32 [] .xpckPack rfl rfl).trans
    (exec_of_ready (s := { s with bus := [] }) hready rfl (by decide))

/-- `XPCK_PACK` of an accepted list whose archive fits. -/
theorem packs_accepted {s : State} {ms : List Member} (hready : Ready s) (hw : (Instr.fls ms).wellFormed = true)
    (h : refusedList s.cfg ms = none) (hr : rangeFailure s.cfg (sortByName ms) = none)
    (hin : s.inp.readN 0 s.host.inLen.toNat = fileListBytes ms)
    (hfit : (packArchive s.cfg (sortByName ms)).length ≤ s.cfg.outCap.toNat) :
    ∃ t, Reaches (withCommand 10#32 s) t ∧ statusWord t.host = 0b0010#32 ∧
      t.host.outLen.toNat = (packArchive s.cfg (sortByName ms)).length ∧
      t.out.readN 0 (packArchive s.cfg (sortByName ms)).length = packArchive s.cfg (sortByName ms) := by
  let u : State := { prologue { s with bus := [] } with phase := .fls }
  have hdec : decode .fls (s.inp.readN 0 s.host.inLen.toNat) = .ok (.fls ms, []) := by
    rw [hin, ← decode_fls_fileListBytes [] hw, List.append_nil]
  have hrun : fetchAt .fls u = _ := fetchFls_run hready.2 hdec
  have hfls := step_eq_fetchAt (s := u) rfl rfl rfl
  rw [hrun] at hfls
  have hpack := hfls.trans (exec_fls_packs (s := { u with str := { u.str with ip := u.host.inLen.toNat } }) h hr hfit)
  refine ⟨_, .head (step_withCommand_xpckPack hready) (.head hpack (.head (step_of_unitAtEnd rfl rfl ?_) (.refl _))), ?_⟩
  · exact .inr (.inr (.inr rfl))
  rw [unitDone_of_not_dst rfl]
  have hlen := Nat.mod_eq_of_lt (hfit.trans_lt s.cfg.outCap.isLt)
  exact ⟨statusWord_endCommand rfl rfl, (BitVec.toNat_ofNat _ _).trans hlen, Memory.readN_writeN_same _ 0 _⟩

/-! ## XPCK_OPEN (R247) -/

/-- The write of `CMD` begins `XPCK_OPEN` at the magic. -/
theorem step_withCommand_xpckOpen {s : State} (hready : Ready s) :
    step (withCommand 9#32 s) = .next { prologue { s with bus := [] } with phase := .xpckMagic } :=
  (stepRunsTheDecodedInstruction.1 (withCommand 9#32 s) 9#32 [] .xpckOpen rfl rfl).trans
    (exec_of_ready (s := { s with bus := [] }) hready rfl (by decide))

/-- `XPCK_OPEN` of a packed archive whose members' file list fits. -/
theorem opens_packed {s : State} {ms : List Member} (hready : Ready s) (hpack : Packable s.cfg ms)
    (hin : s.inp.readN 0 s.host.inLen.toNat = packArchive s.cfg ms)
    (hroom : (fileListBytes (ms.map (openedMember s.cfg ms))).length ≤ s.cfg.outCap.toNat) :
    ∃ t, Reaches (withCommand 9#32 s) t ∧ Opened (ms.map (openedMember s.cfg ms)) t := by
  let u : State := { prologue { s with bus := [] } with phase := .xpckMagic }
  have hopening : Opening s.cfg ms u := {
    cfg := rfl, packable := hpack, bus := rfl, busy := rfl, err := rfl, rptFlag := rfl, rptCnt := rfl
    cap := hready.2, archive := hin }
  obtain ⟨t, hreach, ht⟩ := hopening.opens rfl rfl rfl hroom
  exact ⟨t, .head (step_withCommand_xpckOpen hready) hreach, ht⟩

/-! ## Names with pairwise distinct keys -/

/-- Where the values of `f` are pairwise distinct, an element is the only one with its value. -/
theorem filter_eq_singleton {α β : Type} [DecidableEq β] {f : α → β} {xs : List α} {a : α} (h : (xs.map f).Nodup)
    (ha : a ∈ xs) : (xs.filter fun x => decide (f x = f a)) = [a] := by
  obtain ⟨pre, post, rfl⟩ := List.append_of_mem ha
  rw [List.map_append, List.map_cons, List.nodup_middle, List.nodup_cons, ← List.map_append] at h
  have hother {x : α} (hx : x ∈ pre ++ post) : f x ≠ f a := fun heq => h.1 (heq ▸ List.mem_map_of_mem hx)
  have hnone {ys : List α} (hys : ys ⊆ pre ++ post) : (ys.filter fun x => decide (f x = f a)) = [] :=
    List.filter_eq_nil_iff.2 fun x hx => by simpa using hother (hys hx)
  rw [List.filter_append, List.filter_cons_of_pos (by simp), hnone (List.subset_append_left _ _),
    hnone (List.subset_append_right _ _), List.nil_append]

/-- With pairwise distinct keys each member has its own padded data. -/
theorem openedMember_of_nodup {c : Config} {ms : List Member} (h : (ms.map fun m => crc32 c m.1).Nodup) {m : Member}
    (hm : m ∈ ms) : openedMember c ms m = (m.1, pad16 m.2) := by
  rw [openedMember, dataOfKey, filter_eq_singleton h hm]
  rfl

/-! ## Padded data (R9) -/

/-- Padded data is the data, then fewer than 16 zero bytes up to a multiple of 16. -/
theorem pad16_restores (d : List Byte) :
    (pad16 d).take d.length = d ∧ (pad16 d).length % 16 = 0 ∧ (pad16 d).length < d.length + 16 ∧
      ∀ b ∈ (pad16 d).drop d.length, b = 0#8 := by
  obtain ⟨k, hk, hpad⟩ := pad16_eq d
  refine ⟨?_, pad16_length_mod d, ?_, ?_⟩
  · rw [hpad, List.take_left]
  · rw [hpad, List.length_append, List.length_replicate]
    exact Nat.add_lt_add_left hk _
  · rw [hpad, List.drop_left]
    exact fun b hb => List.eq_of_mem_replicate hb

/-- Settles O32: the two runs, each over the control points of its command, and what their output is. -/
theorem packedArchiveOpens : Obligations.PackedArchiveOpens := by
  intro s ms hready _ hw h hr sorted archive opened
  refine ⟨fun _ hin hfit => packs_accepted hready hw h hr hin hfit, fun _ hin hmask hroom => ?opens,
    fun hkeys => ?distinct, fun m _ => pad16_restores m.2⟩
  case opens =>
    obtain ⟨t, hreach, ht⟩ := opens_packed hready (packable_sortByName hw h hr hmask) hin hroom
    have hcount : (sorted.map opened).length = ms.length := by rw [List.length_map, sortByName_length]
    exact ⟨t, hreach, ht.status, ht.rptCnt, ht.res0.trans hcount, ht.outLen, ht.output⟩
  case distinct =>
    have hsorted : (sorted.map fun m => crc32 s.cfg m.1).Nodup := ((sortByName_perm ms).map _).nodup_iff.2 hkeys
    exact List.map_congr_left fun m hm => openedMember_of_nodup hsorted hm

end Sys2Proof.Machine
end

section
/-! SUPPORT. Progress (60_exceptions.md R300, R301): which outcomes are a next state, with one rule per way the model
builds an outcome. -/

namespace Sys2Proof.Machine

/-! ## Rules -/

/-- The outcome is a next state, no fault and no refusal. -/
def Continues (o : Outcome) : Prop := ∃ t, o = .next t

theorem continues_next (t : State) : Continues (.next t) := ⟨t, rfl⟩

theorem Continues.ite {c : Prop} [Decidable c] {a b : Outcome} (ha : c → Continues a) (hb : ¬c → Continues b) :
    Continues (if c then a else b) := iteInduction ha hb

theorem Continues.fetched_ite {c : Prop} [Decidable c] {a b : Fetched} (ha : c → Continues a.outcome)
    (hb : ¬c → Continues b.outcome) : Continues (if c then a else b).outcome :=
  iteInduction (motive := fun x : Fetched => Continues x.outcome) ha hb

/-- A fetch never leaves `IN` where `LIMIT` is inside it (R61, R62). -/
theorem continues_fetch {n : Nat} {s : State} {k : List Byte → State → Outcome}
    (hcap : s.str.limit ≤ s.cfg.inCap.toNat)
    (hk : s.str.ip + n ≤ s.str.limit → Continues (k (bytesAtIp n s) (advanceIp n s))) : Continues (fetch n s k) := by
  by_cases hlimit : s.str.ip + n ≤ s.str.limit
  · rw [fetch_eq hlimit (hlimit.trans hcap)]; exact hk hlimit
  · rw [fetch_truncated (Nat.lt_of_not_le hlimit)]; exact continues_next _

theorem continues_peek {n : Nat} {s : State} {k : List Byte → Fetched} (hcap : s.str.limit ≤ s.cfg.inCap.toNat)
    (hk : s.str.ip + n ≤ s.str.limit → Continues (k (bytesAtIp n s)).outcome) : Continues (peek n s k).outcome := by
  by_cases hlimit : s.str.ip + n ≤ s.str.limit
  · rw [peek_eq hlimit (hlimit.trans hcap)]; exact hk hlimit
  · rw [peek_truncated (Nat.lt_of_not_le hlimit)]; exact continues_next _

theorem continues_withRoom {n : Nat} {s k : State} (h : s.str.op + n ≤ capacity s) : Continues (withRoom n s k) :=
  ⟨k, withRoom_eq h⟩

theorem continues_onAccepted {o : Option Nat} {r : State} {k : Nat → Outcome}
    (hk : ∀ n, o = some n → Continues (k n)) : Continues (onAccepted o r k) := by
  cases o with
  | none => exact continues_next r
  | some n => exact hk n rfl

/-- Bytes that decode whatever they are. -/
theorem continues_decoded {f : Fmt} {bs rest : List Byte} {i : Instr} {s : State} {o : Outcome}
    (hdec : decode f bs = .ok (i, rest)) (hrun : Continues (exec i s)) : Continues (runDecoded f bs s o).outcome := by
  rw [runDecoded_ok hdec]; exact hrun

/-- Bytes that may fail to decode, where that is a failure of the command. -/
theorem continues_decoded_or_raise {f : Fmt} {bs : List Byte} {s r : State}
    (hrun : ∀ i rest, decode f bs = .ok (i, rest) → Continues (exec i s)) :
    Continues (runDecoded f bs s (.next r)).outcome := by
  cases h : decode f bs with
  | ok x => exact continues_decoded h (hrun x.1 x.2 h)
  | error e => rw [runDecoded_error h]; exact continues_next r

theorem InCommand.limit_le_inCap {s : State} (h : InCommand s) : s.str.limit ≤ s.cfg.inCap.toNat :=
  h.limit_le_inLen.trans h.inLen_le_inCap

/-! ## The decoders (R171, R220, R200) -/

/-- What the overrun check accepts has room in the destination (R173, R222, R223). -/
theorem acceptedCount_room {s : State} {n k : Nat}
    (h : acceptedCount s.cfg.overrunPolicy s.str.op n s.str.size = some k) (hop : s.str.op ≤ s.str.size)
    (hsize : s.str.size ≤ capacity s) : s.str.op + k ≤ capacity s :=
  (acceptedCount_le h hop).1.trans hsize

section
variable {s : State}

theorem execRef_continues (l : BitVec 4) (d : BitVec 12) (hop : s.str.op ≤ s.str.size)
    (hsize : s.str.size ≤ capacity s) : Continues (execRef l d s) := by
  rw [execRef_eq]
  exact .ite (fun _ => continues_next _) fun _ => continues_onAccepted fun n hacc =>
    continues_withRoom (acceptedCount_room hacc hop hsize)

theorem fetchSymbol_continues (flag : Bool) (hcap : s.str.limit ≤ s.cfg.inCap.toNat) (hop : s.str.op < s.str.size)
    (hsize : s.str.size ≤ capacity s) : Continues (fetchSymbol flag s).outcome := by
  refine .fetched_ite (fun _ => continues_peek hcap fun _ => ?token) fun _ => continues_peek hcap fun _ => ?literal
  case token => exact continues_decoded rfl (execRef_continues _ _ hop.le hsize)
  case literal => exact continues_decoded rfl (continues_withRoom (hop.trans_le hsize))

/-- Taking a flag moves `IP` and the LZ registers only (R171). -/
theorem fetchLz_continues (hcap : s.str.limit ≤ s.cfg.inCap.toNat) (hsize : s.str.size ≤ capacity s) :
    Continues (fetchLz s).outcome := by
  have hsymbol (flag : Bool) (hop : s.str.op < s.str.size) :
      Continues (fetchSymbol flag (takeFlag (loadFlags s))).outcome := by
    rw [takeFlag_loadFlags_eq]
    exact fetchSymbol_continues flag hcap hop hsize
  rw [fetchLz_eq]
  exact .fetched_ite (fun hop => .fetched_ite (fun _ => continues_peek hcap fun _ => hsymbol _ hop)
    fun _ => hsymbol _ hop) fun _ => continues_next _

theorem execRun_continues (n3 : BitVec 7) (v : Byte) (hop : s.str.op ≤ s.str.size) (hsize : s.str.size ≤ capacity s) :
    Continues (execRun n3 v s) := by
  rw [execRun_eq]
  exact continues_onAccepted fun n hacc => continues_withRoom (acceptedCount_room hacc hop hsize)

theorem execCopy_continues (n1 : BitVec 7) (hcap : s.str.limit ≤ s.cfg.inCap.toNat) (hop : s.str.op ≤ s.str.size)
    (hsize : s.str.size ≤ capacity s) : Continues (execCopy n1 s) := by
  rw [execCopy_eq]
  exact continues_onAccepted fun n hacc => continues_fetch hcap fun _ =>
    continues_withRoom (acceptedCount_room hacc hop hsize)

theorem fetchRle_continues (hcap : s.str.limit ≤ s.cfg.inCap.toNat) (hsize : s.str.size ≤ capacity s) :
    Continues (fetchRle s).outcome := by
  refine .fetched_ite (fun hop => continues_peek hcap fun _ => .fetched_ite (fun hrun => continues_peek hcap fun _ =>
    ?run) fun hcopy => ?copy) fun _ => continues_next _
  case run => exact continues_decoded (if_pos hrun) (execRun_continues _ _ hop.le hsize)
  case copy => exact continues_decoded (if_neg hcopy) (execCopy_continues _ hcap hop.le hsize)

theorem rleStream_continues (hcap : s.str.limit ≤ s.cfg.inCap.toNat) : Continues (rleStream s) :=
  .ite (fun _ => continues_next _) fun _ => continues_fetch hcap fun _ => continues_next _

theorem fetchHufTable_continues (hcap : s.str.limit ≤ s.cfg.inCap.toNat) : Continues (fetchHufTable s).outcome :=
  continues_peek hcap fun _ => continues_decoded rfl (continues_fetch hcap fun _ => continues_next _)

theorem fetchHufBit_continues (hcap : s.str.limit ≤ s.cfg.inCap.toNat) : Continues (fetchHufBit s).outcome := by
  refine .fetched_ite (fun _ => continues_next _) fun _ => .fetched_ite (fun _ => continues_peek hcap fun _ =>
    continues_decoded rfl (continues_next _)) fun _ => ?_
  cases nextBit s with
  | false => exact continues_decoded rfl (continues_next _)
  | true => exact continues_decoded rfl (continues_next _)

/-- While a symbol is still to be decoded the output is not full (R206). -/
theorem fetchHufChild_continues (idx : Nat) (leaf : Bool) (hh : HufOk s) (hneed : 0 < s.huf.need) :
    Continues (fetchHufChild idx leaf s).outcome := by
  obtain ⟨hsize, hcount, -, -⟩ := hh
  refine .fetched_ite (fun _ => .fetched_ite (fun hdepth => ?leaf4) fun hdepth => ?leaf8) fun _ => ?node
  case leaf4 =>
    refine continues_decoded_or_raise fun i rest hi => ?_
    obtain ⟨x, rfl⟩ := decode_hufLeaf4 hi
    refine .ite (fun hnib => continues_withRoom ?_) fun _ => continues_next _
    rw [hnib, Bool.toNat_true] at hcount
    omega
  case leaf8 => exact continues_decoded rfl (continues_withRoom (by omega))
  case node => exact continues_decoded rfl (continues_next _)

/-! ## The dispatcher (R150 to R157) -/

/-- The rest of a stream is inside `IN` (R151, R156). -/
theorem ip_add_payload_le (hip : s.str.ip ≤ s.str.limit) (hcap : s.str.limit ≤ s.cfg.inCap.toNat) :
    s.str.ip + (s.str.limit - s.str.ip) ≤ s.cfg.inCap.toNat := by omega

theorem storePayload_continues (hip : s.str.ip ≤ s.str.limit) (hcap : s.str.limit ≤ s.cfg.inCap.toNat) :
    Continues (storePayload s) :=
  .ite (fun _ => continues_next _) fun _ => .ite (fun _ => continues_next _) fun _ =>
    .ite (fun hout => absurd (ip_add_payload_le hip hcap) (Nat.not_le.2 hout)) fun _ => continues_next _

theorem headerInstr_continues (m : BitVec 3) (z : BitVec 29) (hip : s.str.ip + 4 ≤ s.str.limit)
    (hcap : s.str.limit ≤ s.cfg.inCap.toNat) : Continues (exec (headerInstr m z) s) := by
  refine headerInstr_cases (Q := fun i => Continues (exec i s)) z ?store (continues_next _) (continues_next _)
    (continues_next _) ?rle (continues_next _) (continues_next _) (continues_next _) m
  case store => exact storePayload_continues hip hcap
  case rle => exact rleStream_continues hcap

theorem fetchHeader_continues (hcap : s.str.limit ≤ s.cfg.inCap.toNat) : Continues (fetchHeader s).outcome :=
  .fetched_ite (fun _ => continues_next _) fun _ => continues_peek hcap fun hip =>
    continues_decoded rfl (headerInstr_continues _ _ hip hcap)

theorem fetchZlibMagic_continues (hip : s.str.ip ≤ s.str.limit) (hcap : s.str.limit ≤ s.cfg.inCap.toNat) :
    Continues (fetchZlibMagic s).outcome := by
  refine .fetched_ite (fun _ => continues_next _) fun _ => continues_peek hcap fun _ =>
    continues_decoded_or_raise fun i rest hi => ?_
  rw [decode_zlibMagic hi]
  exact .ite (fun hout => absurd (ip_add_payload_le hip hcap) (Nat.not_le.2 hout)) fun _ => continues_next _

/-! ## The archive unit (R247 to R269) -/

theorem fetchXpckMagic_continues (hlen : s.host.inLen.toNat ≤ s.cfg.inCap.toNat) :
    Continues (fetchXpckMagic s).outcome := by
  refine .fetched_ite (fun _ => continues_next _) fun hmagic => .fetched_ite (fun hout => ?_) fun _ =>
    continues_decoded_or_raise fun i rest hi => ?_
  · omega
  · rw [decode_xpckMagic hi]
    exact continues_next _

theorem fetchXph_continues (hcap : s.str.limit ≤ s.cfg.inCap.toNat) : Continues (fetchXph s).outcome := by
  refine continues_peek hcap fun _ => continues_decoded_or_raise fun i rest hi => ?_
  obtain ⟨c, io, no, d, f, rfl⟩ := decode_xphOpen hi
  exact continues_next _

theorem fetchCountField_continues : Continues (fetchCountField s).outcome := continues_decoded rfl (continues_next _)

theorem fetchRecord_continues (hcap : s.str.limit ≤ s.cfg.inCap.toNat) : Continues (fetchRecord s).outcome :=
  .fetched_ite (fun _ => continues_peek hcap fun _ =>
    continues_decoded rfl (.ite (fun _ => continues_next _) fun _ => continues_next _)) fun _ => continues_next _

theorem fetchName_continues (p : Nat) (hlen : s.host.inLen.toNat ≤ s.cfg.inCap.toNat) :
    Continues (fetchName p s).outcome := by
  refine .fetched_ite (fun _ => continues_next _) fun _ => ?_
  show Continues (writeResult s)
  rw [writeResult_eq, if_neg (Nat.not_lt.2 hlen)]
  exact continues_next _

theorem fetchReport_continues {e : RptEntry} (hcode : e.code = 5#32) : Continues (fetchReport e s).outcome := by
  unfold fetchReport
  rw [hcode]
  exact continues_decoded (decode_rpt _ _ _) (continues_next _)

end

/-- Entries of a file list fail to decode at a field that is cut, in no other way (R111, R260). -/
theorem parseEntries_malformed {n addr : Nat} {bs : List Byte} {e : DecodeErr} (h : parseEntries n addr bs = .error e) :
    ∃ a, e = .malformedList a := by
  induction n generalizing addr bs with
  | zero => cases h
  | succ n ih =>
    match bs with
    | b0 :: b1 :: b2 :: b3 :: b4 :: b5 :: bs =>
      simp only [parseEntries] at h
      split at h
      next => cases h; exact ⟨_, rfl⟩
      next =>
        split at h
        next => cases h; exact ⟨_, rfl⟩
        next =>
          split at h
          next => cases h
          next herr => cases h; exact ih herr
    | [] | [_] | [_, _] | [_, _, _] | [_, _, _, _] | [_, _, _, _, _] => cases h; exact ⟨_, rfl⟩

theorem decode_fls_malformed {bs : List Byte} {e : DecodeErr} (h : decode .fls bs = .error e) :
    ∃ a, e = .malformedList a := by
  have hparse : parseFileList bs = .error e := by
    unfold decode at h
    dsimp only at h
    split at h
    · cases h
    · cases h; assumption
  unfold parseFileList at hparse
  split at hparse
  · exact parseEntries_malformed hparse
  · cases hparse; exact ⟨0, rfl⟩

theorem fetchFls_continues {s : State} (hlen : s.host.inLen.toNat ≤ s.cfg.inCap.toNat) :
    Continues (fetchFls s).outcome := by
  rw [fetchFls_eq, if_neg (Nat.not_lt.2 hlen)]
  cases hdec : decode .fls (s.inp.readN 0 s.host.inLen.toNat) with
  | ok r =>
    obtain ⟨i, rest⟩ := r
    obtain ⟨ms, rfl⟩ := decode_fls hdec
    refine .fetched_ite (fun _ => ?_) fun _ => continues_next _
    exact ⟨_, execFls_eq ms _⟩
  | error e =>
    obtain ⟨a, rfl⟩ := decode_fls_malformed hdec
    exact continues_next _

/-! ## The core's step and the commands -/

/-- At every control point the core's step has a next state. -/
theorem fetchAt_continues {s : State} {p : Phase} (h : InCommand s) (hph : PhaseOk { s with phase := p }) :
    Continues (fetchAt p s).outcome := by
  have hcap := h.limit_le_inCap
  have hlen := h.inLen_le_inCap
  cases p with
  | idle => exact continues_next _
  | header => exact fetchHeader_continues hcap
  | zlibMagic => exact fetchZlibMagic_continues h.ip_le_limit hcap
  | lz =>
    obtain ⟨-, -, hsize⟩ := hph
    exact fetchLz_continues hcap hsize
  | rle =>
    obtain ⟨-, -, hsize, -⟩ := hph
    exact fetchRle_continues hcap hsize
  | hufTable => exact fetchHufTable_continues hcap
  | hufBit => exact fetchHufBit_continues hcap
  | hufChild idx leaf =>
    obtain ⟨-, hh, hneed, -⟩ := hph
    exact fetchHufChild_continues idx leaf hh hneed
  | finish => exact continues_next _
  | xpckMagic => exact fetchXpckMagic_continues hlen
  | xph => exact fetchXph_continues hcap
  | countField => exact fetchCountField_continues
  | records => exact fetchRecord_continues hcap
  | lookup p => exact fetchName_continues p hlen
  | report e =>
    obtain ⟨-, -, hcode, -⟩ := hph
    exact fetchReport_continues hcode
  | fls => exact fetchFls_continues hlen

theorem coreStep_continues {s : State} (h : StateOk s) : Continues (coreStep s) := by
  unfold coreStep
  rw [fetchCore_eq]
  refine .fetched_ite (fun hb => ?_) fun _ => continues_next s
  obtain ⟨hin, -, hph⟩ := h.inCommand hb
  exact fetchAt_continues hin hph

theorem commandBody_continues (i : Instr) {p : State} (hcap : p.str.limit ≤ p.cfg.inCap.toNat) :
    Continues (commandBody i p) := by
  refine commandBody_cases (Q := fun body => Continues (body p)) (continues_next _) ?decHdr ?encHdr (continues_next _)
    ?lzDec ?hufDec ?rleDec ?lzEnc (continues_next _) (continues_next _) (continues_next _) i
  case decHdr => exact .ite (fun _ => continues_next _) fun _ => continues_next _
  case encHdr =>
    exact .ite (fun _ => continues_next _) fun _ => .ite (fun _ => continues_next _) fun _ =>
      .ite (fun _ => continues_next _) fun _ => continues_next _
  case lzDec => exact .ite (fun _ => continues_next _) fun _ => continues_next _
  case hufDec =>
    exact .ite (fun _ => continues_next _) fun _ => .ite (fun _ => continues_next _) fun _ => continues_next _
  case rleDec => exact rleStream_continues hcap
  case lzEnc => exact .ite (fun _ => continues_next _) fun _ => continues_next _

/-- A command word has a next state in every state: its start checks `IN_LEN` (R130). -/
theorem exec_command_continues {i : Instr} (hf : fmtOf .big i = .cmd) (s : State) : Continues (exec i s) := by
  rcases exec_command hf with ⟨_, v, he⟩ | ⟨_, he⟩ <;> rw [he]
  · exact continues_next _
  · rcases startCommand_cases (commandBody i) s with ⟨_, ho⟩ | ⟨_, _, ho⟩ | ⟨_, hcap, ho⟩ <;> rw [ho]
    · exact continues_next _
    · exact continues_next _
    · exact commandBody_continues i hcap

end Sys2Proof.Machine
end

section
/-! SUPPORT. Where a step can stop (10_state.md R22, R40, R46; 20_memory.md R61; 70_reset_and_hazards.md R331, R333): at
the host's oldest request. -/

namespace Sys2Proof.Machine

/-- The outcome, where it is no next state, is a stop that the host's oldest request in `s` accounts for. -/
def StopsForHost (s : State) : Outcome → Prop
  | .next _ => True
  | .fault f => HostFault s f
  | .refused r => HostRefusal s r

theorem Continues.stopsForHost {o : Outcome} (h : Continues o) (s : State) : StopsForHost s o := by
  obtain ⟨t, rfl⟩ := h
  trivial

theorem StopsForHost.ite {s : State} {c : Prop} [Decidable c] {a b : Outcome} (ha : c → StopsForHost s a)
    (hb : ¬c → StopsForHost s b) : StopsForHost s (if c then a else b) := iteInduction ha hb

section
variable {s : State} {rest : List HostReq}

theorem stopsForHost_writeReg {off : Nat} {v : Word} (h : s.bus = .writeReg off v :: rest) :
    StopsForHost s (hostWriteReg off v { s with bus := rest }).outcome := by
  by_cases hoff : off ∈ regOffsets
  · refine Continues.stopsForHost ?_ s
    rcases regAt_of_mem hoff with rfl | ⟨r, hr, hc⟩
    · rcases hostWriteReg_cmd v with ⟨i, hf, hrun⟩ | hstop
      · rw [hrun]; exact exec_command_continues hf _
      · rw [hstop]; exact continues_next _
    · rw [hostWriteReg_of_regAt hr hc]; exact continues_next _
  · unfold hostWriteReg
    rw [regAt_eq_none hoff]
    exact .inl ⟨off, rest, hoff, rfl, .inr ⟨v, h⟩⟩

theorem stopsForHost_readReg {off : Nat} (h : s.bus = .readReg off :: rest) :
    StopsForHost s (hostReadReg off { s with bus := rest }) := by
  by_cases hoff : off ∈ regOffsets
  · rcases regAt_of_mem hoff with rfl | ⟨r, hr, -⟩
    · trivial
    · rw [hostReadReg_of_regAt hr]; trivial
  · unfold hostReadReg
    rw [regAt_eq_none hoff]
    exact .inl ⟨off, rest, hoff, rfl, .inl h⟩

theorem stopsForHost_writeIn {a : Nat} {v : Byte} (h : s.bus = .writeIn a v :: rest) :
    StopsForHost s (hostWriteIn a v { s with bus := rest }) :=
  .ite (fun hout => .inr ⟨a, rest, rfl, .inl ⟨hout, .inr ⟨v, h⟩⟩⟩) fun _ =>
    .ite (fun hb => .inl ⟨rfl, hb, a, v, rest, h⟩) fun _ => trivial

theorem stopsForHost_readIn {a : Nat} (h : s.bus = .readIn a :: rest) :
    StopsForHost s (hostReadIn a { s with bus := rest }) := by
  refine .ite (fun hout => .inr ⟨a, rest, rfl, .inl ⟨hout, .inl h⟩⟩) fun _ => .ite (fun _ => trivial) fun hb => ?_
  split
  next => trivial
  next hnone => exact .inr (.inl ⟨rfl, eq_false_of_ne_true hb, a, rest, h, hnone⟩)

theorem stopsForHost_readOut {a : Nat} (h : s.bus = .readOut a :: rest) :
    StopsForHost s (hostReadOut a { s with bus := rest }) := by
  refine .ite (fun hout => .inr ⟨a, rest, rfl, .inr (.inl ⟨hout, h⟩)⟩) fun _ => .ite (fun _ => trivial) fun hb =>
    .ite (fun _ => trivial) fun hvalid => .inr (.inr (.inl ⟨rfl, eq_false_of_ne_true hb, a, rest, h, ?_⟩))
  simp only [Bool.and_eq_true, Bool.not_eq_true', decide_eq_true_eq] at hvalid
  cases hd : s.host.done with
  | false => exact .inl rfl
  | true =>
    cases he : s.host.err with
    | false => exact .inr (.inr (Nat.le_of_not_lt fun ha => hvalid ⟨⟨hd, he⟩, ha⟩))
    | true => exact .inr (.inl rfl)

theorem stopsForHost_readRpt {e w : Nat} (h : s.bus = .readRpt e w :: rest) :
    StopsForHost s (hostReadRpt e w { s with bus := rest }) := by
  refine .ite (fun hout => .inr ⟨w, rest, rfl, .inr (.inr ⟨hout, e, h⟩)⟩) fun _ => .ite (fun _ => trivial) fun hb => ?_
  split
  next hnone =>
    exact .inr (.inr (.inr ⟨rfl, eq_false_of_ne_true hb, e, w, rest, h, List.getElem?_eq_none_iff.1 hnone⟩))
  next => trivial

/-- A step that leaves the machine to the core, or resets it, has a next state. -/
theorem step_continues (h : StateOk s)
    (hbus : s.bus = [] ∨ ∃ rest, s.bus = .poll :: rest ∨ s.bus = .pass :: rest ∨ s.bus = .reset :: rest) :
    Continues (step s) := by
  rcases hbus with hnone | ⟨rest, hpoll | hpass | hreset⟩
  · rw [step_eq_coreStep hnone]; exact coreStep_continues h
  · cases hb : s.host.busy with
    | true => rw [step_poll_busy hpoll hb]; exact coreStep_continues h
    | false => rw [step_poll_idle hpoll hb]; exact continues_next _
  · rw [step_pass hpass]; exact coreStep_continues (h.setBus rest)
  · rw [step_reset hreset]; exact continues_next _

theorem step_stopsForHost (h : StateOk s) : StopsForHost s (step s) := by
  cases hbus : s.bus with
  | nil => exact (step_continues h (.inl hbus)).stopsForHost s
  | cons req rest =>
    cases req with
    | writeReg off v => rw [step_writeReg hbus]; exact stopsForHost_writeReg hbus
    | readReg off => rw [step_readReg hbus]; exact stopsForHost_readReg hbus
    | writeIn a v => rw [step_writeIn hbus]; exact stopsForHost_writeIn hbus
    | readIn a => rw [step_readIn hbus]; exact stopsForHost_readIn hbus
    | readOut a => rw [step_readOut hbus]; exact stopsForHost_readOut hbus
    | readRpt e w => rw [step_readRpt hbus]; exact stopsForHost_readRpt hbus
    | poll => exact (step_continues h (.inr ⟨rest, .inl hbus⟩)).stopsForHost s
    | pass => exact (step_continues h (.inr ⟨rest, .inr (.inl hbus)⟩)).stopsForHost s
    | reset => exact (step_continues h (.inr ⟨rest, .inr (.inr hbus)⟩)).stopsForHost s

end

/-- Settles O57: the core's step has a next state at every control point, and each access of the host stops by its own
cases only. -/
theorem onlyHostAccessesStop : Obligations.OnlyHostAccessesStop := by
  intro s h
  have hstop := step_stopsForHost h
  exact ⟨fun f hf => by rwa [hf] at hstop, fun r hr => by rwa [hr] at hstop, step_continues h⟩

end Sys2Proof.Machine
end

section
/-! SUPPORT. The failure entry and the report (60_exceptions.md R290, R300, R305). -/

namespace Sys2Proof.Machine

/-- Settles O40: the report's update, then the control point after the name. -/
theorem reportIsRecorded : Obligations.ReportIsRecorded := fun _ _ _ _ => ⟨_, rfl, rfl, rfl, rfl, rfl⟩

/-- Settles O46: by the failure, each with its code. -/
theorem raiseEntersTheFailure : Obligations.RaiseEntersTheFailure := by
  intro f info s
  cases f <;> rfl

end Sys2Proof.Machine
end

section
/-! SUPPORT. Every command ends (70_reset_and_hazards.md R343, R344). A command runs through its control points in one
direction, from `Phase.stage` to a lower one; where it stays in a loop, or goes round the two points of one, `leftAt`
falls: input in the LZ and RLE loops (42_lz.md R171, 44_rle.md R221), code bits and input in the Huffman loop
(43_huffman.md R202), records, then names, in the archive unit (46_xpck.md R250, R252). -/

namespace Sys2Proof.Machine

/-! ## How far a command is from its end -/

/-- The place of a control point on the way to the end of a command: no step leads to a higher one. -/
def Phase.stage : Phase → Nat
  | .idle => 0
  | .lookup _ | .report _ => 1
  | .finish => 2
  | .lz | .rle | .hufBit | .hufChild _ _ => 3
  | .zlibMagic | .hufTable => 4
  | .header | .fls => 5
  | .records => 6
  | .countField => 7
  | .xph => 8
  | .xpckMagic => 9

/-- What the loop a control point stands in has left to do. In the Huffman loop a bit is two steps of the machine
(log 25), so the 4 bytes of a code word stand for 64 steps after the one that takes them: 17 to the byte is enough. In
the name loop a name is two steps where it is reported (43_huffman.md R201, R202; 46_xpck.md R253). -/
def leftAt (p : Phase) (s : State) : Nat :=
  match p with
  | .lz | .rle => s.str.limit - s.str.ip
  | .hufBit => 17 * (s.str.limit - s.str.ip) + 2 * s.huf.bitCnt
  | .hufChild _ _ => 17 * (s.str.limit - s.str.ip) + 2 * s.huf.bitCnt + 1
  | .records => s.xp.cnt - s.xp.recIdx
  | .lookup p => 2 * (s.xp.ntLen - p) + 1
  | .report e => 2 * (s.xp.ntLen - e.off.toNat)
  | _ => 0

/-- The command has ended, or it runs on at a lower stage than `k`, or at stage `k` with less than `n` left of the
loop. -/
inductive Nearer (k n : Nat) (t : State) : Prop
  | ended (busy : t.host.busy = false) (done : t.host.done = true)
  | runs (p : Phase) (phase : t.phase = p) (running : p ≠ .idle) (less : p.stage < k ∨ p.stage = k ∧ leftAt p t < n)

section
variable {k n : Nat} {s t : State}

theorem Nearer.enters (p : Phase) (hp : t.phase = p) (hne : p ≠ .idle) (hk : p.stage < k) : Nearer k n t :=
  .runs p hp hne (.inl hk)

theorem Nearer.goesOn (p : Phase) (hp : t.phase = p) (hne : p ≠ .idle) (hn : leftAt p t < n) : Nearer p.stage n t :=
  .runs p hp hne (.inr ⟨rfl, hn⟩)

theorem nearer_raise {f : Failure} {v : Nat} : Nearer k n (raise f v s) := .ended rfl rfl

theorem nearer_raiseLength {f : Failure} {v : Nat} : Nearer k n (raiseLength f v s) :=
  ite_of (fun _ => nearer_raise) fun _ => nearer_raise

theorem nearer_endCommand : Nearer k n (endCommand s) := .ended rfl rfl

/-! ## The ends and the entries of the units -/

/-- A unit's end is the command's, or leads to the names (R150, R251). -/
theorem nearer_unitDone (hk : 1 < k) : Nearer k n (unitDone s) :=
  ite_of (fun _ => .enters (.lookup 0) rfl nofun hk) fun _ => nearer_endCommand

theorem nearer_payloadOut {bs : List Byte} (hk : 2 < k) : Nearer k n (payloadOut bs s) := .enters .finish rfl nofun hk

theorem nearer_lzEnter (hk : 3 < k) : Nearer k n (lzEnter s) :=
  ite_of (fun _ => nearer_raise) fun _ => .enters .lz rfl nofun hk

theorem nearer_hufEnter (hk : 4 < k) : Nearer k n (hufEnter s) :=
  ite_of (fun _ => nearer_raise) fun _ => .enters .hufTable rfl nofun hk

theorem nearer_rleStream (hk : 3 < k) : Ensures (Nearer k n) (rleStream s) :=
  .ite (fun _ => nearer_raise) fun _ => ensures_fetch nearer_raise fun _ =>
    ite_of (P := Nearer k n) (fun _ => nearer_raise) fun _ => ite_of (fun _ => nearer_raise) fun _ =>
      .enters .rle rfl nofun hk

theorem nearer_storePayload (hk : 2 < k) : Ensures (Nearer k n) (storePayload s) :=
  .ite (fun _ => nearer_raise) fun _ => .ite (fun _ => nearer_raise) fun _ => .ite (fun _ => trivial) fun _ =>
    nearer_payloadOut hk

theorem nearer_zlibAnswer {r : Option (List Byte)} (hk : 2 < k) : Nearer k n (zlibAnswer r s) := by
  cases r with
  | none => exact nearer_raise
  | some bytes =>
    exact ite_of (fun _ => nearer_raise) fun _ => ite_of (fun _ => nearer_raiseLength) fun _ => nearer_payloadOut hk

/-- Every method of a container header leads on to its unit (R151 to R157). -/
theorem nearer_headerInstr (m : BitVec 3) (z : BitVec 29) : Ensures (Nearer 5 n) (exec (headerInstr m z) s) := by
  refine headerInstr_cases (Q := fun i => Ensures (Nearer 5 n) (exec i s)) z ?store ?lz ?huf4 ?huf8 ?rle ?zlib ?method6
    ?method7 m
  case store => exact nearer_storePayload (by decide)
  case lz => exact nearer_lzEnter (by decide)
  case huf4 | huf8 => exact nearer_hufEnter (by decide)
  case rle => exact nearer_rleStream (by decide)
  case zlib => exact .enters .zlibMagic rfl nofun (by decide)
  case method6 | method7 => exact nearer_raise

theorem nearer_fetchHeader : Ensures (Nearer 5 n) (fetchHeader s).outcome := by
  refine .fetched_ite (fun _ => nearer_raise) fun _ => ensures_peek nearer_raise fun _ =>
    ensures_runDecoded (fun i rest hi => ?_) trivial
  obtain ⟨m, z, rfl⟩ := decode_hdr hi
  exact nearer_headerInstr m z

theorem nearer_fetchZlibMagic : Ensures (Nearer 4 n) (fetchZlibMagic s).outcome := by
  refine .fetched_ite (fun _ => nearer_raise) fun _ => ensures_peek nearer_raise fun _ =>
    ensures_runDecoded (fun i rest hi => ?_) nearer_raise
  rw [decode_zlibMagic hi]
  exact .ite (fun _ => trivial) fun _ => nearer_zlibAnswer (by decide)

/-! ## The LZ and RLE loops (R171, R221): every symbol takes input -/

theorem nearer_execLit {b : Byte} (hp : s.phase = .lz) (hip : s.str.ip + 1 ≤ s.str.limit)
    (hn : s.str.limit - s.str.ip ≤ n) : Ensures (Nearer 3 n) (execLit b s) := by
  refine ensures_withRoom fun _ => .goesOn .lz (by simpa using hp) nofun ?_
  simp only [leftAt, emit_str_ip, emit_str_limit, advanceIp_str_ip, advanceIp_str_limit]
  omega

theorem nearer_execRef {l : BitVec 4} {d : BitVec 12} (hp : s.phase = .lz) (hip : s.str.ip + 2 ≤ s.str.limit)
    (hn : s.str.limit - s.str.ip ≤ n) : Ensures (Nearer 3 n) (execRef l d s) := by
  rw [execRef_eq]
  refine .ite (fun _ => nearer_raise) fun _ => ensures_onAccepted nearer_raise fun _ _ => ensures_withRoom fun _ =>
    .goesOn .lz (by simpa using hp) nofun ?_
  simp only [leftAt, copyBack_str_ip, copyBack_str_limit, advanceIp_str_ip, advanceIp_str_limit]
  omega

theorem nearer_fetchSymbol (flag : Bool) (hp : s.phase = .lz) (hn : s.str.limit - s.str.ip ≤ n) :
    Ensures (Nearer 3 n) (fetchSymbol flag s).outcome := by
  refine .fetched_ite (fun _ => ensures_peek nearer_raise fun hip => ensures_runDecoded ?token trivial) fun _ =>
    ensures_peek nearer_raise fun hip => ensures_runDecoded ?literal trivial
  case token =>
    intro i rest hi
    obtain ⟨l, d, rfl⟩ := decode_lzg_set hi
    exact nearer_execRef hp hip hn
  case literal =>
    intro i rest hi
    obtain ⟨b, rfl⟩ := decode_lzg_clear hi
    exact nearer_execLit hp hip hn

/-- A flag byte taken on the way only leaves less input (R171). -/
theorem nearer_fetchLz (hp : s.phase = .lz) : Ensures (Nearer 3 (leftAt .lz s)) (fetchLz s).outcome := by
  have hsymbol (flag : Bool) :
      Ensures (Nearer 3 (leftAt .lz s)) (fetchSymbol flag (takeFlag (loadFlags s))).outcome := by
    rcases loadFlags_cases s with ⟨_, he⟩ | ⟨_, he⟩ <;> rw [he]
    · exact nearer_fetchSymbol flag hp (Nat.sub_le_sub_left (Nat.le_add_right _ 1) _)
    · exact nearer_fetchSymbol flag hp (le_refl _)
  rw [fetchLz_eq]
  exact .fetched_ite (fun _ => .fetched_ite (fun _ => ensures_peek nearer_raise fun _ => hsymbol _)
    fun _ => hsymbol _) fun _ => nearer_unitDone (by decide)

theorem nearer_execRun {n3 : BitVec 7} {v : Byte} (hp : s.phase = .rle) (hip : s.str.ip + 2 ≤ s.str.limit) :
    Ensures (Nearer 3 (leftAt .rle s)) (execRun n3 v s) := by
  rw [execRun_eq]
  refine ensures_onAccepted nearer_raise fun _ _ => ensures_withRoom fun _ =>
    .goesOn .rle (by simpa using hp) nofun ?_
  simp only [leftAt, emitAll_str_ip, emitAll_str_limit, advanceIp_str_ip, advanceIp_str_limit]
  omega

theorem nearer_execCopy {n1 : BitVec 7} (hp : s.phase = .rle) (hip : s.str.ip + 1 ≤ s.str.limit) :
    Ensures (Nearer 3 (leftAt .rle s)) (execCopy n1 s) := by
  rw [execCopy_eq]
  refine ensures_onAccepted nearer_raise fun _ _ => ensures_fetch nearer_raise fun _ => ensures_withRoom fun _ =>
    .goesOn .rle (by simpa using hp) nofun ?_
  simp only [leftAt, emitAll_str_ip, emitAll_str_limit, advanceIp_str_ip, advanceIp_str_limit]
  omega

theorem nearer_fetchRle (hp : s.phase = .rle) : Ensures (Nearer 3 (leftAt .rle s)) (fetchRle s).outcome := by
  refine .fetched_ite (fun _ => ensures_peek nearer_raise fun hip => .fetched_ite (fun _ => ?run) fun hcopy => ?copy)
    fun _ => nearer_unitDone (by decide)
  case run =>
    refine ensures_peek nearer_raise fun hip2 => ensures_runDecoded (fun i rest hi => ?_) trivial
    rcases decode_rlc hi with ⟨n, v, rfl⟩ | ⟨n, rfl⟩
    · exact nearer_execRun hp hip2
    · exact nearer_execCopy hp hip
  case copy =>
    refine ensures_runDecoded (fun i rest hi => ?_) trivial
    obtain ⟨n, rfl⟩ := decode_rlc_copy hi (by simpa using hcopy)
    exact nearer_execCopy hp hip

/-! ## The Huffman loop (R200 to R204) -/

theorem nearer_fetchHufTable : Ensures (Nearer 4 n) (fetchHufTable s).outcome := by
  refine ensures_peek nearer_raise fun _ => ensures_runDecoded (fun i rest hi => ?_) trivial
  obtain ⟨t, r, rfl⟩ := decode_hufTable hi
  exact ensures_fetch nearer_raise fun _ => .enters .hufBit rfl nofun (by decide)

/-- A code word takes 4 bytes of input and gives 32 bits (R201). -/
theorem nearer_execHufWord {c : Word} (hp : s.phase = .hufBit) (hip : s.str.ip + 4 ≤ s.str.limit) :
    Ensures (Nearer 3 (leftAt .hufBit s)) (execHufWord c s) := by
  refine Nearer.goesOn .hufBit hp nofun ?_
  simp only [leftAt, advanceIp_str_ip, advanceIp_str_limit, advanceIp_huf]
  omega

/-- A step of the walk takes a bit (R202). -/
theorem nearer_hufStep (bit : Bool) (hbit : s.huf.bitCnt ≠ 0) : Nearer 3 (leftAt .hufBit s) (hufStep bit s) := by
  refine ite_of (fun _ => nearer_raise) fun _ => .goesOn (.hufChild _ _) rfl nofun ?_
  simp only [leftAt]
  omega

theorem nearer_fetchHufBit (hp : s.phase = .hufBit) :
    Ensures (Nearer 3 (leftAt .hufBit s)) (fetchHufBit s).outcome := by
  refine .fetched_ite (fun _ => nearer_unitDone (by decide)) fun _ => .fetched_ite (fun _ => ?word) fun hbit => ?bit
  case word =>
    refine ensures_peek nearer_raise fun hip => ensures_runDecoded (fun i rest hi => ?_) trivial
    obtain ⟨c, rfl⟩ := decode_hufWord hi
    exact nearer_execHufWord hp hip
  case bit =>
    refine ensures_runDecoded (fun i rest hi => ?_) trivial
    rcases decode_hufBit hi with rfl | rfl
    · exact nearer_hufStep false hbit
    · exact nearer_hufStep true hbit

/-- The child's byte takes no input and no bit, and the walk goes on to its next bit (R202 to R204). -/
theorem nearer_fetchHufChild (idx : Nat) (leaf : Bool) :
    Ensures (Nearer 3 (leftAt (.hufChild idx leaf) s)) (fetchHufChild idx leaf s).outcome := by
  refine .fetched_ite (fun _ => .fetched_ite (fun _ => ?leaf4) fun _ => ?leaf8) fun _ => ?node
  case leaf4 =>
    refine ensures_runDecoded (fun i rest hi => ?_) nearer_raise
    obtain ⟨x, rfl⟩ := decode_hufLeaf4 hi
    refine .ite (fun _ => ensures_withRoom fun _ => ?_) fun _ => ?_
    · refine .goesOn .hufBit rfl nofun ?_
      simp [leftAt, hufRestart]
    · exact Nearer.goesOn .hufBit rfl nofun (Nat.lt_succ_self _)
  case leaf8 =>
    refine ensures_runDecoded (fun i rest hi => ?_) trivial
    obtain ⟨b, rfl⟩ := decode_hufLeaf8 hi
    refine ensures_withRoom fun _ => .goesOn .hufBit rfl nofun ?_
    simp [leftAt, hufRestart]
  case node =>
    refine ensures_runDecoded (fun i rest hi => ?_) trivial
    obtain ⟨l, r, o, rfl⟩ := decode_hufNode hi
    exact Nearer.goesOn .hufBit rfl nofun (Nat.lt_succ_self _)

/-! ## The archive unit (R247 to R269) -/

theorem nearer_fetchXpckMagic : Ensures (Nearer 9 n) (fetchXpckMagic s).outcome := by
  refine .fetched_ite (fun _ => nearer_raise) fun _ => .fetched_ite (fun _ => trivial) fun _ =>
    ensures_runDecoded (fun i rest hi => ?_) nearer_raise
  rw [decode_xpckMagic hi]
  exact .enters .xph rfl nofun (by decide)

theorem nearer_fetchXph : Ensures (Nearer 8 n) (fetchXph s).outcome := by
  refine ensures_peek nearer_raise fun _ => ensures_runDecoded (fun i rest hi => ?_) nearer_raise
  obtain ⟨c, io, no, d, f, rfl⟩ := decode_xphOpen hi
  exact .enters .countField rfl nofun (by decide)

theorem nearer_fetchCountField : Ensures (Nearer 7 n) (fetchCountField s).outcome := by
  refine ensures_runDecoded (fun i rest hi => ?_) trivial
  obtain ⟨f1, f2, rfl⟩ := decode_countField hi
  exact .enters .records rfl nofun (by decide)

/-- The stream of the names begins only after the last record (R251). -/
theorem nearer_readNames : Nearer 6 n (readNames s) :=
  ite_of (fun _ => nearer_raise) fun _ => ite_of (fun _ => nearer_raise) fun _ => .enters .header rfl nofun (by decide)

theorem nearer_fetchRecord : Ensures (Nearer 6 (leftAt .records s)) (fetchRecord s).outcome := by
  refine .fetched_ite (fun hrec => ensures_peek nearer_raise fun _ => ensures_runDecoded (fun i rest hi => ?_) trivial)
    fun _ => nearer_readNames
  obtain ⟨c, n, ol, sl, oh, sh, rfl⟩ := decode_xpr hi
  exact .ite (fun _ => nearer_raise) fun _ =>
    Nearer.goesOn .records rfl nofun (Nat.sub_lt_sub_left hrec (Nat.lt_succ_self _))

/-- A name is passed, or its report comes next (R252). -/
theorem nearer_lookupName {p : Nat} (hp : p < s.xp.ntLen) (hnt : s.xp.ntLen < 2 ^ 32) :
    Nearer 1 (leftAt (.lookup p) s) (lookupName p s) := by
  rw [lookupName_eq]
  refine ite_of (fun _ => .goesOn (.lookup _) rfl nofun ?next) fun _ => ?_
  case next => simp only [leftAt]; omega
  cases lutFind (crc32 s.cfg (nameAt p s)) s.lut with
  | some e =>
    refine .goesOn (.lookup _) rfl nofun ?_
    simp only [leftAt, lookupAnswer]
    omega
  | none =>
    refine .goesOn (.report _) rfl nofun ?_
    simp only [leftAt, lookupAnswer, BitVec.toNat_ofNat]
    omega

theorem nearer_resultAnswer {o : Option Nat} {bytes : List Byte} : Nearer k n (resultAnswer o bytes s) := by
  cases o with
  | some v => exact ite_of (fun _ => nearer_raise) fun _ => nearer_raise
  | none => exact ite_of (fun _ => nearer_raiseLength) fun _ => nearer_endCommand

theorem nearer_fetchName {p : Nat} (hnt : s.xp.ntLen < 2 ^ 32) :
    Ensures (Nearer 1 (leftAt (.lookup p) s)) (fetchName p s).outcome := by
  refine .fetched_ite (fun hp => nearer_lookupName hp hnt) fun _ => ?_
  show Ensures _ (writeResult s)
  rw [writeResult_eq]
  exact .ite (fun _ => trivial) fun _ => nearer_resultAnswer

/-- The name loop goes on after the reported name (R253). -/
theorem nearer_fetchReport {e : RptEntry} (hcode : e.code = 5#32) (hlen : e.off.toNat + e.len.toNat ≤ s.xp.ntLen)
    (hpos : 1 ≤ e.len.toNat) : Ensures (Nearer 1 (leftAt (.report e) s)) (fetchReport e s).outcome := by
  refine ensures_runDecoded (fun i rest hi => ?_) trivial
  rw [hcode, decode_rpt] at hi
  cases hi
  refine Nearer.goesOn (.lookup _) rfl nofun ?_
  simp only [leftAt, report_xp]
  omega

theorem nearer_flsAnswer {o : Option Nat} {ms : List Member} : Nearer 5 n (flsAnswer o ms s) := by
  cases o with
  | some v => exact nearer_raise
  | none =>
    show Nearer 5 n (packAnswer _ _ s)
    cases rangeFailure s.cfg (sortByName ms) with
    | some v => exact nearer_raiseLength
    | none => exact ite_of (fun _ => .enters .finish rfl nofun (by decide)) fun _ => nearer_raise

theorem nearer_fetchFls : Ensures (Nearer 5 n) (fetchFls s).outcome := by
  rw [fetchFls_eq]
  refine .fetched_ite (fun _ => trivial) fun _ => ?_
  cases hdec : decode .fls (s.inp.readN 0 s.host.inLen.toNat) with
  | ok r =>
    obtain ⟨i, rest⟩ := r
    obtain ⟨ms, rfl⟩ := decode_fls hdec
    refine .fetched_ite (fun _ => ?_) fun _ => nearer_raise
    show Ensures _ (execFls ms _)
    rw [execFls_eq]
    exact nearer_flsAnswer
  | error e =>
    obtain ⟨a, rfl⟩ := decode_fls_malformed hdec
    exact nearer_raise

/-! ## The core's step, and runs of it -/

/-- At every control point the core's step brings the command nearer to its end. -/
theorem nearer_fetchAt {p : Phase} (h : InCommand s) (hp : s.phase = p) (hne : p ≠ .idle)
    (hph : PhaseOk { s with phase := p }) : Ensures (Nearer p.stage (leftAt p s)) (fetchAt p s).outcome := by
  cases p with
  | idle => exact absurd rfl hne
  | header => exact nearer_fetchHeader
  | zlibMagic => exact nearer_fetchZlibMagic
  | lz => exact nearer_fetchLz hp
  | rle => exact nearer_fetchRle hp
  | hufTable => exact nearer_fetchHufTable
  | hufBit => exact nearer_fetchHufBit hp
  | hufChild idx leaf => exact nearer_fetchHufChild idx leaf
  | finish => exact nearer_unitDone (by decide)
  | xpckMagic => exact nearer_fetchXpckMagic
  | xph => exact nearer_fetchXph
  | countField => exact nearer_fetchCountField
  | records => exact nearer_fetchRecord
  | lookup p => exact nearer_fetchName h.xp.ntLen
  | report e =>
    obtain ⟨-, -, hcode, hlen, hpos⟩ := hph
    exact nearer_fetchReport hcode hlen hpos
  | fls => exact nearer_fetchFls

theorem nearer_coreStep (h : StateOk s) (hb : s.host.busy = true) :
    Ensures (Nearer s.phase.stage (leftAt s.phase s)) (coreStep s) := by
  obtain ⟨hin, hne, hph⟩ := h.inCommand hb
  unfold coreStep
  rw [fetchCore_eq, if_pos hb]
  exact nearer_fetchAt hin rfl hne hph

/-- Inside the invariant a core that is at a control point has a command running (R28). -/
theorem StateOk.busy_of_phase (h : StateOk s) (hne : s.phase ≠ .idle) : s.host.busy = true := by
  obtain ⟨⟨-, -, -, -, -, -, -, -, -, hidle, -⟩, -⟩ := h
  exact eq_true_of_ne_false fun hb => hne (hidle.1 hb)

end

/-- By the stage of the control point, and in a loop by what is left of it. -/
theorem reaches_end {s : State} (h : StateOk s) (hbus : s.bus = []) (hb : s.host.busy = true) :
    ∃ t, Reaches s t ∧ t.host.busy = false ∧ t.host.done = true := by
  obtain ⟨t, ht⟩ := coreStep_continues h
  have hstep : step s = .next t := (step_eq_coreStep hbus).trans ht
  cases (nearer_coreStep h hb).of_eq ht with
  | ended busy done => exact ⟨t, .head hstep (.refl t), busy, done⟩
  | runs p hp hne hless =>
    subst hp
    have hok : StateOk t := stepKeepsStateOk s t h hstep
    obtain ⟨u, hu, hend⟩ := reaches_end hok ((coreStep_bus ht).trans hbus) (hok.busy_of_phase hne)
    exact ⟨u, .head hstep hu, hend⟩
termination_by (s.phase.stage, leftAt s.phase s)
decreasing_by exact Prod.lex_def.2 hless

/-- Settles O58: every step of the core brings the command nearer to its end, and stays inside the invariant. -/
theorem everyCommandEnds : Obligations.EveryCommandEnds := fun _ => reaches_end

end Sys2Proof.Machine
end

section
/-! SUPPORT. Reset while anything runs (70_reset_and_hazards.md R330, R331). -/

namespace Sys2Proof.Machine

/-- Settles O54: a reset is served before the core, whatever the core is at, and takes nothing of the command over. -/
theorem resetAbandonsTheCommand : Obligations.ResetAbandonsTheCommand := fun _ _ => step_reset

end Sys2Proof.Machine
end
